-- ==== Sys2Proof/Word.lean ====
section
/-! DEFINITION. The word types of OB-SWD (00_scope.md R10, R14). -/

namespace Sys2Proof

/-- A 32-bit value: a target address, a register value, a data word (R10, R14). -/
abbrev Word := BitVec 32

/-- A byte of `BUF` or of the code blob (R36, R39), or a command opcode (R26). -/
abbrev Byte := BitVec 8

/-- The three acknowledge bits, the first sampled in bit 0 (30_encoding.md R95). -/
abbrev Ack := BitVec 3

/-- The 4-bit TransferRequest code `req` (30_encoding.md R101). -/
abbrev Req := BitVec 4

/-- The direction of the data line, `LINE.DIR` (10_state.md R22). -/
inductive Dir where
  /-- OB-SWD drives the line: `SWDIO_OE = 1`. -/
  | output
  /-- The line is released: `SWDIO_OE = 0`. -/
  | input
deriving DecidableEq, Repr

end Sys2Proof
end

