-- ==== Sys2Proof/Config.lean ====
section
/-! DEFINITION. The configuration record `CFG` (00_scope.md R9, 10_state.md R35) and the free values
of the model: constants without a body, of which no proof can know a value. -/

namespace Sys2Proof

/-- The entry points whose return value `CFG.RET_OK` judges (44_flash_runtime.md R247). -/
inductive EntryPoint where
  | init | uninit | programPage | eraseSector | eraseChip | verify | setRdp
deriving DecidableEq, Repr

/-- The level the line shows at a sampling point that `lineIn` does not give (R12, R16 `sample()`).
FREE VALUE, log 3. -/
opaque Config.lineLevel : Nat → Bool

/-- A result register that R344 leaves unspecified after a failure. FREE VALUE, log 11. -/
opaque Config.freeWord : Nat → Word

/-- A byte of `BUF` that R212 leaves unspecified after a failed read. FREE VALUE, log 12. -/
opaque Config.freeByte : Nat → Byte

/-- The predicates `CFG.RET_OK` may be set to besides the default: the `k`-th is uninterpreted (R9 "any
total predicate"). FREE VALUE, log 10. -/
opaque Config.retOk : Nat → EntryPoint → Word → Bool

/-- `CFG.RET_OK` as plain data (log 10): the default of R9 or one of the uninterpreted predicates. -/
inductive RetOk where
  /-- `r0 == 0`, the default of R9. -/
  | isZero
  /-- The predicate `Config.retOk k`. -/
  | custom (k : Nat)
deriving DecidableEq, Repr

/-- The configuration record `CFG`: the fields of R9 in the table's order. A value that hardware counts
or indexes with is a `Nat`; a value that goes over the wire or is compared with one is a `Word`. -/
structure Cfg where
  turnaround : Nat
  retry : Nat
  regrdyPolls : Nat
  syscallPolls : Nat
  pwrupPolls : Nat
  haltPolls : Nat
  debugenRetries : Nat
  softReset : Bool
  resetDelay : Nat
  lineResetClocks : Nat
  switchSeq : List Bool
  lineIdleClocks : Nat
  blockMax : Nat
  memApsel : BitVec 8
  cswWord : Word
  cswByte : Word
  dpIdcode : Word
  dpAbort : Word
  dpCtrlstat : Word
  dpSelect : Word
  dpRdbuff : Word
  apCsw : Word
  apTar : Word
  apDrw : Word
  dhcsr : Word
  dcrsr : Word
  dcrdr : Word
  demcr : Word
  aircr : Word
  dbgkey : Word
  cDebugen : Nat
  cHalt : Nat
  sRegrdy : Nat
  sHalt : Nat
  regwnr : Nat
  vcCorereset : Nat
  aircrReset : Word
  stickyerr : Nat
  wdataerr : Nat
  pwrReq : Word
  pwrAck : Word
  abortClear : Word
  xpsrThumb : Word
  retOk : RetOk
  bufSize : Nat
  sectorMax : Nat
  quarterDelay : Nat
deriving DecidableEq, Repr

/-- The bits of a word, least significant first: the wire order of R15, used for the default of
`CFG.SWITCH_SEQ` ("16 bits, value 0xE79E sent least significant bit first"). -/
def Config.switchDefault : List Bool :=
  (List.range 16).map (fun i => (0xE79E#16).getLsbD i)

/-- The reset value of the `CFG` bank: the defaults of R9 (R35, R44). DESIGN CHOICE (log 8) for the
fields R9 calls OPEN: `haltPolls`, `debugenRetries`, `resetDelay`, `bufSize`, `sectorMax`,
`quarterDelay`. -/
def Config.default : Cfg where
  turnaround := 1
  retry := 10
  regrdyPolls := 100
  syscallPolls := 1000000
  pwrupPolls := 100
  haltPolls := 1
  debugenRetries := 1
  softReset := false
  resetDelay := 0
  lineResetClocks := 50
  switchSeq := Config.switchDefault
  lineIdleClocks := 2
  blockMax := 1024
  memApsel := 0
  cswWord := 0x23000052
  cswByte := 0x23000050
  dpIdcode := 0x0
  dpAbort := 0x0
  dpCtrlstat := 0x4
  dpSelect := 0x8
  dpRdbuff := 0xC
  apCsw := 0x00
  apTar := 0x04
  apDrw := 0x0C
  dhcsr := 0xE000EDF0
  dcrsr := 0xE000EDF4
  dcrdr := 0xE000EDF8
  demcr := 0xE000EDFC
  aircr := 0xE000ED0C
  dbgkey := 0xA05F0000
  cDebugen := 0
  cHalt := 1
  sRegrdy := 16
  sHalt := 17
  regwnr := 16
  vcCorereset := 0
  aircrReset := 0x05FA0004
  stickyerr := 5
  wdataerr := 7
  pwrReq := 0x50000000
  pwrAck := 0xA0000000
  abortClear := 0x0000001E
  xpsrThumb := 0x01000000
  retOk := .isZero
  bufSize := 1024
  sectorMax := 16
  quarterDelay := 0

end Sys2Proof
end

