-- ==== Sys2Proof/Syntax.lean ====
section
/-! DEFINITION. The instructions: one constructor for each row of spec/opcode_table.json. A command
carries the operands it takes from `ARG[0..4]` (30_encoding.md R103, R105); a wire row carries none. -/

namespace Sys2Proof

/-- The five operand registers `ARG[0..4]` (10_state.md R26). -/
structure Args where
  a0 : Word
  a1 : Word
  a2 : Word
  a3 : Word
  a4 : Word
deriving DecidableEq, Repr

/-- The 38 commands of R104, the 16 request headers of R94 and the 3 acknowledges of R96. -/
inductive Instr where
  -- U1, bit operations (R124 to R127)
  | clockPulse
  | setDir (d : Dir)
  | writeBit (b : Bool)
  | readBit
  -- U1, transfers and register operations (R141 to R176)
  | transfer (req : Req) (wdata : Word)
  | transferRetry (req : Req) (wdata : Word)
  | readDp (addr : Word)
  | writeDp (addr value : Word)
  | readAp (apaddr : Word)
  | writeAp (apaddr value : Word)
  | sessionInit
  -- U2, target memory (R184 to R206)
  | readWord (addr : Word)
  | writeWord (addr value : Word)
  | readByte (addr : Word)
  | writeByte (addr : Word) (value : Byte)
  | readBlock (addr buf size : Word)
  | writeBlock (addr buf size : Word)
  | readMemory (addr buf size : Word)
  | writeMemory (addr buf size : Word)
  -- U2, target core registers (R224 to R232)
  | readCoreReg (n : Word)
  | writeCoreReg (n value : Word)
  | writeDebugState
  -- U3, flash runtime (R244 to R262)
  | faInit (base : Word)
  | faUninit
  | faProgramPage (addr buf len : Word)
  | faEraseSector (addr : Word)
  | faEraseChip
  | faVerify (addr size crc : Word)
  | faSetRdp
  | faSectorIsBoundary (addr : Word)
  | faSyscall (entry a1 a2 a3 a4 : Word)
  -- U4, lifecycle (R282 to R291)
  | lcConnect
  | lcPowerUp
  | lcResetHalt
  | lcResetRun
  | lcHalt
  | lcRun
  | lcSoftResetHalt
  -- wire request headers (R94): target, direction, register byte address
  | reqDpWr0
  | reqApWr0
  | reqDpRd0
  | reqApRd0
  | reqDpWr4
  | reqApWr4
  | reqDpRd4
  | reqApRd4
  | reqDpWr8
  | reqApWr8
  | reqDpRd8
  | reqApRd8
  | reqDpWrC
  | reqApWrC
  | reqDpRdC
  | reqApRdC
  -- wire acknowledges (R96)
  | ackOk
  | ackWait
  | ackFault
deriving DecidableEq, Repr

end Sys2Proof
end

