-- ==== Sys2Proof/Machine/Operands.lean ====
section
/-! DEFINITION. Operand tests and operand assembly: the request code and header (30_encoding.md R91 to
R93, R101), address forms and alignment (20_memory.md R62, R70), byte lanes and selector words (R102),
words as bit lists (R15, R97, R98). -/

namespace Sys2Proof.Machine

/-! ### Operand tests -/

/-- A DP register address is one of 0x0, 0x4, 0x8, 0xC (R70, R155). -/
def dpAddrOk (a : Word) : Bool := a = 0x0 || a = 0x4 || a = 0x8 || a = 0xC

/-- An AP address has `apaddr[23:8] = 0` and `apaddr[1:0] = 0` (R62, R70, R155). -/
def apAddrOk (a : Word) : Bool := a &&& 0x00FFFF03 = 0

/-- `addr[1:0] = 0` (R70). -/
def wordAligned (a : Word) : Bool := a &&& 3 = 0

/-- The address and size part of the block precondition: a word-aligned address and a size that is a
nonzero multiple of 4 (R70, R196, R200). -/
def blockShapeOk (addr size : Word) : Bool := wordAligned addr && size != 0 && size &&& 3 = 0

/-- A core-register index is at most 16 (R70, R221). -/
def coreRegOk (n : Word) : Bool := decide (n.toNat ≤ 16)

/-- The range `off .. off + len - 1` lies in a buffer of `bufSize` bytes, computed as integers (R214b). -/
def bufRangeOk (bufSize : Nat) (off len : Word) : Bool := decide (off.toNat + len.toNat ≤ bufSize)

/-! ### The TransferRequest code and the request header -/

/-- `req[0]`: 1 = AP (R101). -/
def reqAp (r : Req) : Bool := r.getLsbD 0

/-- `req[1]`: 1 = read (R101). -/
def reqRead (r : Req) : Bool := r.getLsbD 1

/-- `req = APnDP | RnW << 1 | (a & 0xC)` for the register at byte address `a` (R101). -/
def reqCode (ap read : Bool) (a : Word) : Req :=
  (if ap then 1#4 else 0#4) ||| (if read then 2#4 else 0#4) ||| (a &&& 0xC).setWidth 4

/-- The request parity: the exclusive-or of APnDP, RnW, A2 and A3 (R93). -/
def reqParity (r : Req) : Bool := r.getLsbD 0 ^^ r.getLsbD 1 ^^ r.getLsbD 2 ^^ r.getLsbD 3

/-- Format REQ in wire order: Start 1, APnDP, RnW, A2, A3, Parity, Stop 0, Park 1 (R91). -/
def headerBits (r : Req) : List Bool :=
  [true, r.getLsbD 0, r.getLsbD 1, r.getLsbD 2, r.getLsbD 3, reqParity r, false, true]

/-- The value a bit list stands for, its first element least significant (R15, R92, R95). -/
def natOfBits : List Bool → Nat
  | [] => 0
  | b :: bs => b.toNat + 2 * natOfBits bs

/-- The request as a byte: wire index `i` is bit `i` (R92). -/
def headerByte (r : Req) : Byte := BitVec.ofNat 8 (natOfBits (headerBits r))

/-! ### Words as bit lists -/

/-- A word in wire order, least significant bit first (R15, R67, R97). -/
def wordBits (v : Word) : List Bool := (List.range 32).map (fun i => v.getLsbD i)

/-- The word of 32 sampled bits, the first sampled least significant (R67, R141). -/
def wordOfBits (bs : List Bool) : Word := BitVec.ofNat 32 (natOfBits bs)

/-- The three sampled acknowledge bits, the first in bit 0 (R95). -/
def ackOfBits (bs : List Bool) : Ack := BitVec.ofNat 3 (natOfBits bs)

/-- The exclusive-or of a list of bits. -/
def parityOf : List Bool → Bool
  | [] => false
  | b :: bs => b ^^ parityOf bs

/-- `parity32(v)`: 1 when `v` has an odd number of one bits (R14, R98). -/
def parity32 (v : Word) : Bool := parityOf (wordBits v)

/-- Format DATA: the 32 data bits, then the parity bit (R97, R98). -/
def dataBits (v : Word) : List Bool := wordBits v ++ [parity32 v]

/-! ### AP addresses, byte lanes, selector words -/

/-- The `SELECT` value an AP address needs: `apaddr & 0xFF0000F0` (R62, R102a). -/
def selectOf (apaddr : Word) : Word := apaddr &&& 0xFF0000F0

/-- `apaddr[31:24]`, the AP number (R62). -/
def apselOf (apaddr : Word) : BitVec 8 := (apaddr >>> 24).setWidth 8

/-- The AP address of register `reg` of the memory AP: `zext_32(CFG.MEM_APSEL) << 24 | reg` (R181). -/
def memAp (c : Cfg) (reg : Word) : Word := (c.memApsel.setWidth 32 <<< 24) ||| reg

/-- The byte-lane shift `(a & 3) * 8` (R68, R102b). -/
def laneShift (a : Word) : Nat := (a &&& 3).toNat * 8

/-- A byte in its lane, zeros elsewhere: `zext_32(b) << s` (R102b, R192). -/
def laneWord (a : Word) (b : Byte) : Word := b.setWidth 32 <<< laneShift a

/-- The byte in the lane of `a`: `(w >> s)[7:0]` (R102b, R190). -/
def laneByte (a : Word) (w : Word) : Byte := (w >>> laneShift a).setWidth 8

/-- The selector word for a read of core register `n` (R102c). -/
def selectorRead (n : Word) : Word := n

/-- The selector word for a write of core register `n`: `zext_32(n) | 1 << CFG.REGWNR` (R102c). -/
def selectorWrite (c : Cfg) (n : Word) : Word := n ||| (1#32 <<< c.regwnr)

/-- The byte of a word at lane `k` (R66). -/
def byteOf (v : Word) (k : Nat) : Byte := (v >>> (8 * k)).setWidth 8

/-- Four bytes as a word, the first least significant (R66). -/
def wordOfBytes (b0 b1 b2 b3 : Byte) : Word :=
  b0.setWidth 32 ||| (b1.setWidth 32 <<< 8) ||| (b2.setWidth 32 <<< 16) ||| (b3.setWidth 32 <<< 24)

/-- `1 << i` in a 32-bit word: a one-bit field of a target register (R9). -/
def bitMask (i : Nat) : Word := 1#32 <<< i

end Sys2Proof.Machine
end

