-- ==== Sys2Proof/Machine/State.lean ====
section
/-! DEFINITION. The state of OB-SWD as plain data (10_state.md R20 to R45): every piece of state the
spec names, the model's own inputs and counters, the state after reset, and the reasons a step stops. -/

namespace Sys2Proof.Machine

/-! ### Pins, trace and the oracle -/

/-- `LINE`: what OB-SWD last did to the pins (R22). -/
structure Line where
  /-- `LINE.DIR`: output when OB-SWD drives the data line (`SWDIO_OE = 1`). -/
  dir : Dir
  /-- `LINE.DOUT`: the level on `SWDIO_OUT`. -/
  dout : Bool
  /-- `LINE.CLK`: the level of `SWCLK`. -/
  clk : Bool
  /-- `LINE.NRESET`: the level of `nRESET`; 1 = released. -/
  nreset : Bool
deriving DecidableEq, Repr

/-- An event of `TRACE` (R23). -/
inductive Event where
  /-- One clock period: driven at level `b`, or released and showing `b` at the sampling point. -/
  | slot (d : Dir) (b : Bool)
  | resetAssert
  | resetRelease
deriving DecidableEq, Repr

/-- The pins, what has gone over them, and what the line will show. -/
@[ext]
structure Wire where
  line : Line
  /-- `TRACE`, oldest event first (R23). -/
  trace : List Event
  /-- The MODEL's own: the levels the line shows at the coming sampling points (R12, log 3). -/
  lineIn : List Bool
  /-- The MODEL's own: the argument of the next free level, once `lineIn` is empty (log 3). -/
  draws : Nat
deriving DecidableEq, Repr

/-! ### The sequencer -/

/-- `PHASE` (R27). -/
inductive Phase where
  | idle | req | trn1 | ack | trn2 | wdata | rdata | trn3 | backoff
deriving DecidableEq, Repr

/-- The sequencer registers (R27 to R29) and the request in progress. -/
@[ext]
structure Seq where
  phase : Phase
  /-- `BITCNT`: slots clocked within a phase (R28). -/
  bitcnt : BitVec 6
  /-- `SHIFT`: the word being sent or received (R28). -/
  shift : Word
  /-- `PAR`: the exclusive-or of the bits covered by the parity bit (R28). -/
  par : Bool
  /-- `ACKSR`: the acknowledge bits as sampled (R28). -/
  acksr : Ack
  /-- The TransferRequest of the transfer in progress (R140, R141; log 15). -/
  xreq : Req
  /-- The write data of the transfer in progress (R141; log 15). -/
  xwdata : Word
  /-- `RETRYCNT`: attempts made under the wait-retry loop (R29, R150). -/
  retrycnt : BitVec 8
deriving DecidableEq, Repr

/-! ### Status -/

/-- The result of a transfer (R30, R341). -/
inductive AckResult where
  | ok | wait | fault | noReply | parityError
deriving DecidableEq, Repr

/-- The failure kinds of R343, with `none` for success. -/
inductive Cause where
  | none | ack | precond | regrdyTimeout | sticky | haltTimeout | retval | unsupported | lifecycle
  | pwrupTimeout | illegalOp
deriving DecidableEq, Repr

/-- The status codes of the flash runtime (R350). -/
inductive FlashStatus where
  | ok | initFailed | uninitFailed | writeFailed | eraseSectorFailed | eraseChipFailed | verifyFailed
  | setRdpFailed | unsupported | syscallFailed
deriving DecidableEq, Repr

/-- The fields of `STATUS` (R30). The register as 16 bits is `Status.word` (Flags.lean). -/
@[ext]
structure Status where
  ackraw : Ack
  result : AckResult
  retryx : Bool
  fail : Bool
  faxst : FlashStatus
  illegal : Bool
  busy : Bool
deriving DecidableEq, Repr

/-! ### The mirror -/

/-- `MIR.SELECT` and `MIR.CSW` (R32, R33). -/
@[ext]
structure Mirror where
  selectValid : Bool
  selectVal : Word
  cswValid : Bool
  cswApsel : BitVec 8
  cswVal : Word
deriving DecidableEq, Repr

/-- What the transfers of U1 act on: the pins, the sequencer, `STATUS` and the mirror. -/
@[ext]
structure Link where
  wire : Wire
  seq : Seq
  status : Status
  mir : Mirror
deriving DecidableEq, Repr

/-! ### Counters, staging bank, descriptor -/

/-- The loop registers of R29 above the wait-retry loop. -/
@[ext]
structure Loops where
  pollcnt : Word
  wordcnt : Word
  addrcur : Word
  lencur : Word
  bufcur : Word
deriving DecidableEq, Repr

/-- `DS`, the debug-state staging bank (R24). -/
@[ext]
structure Ds where
  r0 : Word
  r1 : Word
  r2 : Word
  r3 : Word
  r9 : Word
  r13 : Word
  r14 : Word
  r15 : Word
  xpsr : Word
deriving DecidableEq, Repr

/-- The nine names of `DS` (R24). -/
inductive DsReg where
  | r0 | r1 | r2 | r3 | r9 | r13 | r14 | r15 | xpsr
deriving DecidableEq, Repr

/-- An optional entry point, the spec's `{present, addr}` (R36). -/
structure Entry where
  present : Bool
  addr : Word
deriving DecidableEq, Repr

/-- A sector-info entry `{size, start}` (R36, R37). -/
structure Sector where
  size : Word
  start : Word
deriving DecidableEq, Repr

/-- The FlashAlgorithm descriptor (R36). `FA.CODE_SIZE` and `FA.NSECT` are the lengths of `code` and
`sect` (log 6). -/
structure Descriptor where
  init : Word
  uninit : Entry
  eraseChip : Word
  eraseSector : Word
  programPage : Word
  verify : Entry
  setRdp : Entry
  bkpt : Word
  staticBase : Word
  stackPtr : Word
  progBuf : Word
  progBufSize : Word
  codeAddr : Word
  /-- `FA.CODE[i]`, in ascending address order. -/
  code : List Byte
  /-- `FA.SECT[i]`. -/
  sect : List Sector
deriving DecidableEq, Repr

/-- The bank `FA`: `FA.VALID` and the latched descriptor (R36). -/
structure FaBank where
  valid : Bool
  desc : Descriptor
deriving DecidableEq, Repr

/-! ### Memory -/

/-- `BUF` as (offset, byte) pairs, offsets strictly rising, no byte equal to what an unlisted offset reads
as (R39, log 7). -/
abbrev Memory := List Host.Cell

/-! ### The host -/

/-- What the host can do to OB-SWD (R26, R35, R36, R39, R355, R380; log 1). Reading a register changes
nothing and is no action. -/
inductive HostAction where
  /-- Write `CMD.OP` (R26). -/
  | writeOp (op : Byte)
  /-- Write `ARG[k]` (R26). -/
  | writeArg (k : Fin 5) (v : Word)
  /-- Write a register of `DS` (R24). -/
  | writeDs (r : DsReg) (v : Word)
  /-- Write a byte of `BUF` (R39). -/
  | writeBuf (off : Nat) (b : Byte)
  /-- Write registers of the `CFG` bank: `c` is the bank's contents after the write (R35). -/
  | writeCfg (c : Cfg)
  /-- Put a descriptor on the descriptor input (R36, R105). -/
  | present (d : Descriptor)
  /-- Assert and release the hardware reset `RESET` (R380; taken between two steps, log 25). -/
  | assertReset
deriving DecidableEq, Repr

/-! ### The state -/

/-- The state of OB-SWD (R20). -/
@[ext]
structure State where
  /-- Pins, trace, sequencer, `STATUS`, mirror. -/
  link : Link
  /-- The loop registers (R29). -/
  loops : Loops
  /-- `DS` (R24). -/
  ds : Ds
  /-- `RET` (R25). -/
  ret : Word
  /-- `CMD.OP` (R26). -/
  cmdOp : Byte
  /-- `ARG[0..4]` (R26). -/
  arg : Args
  /-- `RES[0]` (R26). -/
  res0 : Word
  /-- `RES[1]` (R26). -/
  res1 : Word
  /-- `CAUSE` (R31). -/
  cause : Cause
  /-- `FA` (R36). -/
  fa : FaBank
  /-- The descriptor input (R36, R105). -/
  descIn : Descriptor
  /-- `BUF` (R39). -/
  buf : Memory
  /-- `CFG` (R9, R35). -/
  cfg : Cfg
  /-- The MODEL's own: host actions waiting (log 1). -/
  host : List HostAction
  /-- The MODEL's own: the argument of the next free word or byte (logs 11 and 12). -/
  free : Nat
deriving DecidableEq, Repr

/-! ### Reset (R44) -/

/-- The absent entry, the reset value of an optional entry point (log 6). -/
def Entry.reset : Entry := ⟨false, 0⟩

/-- The all-zero, empty descriptor (DESIGN CHOICE, log 6). -/
def Descriptor.reset : Descriptor where
  init := 0
  uninit := Entry.reset
  eraseChip := 0
  eraseSector := 0
  programPage := 0
  verify := Entry.reset
  setRdp := Entry.reset
  bkpt := 0
  staticBase := 0
  stackPtr := 0
  progBuf := 0
  progBufSize := 0
  codeAddr := 0
  code := []
  sect := []

/-- The idle pins of R44: data driven high, clock high, `nRESET` released. -/
def Line.reset : Line := ⟨.output, true, true, true⟩

/-- R44: `LINE` and `TRACE`; the oracle's list is empty (log 3). -/
def Wire.reset : Wire := ⟨Line.reset, [], [], 0⟩

/-- R44: the sequencer registers. -/
def Seq.reset : Seq := ⟨.idle, 0, 0, false, 0, 0, 0, 0⟩

/-- R44: `STATUS` is 0. -/
def Status.reset : Status := ⟨0, .ok, false, false, .ok, false, false⟩

/-- R44: both valid bits are 0; the value fields are DESIGN CHOICE (log 5). -/
def Mirror.reset : Mirror := ⟨false, 0, false, 0, 0⟩

/-- The reset value of everything the transfers act on. -/
def Link.reset : Link := ⟨Wire.reset, Seq.reset, Status.reset, Mirror.reset⟩

/-- R44: the loop registers. -/
def Loops.reset : Loops := ⟨0, 0, 0, 0, 0⟩

/-- `DS` at reset (DESIGN CHOICE, log 4). -/
def Ds.reset : Ds := ⟨0, 0, 0, 0, 0, 0, 0, 0, 0⟩

/-- OB-SWD right after hardware reset (R44, R380). -/
def State.reset : State where
  link := Link.reset
  loops := Loops.reset
  ds := Ds.reset
  ret := 0
  cmdOp := 0
  arg := ⟨0, 0, 0, 0, 0⟩
  res0 := 0
  res1 := 0
  cause := .none
  fa := ⟨false, Descriptor.reset⟩
  descIn := Descriptor.reset
  buf := []
  cfg := Config.default
  host := []
  free := 0

/-! ### Why a step stops -/

/-- The faults of a step. No instruction raises one. -/
inductive Fault where
  /-- The host wrote `BUF` at an offset that does not exist, `CFG.BUF_SIZE` or above (R39). Raised by the
  host action `writeBuf`. Safe: OB-SWD is given no behaviour there. Log 16. -/
  | bufOffsetAbsent
deriving DecidableEq, Repr

/-- The refusals of a step. No instruction raises one but `notModelled`, which no arm answers. -/
inductive Refusal where
  /-- An instruction without a meaning. Raised by no arm of `exec`: every instruction has its meaning. -/
  | notModelled (mnemonic : String)
  /-- The host wrote `ARG`, `DS`, `BUF`, `CFG` or the descriptor input while `STATUS.BUSY = 1`: "the outcome
  of the operation is unspecified" (R333, R355, R403). Raised by the host actions. Safe. Log 14. -/
  | hostWriteWhileBusy
  /-- The host wrote a `CFG` value outside its legal range, or a field that is a property of the build (R9,
  R385). Raised by the host action `writeCfg`. Safe. Log 9. -/
  | cfgOutOfRange
  /-- The host presented a descriptor with more than `CFG.SECTOR_MAX` sectors or more code bytes than the
  32 bits of `FA.CODE_SIZE` count (R36). Raised by the host action `present`. Safe. Log 16. -/
  | descriptorTooLarge
  /-- `PHASE = REQ` with a byte in `SHIFT` that is none of the sixteen headers: "no other 8-bit pattern is
  ever sent as a request" (R94). Raised by the sequencer; no run reaches it. Safe. Log 2. -/
  | notARequestHeader
deriving DecidableEq, Repr

/-- The outcome of a step of OB-SWD. -/
abbrev Outcome := Host.Outcome State Fault Refusal

end Sys2Proof.Machine
end

