-- ==== Sys2Proof/Machine/Flags.lean ====
section
/-! DEFINITION. The codes of the results, failure kinds and runtime statuses (60_exceptions.md R341, R343,
R350), the register `STATUS` as 16 bits (10_state.md R30), and how the acknowledge bits are read
(30_encoding.md R96). -/

namespace Sys2Proof.Machine

/-- The code of a result in `STATUS.RESULT` (R341). -/
def AckResult.code : AckResult → BitVec 3
  | .ok => 0
  | .wait => 1
  | .fault => 2
  | .noReply => 3
  | .parityError => 4

/-- The code of a failure kind in `CAUSE` (R343). -/
def Cause.code : Cause → BitVec 4
  | .none => 0
  | .ack => 1
  | .precond => 2
  | .regrdyTimeout => 3
  | .sticky => 4
  | .haltTimeout => 5
  | .retval => 6
  | .unsupported => 7
  | .lifecycle => 8
  | .pwrupTimeout => 9
  | .illegalOp => 10

/-- The code of a runtime status in `STATUS.FAXST` (R350). -/
def FlashStatus.code : FlashStatus → BitVec 4
  | .ok => 0
  | .initFailed => 1
  | .uninitFailed => 2
  | .writeFailed => 3
  | .eraseSectorFailed => 4
  | .eraseChipFailed => 5
  | .verifyFailed => 6
  | .setRdpFailed => 7
  | .unsupported => 8
  | .syscallFailed => 9

/-- `STATUS` as the host reads it (R30): bits 15:14 read as 0. -/
def Status.word (s : Status) : BitVec 16 :=
  s.ackraw.setWidth 16 ||| (s.result.code.setWidth 16 <<< 3) ||| (if s.retryx then 1 <<< 6 else 0)
    ||| (if s.fail then 1 <<< 7 else 0) ||| (s.faxst.code.setWidth 16 <<< 8)
    ||| (if s.illegal then 1 <<< 12 else 0) ||| (if s.busy then 1 <<< 13 else 0)

/-- What a frame does after its acknowledge (R27, R96, R100). -/
inductive Tail where
  /-- OK: the data phase follows. -/
  | data
  /-- WAIT: one turnaround. -/
  | wait
  /-- FAULT: one turnaround. -/
  | fault
  /-- Malformed: the back-off. -/
  | backoff
deriving DecidableEq, Repr

/-- The acknowledge values: 1 OK, 2 WAIT, 4 FAULT, every other value malformed (R96). -/
def ackTail (v : Ack) : Tail :=
  if v = 1 then .data else if v = 2 then .wait else if v = 4 then .fault else .backoff

/-- The predicate `CFG.RET_OK(op, r0)` (R9, R247; log 10). -/
def retOk (c : Cfg) (e : EntryPoint) (r0 : Word) : Bool :=
  match c.retOk with
  | .isZero => r0 = 0
  | .custom k => Config.retOk k e r0

/-- A host write to the `CFG` bank keeps every field in its legal range (R9; log 9). Poll caps fit the
32 bits of `POLLCNT` (R214f), bit positions lie in a word. -/
def cfgLegal (c : Cfg) : Bool :=
  (1 ≤ c.turnaround && c.turnaround ≤ 4) && (1 ≤ c.retry && c.retry ≤ 255)
  && (1 ≤ c.regrdyPolls && c.regrdyPolls < 2 ^ 32) && (1 ≤ c.syscallPolls && c.syscallPolls < 2 ^ 32)
  && (1 ≤ c.pwrupPolls && c.pwrupPolls < 2 ^ 32) && (1 ≤ c.haltPolls && c.haltPolls < 2 ^ 32)
  && 1 ≤ c.debugenRetries && 50 ≤ c.lineResetClocks
  && (4 ≤ c.blockMax && c.blockMax &&& (c.blockMax - 1) = 0)
  && dpAddrOk c.dpIdcode && dpAddrOk c.dpAbort && dpAddrOk c.dpCtrlstat && dpAddrOk c.dpSelect
  && dpAddrOk c.dpRdbuff
  && c.apCsw &&& 0xFFFFFF03 = 0 && c.apTar &&& 0xFFFFFF03 = 0 && c.apDrw &&& 0xFFFFFF03 = 0
  && wordAligned c.dhcsr && wordAligned c.dcrsr && wordAligned c.dcrdr && wordAligned c.demcr
  && wordAligned c.aircr
  && c.cDebugen < 32 && c.cHalt < 32 && c.sRegrdy < 32 && c.sHalt < 32 && c.regwnr < 32
  && c.vcCorereset < 32 && c.stickyerr < 32 && c.wdataerr < 32
  && 4 ≤ c.bufSize && 1 ≤ c.sectorMax

end Sys2Proof.Machine
end

