-- ==== Sys2Proof/Machine/Memory.lean ====
section
/-! DEFINITION. The buffer memory `BUF` (10_state.md R39): the canonical form, reading and writing a byte,
and words in little-endian order (20_memory.md R66). -/

namespace Sys2Proof.Machine

/-- What a byte of `BUF` that nothing has written reads as. DESIGN CHOICE (log 7): R44 leaves it
unspecified. -/
def bufUnwritten : Byte := 0

/-- The canonical form: offsets strictly rising from `lo`, no byte equal to an unwritten one. -/
def memoryWfFrom : Nat → Memory → Bool
  | _, [] => true
  | lo, (k, v) :: m => decide (lo ≤ k) && v != bufUnwritten && memoryWfFrom (k + 1) m

/-- The canonical form of `BUF`. -/
def Memory.wf (m : Memory) : Bool := memoryWfFrom 0 m

/-- The byte at an offset. -/
def Memory.read : Memory → Nat → Byte
  | [], _ => bufUnwritten
  | (k, v) :: m, a => if k = a then v else Memory.read m a

/-- Put a byte at an offset, keeping the canonical form. -/
def Memory.write : Memory → Nat → Byte → Memory
  | [], a, v => if v = bufUnwritten then [] else [(a, v)]
  | (k, w) :: m, a, v =>
    if k < a then (k, w) :: Memory.write m a v
    else if k = a then (if v = bufUnwritten then m else (a, v) :: m)
    else (if v = bufUnwritten then (k, w) :: m else (a, v) :: (k, w) :: m)

/-- Put a list of bytes at an offset and the ones after it. -/
def Memory.writeBytes : Memory → Nat → List Byte → Memory
  | m, _, [] => m
  | m, a, b :: bs => Memory.writeBytes (m.write a b) (a + 1) bs

/-- `MemRead(o, 4)` over a source of bytes (R16, R66). -/
def wordAt (src : Nat → Byte) (o : Nat) : Word :=
  wordOfBytes (src o) (src (o + 1)) (src (o + 2)) (src (o + 3))

/-- `MemWrite(o, 4, v)` (R16, R66). -/
def Memory.writeWord (m : Memory) (o : Nat) (v : Word) : Memory :=
  m.writeBytes o [byteOf v 0, byteOf v 1, byteOf v 2, byteOf v 3]

end Sys2Proof.Machine
end

