-- ==== Sys2Proof/Machine/Ops.lean ====
section
/-! DEFINITION. The shared operations: one update for each field, the bit transport (40_bit_transport.md),
the pseudocode's `raise` (60_exceptions.md R342) and the start and end of an operation (R353, R381), which
is what takes the place of exception entry in this hardware. -/

namespace Sys2Proof.Machine

/-! ### Updates: one for each field -/

def Link.setWire (l : Link) (x : Wire) : Link := { l with wire := x }
def Link.setSeq (l : Link) (x : Seq) : Link := { l with seq := x }
def Link.setStatus (l : Link) (x : Status) : Link := { l with status := x }
def Link.setMir (l : Link) (x : Mirror) : Link := { l with mir := x }

def State.setLink (s : State) (x : Link) : State := { s with link := x }
def State.setLoops (s : State) (x : Loops) : State := { s with loops := x }
def State.setDs (s : State) (x : Ds) : State := { s with ds := x }
def State.setRet (s : State) (x : Word) : State := { s with ret := x }
def State.setCmdOp (s : State) (x : Byte) : State := { s with cmdOp := x }
def State.setArg (s : State) (x : Args) : State := { s with arg := x }
def State.setRes0 (s : State) (x : Word) : State := { s with res0 := x }
def State.setRes1 (s : State) (x : Word) : State := { s with res1 := x }
def State.setCause (s : State) (x : Cause) : State := { s with cause := x }
def State.setFa (s : State) (x : FaBank) : State := { s with fa := x }
def State.setDescIn (s : State) (x : Descriptor) : State := { s with descIn := x }
def State.setBuf (s : State) (x : Memory) : State := { s with buf := x }
def State.setCfg (s : State) (x : Cfg) : State := { s with cfg := x }
def State.setHost (s : State) (x : List HostAction) : State := { s with host := x }
def State.setFree (s : State) (x : Nat) : State := { s with free := x }

/-! ### Bit transport: one slot (R121) -/

/-- The level the line shows at the sampling point, `sample()` (R16; log 3). -/
def Wire.sample (w : Wire) : Bool :=
  match w.lineIn with
  | b :: _ => b
  | [] => Config.lineLevel w.draws

/-- The oracle after one sample (log 3). -/
def Wire.consume (w : Wire) : Wire :=
  match w.lineIn with
  | _ :: bs => { w with lineIn := bs }
  | [] => { w with draws := w.draws + 1 }

/-- Append an event to `TRACE` (R23). -/
def Wire.emit (w : Wire) (e : Event) : Wire := { w with trace := w.trace ++ [e] }

/-- One clock period (R121, R124): its level, and the pins after it. -/
def Wire.slot (w : Wire) : Bool × Wire :=
  match w.line.dir with
  | .output => (w.line.dout, w.emit (.slot .output w.line.dout))
  | .input => (w.sample, w.consume.emit (.slot .input w.sample))

/-- `SET_DIR(d)` (R125): no slot. -/
def Wire.setDir (w : Wire) (d : Dir) : Wire := { w with line := { w.line with dir := d } }

/-- `LINE.DOUT <- b`. -/
def Wire.setDout (w : Wire) (b : Bool) : Wire := { w with line := { w.line with dout := b } }

/-- `CLOCK_PULSE()` (R124). -/
def Wire.clockPulse (w : Wire) : Wire := w.slot.2

/-- `WRITE_BIT(b)` (R126). -/
def Wire.writeBit (w : Wire) (b : Bool) : Wire := (w.setDout b).slot.2

/-- `READ_BIT()` (R127). -/
def Wire.readBit (w : Wire) : Bool × Wire := w.slot

/-- `n` times `CLOCK_PULSE`. -/
def Wire.clockPulses (w : Wire) : Nat → Wire
  | 0 => w
  | n + 1 => Wire.clockPulses w.clockPulse n

/-- `WRITE_BIT` for each bit of a list in order. -/
def Wire.writeBits (w : Wire) : List Bool → Wire
  | [] => w
  | b :: bs => Wire.writeBits (w.writeBit b) bs

/-- `n` times `READ_BIT`: the bits in the order sampled, and the pins after. -/
def Wire.readBits (w : Wire) : Nat → List Bool × Wire
  | 0 => ([], w)
  | n + 1 =>
    let r := w.readBit
    let rest := Wire.readBits r.2 n
    (r.1 :: rest.1, rest.2)

/-! ### Operations and failures -/

/-- An operation of the pseudocode: it ends with a value or with `raise K` (R342), and in both cases with the
state the steps before it produced: nothing is undone (R342). -/
abbrev Op (α : Type) := EStateM Cause State α

/-- `raise F_PRECOND` unless the test holds (R345). -/
def require (b : Bool) : Op Unit := if b then pure () else throw .precond

/-- A function of the configuration and of what the transfers act on, as an operation. -/
def linkOp {α : Type} (f : Cfg → Link → α × Link) : Op α :=
  fun s => .ok (f s.cfg s.link).1 (s.setLink (f s.cfg s.link).2)

/-- A change of the state that cannot fail. -/
def modifyOp (f : State → State) : Op Unit := fun s => .ok () (f s)

/-! ### Start and end of an operation -/

/-- The start of a legal operation: `STATUS.BUSY <- 1`, `STATUS.ILLEGAL <- 0` (R381). -/
def State.beginOp (s : State) : State :=
  s.setLink (s.link.setStatus { s.link.status with busy := true, illegal := false })

/-- The end of every operation: `CAUSE`, `STATUS.FAIL`, and last `STATUS.BUSY <- 0` (R353). With a failure
kind it is what a failure is in this hardware: nothing is saved, no mode changes, control goes nowhere. -/
def State.endOp (s : State) (c : Cause) : State :=
  (s.setCause c).setLink
    (s.link.setStatus { s.link.status with fail := decide (c ≠ .none), busy := false })

/-- `STATUS.FAXST` (R350). -/
def State.setFaxst (s : State) (f : FlashStatus) : State :=
  s.setLink (s.link.setStatus { s.link.status with faxst := f })

/-- Run an operation as a command: start, body, results (R353 writes `RES` and `FAXST` before `CAUSE`), end. -/
def command {α : Type} (body : Op α) (onOk : α → State → State) (onFail : Cause → State → State)
    (s : State) : State :=
  match body s.beginOp with
  | .ok v t => (onOk v t).endOp .none
  | .error c t => (onFail c t).endOp c

/-- The result registers after a failure whose rule gives them no value: any value (R344; log 11). -/
def State.freeRes (s : State) : State :=
  ((s.setRes0 (Config.freeWord s.free)).setRes1 (Config.freeWord (s.free + 1))).setFree (s.free + 2)

/-- The results of a failed operation: a refused operand changes nothing beyond `STATUS` and `CAUSE`
(R345, 93_implementation_defined.md U20); any other failure leaves `RES` unspecified (R344; log 11). -/
def failRes (c : Cause) (s : State) : State := if c = .precond then s else s.freeRes

/-- No result: `RES` is unchanged (R105). -/
def noResult (_ : Unit) (s : State) : State := s

/-- The result goes to `RES[0]` (R105). -/
def toRes0 (v : Word) (s : State) : State := s.setRes0 v

/-- A command that is no opcode: `STATUS.ILLEGAL <- 1`, `STATUS.FAIL <- 1`, `CAUSE <- F_ILLEGAL_OP`, nothing
else (R106). -/
def State.illegalOp (s : State) : State :=
  (s.setCause .illegalOp).setLink
    (s.link.setStatus { s.link.status with illegal := true, fail := true })

/-! ### BUF -/

/-- `MemWrite(o, 4, v)` (R16). -/
def bufWriteWord (o : Nat) (v : Word) : Op Unit := modifyOp (fun s => s.setBuf (s.buf.writeWord o v))

/-- `BUF[o] <- b`. -/
def bufWriteByte (o : Nat) (b : Byte) : Op Unit := modifyOp (fun s => s.setBuf (s.buf.write o b))

/-- The `n` free bytes from index `k` on. -/
def freeBytes (k n : Nat) : List Byte := (List.range n).map (fun i => Config.freeByte (k + i))

/-- The destination range of a failed read: any value in each byte of it (R212; log 12). -/
def State.freeBuf (s : State) (off len : Nat) : State :=
  (s.setBuf (s.buf.writeBytes off (freeBytes s.free len))).setFree (s.free + len)

/-- The end of a failed read into `BUF` (R212, R344, R345). -/
def failRead (off len : Word) (c : Cause) (s : State) : State :=
  if c = .precond then s else (s.freeBuf off.toNat len.toNat).freeRes

/-! ### Loop registers (R29)

R29 says what they count while their loop runs and that they are not read after it. `RETRYCNT` and `POLLCNT` stand in the
pseudocode (R150, R222, R244, R284, R286). What the others hold once their loop has ended is the model's choice (log 24):
nothing writes them then, so each keeps what its last round left. -/

/-- `POLLCNT <- n` (R222, R244, R284, R286). -/
def setPollcnt (n : Word) : Op Unit := modifyOp (fun s => s.setLoops { s.loops with pollcnt := n })

/-- `POLLCNT <- POLLCNT + 1`. -/
def incPollcnt : Op Unit :=
  modifyOp (fun s => s.setLoops { s.loops with pollcnt := s.loops.pollcnt + 1 })

/-- `WORDCNT`: words remaining in the current block. It is written at each word and is 0 from the last one on (R29; what it
holds after the block is the model's choice, log 24). -/
def setWordcnt (n : Nat) : Op Unit :=
  modifyOp (fun s => s.setLoops { s.loops with wordcnt := BitVec.ofNat 32 n })

/-- `ADDRCUR`, `BUFCUR`, `LENCUR`: running address, buffer offset, remaining length, written at the start of each round of a
walk or of a page (R29). DESIGN CHOICE (log 24), since R29 only calls them not observable after the loop: they are never moved
past the last piece, so they end at its start with `LENCUR` not 0; a size of 0 leaves them as they were; the walk inside a
round of `FA_PROGRAM_PAGE` overwrites the values of the page's own round. -/
def setCursor (a : Word) (o len : Nat) : Op Unit :=
  modifyOp (fun s => s.setLoops { s.loops with
    addrcur := a, bufcur := BitVec.ofNat 32 o, lencur := BitVec.ofNat 32 len })

/-- A bounded poll loop with `extra + 1` polls: read, count, stop when the test holds, `raise` when the last
poll did not show it (R222, R244, R284, R286). A failing read ends the loop with its own failure (R347). -/
def pollLoop (read : Op Word) (done : Word → Bool) (timeout : Cause) : Nat → Op Unit
  | 0 => do
    let w ← read
    incPollcnt
    if done w then pure () else throw timeout
  | extra + 1 => do
    let w ← read
    incPollcnt
    if done w then pure () else pollLoop read done timeout extra

/-- `POLLCNT <- 0`, then at most `cap` polls (R29). -/
def pollUntil (cap : Nat) (read : Op Word) (done : Word → Bool) (timeout : Cause) : Op Unit := do
  setPollcnt 0
  pollLoop read done timeout (cap - 1)

end Sys2Proof.Machine
end

