-- ==== Sys2Proof/Machine/BitTransport.lean ====
section
/-! DEFINITION. The four bit operations as commands (40_bit_transport.md R120 to R128). None can fail. -/

namespace Sys2Proof.Machine

/-- A function of the pins as an operation. -/
def wireOp {α : Type} (f : Wire → α × Wire) : Op α :=
  linkOp (fun _ l => ((f l.wire).1, l.setWire (f l.wire).2))

/-- A one-bit result: bit 0 of `RES[0]`, bits 31:1 zero (R105, R127). -/
def bitResult (b : Bool) (s : State) : State := s.setRes0 (if b then 1 else 0)

/-- `CLOCK_PULSE()` (R124). -/
def execClockPulse (s : State) : Outcome :=
  .next (command (wireOp (fun w => ((), w.clockPulse))) noResult failRes s)

/-- `SET_DIR(d)` (R125). -/
def execSetDir (d : Dir) (s : State) : Outcome :=
  .next (command (wireOp (fun w => ((), w.setDir d))) noResult failRes s)

/-- `WRITE_BIT(b)` (R126). -/
def execWriteBit (b : Bool) (s : State) : Outcome :=
  .next (command (wireOp (fun w => ((), w.writeBit b))) noResult failRes s)

/-- `READ_BIT() -> b` (R127). -/
def execReadBit (s : State) : Outcome :=
  .next (command (wireOp (fun w => w.readBit)) bitResult failRes s)

end Sys2Proof.Machine
end

