-- ==== Sys2Proof/Machine/Frame.lean ====
section
/-! DEFINITION. One transfer on the wire, phase by phase (10_state.md R27, 30_encoding.md R90 to R100,
41_swd_transfer.md R140 to R149), and the meanings of the wire rows: the sixteen request headers and the
three acknowledges. The command `TRANSFER` and the sequencer's single phases are the same functions. -/

namespace Sys2Proof.Machine

/-! ### The datapath registers, slot by slot (R28) -/

/-- `BITCNT <- BITCNT + 1`: one more slot of the phase (R28). -/
def Seq.count (q : Seq) : Seq := { q with bitcnt := q.bitcnt + 1 }

/-- Bit `i` of a register becomes `b`. -/
def putBit {w : Nat} (v : BitVec w) (i : Nat) (b : Bool) : BitVec w :=
  (v &&& ~~~(1#w <<< i)) ||| ((BitVec.ofBool b).setWidth w <<< i)

/-- A slot that carries no bit (R27, R28, R124). -/
def Link.gapSlot (l : Link) : Link := (l.setWire l.wire.clockPulse).setSeq l.seq.count

/-- Drive bit `BITCNT` of `SHIFT`; `PAR` runs over the bits the parity bit covers (R28, R126). -/
def Link.sendSlot (covered : Nat → Bool) (l : Link) : Link :=
  let b := l.seq.shift.getLsbD l.seq.bitcnt.toNat
  (l.setWire (l.wire.writeBit b)).setSeq { l.seq.count with par := l.seq.par ^^ (covered l.seq.bitcnt.toNat && b) }

/-- Drive `PAR` as the parity bit (R28, R98). -/
def Link.sendParity (l : Link) : Link := (l.setWire (l.wire.writeBit l.seq.par)).setSeq l.seq.count

/-- Sample bit `BITCNT` of `SHIFT`; `PAR` runs over it (R28, R127). -/
def Link.receiveSlot (l : Link) : Link :=
  let b := l.wire.readBit
  (l.setWire b.2).setSeq { l.seq.count with
    shift := putBit l.seq.shift l.seq.bitcnt.toNat b.1, par := l.seq.par ^^ b.1 }

/-- Sample bit `BITCNT` of `ACKSR` (R28, R95). -/
def Link.ackSlot (l : Link) : Link :=
  let b := l.wire.readBit
  (l.setWire b.2).setSeq { l.seq.count with acksr := putBit l.seq.acksr l.seq.bitcnt.toNat b.1 }

/-- `n` slots of one kind. -/
def Link.slots (slot : Link → Link) : Nat → Link → Link
  | 0, l => l
  | n + 1, l => Link.slots slot n (slot l)

/-- The slots of one kind that a phase still has before `total` of its slots are clocked, by `BITCNT` (R28). -/
def Link.slotsTo (l : Link) (slot : Link → Link) (total : Nat) : Link :=
  Link.slots slot (total - l.seq.bitcnt.toNat) l

/-! ### Phases -/

/-- Enter a phase: none of its slots is clocked, so `BITCNT` is 0. `WDATA` finds the write data in `SHIFT`, `RDATA` an empty `SHIFT`,
both with `PAR` of no bit yet; `ACK` finds an empty `ACKSR` (R27, R28; log 15). -/
def Seq.enter (q : Seq) (p : Phase) : Seq :=
  match p with
  | .wdata => { q with phase := p, bitcnt := 0, shift := q.xwdata, par := false }
  | .rdata => { q with phase := p, bitcnt := 0, shift := 0, par := false }
  | .ack => { q with phase := p, bitcnt := 0, acksr := 0 }
  | .idle | .req | .trn1 | .trn2 | .trn3 | .backoff => { q with phase := p, bitcnt := 0 }

/-- Enter a phase (R27, R28). -/
def Link.enter (l : Link) (p : Phase) : Link := l.setSeq (l.seq.enter p)

/-- The sequencer as a request starts: the request in progress, its header in `SHIFT`, `PHASE = REQ`, no slot yet (R27, R28). -/
def Seq.startRequest (q : Seq) (r : Req) : Seq :=
  { q with phase := .req, bitcnt := 0, shift := (headerByte r).setWidth 32, par := false, xreq := r }

/-- A transfer starts (R27, R28, R141). -/
def Link.start (l : Link) (r : Req) (wdata : Word) : Link :=
  l.setSeq { l.seq.startRequest r with xwdata := wdata }

/-- The header bits its parity bit covers: APnDP, RnW, A2, A3 (R91, R93). -/
def headerCovered (i : Nat) : Bool := 1 ≤ i && i ≤ 4

/-- Request phase: take the line, drive the eight header bits (R141 step 1, R142). -/
def Link.reqPhase (l : Link) (r : Req) : Link :=
  (((l.setWire (l.wire.setDir .output)).setSeq (l.seq.startRequest r)).slotsTo (Link.sendSlot headerCovered) 8).enter .trn1

/-- First turnaround: release the line, `N` slots (R141 step 2, R143). -/
def Link.trn1Phase (l : Link) (n : Nat) : Link :=
  ((l.setWire (l.wire.setDir .input)).slotsTo Link.gapSlot n).enter .ack

/-- The three acknowledge slots, always all three (R141 step 3, R144); `ACKSR` holds what they showed. -/
def Link.ackSample (l : Link) : Link := l.slotsTo Link.ackSlot 3

/-- `STATUS.RESULT <- code(result)`. -/
def Link.setResult (l : Link) (r : AckResult) : Link := l.setStatus { l.status with result := r }

/-- What follows the acknowledge `v`: `STATUS.ACKRAW <- v`, and the next phase (R27, R96, R100, R141). -/
def Link.ackPhase (l : Link) (v : Ack) : Link :=
  let l := (l.setSeq { l.seq with acksr := v }).setStatus { l.status with ackraw := v }
  match ackTail v with
  | .data => if reqRead l.seq.xreq then l.enter .rdata else l.enter .trn2
  | .wait => (l.setResult .wait).enter .trn3
  | .fault => (l.setResult .fault).enter .trn3
  | .backoff => (l.setResult .noReply).enter .backoff

/-- Second turnaround of a write: `N` released slots (R141 step 4, R145). -/
def Link.trn2Phase (l : Link) (n : Nat) : Link := (l.slotsTo Link.gapSlot n).enter .wdata

/-- Idle: drive the line high, clock stopped (R141 step 5, R147). -/
def Link.toIdle (l : Link) : Link :=
  (l.setWire ((l.wire.setDout true).setDir .output)).enter .idle

/-- Write data: take the line, the 32 bits of `SHIFT`, then `PAR` as the parity bit; the result is OK (R141 step 4, R145). -/
def Link.wdataPhase (l : Link) : Link :=
  ((((l.setWire (l.wire.setDir .output)).slotsTo (Link.sendSlot (fun _ => true)) 32).sendParity).setResult .ok).toIdle

/-- The result of a read by the sampled parity bit and the one computed (R98, R146). -/
def parityResult (sampled computed : Bool) : AckResult := if sampled = computed then .ok else .parityError

/-- Read data: 32 bits into `SHIFT`, then the parity bit; one that is not `PAR` turns OK into `ParityError` (R141 step 4, R146). -/
def Link.rdataPhase (l : Link) : Link :=
  let d := l.slotsTo Link.receiveSlot 32
  let p := d.wire.readBit
  (((d.setWire p.2).setSeq d.seq.count).setResult (parityResult p.1 d.seq.par)).enter .trn3

/-- Turnaround back to OB-SWD: `N` released slots, then idle (R100, R141). -/
def Link.trn3Phase (l : Link) (n : Nat) : Link := (l.slotsTo Link.gapSlot n).toIdle

/-- Back-off after a malformed acknowledge: `N + 33` released slots, then idle (R100, R141). -/
def Link.backoffPhase (l : Link) (n : Nat) : Link := (l.slotsTo Link.gapSlot (n + 33)).toIdle

/-- The frame's tail after the acknowledge (R100). -/
def Link.tailPhases (l : Link) (n : Nat) : Link :=
  match l.seq.phase with
  | .trn2 => (l.trn2Phase n).wdataPhase
  | .rdata => l.rdataPhase.trn3Phase n
  | .trn3 => l.trn3Phase n
  | .backoff => l.backoffPhase n
  | .idle | .req | .trn1 | .ack | .wdata => l

/-- The data a finished frame delivers: the received word if the read data phase was reached, else 0
(R141, R148a). -/
def Link.rdata (l : Link) : Word :=
  if l.seq.acksr = 1 ∧ reqRead l.seq.xreq = true then l.seq.shift else 0

/-- The frame up to its acknowledge: request, turnaround, three sampled slots (R90). -/
def Link.frameHead (l : Link) (n : Nat) (r : Req) (wdata : Word) : Link :=
  (((l.start r wdata).reqPhase r).trn1Phase n).ackSample

/-- The whole frame (R90, R141). -/
def Link.frame (l : Link) (n : Nat) (r : Req) (wdata : Word) : Link :=
  let h := l.frameHead n r wdata
  (h.ackPhase h.seq.acksr).tailPhases n

/-- `TRANSFER(req, wdata) -> (result, rdata)` (R141). -/
def transfer (n : Nat) (r : Req) (wdata : Word) (l : Link) : (AckResult × Word) × Link :=
  let f := l.frame n r wdata
  ((f.status.result, f.rdata), f)

/-! ### Single phases -/

/-- The sequencer's next phase where no word is fetched for it (R27). -/
def Link.advance (l : Link) (n : Nat) : Link :=
  match l.seq.phase with
  | .trn1 => l.trn1Phase n
  | .trn2 => l.trn2Phase n
  | .wdata => l.wdataPhase
  | .rdata => l.rdataPhase
  | .trn3 => l.trn3Phase n
  | .backoff => l.backoffPhase n
  | .idle | .req | .ack => l

/-- Send the header of request code `r`: the request phase of a frame (R94; log 2). -/
def sendRequest (r : Req) (s : State) : Outcome := .next (s.setLink (s.link.reqPhase r))

/-- The acknowledge `v` has been sampled: the frame goes on as R96 and R100 say (log 2). -/
def takeAck (v : Ack) (s : State) : Outcome := .next (s.setLink (s.link.ackPhase v))

/-! ### The wire rows (R94, R96) -/

/-- DP write 0x0, code 0x0, byte 0x81 (R94). -/
def execReqDpWr0 (s : State) : Outcome := sendRequest 0x0 s
/-- AP write 0x0, code 0x1, byte 0xA3 (R94). -/
def execReqApWr0 (s : State) : Outcome := sendRequest 0x1 s
/-- DP read 0x0, code 0x2, byte 0xA5 (R94). -/
def execReqDpRd0 (s : State) : Outcome := sendRequest 0x2 s
/-- AP read 0x0, code 0x3, byte 0x87 (R94). -/
def execReqApRd0 (s : State) : Outcome := sendRequest 0x3 s
/-- DP write 0x4, code 0x4, byte 0xA9 (R94). -/
def execReqDpWr4 (s : State) : Outcome := sendRequest 0x4 s
/-- AP write 0x4, code 0x5, byte 0x8B (R94). -/
def execReqApWr4 (s : State) : Outcome := sendRequest 0x5 s
/-- DP read 0x4, code 0x6, byte 0x8D (R94). -/
def execReqDpRd4 (s : State) : Outcome := sendRequest 0x6 s
/-- AP read 0x4, code 0x7, byte 0xAF (R94). -/
def execReqApRd4 (s : State) : Outcome := sendRequest 0x7 s
/-- DP write 0x8, code 0x8, byte 0xB1 (R94). -/
def execReqDpWr8 (s : State) : Outcome := sendRequest 0x8 s
/-- AP write 0x8, code 0x9, byte 0x93 (R94). -/
def execReqApWr8 (s : State) : Outcome := sendRequest 0x9 s
/-- DP read 0x8, code 0xA, byte 0x95 (R94). -/
def execReqDpRd8 (s : State) : Outcome := sendRequest 0xA s
/-- AP read 0x8, code 0xB, byte 0xB7 (R94). -/
def execReqApRd8 (s : State) : Outcome := sendRequest 0xB s
/-- DP write 0xC, code 0xC, byte 0x99 (R94). -/
def execReqDpWrC (s : State) : Outcome := sendRequest 0xC s
/-- AP write 0xC, code 0xD, byte 0xBB (R94). -/
def execReqApWrC (s : State) : Outcome := sendRequest 0xD s
/-- DP read 0xC, code 0xE, byte 0xBD (R94). -/
def execReqDpRdC (s : State) : Outcome := sendRequest 0xE s
/-- AP read 0xC, code 0xF, byte 0x9F (R94). -/
def execReqApRdC (s : State) : Outcome := sendRequest 0xF s
/-- `ack = 1` is OK: the data phase follows (R96). -/
def execAckOk (s : State) : Outcome := takeAck 1 s
/-- `ack = 2` is WAIT: one turnaround, then idle (R96, R100). -/
def execAckWait (s : State) : Outcome := takeAck 2 s
/-- `ack = 4` is FAULT: one turnaround, then idle (R96, R100). -/
def execAckFault (s : State) : Outcome := takeAck 4 s

end Sys2Proof.Machine
end

