-- ==== Sys2Proof/Machine/Transfer.lean ====
section
/-! DEFINITION. The wait-retry loop, the register operations with the mirror, session initialisation
(41_swd_transfer.md R150 to R177), and their commands. -/

namespace Sys2Proof.Machine

/-! ### The wait-retry loop (R150 to R153) -/

/-- `RETRYCNT <- RETRYCNT + 1`. -/
def Link.countAttempt (l : Link) : Link := l.setSeq { l.seq with retrycnt := l.seq.retrycnt + 1 }

/-- `STATUS.RETRYX <- 0; RETRYCNT <- 0`. -/
def Link.startRetry (l : Link) : Link :=
  (l.setStatus { l.status with retryx := false }).setSeq { l.seq with retrycnt := 0 }

/-- Exhaustion: `STATUS.RETRYX <- 1`, the result is FAULT (R151). -/
def Link.exhaust (l : Link) : Link := l.setStatus { l.status with retryx := true, result := .fault }

/-- The loop with `extra + 1` attempts left: only WAIT is repeated (R150, R152). -/
def retryLoop (n : Nat) (r : Req) (wdata : Word) : Nat → Link → (AckResult × Word) × Link
  | 0, l =>
    let t := transfer n r wdata l
    if t.1.1 = .wait then ((.fault, t.1.2), t.2.countAttempt.exhaust) else (t.1, t.2.countAttempt)
  | extra + 1, l =>
    let t := transfer n r wdata l
    if t.1.1 = .wait then retryLoop n r wdata extra t.2.countAttempt else (t.1, t.2.countAttempt)

/-- `TRANSFER_RETRY(req, wdata)`: at most `CFG.RETRY` attempts (R150; a cap of 0 is outside R9, log 17). -/
def transferRetry (n retry : Nat) (r : Req) (wdata : Word) (l : Link) : (AckResult × Word) × Link :=
  retryLoop n r wdata (retry - 1) l.startRetry

/-! ### Logical transfers -/

/-- A logical transfer: one wait-retry loop (R154). -/
def logical (r : Req) (wdata : Word) : Op (AckResult × Word) :=
  linkOp (fun c l => transferRetry c.turnaround c.retry r wdata l)

/-- `if result != OK: raise F_ACK(result)`; the value otherwise. -/
def needOk (x : AckResult × Word) : Op Word := if x.1 = .ok then pure x.2 else throw .ack

/-- A logical transfer that fails with `F_ACK` unless it ends OK. -/
def logicalOk (r : Req) (wdata : Word) : Op Word := do
  let x ← logical r wdata
  needOk x

/-- `Drain()`: a read of DP `RDBUFF` (R181). -/
def drain : Op Word := do
  let s ← get
  logicalOk (reqCode false true s.cfg.dpRdbuff) 0

/-! ### The mirror -/

/-- `MIR.SELECT.VALID <- 1; MIR.SELECT.VAL <- v`. -/
def Mirror.holdSelect (m : Mirror) (v : Word) : Mirror := { m with selectValid := true, selectVal := v }

/-- `MIR.SELECT.VALID <- 0`. -/
def Mirror.dropSelect (m : Mirror) : Mirror := { m with selectValid := false }

/-- `MIR.CSW <- {VALID 1, APSEL ap, VAL v}`. -/
def Mirror.holdCsw (m : Mirror) (ap : BitVec 8) (v : Word) : Mirror :=
  { m with cswValid := true, cswApsel := ap, cswVal := v }

/-- `MIR.CSW.VALID <- 0`. -/
def Mirror.dropCsw (m : Mirror) : Mirror := { m with cswValid := false }

/-- Session initialisation: both valid bits cleared (R45, R176). -/
def Mirror.clear (m : Mirror) : Mirror := m.dropSelect.dropCsw

/-- The mirror says that `SELECT` holds `v` (R158). -/
def Mirror.hasSelect (m : Mirror) (v : Word) : Bool := m.selectValid && m.selectVal = v

/-- The mirror says that `CSW` of AP `ap` holds `v` (R166). -/
def Mirror.hasCsw (m : Mirror) (ap : BitVec 8) (v : Word) : Bool :=
  m.cswValid && m.cswApsel = ap && m.cswVal = v

/-- Change the mirror. -/
def modifyMirror (f : Mirror → Mirror) : Op Unit := modifyOp (fun s => s.setLink (s.link.setMir (f s.link.mir)))

/-- `SESSION_INIT()` (R176). -/
def sessionInit : Op Unit := modifyMirror Mirror.clear

/-! ### Register operations (R154 to R167) -/

/-- `READ_DP(a) -> v` (R156). -/
def readDp (a : Word) : Op Word := do
  require (dpAddrOk a)
  logicalOk (reqCode false true a) 0

/-- After a write of DP address `a` that ended `r`: if `a` is `SELECT`, the mirror holds the value on OK and
is invalid on anything else (R158). -/
def followSelect (a v : Word) (r : AckResult) : Op Unit := do
  let s ← get
  if a = s.cfg.dpSelect then modifyMirror (fun m => if r = .ok then m.holdSelect v else m.dropSelect)
  else pure ()

/-- `WRITE_DP(a, v)` (R158): elided when the mirror holds the value; the mirror follows the result. -/
def writeDp (a v : Word) : Op Unit := do
  require (dpAddrOk a)
  let s ← get
  if a = s.cfg.dpSelect ∧ s.link.mir.hasSelect v = true then pure ()
  else
    let x ← logical (reqCode false false a) v
    followSelect a v x.1
    let _ ← needOk x

/-- `SelectAP(apaddr)` (R159). -/
def selectAp (apaddr : Word) : Op Unit := do
  let s ← get
  writeDp s.cfg.dpSelect (selectOf apaddr)

/-- `READ_AP(apaddr) -> v` (R162): the AP read's own data is discarded, the drain's is the value. -/
def readAp (apaddr : Word) : Op Word := do
  require (apAddrOk apaddr)
  selectAp apaddr
  let _ ← logicalOk (reqCode true true apaddr) 0
  drain

/-- The address names `CSW`: `(apaddr & 0xFC) = CFG.AP_CSW` (R166). -/
def isCsw (c : Cfg) (apaddr : Word) : Bool := apaddr &&& 0xFC = c.apCsw

/-- The AP write and its drain; the drain only after an OK (R166). -/
def apWriteDrain (apaddr v : Word) : Op AckResult := do
  let r1 ← logical (reqCode true false apaddr) v
  if r1.1 = .ok then
    let s ← get
    let r2 ← logical (reqCode false true s.cfg.dpRdbuff) 0
    pure r2.1
  else pure r1.1

/-- After a write of AP address `apaddr` that ended `r`: if it names `CSW`, the mirror holds AP and value on
OK and is invalid on anything else (R166). -/
def followCsw (apaddr v : Word) (r : AckResult) : Op Unit := do
  let s ← get
  if isCsw s.cfg apaddr = true then
    modifyMirror (fun m => if r = .ok then m.holdCsw (apselOf apaddr) v else m.dropCsw)
  else pure ()

/-- `WRITE_AP(apaddr, v)` (R166). -/
def writeAp (apaddr v : Word) : Op Unit := do
  require (apAddrOk apaddr)
  selectAp apaddr
  let s ← get
  if isCsw s.cfg apaddr = true ∧ s.link.mir.hasCsw (apselOf apaddr) v = true then pure ()
  else
    let r ← apWriteDrain apaddr v
    followCsw apaddr v r
    if r = .ok then pure () else throw .ack

/-! ### Commands -/

/-- The end of a raw transfer as a command: `RES[0] <- rdata`, `RES[1] <- code(result)`, failure `F_ACK`
unless the result is OK (R141, R150). -/
def rawTransfer (x : AckResult × Word) : Op Unit := do
  modifyOp (fun s => (s.setRes0 x.2).setRes1 (x.1.code.setWidth 32))
  let _ ← needOk x

/-- The failure of a raw transfer: `RES` has been written (R141). -/
def keepRes (_ : Cause) (s : State) : State := s

/-- `TRANSFER(req, wdata)` (R141). -/
def execTransfer (r : Req) (wdata : Word) (s : State) : Outcome :=
  .next (command (do let x ← linkOp (fun c l => transfer c.turnaround r wdata l); rawTransfer x) noResult keepRes s)

/-- `TRANSFER_RETRY(req, wdata)` (R150). -/
def execTransferRetry (r : Req) (wdata : Word) (s : State) : Outcome :=
  .next (command (do let x ← logical r wdata; rawTransfer x) noResult keepRes s)

/-- `READ_DP(a)` (R156). -/
def execReadDp (a : Word) (s : State) : Outcome := .next (command (readDp a) toRes0 failRes s)

/-- `WRITE_DP(a, v)` (R158). -/
def execWriteDp (a v : Word) (s : State) : Outcome := .next (command (writeDp a v) noResult failRes s)

/-- `READ_AP(apaddr)` (R162). -/
def execReadAp (a : Word) (s : State) : Outcome := .next (command (readAp a) toRes0 failRes s)

/-- `WRITE_AP(apaddr, v)` (R166). -/
def execWriteAp (a v : Word) (s : State) : Outcome := .next (command (writeAp a v) noResult failRes s)

/-- `SESSION_INIT()` (R176): no wire activity, cannot fail. -/
def execSessionInit (s : State) : Outcome := .next (command sessionInit noResult failRes s)

end Sys2Proof.Machine
end

