-- ==== Sys2Proof/Machine/MemoryAccess.lean ====
section
/-! DEFINITION. The target memory operations (42_memory_access.md R180 to R214) and their commands. -/

namespace Sys2Proof.Machine

/-! ### Abbreviations (R181) -/

/-- `SetMode(c)` = `WRITE_AP(M | CFG.AP_CSW, c)`. -/
def setMode (mode : Cfg → Word) : Op Unit := do
  let s ← get
  writeAp (memAp s.cfg s.cfg.apCsw) (mode s.cfg)

/-- `SetAddr(a)` = `WRITE_AP(M | CFG.AP_TAR, a)`. -/
def setAddr (a : Word) : Op Unit := do
  let s ← get
  writeAp (memAp s.cfg s.cfg.apTar) a

/-- `READ_AP(DRW)`. -/
def readDrw : Op Word := do
  let s ← get
  readAp (memAp s.cfg s.cfg.apDrw)

/-- `WRITE_AP(DRW, v)`. -/
def writeDrw (v : Word) : Op Unit := do
  let s ← get
  writeAp (memAp s.cfg s.cfg.apDrw) v

/-- `SelectAP(DRW)`. -/
def selectDrw : Op Unit := do
  let s ← get
  selectAp (memAp s.cfg s.cfg.apDrw)

/-- `ApRead()`: one AP read of `DRW`. -/
def apRead : Op Word := do
  let s ← get
  logicalOk (reqCode true true s.cfg.apDrw) 0

/-- `ApWrite(w)`: one AP write of `DRW`. -/
def apWrite (w : Word) : Op Unit := do
  let s ← get
  let _ ← logicalOk (reqCode true false s.cfg.apDrw) w

/-! ### Single transfers -/

/-- `READ_WORD(addr) -> v` (R184). -/
def readWord (addr : Word) : Op Word := do
  require (wordAligned addr)
  setMode Cfg.cswWord
  setAddr addr
  readDrw

/-- `WRITE_WORD(addr, v)` (R186). -/
def writeWord (addr v : Word) : Op Unit := do
  require (wordAligned addr)
  setMode Cfg.cswWord
  setAddr addr
  writeDrw v

/-- `READ_BYTE(addr) -> b` (R190). -/
def readByte (addr : Word) : Op Byte := do
  setMode Cfg.cswByte
  setAddr addr
  let w ← readDrw
  pure (laneByte addr w)

/-- `WRITE_BYTE(addr, b)` (R192). -/
def writeByte (addr : Word) (b : Byte) : Op Unit := do
  setMode Cfg.cswByte
  setAddr addr
  writeDrw (laneWord addr b)

/-! ### Block transfers -/

/-- The posted reads of a block after the first: `left` more AP reads, each delivering the word before it,
then the drain that delivers the last (R196, R197). -/
def readStream : Nat → Nat → Op Unit
  | 0, o => do
    setWordcnt 0
    let d ← drain
    bufWriteWord o d
  | left + 1, o => do
    setWordcnt (left + 1)
    let d ← apRead
    bufWriteWord o d
    readStream left (o + 4)

/-- `n` AP writes, then one drain (R200). -/
def writeStream (src : Nat → Byte) : Nat → Nat → Op Unit
  | 0, _ => do
    setWordcnt 0
    let _ ← drain
  | left + 1, o => do
    setWordcnt (left + 1)
    apWrite (wordAt src o)
    writeStream src left (o + 4)

/-- The wire part of `READ_BLOCK`, `n` bytes to `BUF[off ..]` (R196). -/
def readWords (addr : Word) (off n : Nat) : Op Unit := do
  setMode Cfg.cswWord
  setAddr addr
  selectDrw
  setWordcnt (n / 4)
  let _ ← apRead
  readStream (n / 4 - 1) off

/-- The wire part of `WRITE_BLOCK`, `n` bytes from `src` at `off` (R200). -/
def writeWords (src : Nat → Byte) (addr : Word) (off n : Nat) : Op Unit := do
  setMode Cfg.cswWord
  setAddr addr
  selectDrw
  writeStream src (n / 4) off

/-- `buf + size > CFG.BUF_SIZE (integer)` refuses (R196, R200, R204, R206). -/
def requireRange (buf size : Word) : Op Unit := do
  let s ← get
  require (bufRangeOk s.cfg.bufSize buf size)

/-- `READ_BLOCK(addr, buf, size)` (R196). -/
def readBlock (addr buf size : Word) : Op Unit := do
  require (blockShapeOk addr size)
  requireRange buf size
  readWords addr buf.toNat size.toNat

/-- `WRITE_BLOCK(addr, buf, size)` (R200). -/
def writeBlock (addr buf size : Word) : Op Unit := do
  require (blockShapeOk addr size)
  requireRange buf size
  let s ← get
  writeWords s.buf.read addr buf.toNat size.toNat

/-! ### The walk (R204, R206, R208) -/

/-- Where a walk stands: target address, buffer offset, bytes left. -/
structure Cursor where
  addr : Word
  off : Nat
  left : Nat
deriving DecidableEq, Repr

/-- Leading unaligned bytes: while bytes are left and the address is not word aligned (R204). -/
def walkLead (byteOp : Word → Nat → Op Unit) : Nat → Word → Nat → Op Cursor
  | 0, a, o => pure ⟨a, o, 0⟩
  | left + 1, a, o =>
    if wordAligned a then pure ⟨a, o, left + 1⟩
    else do
      setCursor a o (left + 1)
      byteOp a o
      walkLead byteOp left (a + 1) (o + 1)

/-- The length of the next block: `min(s & ~3, BLOCK_MAX - (a & (BLOCK_MAX - 1)))` (R204). -/
def blockLen (blockMax : Nat) (a : Word) (left : Nat) : Nat :=
  min (left / 4 * 4) (blockMax - (a.toNat &&& (blockMax - 1)))

/-- Full-word blocks: while more than 3 bytes are left (R204). Every block takes at least one byte, so the
first argument, a bound on the blocks, never runs out before the bytes do. -/
def walkBlocks (blockOp : Word → Nat → Nat → Op Unit) : Nat → Cursor → Op Cursor
  | 0, c => pure c
  | fuel + 1, c =>
    if c.left ≤ 3 then pure c
    else do
      let s ← get
      setCursor c.addr c.off c.left
      blockOp c.addr c.off (blockLen s.cfg.blockMax c.addr c.left)
      walkBlocks blockOp fuel
        ⟨c.addr + BitVec.ofNat 32 (blockLen s.cfg.blockMax c.addr c.left),
          c.off + blockLen s.cfg.blockMax c.addr c.left, c.left - blockLen s.cfg.blockMax c.addr c.left⟩

/-- Trailing bytes (R204). -/
def walkTail (byteOp : Word → Nat → Op Unit) : Nat → Word → Nat → Op Unit
  | 0, _, _ => pure ()
  | left + 1, a, o => do
    setCursor a o (left + 1)
    byteOp a o
    walkTail byteOp left (a + 1) (o + 1)

/-- The general entry point: leading bytes, then blocks, then trailing bytes (R204, R206). -/
def walk (byteOp : Word → Nat → Op Unit) (blockOp : Word → Nat → Nat → Op Unit) (addr : Word)
    (off size : Nat) : Op Unit := do
  let c ← walkLead byteOp size addr off
  let c ← walkBlocks blockOp c.left c
  walkTail byteOp c.left c.addr c.off

/-- `BUF[o] <- READ_BYTE(a)` (R204). -/
def readByteTo (a : Word) (o : Nat) : Op Unit := do
  let b ← readByte a
  bufWriteByte o b

/-- `READ_MEMORY(addr, buf, size)` (R204). -/
def readMemory (addr buf size : Word) : Op Unit := do
  requireRange buf size
  walk readByteTo readWords addr buf.toNat size.toNat

/-- The walk of `WRITE_MEMORY` with byte `k` of the range taken from `src` (R206, R248). -/
def writeBytesFrom (src : Nat → Byte) (addr : Word) (off size : Nat) : Op Unit :=
  walk (fun a o => writeByte a (src o)) (writeWords src) addr off size

/-- `WRITE_MEMORY` on a range of `BUF` already tested (R206). -/
def writeMemoryFrom (addr : Word) (off size : Nat) : Op Unit := do
  let s ← get
  writeBytesFrom s.buf.read addr off size

/-- `WRITE_MEMORY(addr, buf, size)` (R206). -/
def writeMemory (addr buf size : Word) : Op Unit := do
  requireRange buf size
  writeMemoryFrom addr buf.toNat size.toNat

/-! ### Commands -/

/-- An 8-bit result: bits 7:0 of `RES[0]`, the rest zero (R105; log 13). -/
def byteResult (b : Byte) (s : State) : State := s.setRes0 (b.setWidth 32)

/-- `READ_WORD(addr)` (R184). -/
def execReadWord (a : Word) (s : State) : Outcome := .next (command (readWord a) toRes0 failRes s)

/-- `WRITE_WORD(addr, v)` (R186). -/
def execWriteWord (a v : Word) (s : State) : Outcome := .next (command (writeWord a v) noResult failRes s)

/-- `READ_BYTE(addr)` (R190). -/
def execReadByte (a : Word) (s : State) : Outcome := .next (command (readByte a) byteResult failRes s)

/-- `WRITE_BYTE(addr, b)` (R192). -/
def execWriteByte (a : Word) (b : Byte) (s : State) : Outcome :=
  .next (command (writeByte a b) noResult failRes s)

/-- `READ_BLOCK(addr, buf, size)` (R196, R212). -/
def execReadBlock (a o n : Word) (s : State) : Outcome :=
  .next (command (readBlock a o n) noResult (failRead o n) s)

/-- `WRITE_BLOCK(addr, buf, size)` (R200). -/
def execWriteBlock (a o n : Word) (s : State) : Outcome :=
  .next (command (writeBlock a o n) noResult failRes s)

/-- `READ_MEMORY(addr, buf, size)` (R204, R212). -/
def execReadMemory (a o n : Word) (s : State) : Outcome :=
  .next (command (readMemory a o n) noResult (failRead o n) s)

/-- `WRITE_MEMORY(addr, buf, size)` (R206). -/
def execWriteMemory (a o n : Word) (s : State) : Outcome :=
  .next (command (writeMemory a o n) noResult failRes s)

end Sys2Proof.Machine
end

