-- ==== Sys2Proof/Machine/CoreRegister.lean ====
section
/-! DEFINITION. The target core-register operations (43_core_register.md R220 to R234) and their commands. -/

namespace Sys2Proof.Machine

/-- `READ_WORD(CFG.DHCSR)`. -/
def readDhcsr : Op Word := do
  let s ← get
  readWord s.cfg.dhcsr

/-- `PollReady()` (R222). -/
def pollReady : Op Unit := do
  let s ← get
  pollUntil s.cfg.regrdyPolls readDhcsr (fun w => w.getLsbD s.cfg.sRegrdy) .regrdyTimeout

/-- `READ_CORE_REG(n) -> v` (R224). -/
def readCoreReg (n : Word) : Op Word := do
  require (coreRegOk n)
  let s ← get
  writeWord s.cfg.dcrsr (selectorRead n)
  pollReady
  readWord s.cfg.dcrdr

/-- `WRITE_CORE_REG(n, v)` (R228). -/
def writeCoreReg (n v : Word) : Op Unit := do
  require (coreRegOk n)
  let s ← get
  writeWord s.cfg.dcrdr v
  writeWord s.cfg.dcrsr (selectorWrite s.cfg n)
  pollReady

/-- The nine registers of `DS` with their target indices, in the order of R232. -/
def Ds.loads (d : Ds) : List (Word × Word) :=
  [(0, d.r0), (1, d.r1), (2, d.r2), (3, d.r3), (9, d.r9), (13, d.r13), (14, d.r14), (15, d.r15), (16, d.xpsr)]

/-- `WRITE_CORE_REG` for each pair in order. -/
def writeCoreRegs : List (Word × Word) → Op Unit
  | [] => pure ()
  | (n, v) :: rest => do
    writeCoreReg n v
    writeCoreRegs rest

/-- `DS.XPSR <- CFG.XPSR_THUMB` (R232). -/
def forceThumb : Op Unit := modifyOp (fun s => s.setDs { s.ds with xpsr := s.cfg.xpsrThumb })

/-- `CFG.DBGKEY | 1 << CFG.C_DEBUGEN`: debug-enable set, halt clear (R232, R286). -/
def debugEnableWord (c : Cfg) : Word := c.dbgkey ||| bitMask c.cDebugen

/-- The sticky-error or the write-data-error bit is set (R232). -/
def stickySet (c : Cfg) (w : Word) : Bool := w.getLsbD c.stickyerr || w.getLsbD c.wdataerr

/-- `WRITE_DEBUG_STATE()` (R232). -/
def writeDebugState : Op Unit := do
  forceThumb
  let s ← get
  writeCoreRegs s.ds.loads
  writeWord s.cfg.dhcsr (debugEnableWord s.cfg)
  let w ← readDp s.cfg.dpCtrlstat
  if stickySet s.cfg w = true then throw .sticky else pure ()

/-- `READ_CORE_REG(n)` (R224). -/
def execReadCoreReg (n : Word) (s : State) : Outcome := .next (command (readCoreReg n) toRes0 failRes s)

/-- `WRITE_CORE_REG(n, v)` (R228). -/
def execWriteCoreReg (n v : Word) (s : State) : Outcome :=
  .next (command (writeCoreReg n v) noResult failRes s)

/-- `WRITE_DEBUG_STATE()` (R232). -/
def execWriteDebugState (s : State) : Outcome := .next (command writeDebugState noResult failRes s)

end Sys2Proof.Machine
end

