-- ==== Sys2Proof/Machine/Lifecycle.lean ====
section
/-! DEFINITION. The target lifecycle operations (45_lifecycle.md R280 to R295) and their commands. -/

namespace Sys2Proof.Machine

/-- A change of the pins that gives no value. -/
def wireDo (f : Cfg → Wire → Wire) : Op Unit := linkOp (fun c l => ((), l.setWire (f c l.wire)))

/-- `SendBits(list)` (R281). -/
def Wire.sendBits (w : Wire) (bs : List Bool) : Wire := (w.setDir .output).writeBits bs

/-- `LineReset()` (R281). -/
def lineReset : Op Unit := wireDo (fun c w => w.sendBits (List.replicate c.lineResetClocks true))

/-- `LINE.NRESET <- b` with its event in `TRACE` (R285). -/
def Wire.driveReset (w : Wire) (level : Bool) (e : Event) : Wire :=
  { w with line := { w.line with nreset := level } }.emit e

/-- `ResetPulse()` (R285): assert, release, and a session initialisation. The two delays are not modelled. -/
def resetPulse : Op Unit := do
  wireDo (fun _ w => (w.driveReset false .resetAssert).driveReset true .resetRelease)
  sessionInit

/-- `LC_CONNECT() -> idcode` (R282). -/
def lcConnect : Op Word := do
  sessionInit
  lineReset
  wireDo (fun c w => w.sendBits c.switchSeq)
  lineReset
  wireDo (fun c w => w.writeBits (List.replicate c.lineIdleClocks false))
  let s ← get
  readDp s.cfg.dpIdcode

/-- Every bit of the mask is set (R284b). -/
def powerAcked (c : Cfg) (w : Word) : Bool := w &&& c.pwrAck = c.pwrAck

/-- `LC_POWER_UP()` (R284). -/
def lcPowerUp : Op Unit := do
  let s ← get
  writeDp s.cfg.dpAbort s.cfg.abortClear
  writeDp s.cfg.dpSelect 0
  writeDp s.cfg.dpCtrlstat s.cfg.pwrReq
  pollUntil s.cfg.pwrupPolls (readDp s.cfg.dpCtrlstat) (powerAcked s.cfg) .pwrupTimeout

/-- The debug-enable write of step 1 (R286). -/
def debugEnable : Op Unit := do
  let s ← get
  writeWord s.cfg.dhcsr (debugEnableWord s.cfg)

/-- Step 1 with `extra + 1` attempts left: any failure of the write is caught, the reset line is toggled
between attempts and not after the last (R286a, R286b). -/
def enableDebug : Nat → Op Unit
  | 0 => fun s =>
    match debugEnable s with
    | .ok _ t => .ok () t
    | .error _ t => .error .lifecycle t
  | extra + 1 => fun s =>
    match debugEnable s with
    | .ok _ t => .ok () t
    | .error _ t => (do resetPulse; enableDebug extra) t

/-- `WRITE_WORD(CFG.DEMCR, v)`. -/
def writeDemcr (v : Word) : Op Unit := do
  let s ← get
  writeWord s.cfg.demcr v

/-- Step 4: wait for the halt (R286). -/
def waitHalt : Op Unit := do
  let s ← get
  pollUntil s.cfg.haltPolls readDhcsr (fun w => w.getLsbD s.cfg.sHalt) .haltTimeout

/-- Step 3' of the soft-reset variant (R291). -/
def softReset : Op Unit := do
  let s ← get
  writeWord s.cfg.aircr s.cfg.aircrReset
  sessionInit

/-- The five steps of R286, step 3 being the given one. -/
def resetHaltWith (step3 : Op Unit) : Op Unit := do
  let s ← get
  enableDebug (s.cfg.debugenRetries - 1)
  writeDemcr (bitMask s.cfg.vcCorereset)
  step3
  waitHalt
  writeDemcr 0

/-- `LC_RESET_HALT()` (R286). -/
def lcResetHalt : Op Unit := resetHaltWith resetPulse

/-- `LC_SOFT_RESET_HALT()` (R291). -/
def lcSoftResetHalt : Op Unit := resetHaltWith softReset

/-- `ResetHalt()`, the step of `FA_INIT` (R295). -/
def resetHalt : Op Unit := do
  let s ← get
  if s.cfg.softReset = true then lcSoftResetHalt else lcResetHalt

/-- `LC_HALT()` (R289). -/
def lcHalt : Op Unit := do
  let s ← get
  writeWord s.cfg.dhcsr (debugEnableWord s.cfg ||| bitMask s.cfg.cHalt)

/-- `LC_RUN()` (R290). -/
def lcRun : Op Unit := do
  let s ← get
  writeWord s.cfg.dhcsr s.cfg.dbgkey
  writeDp s.cfg.dpCtrlstat 0
  sessionInit

/-! ### Commands -/

/-- `LC_CONNECT()` (R282). -/
def execLcConnect (s : State) : Outcome := .next (command lcConnect toRes0 failRes s)

/-- `LC_POWER_UP()` (R284). -/
def execLcPowerUp (s : State) : Outcome := .next (command lcPowerUp noResult failRes s)

/-- `LC_RESET_HALT()` (R286). -/
def execLcResetHalt (s : State) : Outcome := .next (command lcResetHalt noResult failRes s)

/-- `LC_RESET_RUN()` (R288): cannot fail. -/
def execLcResetRun (s : State) : Outcome := .next (command resetPulse noResult failRes s)

/-- `LC_HALT()` (R289). -/
def execLcHalt (s : State) : Outcome := .next (command lcHalt noResult failRes s)

/-- `LC_RUN()` (R290). -/
def execLcRun (s : State) : Outcome := .next (command lcRun noResult failRes s)

/-- `LC_SOFT_RESET_HALT()` (R291). -/
def execLcSoftResetHalt (s : State) : Outcome := .next (command lcSoftResetHalt noResult failRes s)

end Sys2Proof.Machine
end

