-- ==== Sys2Proof/Machine/FlashRuntime.lean ====
section
/-! DEFINITION. The flash-algorithm loader and remote-call executor (44_flash_runtime.md R240 to R267) and
its commands. -/

namespace Sys2Proof.Machine

/-! ### The remote call -/

/-- `if FA.VALID = 0: raise F_PRECOND` (R241). -/
def requireFa : Op Unit := do
  let s ← get
  require s.fa.valid

/-- Step 1 of the remote call: stage the debug state (R244). `DS.XPSR` is left for `WRITE_DEBUG_STATE`. -/
def stageCall (entry a1 a2 a3 a4 : Word) : Op Unit :=
  modifyOp (fun s => s.setDs { s.ds with
    r0 := a1, r1 := a2, r2 := a3, r3 := a4, r9 := s.fa.desc.staticBase, r13 := s.fa.desc.stackPtr,
    r14 := s.fa.desc.bkpt, r15 := entry })

/-- Step 3 of the remote call: wait for the halt (R244). -/
def waitCall : Op Unit := do
  let s ← get
  pollUntil s.cfg.syscallPolls readDhcsr (fun w => w.getLsbD s.cfg.sHalt) .haltTimeout

/-- Step 4 of the remote call: `RET <- READ_CORE_REG(0)` (R244). -/
def harvest : Op Word := do
  let v ← readCoreReg 0
  modifyOp (fun s => s.setRet v)
  pure v

/-- `FA_SYSCALL(entry, a1, a2, a3, a4) -> r0` (R244). -/
def faSyscall (entry a1 a2 a3 a4 : Word) : Op Word := do
  requireFa
  stageCall entry a1 a2 a3 a4
  writeDebugState
  waitCall
  harvest

/-- `if not CFG.RET_OK(op, r): raise F_RETVAL` (R247). -/
def judge (e : EntryPoint) (r : Word) : Op Unit := do
  let s ← get
  if retOk s.cfg e r = true then pure () else throw .retval

/-- A call whose return value is judged (R247). -/
def judgedCall (e : EntryPoint) (entry a1 a2 a3 a4 : Word) : Op Unit := do
  let r ← faSyscall entry a1 a2 a3 a4
  judge e r

/-! ### The operations -/

/-- `FA <- algorithm; FA.VALID <- 1` (R248). -/
def latchFa : Op Unit := modifyOp (fun s => s.setFa ⟨true, s.descIn⟩)

/-- The bytes of `FA.CODE` by index. -/
def Descriptor.codeByte (d : Descriptor) (k : Nat) : Byte := d.code.getD k 0

/-- `FA.CODE_SIZE` (R36; log 6). -/
def Descriptor.codeSize (d : Descriptor) : Word := BitVec.ofNat 32 d.code.length

/-- `WriteBytes(FA.CODE_ADDR, FA.CODE, FA.CODE_SIZE)` (R248). -/
def downloadCode : Op Unit := do
  let s ← get
  writeBytesFrom s.fa.desc.codeByte s.fa.desc.codeAddr 0 s.fa.desc.codeSize.toNat

/-- `FA_INIT(algorithm, base_address)` (R248). -/
def faInit (base : Word) : Op Unit := do
  latchFa
  resetHalt
  downloadCode
  let s ← get
  judgedCall .init s.fa.desc.init base 0 0 0

/-- `FA_UNINIT()` (R250): an absent entry is a success without wire activity. -/
def faUninit : Op Unit := do
  requireFa
  let s ← get
  if s.fa.desc.uninit.present = true then judgedCall .uninit s.fa.desc.uninit.addr 0 0 0 0 else pure ()

/-- `RES[1] <- v`. -/
def setRes1Op (v : Word) : Op Unit := modifyOp (fun s => s.setRes1 v)

/-- One round of `FA_PROGRAM_PAGE` on a chunk of `c` bytes (R254). -/
def programChunk (a : Word) (o c : Nat) : Op Unit := do
  let s ← get
  writeMemoryFrom s.fa.desc.progBuf o c
  judgedCall .programPage s.fa.desc.programPage a (BitVec.ofNat 32 c) s.fa.desc.progBuf 0
  modifyOp (fun s => s.setRes1 (s.res1 + BitVec.ofNat 32 c))

/-- The length of the next chunk: `min(s, FA.PROG_BUF_SIZE)` (R254). -/
def chunkLen (d : Descriptor) (left : Nat) : Nat := min left d.progBufSize.toNat

/-- The chunk loop (R254). A chunk has at least one byte, so the first argument, a bound on the chunks, never
runs out before the bytes do (R256, R410). -/
def programChunks : Nat → Word → Nat → Nat → Op Unit
  | 0, _, _, _ => pure ()
  | fuel + 1, a, o, left =>
    if left = 0 then pure ()
    else do
      let s ← get
      setCursor a o left
      programChunk a o (chunkLen s.fa.desc left)
      programChunks fuel (a + BitVec.ofNat 32 (chunkLen s.fa.desc left)) (o + chunkLen s.fa.desc left)
        (left - chunkLen s.fa.desc left)

/-- `FA_PROGRAM_PAGE(address, buf, len)` (R254). -/
def faProgramPage (addr buf len : Word) : Op Unit := do
  requireFa
  requireRange buf len
  let s ← get
  require (len = 0 || s.fa.desc.progBufSize != 0)
  setRes1Op 0
  programChunks len.toNat addr buf.toNat len.toNat

/-- `FA_ERASE_SECTOR(address)` (R257). -/
def faEraseSector (addr : Word) : Op Unit := do
  requireFa
  let s ← get
  judgedCall .eraseSector s.fa.desc.eraseSector addr 0 0 0

/-- `FA_ERASE_CHIP()` (R258). -/
def faEraseChip : Op Unit := do
  requireFa
  let s ← get
  judgedCall .eraseChip s.fa.desc.eraseChip 0 0 0 0

/-- `FA_VERIFY(address, size, expected_crc)` (R259). -/
def faVerify (addr size crc : Word) : Op Unit := do
  requireFa
  let s ← get
  if s.fa.desc.verify.present = true then judgedCall .verify s.fa.desc.verify.addr addr size crc 0
  else throw .unsupported

/-- `FA_SET_RDP()` (R260). -/
def faSetRdp : Op Unit := do
  requireFa
  let s ← get
  if s.fa.desc.setRdp.present = true then judgedCall .setRdp s.fa.desc.setRdp.addr 0 0 0 0
  else throw .unsupported

/-! ### The sector-boundary test (R262, R263) -/

/-- The sector-info entry an address belongs to: the entry before the first one whose start exceeds it, the
last entry if none does, none if the table is empty or the first entry already starts above (R262).
`prev` is the entry passed last. -/
def containing (prev : Option Sector) : List Sector → Word → Option Sector
  | [], _ => prev
  | e :: es, a => if a < e.start then prev else containing (some e) es a

/-- `(address - start) % size = 0`, and false for a size of 0 (R262, R263). -/
def atBoundary (e : Sector) (a : Word) : Bool := e.size != 0 && (a - e.start) % e.size = 0

/-- `sector_is_boundary(address)` over a sector-info table (R262). -/
def sectorIsBoundary (table : List Sector) (a : Word) : Bool :=
  match containing none table a with
  | some e => atBoundary e a
  | none => false

/-- `FA_SECTOR_IS_BOUNDARY(address) -> bool` (R262). -/
def faSectorIsBoundary (addr : Word) : Op Bool := do
  requireFa
  let s ← get
  pure (sectorIsBoundary s.fa.desc.sect addr)

/-! ### Commands -/

/-- Success of a U3 operation: `RES[0]` is a copy of `RET` and `FAXST <- Ok` (R105, R240; log 13). -/
def flashOk {α : Type} (_ : α) (s : State) : State := (s.setRes0 s.ret).setFaxst .ok

/-- `RES` of a failed U3 operation: on `F_RETVAL` `RES[0] = RET` (R343), otherwise as R344 says. -/
def flashFailRes (c : Cause) (s : State) : State :=
  if c = .retval then (s.freeRes).setRes0 s.ret else failRes c s

/-- Failure of a U3 operation: its own status, or `Unsupported` for an absent entry (R240, R350). -/
def flashFail (f : FlashStatus) (c : Cause) (s : State) : State :=
  (flashFailRes c s).setFaxst (if c = .unsupported then .unsupported else f)

/-- `RES` of a failed `FA_PROGRAM_PAGE`: `RES[1]` is the count of bytes programmed (R255); `RES[0]` is `RET` if
a harvest was reached, by this failure's own call or by an earlier chunk's (R105, R343; log 11). -/
def pageFailRes (c : Cause) (s : State) : State :=
  if c = .precond then s
  else if c = .retval ∨ s.res1 ≠ 0 then s.setRes0 s.ret
  else (s.freeRes).setRes1 s.res1

/-- Failure of `FA_PROGRAM_PAGE` (R254, R255, R350). -/
def pageFail (c : Cause) (s : State) : State := (pageFailRes c s).setFaxst .writeFailed

/-- `FA_INIT(base_address)` (R248). -/
def execFaInit (base : Word) (s : State) : Outcome :=
  .next (command (faInit base) flashOk (flashFail .initFailed) s)

/-- `FA_UNINIT()` (R250). -/
def execFaUninit (s : State) : Outcome := .next (command faUninit flashOk (flashFail .uninitFailed) s)

/-- `FA_PROGRAM_PAGE(address, buf, len)` (R254). -/
def execFaProgramPage (a o n : Word) (s : State) : Outcome :=
  .next (command (faProgramPage a o n) flashOk pageFail s)

/-- `FA_ERASE_SECTOR(address)` (R257). -/
def execFaEraseSector (a : Word) (s : State) : Outcome :=
  .next (command (faEraseSector a) flashOk (flashFail .eraseSectorFailed) s)

/-- `FA_ERASE_CHIP()` (R258). -/
def execFaEraseChip (s : State) : Outcome :=
  .next (command faEraseChip flashOk (flashFail .eraseChipFailed) s)

/-- `FA_VERIFY(address, size, expected_crc)` (R259). -/
def execFaVerify (a n c : Word) (s : State) : Outcome :=
  .next (command (faVerify a n c) flashOk (flashFail .verifyFailed) s)

/-- `FA_SET_RDP()` (R260). -/
def execFaSetRdp (s : State) : Outcome := .next (command faSetRdp flashOk (flashFail .setRdpFailed) s)

/-- `FA_SECTOR_IS_BOUNDARY(address)` (R262): `RES[0]` bit 0 is the result; `FAXST` is not written. -/
def execFaSectorIsBoundary (a : Word) (s : State) : Outcome :=
  .next (command (faSectorIsBoundary a) (fun b t => t.setRes0 (if b then 1 else 0)) failRes s)

/-- `FA_SYSCALL(entry, a1, a2, a3, a4)` issued as a command (R244). -/
def execFaSyscall (e a1 a2 a3 a4 : Word) (s : State) : Outcome :=
  .next (command (faSyscall e a1 a2 a3 a4) flashOk (flashFail .syscallFailed) s)

end Sys2Proof.Machine
end

