-- ==== Sys2Proof/Machine/Dispatch.lean ====
section
/-! DEFINITION. One arm for each instruction: the call of its meaning. -/

namespace Sys2Proof.Machine

def exec (i : Instr) (s : State) : Host.Outcome State Fault Refusal :=
  match i with
  | .clockPulse => Sys2Proof.Machine.execClockPulse s
  | .setDir d => Sys2Proof.Machine.execSetDir d s
  | .writeBit b => Sys2Proof.Machine.execWriteBit b s
  | .readBit => Sys2Proof.Machine.execReadBit s
  | .transfer req wdata => Sys2Proof.Machine.execTransfer req wdata s
  | .transferRetry req wdata => Sys2Proof.Machine.execTransferRetry req wdata s
  | .readDp addr => Sys2Proof.Machine.execReadDp addr s
  | .writeDp addr value => Sys2Proof.Machine.execWriteDp addr value s
  | .readAp apaddr => Sys2Proof.Machine.execReadAp apaddr s
  | .writeAp apaddr value => Sys2Proof.Machine.execWriteAp apaddr value s
  | .sessionInit => Sys2Proof.Machine.execSessionInit s
  | .readWord addr => Sys2Proof.Machine.execReadWord addr s
  | .writeWord addr value => Sys2Proof.Machine.execWriteWord addr value s
  | .readByte addr => Sys2Proof.Machine.execReadByte addr s
  | .writeByte addr value => Sys2Proof.Machine.execWriteByte addr value s
  | .readBlock addr buf size => Sys2Proof.Machine.execReadBlock addr buf size s
  | .writeBlock addr buf size => Sys2Proof.Machine.execWriteBlock addr buf size s
  | .readMemory addr buf size => Sys2Proof.Machine.execReadMemory addr buf size s
  | .writeMemory addr buf size => Sys2Proof.Machine.execWriteMemory addr buf size s
  | .readCoreReg n => Sys2Proof.Machine.execReadCoreReg n s
  | .writeCoreReg n value => Sys2Proof.Machine.execWriteCoreReg n value s
  | .writeDebugState => Sys2Proof.Machine.execWriteDebugState s
  | .faInit base => Sys2Proof.Machine.execFaInit base s
  | .faUninit => Sys2Proof.Machine.execFaUninit s
  | .faProgramPage addr buf len => Sys2Proof.Machine.execFaProgramPage addr buf len s
  | .faEraseSector addr => Sys2Proof.Machine.execFaEraseSector addr s
  | .faEraseChip => Sys2Proof.Machine.execFaEraseChip s
  | .faVerify addr size crc => Sys2Proof.Machine.execFaVerify addr size crc s
  | .faSetRdp => Sys2Proof.Machine.execFaSetRdp s
  | .faSectorIsBoundary addr => Sys2Proof.Machine.execFaSectorIsBoundary addr s
  | .faSyscall entry a1 a2 a3 a4 => Sys2Proof.Machine.execFaSyscall entry a1 a2 a3 a4 s
  | .lcConnect => Sys2Proof.Machine.execLcConnect s
  | .lcPowerUp => Sys2Proof.Machine.execLcPowerUp s
  | .lcResetHalt => Sys2Proof.Machine.execLcResetHalt s
  | .lcResetRun => Sys2Proof.Machine.execLcResetRun s
  | .lcHalt => Sys2Proof.Machine.execLcHalt s
  | .lcRun => Sys2Proof.Machine.execLcRun s
  | .lcSoftResetHalt => Sys2Proof.Machine.execLcSoftResetHalt s
  | .reqDpWr0 => Sys2Proof.Machine.execReqDpWr0 s
  | .reqApWr0 => Sys2Proof.Machine.execReqApWr0 s
  | .reqDpRd0 => Sys2Proof.Machine.execReqDpRd0 s
  | .reqApRd0 => Sys2Proof.Machine.execReqApRd0 s
  | .reqDpWr4 => Sys2Proof.Machine.execReqDpWr4 s
  | .reqApWr4 => Sys2Proof.Machine.execReqApWr4 s
  | .reqDpRd4 => Sys2Proof.Machine.execReqDpRd4 s
  | .reqApRd4 => Sys2Proof.Machine.execReqApRd4 s
  | .reqDpWr8 => Sys2Proof.Machine.execReqDpWr8 s
  | .reqApWr8 => Sys2Proof.Machine.execReqApWr8 s
  | .reqDpRd8 => Sys2Proof.Machine.execReqDpRd8 s
  | .reqApRd8 => Sys2Proof.Machine.execReqApRd8 s
  | .reqDpWrC => Sys2Proof.Machine.execReqDpWrC s
  | .reqApWrC => Sys2Proof.Machine.execReqApWrC s
  | .reqDpRdC => Sys2Proof.Machine.execReqDpRdC s
  | .reqApRdC => Sys2Proof.Machine.execReqApRdC s
  | .ackOk => Sys2Proof.Machine.execAckOk s
  | .ackWait => Sys2Proof.Machine.execAckWait s
  | .ackFault => Sys2Proof.Machine.execAckFault s

end Sys2Proof.Machine
end

