-- ==== Sys2Proof/WellFormed.lean ====
section
/-! DEFINITION. Well-formed instructions: the operand preconditions of 20_memory.md R70 that depend on
the operands alone. An ill-formed command is still a command: it ends in `F_PRECOND` (R155, R345). -/

namespace Sys2Proof

open Machine in
/-- The operands have the form R70 requires. -/
def Instr.wellFormed : Instr → Bool
  | .readDp a => dpAddrOk a
  | .writeDp a _ => dpAddrOk a
  | .readAp a => apAddrOk a
  | .writeAp a _ => apAddrOk a
  | .readWord a => wordAligned a
  | .writeWord a _ => wordAligned a
  | .readBlock a _ n => blockShapeOk a n
  | .writeBlock a _ n => blockShapeOk a n
  | .readCoreReg n => coreRegOk n
  | .writeCoreReg n _ => coreRegOk n
  | .clockPulse | .setDir _ | .writeBit _ | .readBit => true
  | .transfer _ _ | .transferRetry _ _ | .sessionInit => true
  | .readByte _ | .writeByte _ _ | .readMemory _ _ _ | .writeMemory _ _ _ => true
  | .writeDebugState => true
  | .faInit _ | .faUninit | .faProgramPage _ _ _ | .faEraseSector _ | .faEraseChip => true
  | .faVerify _ _ _ | .faSetRdp | .faSectorIsBoundary _ | .faSyscall _ _ _ _ _ => true
  | .lcConnect | .lcPowerUp | .lcResetHalt | .lcResetRun | .lcHalt | .lcRun => true
  | .lcSoftResetHalt => true
  | .reqDpWr0 | .reqApWr0 | .reqDpRd0 | .reqApRd0 | .reqDpWr4 | .reqApWr4 | .reqDpRd4 | .reqApRd4 => true
  | .reqDpWr8 | .reqApWr8 | .reqDpRd8 | .reqApRd8 | .reqDpWrC | .reqApWrC | .reqDpRdC | .reqApRdC => true
  | .ackOk | .ackWait | .ackFault => true

end Sys2Proof
end

