-- ==== Sys2Proof/Decode.lean ====
section
/-! DEFINITION. The decoder and the encoder (30_encoding.md). OB-SWD has two encodings: commands (an
opcode byte and the operand registers, R103 to R106) and the wire's request headers and acknowledges
(R91 to R96). The decoder is total on all three formats and rejects by name. -/

namespace Sys2Proof

/-- An encoded instruction, in one of the table's three formats. -/
inductive Code where
  /-- Format CMD: the value of `CMD.OP` and the contents of `ARG[0..4]` at that moment (R103). -/
  | cmd (op : Byte) (args : Args)
  /-- Format SWDREQ: a request header, wire index `i` in bit `i` (R92). -/
  | req (header : Byte)
  /-- Format SWDACK: the three acknowledge bits, the first sampled in bit 0 (R95). -/
  | ack (value : Ack)
deriving DecidableEq, Repr

/-- Why a code is no instruction. -/
inductive DecodeError where
  /-- A value of `CMD.OP` that is not in the table of R104 (R106). -/
  | illegalOpcode (op : Byte)
  /-- A byte that is none of the sixteen request headers (R94, R107). -/
  | notARequest (header : Byte)
  /-- An acknowledge that is none of OK, WAIT, FAULT: the spec's `NoReply` (R96). -/
  | malformedAck (value : Ack)
deriving DecidableEq, Repr

/-- The direction operand: bit 0 of `ARG[0]`, 1 output, 0 input (R105, R125). -/
def decodeDir (a : Word) : Dir := if a.getLsbD 0 then .output else .input

/-- The command opcodes of R104 with the operand binding of R105. Unused registers and unused bits of a
used register are ignored (R106). -/
def decodeCmd (op : Byte) (a : Args) : Option Instr :=
  match op.toNat with
  | 0x00 => some .clockPulse
  | 0x01 => some (.setDir (decodeDir a.a0))
  | 0x02 => some (.writeBit (a.a0.getLsbD 0))
  | 0x03 => some .readBit
  | 0x10 => some (.transfer (a.a0.setWidth 4) a.a1)
  | 0x11 => some (.transferRetry (a.a0.setWidth 4) a.a1)
  | 0x12 => some (.readDp a.a0)
  | 0x13 => some (.writeDp a.a0 a.a1)
  | 0x14 => some (.readAp a.a0)
  | 0x15 => some (.writeAp a.a0 a.a1)
  | 0x1F => some .sessionInit
  | 0x20 => some (.readWord a.a0)
  | 0x21 => some (.writeWord a.a0 a.a1)
  | 0x22 => some (.readByte a.a0)
  | 0x23 => some (.writeByte a.a0 (a.a1.setWidth 8))
  | 0x24 => some (.readBlock a.a0 a.a1 a.a2)
  | 0x25 => some (.writeBlock a.a0 a.a1 a.a2)
  | 0x26 => some (.readMemory a.a0 a.a1 a.a2)
  | 0x27 => some (.writeMemory a.a0 a.a1 a.a2)
  | 0x28 => some (.readCoreReg a.a0)
  | 0x29 => some (.writeCoreReg a.a0 a.a1)
  | 0x2A => some .writeDebugState
  | 0x30 => some (.faInit a.a0)
  | 0x31 => some .faUninit
  | 0x32 => some (.faProgramPage a.a0 a.a1 a.a2)
  | 0x33 => some (.faEraseSector a.a0)
  | 0x34 => some .faEraseChip
  | 0x35 => some (.faVerify a.a0 a.a1 a.a2)
  | 0x36 => some .faSetRdp
  | 0x37 => some (.faSectorIsBoundary a.a0)
  | 0x38 => some (.faSyscall a.a0 a.a1 a.a2 a.a3 a.a4)
  | 0x40 => some .lcConnect
  | 0x41 => some .lcPowerUp
  | 0x42 => some .lcResetHalt
  | 0x43 => some .lcResetRun
  | 0x44 => some .lcHalt
  | 0x45 => some .lcRun
  | 0x46 => some .lcSoftResetHalt
  | _ => none

/-- The sixteen request headers (R94). -/
def decodeReq (header : Byte) : Option Instr :=
  match header.toNat with
  | 0x81 => some .reqDpWr0
  | 0xA3 => some .reqApWr0
  | 0xA5 => some .reqDpRd0
  | 0x87 => some .reqApRd0
  | 0xA9 => some .reqDpWr4
  | 0x8B => some .reqApWr4
  | 0x8D => some .reqDpRd4
  | 0xAF => some .reqApRd4
  | 0xB1 => some .reqDpWr8
  | 0x93 => some .reqApWr8
  | 0x95 => some .reqDpRd8
  | 0xB7 => some .reqApRd8
  | 0x99 => some .reqDpWrC
  | 0xBB => some .reqApWrC
  | 0xBD => some .reqDpRdC
  | 0x9F => some .reqApRdC
  | _ => none

/-- The three legal acknowledges; every other value is malformed (R96). -/
def decodeAck (v : Ack) : Option Instr :=
  match v.toNat with
  | 1 => some .ackOk
  | 2 => some .ackWait
  | 4 => some .ackFault
  | _ => none

/-- The decoder: total, rejecting by name. -/
def decode : Code → Except DecodeError Instr
  | .cmd op args =>
    match decodeCmd op args with
    | some i => .ok i
    | none => .error (.illegalOpcode op)
  | .req h =>
    match decodeReq h with
    | some i => .ok i
    | none => .error (.notARequest h)
  | .ack v =>
    match decodeAck v with
    | some i => .ok i
    | none => .error (.malformedAck v)

/-! ### The encoder -/

/-- Operand registers with the given first values and zeros behind them. -/
def argsOf (a0 a1 a2 a3 a4 : Word) : Args := ⟨a0, a1, a2, a3, a4⟩

/-- A one-bit operand in bit 0 (R105). -/
def encodeBit (b : Bool) : Word := if b then 1 else 0

/-- The direction operand (R105). -/
def encodeDir : Dir → Word
  | .output => 1
  | .input => 0

/-- The encoder: the opcode of R104 with its operands placed by R105 and zeros in the unused registers
and bits, the header byte of R94, the acknowledge of R96. -/
def encode : Instr → Code
  | .clockPulse => .cmd 0x00 (argsOf 0 0 0 0 0)
  | .setDir d => .cmd 0x01 (argsOf (encodeDir d) 0 0 0 0)
  | .writeBit b => .cmd 0x02 (argsOf (encodeBit b) 0 0 0 0)
  | .readBit => .cmd 0x03 (argsOf 0 0 0 0 0)
  | .transfer r w => .cmd 0x10 (argsOf (r.setWidth 32) w 0 0 0)
  | .transferRetry r w => .cmd 0x11 (argsOf (r.setWidth 32) w 0 0 0)
  | .readDp a => .cmd 0x12 (argsOf a 0 0 0 0)
  | .writeDp a v => .cmd 0x13 (argsOf a v 0 0 0)
  | .readAp a => .cmd 0x14 (argsOf a 0 0 0 0)
  | .writeAp a v => .cmd 0x15 (argsOf a v 0 0 0)
  | .sessionInit => .cmd 0x1F (argsOf 0 0 0 0 0)
  | .readWord a => .cmd 0x20 (argsOf a 0 0 0 0)
  | .writeWord a v => .cmd 0x21 (argsOf a v 0 0 0)
  | .readByte a => .cmd 0x22 (argsOf a 0 0 0 0)
  | .writeByte a b => .cmd 0x23 (argsOf a (b.setWidth 32) 0 0 0)
  | .readBlock a o n => .cmd 0x24 (argsOf a o n 0 0)
  | .writeBlock a o n => .cmd 0x25 (argsOf a o n 0 0)
  | .readMemory a o n => .cmd 0x26 (argsOf a o n 0 0)
  | .writeMemory a o n => .cmd 0x27 (argsOf a o n 0 0)
  | .readCoreReg n => .cmd 0x28 (argsOf n 0 0 0 0)
  | .writeCoreReg n v => .cmd 0x29 (argsOf n v 0 0 0)
  | .writeDebugState => .cmd 0x2A (argsOf 0 0 0 0 0)
  | .faInit b => .cmd 0x30 (argsOf b 0 0 0 0)
  | .faUninit => .cmd 0x31 (argsOf 0 0 0 0 0)
  | .faProgramPage a o n => .cmd 0x32 (argsOf a o n 0 0)
  | .faEraseSector a => .cmd 0x33 (argsOf a 0 0 0 0)
  | .faEraseChip => .cmd 0x34 (argsOf 0 0 0 0 0)
  | .faVerify a n c => .cmd 0x35 (argsOf a n c 0 0)
  | .faSetRdp => .cmd 0x36 (argsOf 0 0 0 0 0)
  | .faSectorIsBoundary a => .cmd 0x37 (argsOf a 0 0 0 0)
  | .faSyscall e a1 a2 a3 a4 => .cmd 0x38 (argsOf e a1 a2 a3 a4)
  | .lcConnect => .cmd 0x40 (argsOf 0 0 0 0 0)
  | .lcPowerUp => .cmd 0x41 (argsOf 0 0 0 0 0)
  | .lcResetHalt => .cmd 0x42 (argsOf 0 0 0 0 0)
  | .lcResetRun => .cmd 0x43 (argsOf 0 0 0 0 0)
  | .lcHalt => .cmd 0x44 (argsOf 0 0 0 0 0)
  | .lcRun => .cmd 0x45 (argsOf 0 0 0 0 0)
  | .lcSoftResetHalt => .cmd 0x46 (argsOf 0 0 0 0 0)
  | .reqDpWr0 => .req 0x81
  | .reqApWr0 => .req 0xA3
  | .reqDpRd0 => .req 0xA5
  | .reqApRd0 => .req 0x87
  | .reqDpWr4 => .req 0xA9
  | .reqApWr4 => .req 0x8B
  | .reqDpRd4 => .req 0x8D
  | .reqApRd4 => .req 0xAF
  | .reqDpWr8 => .req 0xB1
  | .reqApWr8 => .req 0x93
  | .reqDpRd8 => .req 0x95
  | .reqApRd8 => .req 0xB7
  | .reqDpWrC => .req 0x99
  | .reqApWrC => .req 0xBB
  | .reqDpRdC => .req 0xBD
  | .reqApRdC => .req 0x9F
  | .ackOk => .ack 1
  | .ackWait => .ack 2
  | .ackFault => .ack 4

/-! ### The table's words -/

/-- The operand registers a longer command word carries: `ARG[k]` in bits `8 + 32 k` and up. -/
def argsOfNat (w : Nat) : Args :=
  argsOf (BitVec.ofNat 32 (w / 2 ^ 8)) (BitVec.ofNat 32 (w / 2 ^ 40)) (BitVec.ofNat 32 (w / 2 ^ 72))
    (BitVec.ofNat 32 (w / 2 ^ 104)) (BitVec.ofNat 32 (w / 2 ^ 136))

/-- The code a word of spec/opcode_table.json stands for. The table holds three formats in one list and
gives a word no mark of its format, so the formats are tried in the table's order: a command, then a
request header, then an acknowledge (log 2). A word of at most 3 bits is an acknowledge. -/
def tableCode (nbits w : Nat) : Code :=
  if nbits ≤ 3 then .ack (BitVec.ofNat 3 w)
  else if (decodeCmd (BitVec.ofNat 8 w) (argsOfNat w)).isSome then .cmd (BitVec.ofNat 8 w) (argsOfNat w)
  else if (decodeReq (BitVec.ofNat 8 w)).isSome then .req (BitVec.ofNat 8 w)
  else if w < 8 && (decodeAck (BitVec.ofNat 3 w)).isSome then .ack (BitVec.ofNat 3 w)
  else .cmd (BitVec.ofNat 8 w) (argsOfNat w)

/-- The instruction the decoder reads from a word of the table. -/
def decodeTableWord (nbits w : Nat) : Option Instr :=
  match decode (tableCode nbits w) with
  | .ok i => some i
  | .error _ => none

end Sys2Proof
end

