-- ==== Sys2Proof/Machine/Fetch.lean ====
section
/-! DEFINITION. What a step takes next: the hardware reset, a host action, or the sequencer's next phase. Here
stand the fetch of a command (10_state.md R26), of a request header and of an acknowledge (log 2), the host's
register writes (R355) and the hardware reset (70_reset_and_hazards.md R380). -/

namespace Sys2Proof.Machine

/-- What a step has to do: run an instruction at a state, or nothing more than an outcome. -/
inductive Fetched where
  | run (i : Instr) (s : State)
  | done (o : Outcome)

/-! ### Hardware reset -/

/-- The hardware reset (R44, R380): every piece of OB-SWD's state takes its reset value. What is not OB-SWD's
state stays: the host's queue and descriptor input, the oracle, the properties of the build (log 18). When it is taken: log 25. -/
def State.hardReset (s : State) (rest : List HostAction) : State :=
  { State.reset with
    link := Link.reset.setWire { Wire.reset with lineIn := s.link.wire.lineIn, draws := s.link.wire.draws }
    cfg := { Config.default with bufSize := s.cfg.bufSize, sectorMax := s.cfg.sectorMax }
    descIn := s.descIn
    host := rest
    free := s.free }

/-! ### Host writes -/

/-- Write one operand register (R26). -/
def argWrite (a : Args) (k : Fin 5) (v : Word) : Args :=
  match k with
  | 0 => { a with a0 := v }
  | 1 => { a with a1 := v }
  | 2 => { a with a2 := v }
  | 3 => { a with a3 := v }
  | 4 => { a with a4 := v }

/-- Write one register of `DS` (R24). -/
def dsWrite (d : Ds) (r : DsReg) (v : Word) : Ds :=
  match r with
  | .r0 => { d with r0 := v }
  | .r1 => { d with r1 := v }
  | .r2 => { d with r2 := v }
  | .r3 => { d with r3 := v }
  | .r9 => { d with r9 := v }
  | .r13 => { d with r13 := v }
  | .r14 => { d with r14 := v }
  | .r15 => { d with r15 := v }
  | .xpsr => { d with xpsr := v }

/-- A `CFG` bank may replace another: every field in its legal range and the build's properties unchanged
(R9, R385; log 9). -/
def cfgWritable (old new : Cfg) : Bool :=
  cfgLegal new && new.bufSize = old.bufSize && new.sectorMax = old.sectorMax

/-- A descriptor fits the bank: at most `CFG.SECTOR_MAX` sectors, a size that 32 bits count (R36; log 16). -/
def descriptorFits (c : Cfg) (d : Descriptor) : Bool :=
  d.sect.length ≤ c.sectorMax && d.code.length < 2 ^ 32

/-- A host action other than `writeOp` and `assertReset`, in a state that is not busy (R355). -/
def hostWrite (a : HostAction) (s : State) : Outcome :=
  match a with
  | .writeArg k v => .next (s.setArg (argWrite s.arg k v))
  | .writeDs r v => .next (s.setDs (dsWrite s.ds r v))
  | .writeBuf off b => if off < s.cfg.bufSize then .next (s.setBuf (s.buf.write off b)) else .fault .bufOffsetAbsent
  | .writeCfg c => if cfgWritable s.cfg c then .next (s.setCfg c) else .refused .cfgOutOfRange
  | .present d => if descriptorFits s.cfg d then .next (s.setDescIn d) else .refused .descriptorTooLarge
  | .writeOp _ => .next s
  | .assertReset => .next s

/-! ### Fetch -/

/-- A write of `CMD.OP` while idle starts the operation it names; a value that is no opcode is refused
(R26, R103, R106). -/
def fetchCommand (op : Byte) (s : State) : Fetched :=
  match decode (.cmd op s.arg) with
  | .ok i => .run i (s.setCmdOp op)
  | .error _ => .done (.next (s.setCmdOp op).illegalOp)

/-- The next host action (R26, R333, R355). While `BUSY = 1` a write of `CMD.OP` is ignored (R26) and any other
write is refused (log 14). With nothing waiting OB-SWD is idle (R353, R380; log 13). -/
def fetchHost (s : State) : Fetched :=
  match s.host with
  | [] => .done (.next s)
  | .writeOp op :: rest =>
    if s.link.status.busy then .done (.next (s.setHost rest)) else fetchCommand op (s.setHost rest)
  | a :: rest =>
    if s.link.status.busy then .done (.refused .hostWriteWhileBusy) else .done (hostWrite a (s.setHost rest))

/-- `PHASE = REQ`: the header in `SHIFT[7:0]` (R27, R94; log 2). -/
def fetchRequest (s : State) : Fetched :=
  match decode (.req (s.link.seq.shift.setWidth 8)) with
  | .ok i => .run i s
  | .error _ => .done (.refused .notARequestHeader)

/-- `PHASE = ACK`: three sampled slots, then the acknowledge they show; a malformed one is `NoReply` and goes to
the back-off (R95, R96; log 2). -/
def fetchAck (s : State) : Fetched :=
  let t := s.setLink s.link.ackSample
  match decode (.ack t.link.seq.acksr) with
  | .ok i => .run i t
  | .error _ => .done (.next (t.setLink (t.link.ackPhase t.link.seq.acksr)))

/-- The sequencer's phases that fetch no word (R27). -/
def nextPhase (s : State) : Outcome := .next (s.setLink (s.link.advance s.cfg.turnaround))

/-- What is next where no reset is asserted: by `PHASE` (R27). -/
def fetchByPhase (s : State) : Fetched :=
  match s.link.seq.phase with
  | .idle => fetchHost s
  | .req => fetchRequest s
  | .ack => fetchAck s
  | .trn1 | .trn2 | .wdata | .rdata | .trn3 | .backoff => .done (nextPhase s)

/-- What a step does next; an asserted `RESET` at the head of the host's queue comes before everything (R380). When it is taken
is DESIGN CHOICE (log 25): between two steps, so between two phases of a frame that is stepped phase by phase, but before or after
a whole command and never inside one, since a command is one step. -/
def fetch (s : State) : Fetched :=
  match s.host with
  | .assertReset :: rest => .done (.next (s.hardReset rest))
  | _ => fetchByPhase s

/-! ### Placing a word where the next step fetches it -/

/-- The bits of an acknowledge in the order they are sampled (R95). -/
def ackBits (v : Ack) : List Bool := [v.getLsbD 0, v.getLsbD 1, v.getLsbD 2]

/-- The waiting actions without resets at the head. -/
def withoutReset : List HostAction → List HostAction
  | .assertReset :: rest => withoutReset rest
  | as => as

/-- The state in which the next step fetches the given code: a command is the next host write of `CMD.OP` with its
operands in `ARG`; a request header stands in `SHIFT` with `PHASE = REQ`; an acknowledge is what the released line
shows next with `PHASE = ACK` (logs 1 and 2). -/
def placeCode (c : Code) (s : State) : State :=
  match c with
  | .cmd op args =>
    (((s.setArg args).setHost (.writeOp op :: s.host)).setLink
      ((s.link.setSeq { s.link.seq with phase := .idle }).setStatus { s.link.status with busy := false }))
  | .req h =>
    (s.setHost (withoutReset s.host)).setLink
      (s.link.setSeq { s.link.seq.enter .req with shift := h.setWidth 32 })
  | .ack v =>
    (s.setHost (withoutReset s.host)).setLink
      ((s.link.enter .ack).setWire
        { s.link.wire.setDir .input with lineIn := ackBits v ++ s.link.wire.lineIn })

end Sys2Proof.Machine
end

