-- ==== Sys2Proof/Machine/Step.lean ====
section
/-! DEFINITION. One step of OB-SWD: what the fetch finds, run (00_scope.md R11, R16). -/

namespace Sys2Proof.Machine

/-- One step: a hardware reset, a host action, a command, or one phase of a frame in progress. -/
def step (s : State) : Host.Outcome State Fault Refusal :=
  match fetch s with
  | .run i t => exec i t
  | .done o => o

/-- The state with a word of the opcode table stored where the next step fetches it (logs 1 and 2). -/
def State.withFetchWord (s : State) (nbits w : Nat) : State := placeCode (tableCode nbits w) s

end Sys2Proof.Machine
end

