-- ==== Sys2Proof/Safety.lean ====
section
/-! DEFINITION. The terms the statements use: the invariant of a safe run, what goes over the wire in a frame,
and what a target that lets an operation succeed answers (a dialogue, transfer by transfer). -/

namespace Sys2Proof.Machine

/-! ### The invariant of a safe run -/

/-- Every listed offset of `BUF` lies below `n` (R39). -/
def Memory.below (m : Memory) (n : Nat) : Bool := m.all (fun c => decide (c.1 < n))

/-- What holds between two steps of any run: `BUF` is canonical and inside its size (R39), every `CFG` field is
in its legal range (R9, with the added bounds of log 9), the clock rests high and `nRESET` is released (R22), no operation is in progress
(R353), `CAUSE` is 0 exactly when the last operation succeeded (R31), `ILLEGAL` only after an illegal opcode
(R30, R106); while a frame is in progress no slot of the phase at hand is clocked yet, and a data phase finds `PAR` of no bit and, for
a write, the write data in `SHIFT` (R28; between two phases the model's choice, logs 2 and 15). -/
structure Sound (s : State) : Prop where
  bufWf : s.buf.wf = true
  bufBelow : s.buf.below s.cfg.bufSize = true
  cfgOk : cfgLegal s.cfg = true
  clkHigh : s.link.wire.line.clk = true
  resetReleased : s.link.wire.line.nreset = true
  notBusy : s.link.status.busy = false
  failIffCause : s.link.status.fail = decide (s.cause ≠ .none)
  illegalCause : s.link.status.illegal = true → s.cause = .illegalOp
  counting : s.link.seq.phase ≠ .idle → s.link.seq.bitcnt = 0
  loaded : s.link.seq.phase = .wdata → s.link.seq.shift = s.link.seq.xwdata
  parityClear : s.link.seq.phase = .wdata ∨ s.link.seq.phase = .rdata → s.link.seq.par = false

/-- Every step of a run that starts in reset leaves `PHASE = IDLE`: a command runs whole frames (R27). -/
def AtRest (s : State) : Prop := s.link.seq.phase = .idle

/-! ### Slots of a frame -/

/-- Slots in which OB-SWD drives the given levels. -/
def driven (bs : List Bool) : List Event := bs.map (Event.slot .output)

/-- Released slots that showed the given levels. -/
def released (bs : List Bool) : List Event := bs.map (Event.slot .input)

/-- The acknowledge OK in wire order (R96). -/
def okBits : List Bool := [true, false, false]

/-- The acknowledge WAIT in wire order (R96). -/
def waitBits : List Bool := [false, true, false]

/-- The acknowledge FAULT in wire order (R96). -/
def faultBits : List Bool := [false, false, true]

/-- The slots of a read acknowledged OK: header, released gap, acknowledge, data and parity, released gap
(R100). -/
def okReadSlots (r : Req) (g data h : List Bool) : List Event :=
  driven (headerBits r) ++ released (g ++ okBits ++ data ++ h)

/-- The slots of a write acknowledged OK: header, released gap, acknowledge, released gap, driven data and
parity (R100). -/
def okWriteSlots (r : Req) (g h : List Bool) (wdata : Word) : List Event :=
  driven (headerBits r) ++ released (g ++ okBits ++ h) ++ driven (dataBits wdata)

/-- The slots of a frame without a data phase: header, released gap, acknowledge, released gap or back-off
(R100). -/
def shortSlots (r : Req) (g ack h : List Bool) : List Event :=
  driven (headerBits r) ++ released (g ++ ack ++ h)

/-! ### Logical transfers -/

/-- The gaps of frames answered WAIT: for each frame the levels of its two turnarounds, which may be anything
(R143). -/
abbrev Waits := List (List Bool × List Bool)

/-- Each gap has the turnaround's length (R99). -/
def Waits.ok (n : Nat) (ws : Waits) : Prop := ∀ p ∈ ws, p.1.length = n ∧ p.2.length = n

/-- The levels of frames answered WAIT. -/
def Waits.levels (ws : Waits) : List Bool := ws.flatMap (fun p => p.1 ++ waitBits ++ p.2)

/-- The slots of frames answered WAIT, all with the same request (R150). -/
def Waits.slots (r : Req) (ws : Waits) : List Event := ws.flatMap (fun p => shortSlots r p.1 waitBits p.2)

/-- The levels `b` and slots `e` of a logical transfer with request `r` that writes `w` and ends OK: fewer than
`CFG.RETRY` frames answered WAIT, then one answered OK (R100, R150, R153). -/
def WriteOk (c : Cfg) (r : Req) (w : Word) (b : List Bool) (e : List Event) : Prop :=
  ∃ (ws : Waits) (g h : List Bool), ws.length < c.retry ∧ ws.ok c.turnaround ∧ g.length = c.turnaround
    ∧ h.length = c.turnaround ∧ b = ws.levels ++ (g ++ okBits ++ h) ∧ e = ws.slots r ++ okWriteSlots r g h w

/-- The same for a logical transfer that reads `d`, with its parity bit right (R98, R100, R150). -/
def ReadOk (c : Cfg) (r : Req) (d : Word) (b : List Bool) (e : List Event) : Prop :=
  ∃ (ws : Waits) (g h : List Bool), ws.length < c.retry ∧ ws.ok c.turnaround ∧ g.length = c.turnaround
    ∧ h.length = c.turnaround ∧ b = ws.levels ++ (g ++ okBits ++ dataBits d ++ h)
    ∧ e = ws.slots r ++ okReadSlots r g (dataBits d) h

/-- The levels and slots of a logical transfer that does not end OK, and its result (R100, R150 to R152): the
target answers FAULT, or nothing well formed, or WAIT `CFG.RETRY` times. -/
def NotOk (c : Cfg) (r : Req) (b : List Bool) (e : List Event) (x : AckResult) : Prop :=
  ∃ (ws : Waits), ws.ok c.turnaround ∧
    ((ws.length = c.retry ∧ x = .fault ∧ b = ws.levels ∧ e = ws.slots r) ∨
     (ws.length < c.retry ∧ ∃ (g k h : List Bool), g.length = c.turnaround ∧ k.length = 3
        ∧ b = ws.levels ++ (g ++ k ++ h) ∧ e = ws.slots r ++ shortSlots r g k h
        ∧ ((k = faultBits ∧ h.length = c.turnaround ∧ x = .fault) ∨
           (ackTail (ackOfBits k) = .backoff ∧ h.length = c.turnaround + 33 ∧ x = .noReply))))

/-- The levels and slots of a logical transfer that reads `d` with its parity bit wrong (R98, R146). -/
def BadParity (c : Cfg) (r : Req) (d : Word) (b : List Bool) (e : List Event) : Prop :=
  ∃ (ws : Waits) (g h : List Bool), ws.length < c.retry ∧ ws.ok c.turnaround ∧ g.length = c.turnaround
    ∧ h.length = c.turnaround ∧ b = ws.levels ++ (g ++ okBits ++ (wordBits d ++ [!parity32 d]) ++ h)
    ∧ e = ws.slots r ++ okReadSlots r g (wordBits d ++ [!parity32 d]) h

/-- A part of what an operation does on the wire when all goes well. -/
inductive Turn where
  /-- Events that OB-SWD makes by itself: driven slots, the reset pin. -/
  | sent (es : List Event)
  /-- A logical transfer that writes `w`. -/
  | write (r : Req) (w : Word)
  /-- A logical transfer that reads `d`. -/
  | read (r : Req) (d : Word)
  /-- A logical transfer that reads a word of no importance. -/
  | readAny (r : Req)
deriving DecidableEq, Repr

/-- The turn is a logical transfer. -/
def Turn.isTransfer : Turn → Bool
  | .sent _ => false
  | .write _ _ | .read _ _ | .readAny _ => true

/-- The levels and slots of a turn that goes well. -/
def Turn.answered (c : Cfg) : Turn → List Bool → List Event → Prop
  | .sent es, b, e => b = [] ∧ e = es
  | .write r w, b, e => WriteOk c r w b e
  | .read r d, b, e => ReadOk c r d b e
  | .readAny r, b, e => ∃ d, ReadOk c r d b e

/-- The levels and slots of a turn that does not go well, and the result (R346). -/
def Turn.failed (c : Cfg) : Turn → List Bool → List Event → AckResult → Prop
  | .sent _, _, _, _ => False
  | .write r _, b, e, x => NotOk c r b e x
  | .read r _, b, e, x | .readAny r, b, e, x =>
    NotOk c r b e x ∨ (x = .parityError ∧ ∃ d, BadParity c r d b e)

/-- The coming levels `b` let every turn go well, in order, and go on with `rest`; `e` are the events. -/
def Answered (c : Cfg) : List Turn → List Bool → List Event → List Bool → Prop
  | [], b, e, rest => b = rest ∧ e = []
  | t :: ts, b, e, rest =>
    ∃ b1 e1 b2 e2, t.answered c b1 e1 ∧ b = b1 ++ b2 ∧ e = e1 ++ e2 ∧ Answered c ts b2 e2 rest

/-- The coming levels let some turns go well and the next one end in `x`, and go on with `rest`; `e` are the
events up to there. -/
def Broken (c : Cfg) : List Turn → List Bool → List Event → List Bool → AckResult → Prop
  | [], _, _, _, _ => False
  | t :: ts, b, e, rest, x =>
    (∃ b1, t.failed c b1 e x ∧ b = b1 ++ rest) ∨
      ∃ b1 e1 b2 e2, t.answered c b1 e1 ∧ b = b1 ++ b2 ∧ e = e1 ++ e2 ∧ Broken c ts b2 e2 rest x

/-! ### Dialogues

A dialogue says, from the mirror an operation finds, its turns when each of them goes well, and the mirror it
leaves (R154, R167, R210). -/

/-- A dialogue. -/
abbrev Talk := Mirror → List Turn × Mirror

/-- Turns that do not concern the mirror. -/
def Talk.say (ts : List Turn) : Talk := fun m => (ts, m)

/-- A session initialisation (R176). -/
def Talk.forget : Talk := fun m => ([], m.clear)

/-- One dialogue after another. -/
def Talk.andThen (a b : Talk) : Talk := fun m => ((a m).1 ++ (b (a m).2).1, (b (a m).2).2)

/-- Dialogues in order. -/
def Talk.all : List Talk → Talk
  | [] => Talk.say []
  | a :: as => a.andThen (Talk.all as)

/-- A DP read that gives `d` (R156). -/
def talkReadDp (a d : Word) : Talk := Talk.say [.read (reqCode false true a) d]

/-- The drain, its data of no importance (R181). -/
def drainTurn (c : Cfg) : Turn := .readAny (reqCode false true c.dpRdbuff)

/-- `WRITE_DP(a, v)`: elided if the mirror holds it (R158). -/
def talkWriteDp (c : Cfg) (a v : Word) : Talk := fun m =>
  if a = c.dpSelect then
    (if m.hasSelect v then [] else [.write (reqCode false false a) v], m.holdSelect v)
  else ([.write (reqCode false false a) v], m)

/-- `SelectAP(apaddr)` (R159). -/
def talkSelect (c : Cfg) (apaddr : Word) : Talk := talkWriteDp c c.dpSelect (selectOf apaddr)

/-- The write of an AP register with its drain: elided if it is `CSW` and the mirror holds it (R166). -/
def talkApReg (c : Cfg) (apaddr v : Word) : Talk := fun m =>
  if isCsw c apaddr then
    (if m.hasCsw (apselOf apaddr) v then [] else [.write (reqCode true false apaddr) v, drainTurn c],
      m.holdCsw (apselOf apaddr) v)
  else ([.write (reqCode true false apaddr) v, drainTurn c], m)

/-- `WRITE_AP(apaddr, v)` (R166). -/
def talkWriteAp (c : Cfg) (apaddr v : Word) : Talk := (talkSelect c apaddr).andThen (talkApReg c apaddr v)

/-- `READ_AP(apaddr) -> d` (R162). -/
def talkReadAp (c : Cfg) (apaddr d : Word) : Talk :=
  (talkSelect c apaddr).andThen
    (Talk.say [.readAny (reqCode true true apaddr), .read (reqCode false true c.dpRdbuff) d])

/-- `SetMode(mode)`, `SetAddr(a)` (R181). -/
def talkAim (c : Cfg) (mode a : Word) : Talk :=
  (talkWriteAp c (memAp c c.apCsw) mode).andThen (talkWriteAp c (memAp c c.apTar) a)

/-- `READ_WORD(a) -> d` (R184). -/
def talkReadWord (c : Cfg) (a d : Word) : Talk :=
  (talkAim c c.cswWord a).andThen (talkReadAp c (memAp c c.apDrw) d)

/-- `WRITE_WORD(a, v)` (R186). -/
def talkWriteWord (c : Cfg) (a v : Word) : Talk :=
  (talkAim c c.cswWord a).andThen (talkWriteAp c (memAp c c.apDrw) v)

/-- `READ_BYTE(a)`, the target giving the word `d` (R190). -/
def talkReadByte (c : Cfg) (a d : Word) : Talk :=
  (talkAim c c.cswByte a).andThen (talkReadAp c (memAp c c.apDrw) d)

/-- `WRITE_BYTE(a, b)` (R192). -/
def talkWriteByte (c : Cfg) (a : Word) (b : Byte) : Talk :=
  (talkAim c c.cswByte a).andThen (talkWriteAp c (memAp c c.apDrw) (laneWord a b))

/-- The posted reads of a block after the first: every word but the last comes with a read of `DRW`, the last
with the drain (R196). -/
def postedReads (c : Cfg) : List Word → List Turn
  | [] => []
  | [d] => [.read (reqCode false true c.dpRdbuff) d]
  | d :: ds => .read (reqCode true true c.apDrw) d :: postedReads c ds

/-- A block read that delivers the words `ds` (R196). -/
def talkReadWords (c : Cfg) (a : Word) (ds : List Word) : Talk :=
  (talkAim c c.cswWord a).andThen
    ((talkSelect c (memAp c c.apDrw)).andThen
      (Talk.say (.readAny (reqCode true true c.apDrw) :: postedReads c ds)))

/-- The words of a range of bytes. -/
def wordsAt (src : Nat → Byte) : Nat → Nat → List Word
  | 0, _ => []
  | k + 1, o => wordAt src o :: wordsAt src k (o + 4)

/-- A block write of the words `ws` (R200). -/
def talkWriteWords (c : Cfg) (a : Word) (ws : List Word) : Talk :=
  (talkAim c c.cswWord a).andThen
    ((talkSelect c (memAp c c.apDrw)).andThen
      (Talk.say (ws.map (Turn.write (reqCode true false c.apDrw)) ++ [drainTurn c])))

/-! ### Polls, core registers, remote calls -/

/-- Reads of the word at `CFG.DHCSR` that deliver `ws` (R222, R244). -/
def talkPolls (c : Cfg) (ws : List Word) : Talk := Talk.all (ws.map (talkReadWord c c.dhcsr))

/-- The polls `ws` end a loop with cap `cap`: not more than the cap, the test true of the last and of no other
(R222, R244, R284, R286). -/
def pollsEnd (cap : Nat) (done : Word → Bool) (ws : List Word) : Prop :=
  ∃ (front : List Word) (last : Word), ws = front ++ [last] ∧ ws.length ≤ cap
    ∧ (∀ w ∈ front, done w = false) ∧ done last = true

/-- The polls `ws` use a loop's cap up without showing what it waits for. -/
def pollsFail (cap : Nat) (done : Word → Bool) (ws : List Word) : Prop :=
  ws ≠ [] ∧ ws.length = cap ∧ ∀ w ∈ ws, done w = false

/-- The ready flag in a word at `CFG.DHCSR` (R220). -/
def ready (c : Cfg) (w : Word) : Bool := w.getLsbD c.sRegrdy

/-- The halted status in a word at `CFG.DHCSR` (R244). -/
def halted (c : Cfg) (w : Word) : Bool := w.getLsbD c.sHalt

/-- `WRITE_CORE_REG(n, v)` with the ready polls `ws` (R228). -/
def talkWriteCore (c : Cfg) (n v : Word) (ws : List Word) : Talk :=
  (talkWriteWord c c.dcrdr v).andThen
    ((talkWriteWord c c.dcrsr (selectorWrite c n)).andThen (talkPolls c ws))

/-- `READ_CORE_REG(n) -> d` with the ready polls `ws` (R224). -/
def talkReadCore (c : Cfg) (n d : Word) (ws : List Word) : Talk :=
  (talkWriteWord c c.dcrsr (selectorRead n)).andThen
    ((talkPolls c ws).andThen (talkReadWord c c.dcrdr d))

/-- The register loads of `WRITE_DEBUG_STATE`, each with its ready polls (R232). -/
def talkLoads (c : Cfg) : List ((Word × Word) × List Word) → Talk
  | [] => Talk.say []
  | ((n, v), ws) :: rest => (talkWriteCore c n v ws).andThen (talkLoads c rest)

/-- `WRITE_DEBUG_STATE()` with the staged registers `d`, the ready polls `wss` and the `CTRL/STAT` value `stat`
(R232). -/
def talkDebugState (c : Cfg) (d : Ds) (wss : List (List Word)) (stat : Word) : Talk :=
  (talkLoads c (d.loads.zip wss)).andThen
    ((talkWriteWord c c.dhcsr (debugEnableWord c)).andThen (talkReadDp c.dpCtrlstat stat))

/-- `DS` with xPSR forced to Thumb state (R232). -/
def thumbDs (c : Cfg) (d : Ds) : Ds := { d with xpsr := c.xpsrThumb }

/-- The ready polls of the nine loads all end (R222). -/
def loadsReady (c : Cfg) (wss : List (List Word)) : Prop :=
  wss.length = 9 ∧ ∀ ws ∈ wss, pollsEnd c.regrdyPolls (ready c) ws

/-- `POLLCNT` after a loop of `k` polls (R29). -/
def Loops.polled (lo : Loops) (k : Nat) : Loops := { lo with pollcnt := BitVec.ofNat 32 k }

/-- What the target answers in one remote call (R244). -/
structure Call where
  /-- The ready polls of the nine register loads. -/
  loads : List (List Word)
  /-- The `CTRL/STAT` value after the start. -/
  stat : Word
  /-- The polls of the halted status. -/
  halt : List Word
  /-- The ready polls of the harvest. -/
  harvest : List Word
  /-- The target's R0 after the call. -/
  r0 : Word
deriving DecidableEq, Repr

/-- The call is started without a sticky bit (R232). -/
def Call.started (c : Cfg) (k : Call) : Prop := loadsReady c k.loads ∧ stickySet c k.stat = false

/-- The call runs to its harvest: it is started, the halt is seen, the harvest's ready poll ends (R244). -/
def Call.good (c : Cfg) (k : Call) : Prop :=
  k.started c ∧ pollsEnd c.syscallPolls (halted c) k.halt ∧ pollsEnd c.regrdyPolls (ready c) k.harvest

/-- The registers a remote call stages, xPSR forced (R232, R244). -/
def stagedDs (c : Cfg) (f : Descriptor) (entry a1 a2 a3 a4 : Word) : Ds :=
  ⟨a1, a2, a3, a4, f.staticBase, f.stackPtr, f.bkpt, entry, c.xpsrThumb⟩

/-- The dialogue of a remote call up to the polls of the halted status (R244). -/
def talkStart (c : Cfg) (d : Ds) (k : Call) : Talk :=
  (talkDebugState c d k.loads k.stat).andThen (talkPolls c k.halt)

/-- The dialogue of a remote call (R244). -/
def talkCall (c : Cfg) (d : Ds) (k : Call) : Talk :=
  (talkStart c d k).andThen (talkReadCore c 0 k.r0 k.harvest)

/-- The state after a remote call but for the link: the staged registers, the polls of the harvest, the harvested
value (R244). -/
def State.called (s : State) (d : Ds) (k : Call) : State :=
  ((s.setDs d).setLoops (s.loops.polled k.harvest.length)).setRet k.r0

/-! ### Lifecycle -/

/-- A line reset: that many driven ones (R281). -/
def lineResetTurn (c : Cfg) : Turn := .sent (driven (List.replicate c.lineResetClocks true))

/-- The reset pulse on the reset pin (R285). -/
def pulseTurn : Turn := .sent [.resetAssert, .resetRelease]

/-- `LC_CONNECT() -> idcode` (R282). -/
def talkConnect (c : Cfg) (idcode : Word) : Talk :=
  Talk.forget.andThen
    ((Talk.say [lineResetTurn c, .sent (driven c.switchSeq), lineResetTurn c,
        .sent (driven (List.replicate c.lineIdleClocks false))]).andThen (talkReadDp c.dpIdcode idcode))

/-- `LC_POWER_UP()` with the polls `ws` (R284). -/
def talkPowerUp (c : Cfg) (ws : List Word) : Talk :=
  (talkWriteDp c c.dpAbort c.abortClear).andThen
    ((talkWriteDp c c.dpSelect 0).andThen
      ((talkWriteDp c c.dpCtrlstat c.pwrReq).andThen (Talk.all (ws.map (talkReadDp c.dpCtrlstat)))))

/-- A reset pulse with its session initialisation (R285). -/
def talkPulse : Talk := (Talk.say [pulseTurn]).andThen Talk.forget

/-- Step 3' of R291: the write of `AIRCR` and the session initialisation. -/
def talkSoftReset (c : Cfg) : Talk := (talkWriteWord c c.aircr c.aircrReset).andThen Talk.forget

/-- The debug-enable write of step 1 of R286. -/
def talkEnable (c : Cfg) : Talk := talkWriteWord c c.dhcsr (debugEnableWord c)

/-- Steps 2 to 5 of R286, step 3 being the given one, with the polls `ws` of step 4. -/
def talkResetSteps (c : Cfg) (step3 : Talk) (ws : List Word) : Talk :=
  (talkWriteWord c c.demcr (bitMask c.vcCorereset)).andThen
    (step3.andThen ((talkPolls c ws).andThen (talkWriteWord c c.demcr 0)))

/-- The five steps of R286 when the first debug-enable write succeeds. -/
def talkResetHaltWith (c : Cfg) (step3 : Talk) (ws : List Word) : Talk :=
  (talkEnable c).andThen (talkResetSteps c step3 ws)

/-- `ResetHalt()` (R295). -/
def talkResetHalt (c : Cfg) (ws : List Word) : Talk :=
  talkResetHaltWith c (if c.softReset then talkSoftReset c else talkPulse) ws

/-- The debug-enable write fails `k` times in a row, with a reset pulse after each time but the last (R286 step 1).
After a pulse the mirror is invalid. -/
def EnableFails (c : Cfg) : Nat → Mirror → List Bool → List Event → List Bool → Prop
  | 0, _, _, _, _ => False
  | 1, m, b, e, rest => ∃ x, Broken c (talkEnable c m).1 b e rest x
  | k + 2, m, b, e, rest =>
    ∃ x e1 b2 e2, Broken c (talkEnable c m).1 b e1 b2 x ∧ e = e1 ++ [.resetAssert, .resetRelease] ++ e2
      ∧ EnableFails c (k + 1) Mirror.reset b2 e2 rest

/-! ### What a command leaves -/

/-- `ACKRAW`, `RESULT` and `RETRYX` after turns that all went well: those of the last transfer, unchanged where
there was none (R141, R150, R158). -/
def Status.moved (s : Status) (ts : List Turn) : Status :=
  if ts.any Turn.isTransfer then { s with ackraw := 1, result := .ok, retryx := false } else s

/-- The idle state of the pins after a transfer, the sequencer at rest (R22, R27, R344). -/
def AtIdle (l : Link) : Prop := l.wire.line.dir = .output ∧ l.wire.line.dout = true ∧ l.seq.phase = .idle

/-- What a command that follows its dialogue to the end leaves on the link: the events of the turns and no others,
the levels after them, the dialogue's mirror, `STATUS` with `FAIL` as the failure kind `c` says and `FAXST` as given
(R353, R381); after a transfer the line is driven high and the sequencer is idle (R22), and without any turn the pins
and the sequencer are as they were. -/
structure Done (l l' : Link) (said : List Turn × Mirror) (e : List Event) (rest : List Bool) (f : FlashStatus)
    (c : Cause) : Prop where
  trace : l'.wire.trace = l.wire.trace ++ e
  levels : l'.wire.lineIn = rest
  draws : l'.wire.draws = l.wire.draws
  mirror : l'.mir = said.2
  status : l'.status =
    { l.status.moved said.1 with fail := decide (c ≠ .none), faxst := f, illegal := false, busy := false }
  pins : said.1.getLast?.any Turn.isTransfer = true → AtIdle l'
  still : said.1 = [] → l'.wire = l.wire ∧ l'.seq = l.seq

/-- What a command leaves on the link when a transfer in it ends in `x`, no failure of its own being caught: the events
up to there and no others, `STATUS.RESULT` the result, `FAIL` set (R342, R344, R346). -/
structure CutOff (l l' : Link) (e : List Event) (rest : List Bool) (x : AckResult) : Prop where
  trace : l'.wire.trace = l.wire.trace ++ e
  levels : l'.wire.lineIn = rest
  result : l'.status.result = x
  fail : l'.status.fail = true
  busy : l'.status.busy = false
  pins : AtIdle l'

/-! ### The walk of READ_MEMORY and WRITE_MEMORY -/

/-- One piece of a walk: a byte at an address, or a block of `words` words from an address (R204, R208). -/
inductive Piece where
  | byte (a : Word) (off : Nat)
  | block (a : Word) (off words : Nat)
deriving DecidableEq, Repr

/-- The byte pieces from an address (R204). -/
def bytePieces : Nat → Word → Nat → List Piece
  | 0, _, _ => []
  | n + 1, a, o => .byte a o :: bytePieces n (a + 1) (o + 1)

/-- The block pieces that cover `left` bytes, a multiple of 4, from a word-aligned address: no block crosses a
multiple of `blockMax` (R204). `fuel` bounds the number of blocks. -/
def blockPieces (blockMax : Nat) : Nat → Word → Nat → Nat → List Piece
  | 0, _, _, _ => []
  | fuel + 1, a, o, left =>
    if left = 0 then []
    else
      let n := min left (blockMax - a.toNat % blockMax)
      .block a o (n / 4) :: blockPieces blockMax fuel (a + BitVec.ofNat 32 n) (o + n) (left - n)

/-- The leading count of R208: `min(size, (4 - (addr & 3)) & 3)`. -/
def leadCount (addr : Word) (size : Nat) : Nat := min size ((4 - addr.toNat % 4) % 4)

/-- The pieces of a walk (R208): leading bytes, blocks over the next `(size - l) & ~3` bytes, then
`(size - l) & 3` trailing bytes. -/
def walkPieces (blockMax : Nat) (addr : Word) (off size : Nat) : List Piece :=
  let l := leadCount addr size
  let mid := (size - l) / 4 * 4
  bytePieces l addr off
    ++ blockPieces blockMax mid (addr + BitVec.ofNat 32 l) (off + l) mid
    ++ bytePieces (size - l - mid) (addr + BitVec.ofNat 32 (l + mid)) (off + l + mid)

/-- The addresses and buffer offsets of the bytes of a piece, ascending. -/
def Piece.bytes : Piece → List (Word × Nat)
  | .byte a o => [(a, o)]
  | .block a o k => (List.range (4 * k)).map (fun j => (a + BitVec.ofNat 32 j, o + j))

/-- The dialogue of one written piece (R206). -/
def talkWritePiece (c : Cfg) (src : Nat → Byte) : Piece → Talk
  | .byte a o => talkWriteByte c a (src o)
  | .block a o k => talkWriteWords c a (wordsAt src k o)

/-- The dialogue of a written range (R206). -/
def talkWriteBytes (c : Cfg) (src : Nat → Byte) (addr : Word) (off size : Nat) : Talk :=
  Talk.all ((walkPieces c.blockMax addr off size).map (talkWritePiece c src))

/-- The dialogue of one read piece, the target giving the words `ds` (R204). -/
def talkReadPiece (c : Cfg) : Piece × List Word → Talk
  | (.byte a _, ds) => talkReadByte c a (ds.headD 0)
  | (.block a _ _, ds) => talkReadWords c a ds

/-- A piece comes with as many words as it delivers: one for a byte. -/
def Piece.fits : Piece × List Word → Prop
  | (.byte _ _, ds) => ds.length = 1
  | (.block _ _ k, ds) => ds.length = k

/-- Words stored one after another (R66, R196). -/
def storeWords : Memory → Nat → List Word → Memory
  | m, _, [] => m
  | m, o, d :: ds => storeWords (m.writeWord o d) (o + 4) ds

/-- `BUF` after one read piece (R196, R204). -/
def storePiece (m : Memory) : Piece × List Word → Memory
  | (.byte a o, ds) => m.write o (laneByte a (ds.headD 0))
  | (.block _ o _, ds) => storeWords m o ds

/-! ### Chunks of FA_PROGRAM_PAGE (R254) -/

/-- The chunks `(address, buffer offset, length)` of a page: each as long as the program buffer but the last.
`fuel` bounds their number. -/
def pageChunks (progBufSize : Nat) : Nat → Word → Nat → Nat → List (Word × Nat × Nat)
  | 0, _, _, _ => []
  | fuel + 1, a, o, left =>
    if left = 0 then []
    else
      let n := min left progBufSize
      (a, o, n) :: pageChunks progBufSize fuel (a + BitVec.ofNat 32 n) (o + n) (left - n)

/-- The registers a `program_page` call stages (R254). -/
def pageDs (c : Cfg) (f : Descriptor) (a : Word) (n : Nat) : Ds :=
  stagedDs c f f.programPage a (BitVec.ofNat 32 n) f.progBuf 0

/-- The dialogue of one chunk with the target's answers to its call (R254). -/
def talkChunk (c : Cfg) (f : Descriptor) (src : Nat → Byte) (x : (Word × Nat × Nat) × Call) : Talk :=
  (talkWriteBytes c src f.progBuf x.1.2.1 x.1.2.2).andThen (talkCall c (pageDs c f x.1.1 x.1.2.2) x.2)

/-- The state, but for link and loop registers, after a chunk whose call is accepted (R254). -/
def State.chunked (s : State) (x : (Word × Nat × Nat) × Call) : State :=
  ((s.setDs (pageDs s.cfg s.fa.desc x.1.1 x.1.2.2)).setRet x.2.r0).setRes1 (s.res1 + BitVec.ofNat 32 x.1.2.2)

/-! ### Encodings -/

/-- All bits of an operand register. -/
def allBits : Word := 0xFFFFFFFF

/-- The operand registers with only the bits of a mask left. -/
def maskArgs (a m : Args) : Args := ⟨a.a0 &&& m.a0, a.a1 &&& m.a1, a.a2 &&& m.a2, a.a3 &&& m.a3, a.a4 &&& m.a4⟩

/-! ### Single operations and frames -/

/-- The state after a bit operation that leaves the pins `w`: success, and nothing else (R123, R353, R381). -/
def State.afterBit (s : State) (w : Wire) : State :=
  (s.setCause .none).setLink ((s.link.setWire w).setStatus
    { s.link.status with fail := false, illegal := false, busy := false })

/-- The state after a command refused by its precondition: `STATUS` and `CAUSE` change and nothing else (R345, R353);
`f` is what `STATUS.FAXST` becomes. -/
def State.refusedWith (s : State) (f : FlashStatus) : State :=
  (s.setCause .precond).setLink (s.link.setStatus
    { s.link.status with fail := true, faxst := f, illegal := false, busy := false })

/-- What a raw transfer command leaves on the link: the slots `e` and no others, the coming levels `rest`, `ACKRAW`,
`RESULT`, `RETRYX` and `FAIL` as given, the mirror as it was, the line driven high and the sequencer idle (R141, R147). -/
structure Ran (l l' : Link) (e : List Event) (rest : List Bool) (a : Ack) (x : AckResult) (rx : Bool) : Prop where
  trace : l'.wire.trace = l.wire.trace ++ e
  levels : l'.wire.lineIn = rest
  draws : l'.wire.draws = l.wire.draws
  reset : l'.wire.line.nreset = l.wire.line.nreset
  mirror : l'.mir = l.mir
  status : l'.status = { l.status with
    ackraw := a, result := x, retryx := rx, fail := decide (x ≠ .ok), illegal := false, busy := false }
  pins : AtIdle l'

/-- The event is a slot in which OB-SWD drives the line. -/
def Event.isDriven : Event → Bool
  | .slot .output _ => true
  | .slot .input _ | .resetAssert | .resetRelease => false

/-- The event is a slot. -/
def Event.isSlot : Event → Bool
  | .slot _ _ => true
  | .resetAssert | .resetRelease => false

/-- Which slots of a frame are driven, by request and acknowledge (R90, R100). -/
def frameShape (n : Nat) (r : Req) (t : Tail) : List Bool :=
  List.replicate 8 true ++ List.replicate (n + 3) false ++
    match t with
    | .data => if reqRead r then List.replicate (33 + n) false else List.replicate n false ++ List.replicate 33 true
    | .wait | .fault => List.replicate n false
    | .backoff => List.replicate (n + 33) false

/-- The link after `k` attempts of the wait-retry loop (R150). -/
def Link.attempts (n : Nat) (r : Req) (wdata : Word) : Nat → Link → Link
  | 0, l => l
  | k + 1, l => Link.attempts n r wdata k (transfer n r wdata l).2.countAttempt

/-! ### The sector-boundary test as the spec words it -/

/-- `e` is the entry R262 picks for `a`: no entry up to it starts above `a`, and it is the last one or the next one
starts above `a`. -/
def Containing (table : List Sector) (a : Word) (e : Sector) : Prop :=
  ∃ k, table[k]? = some e ∧ (∀ j x, j ≤ k → table[j]? = some x → x.start ≤ a)
    ∧ (∀ x, table[k + 1]? = some x → a < x.start)

/-- The boundary test (R262): the entry's size is not 0 and divides the distance to its start. -/
def OnBoundary (table : List Sector) (a : Word) : Prop :=
  ∃ e, Containing table a e ∧ e.size ≠ 0 ∧ (a.toNat - e.start.toNat) % e.size.toNat = 0

/-! ### Recovery of the debug enable (R286) -/

/-- The debug-enable write fails `k` times, each time followed by a reset pulse; `rest` are the levels left. -/
def EnableTries (c : Cfg) : Nat → Mirror → List Bool → List Event → List Bool → Prop
  | 0, _, b, e, rest => b = rest ∧ e = []
  | k + 1, m, b, e, rest =>
    ∃ x e1 b2 e2, Broken c (talkEnable c m).1 b e1 b2 x ∧ e = e1 ++ [.resetAssert, .resetRelease] ++ e2
      ∧ EnableTries c k Mirror.reset b2 e2 rest

/-- Step 1 of R286 goes well after fewer than `CFG.DEBUGEN_RETRIES` failed writes: `e` are its events, `rest` the levels left and
`m'` the mirror it leaves. -/
def Enabled (c : Cfg) (m : Mirror) (b : List Bool) (e : List Event) (rest : List Bool) (m' : Mirror) : Prop :=
  ∃ j e1 mid e2, j < c.debugenRetries ∧ EnableTries c j m b e1 mid ∧ e = e1 ++ e2
    ∧ Answered c (talkEnable c (if j = 0 then m else Mirror.reset)).1 mid e2 rest
    ∧ m' = (talkEnable c (if j = 0 then m else Mirror.reset)).2

end Sys2Proof.Machine

namespace Sys2Proof

open Machine

/-! ### Operands a command uses -/

/-- The bits of `ARG[0..4]` a command uses (R105, R106): the others are ignored. -/
def Instr.used : Instr → Args
  | .setDir _ | .writeBit _ => ⟨1, 0, 0, 0, 0⟩
  | .transfer _ _ | .transferRetry _ _ => ⟨0xF, allBits, 0, 0, 0⟩
  | .readDp _ | .readAp _ | .readWord _ | .readByte _ | .readCoreReg _ => ⟨allBits, 0, 0, 0, 0⟩
  | .faInit _ | .faEraseSector _ | .faSectorIsBoundary _ => ⟨allBits, 0, 0, 0, 0⟩
  | .writeDp _ _ | .writeAp _ _ | .writeWord _ _ | .writeCoreReg _ _ => ⟨allBits, allBits, 0, 0, 0⟩
  | .writeByte _ _ => ⟨allBits, 0xFF, 0, 0, 0⟩
  | .readBlock _ _ _ | .writeBlock _ _ _ | .readMemory _ _ _ | .writeMemory _ _ _ =>
    ⟨allBits, allBits, allBits, 0, 0⟩
  | .faProgramPage _ _ _ | .faVerify _ _ _ => ⟨allBits, allBits, allBits, 0, 0⟩
  | .faSyscall _ _ _ _ _ => ⟨allBits, allBits, allBits, allBits, allBits⟩
  | .clockPulse | .readBit | .sessionInit | .writeDebugState | .faUninit | .faEraseChip | .faSetRdp => ⟨0, 0, 0, 0, 0⟩
  | .lcConnect | .lcPowerUp | .lcResetHalt | .lcResetRun | .lcHalt | .lcRun | .lcSoftResetHalt => ⟨0, 0, 0, 0, 0⟩
  | .reqDpWr0 | .reqApWr0 | .reqDpRd0 | .reqApRd0 | .reqDpWr4 | .reqApWr4 | .reqDpRd4 | .reqApRd4 => ⟨0, 0, 0, 0, 0⟩
  | .reqDpWr8 | .reqApWr8 | .reqDpRd8 | .reqApRd8 | .reqDpWrC | .reqApWrC | .reqDpRdC | .reqApRdC => ⟨0, 0, 0, 0, 0⟩
  | .ackOk | .ackWait | .ackFault => ⟨0, 0, 0, 0, 0⟩

/-! ### What commands may write -/

/-- The instruction is one of the commands that write `BUF` (R400). -/
def Instr.writesBuf : Instr → Bool
  | .readBlock _ _ _ | .readMemory _ _ _ => true
  | _ => false

/-- The instruction is one of the commands that write `DS` (R24, R399). -/
def Instr.writesDs : Instr → Bool
  | .writeDebugState | .faInit _ | .faUninit | .faProgramPage _ _ _ | .faEraseSector _ | .faEraseChip => true
  | .faVerify _ _ _ | .faSetRdp | .faSyscall _ _ _ _ _ => true
  | _ => false

/-- The instruction is one of the commands that write `RET` (R25). -/
def Instr.writesRet : Instr → Bool
  | .faInit _ | .faUninit | .faProgramPage _ _ _ | .faEraseSector _ | .faEraseChip => true
  | .faVerify _ _ _ | .faSetRdp | .faSyscall _ _ _ _ _ => true
  | _ => false

/-- The instruction is one of the commands that write `STATUS.FAXST` (R350). -/
def Instr.writesFaxst : Instr → Bool := Instr.writesRet

/-- The instruction is one of the commands that write the loop registers of R29. -/
def Instr.writesLoops : Instr → Bool
  | .readBlock _ _ _ | .writeBlock _ _ _ | .readMemory _ _ _ | .writeMemory _ _ _ => true
  | .readCoreReg _ | .writeCoreReg _ _ | .writeDebugState | .lcPowerUp | .lcResetHalt | .lcSoftResetHalt => true
  | .faInit _ | .faUninit | .faProgramPage _ _ _ | .faEraseSector _ | .faEraseChip => true
  | .faVerify _ _ _ | .faSetRdp | .faSyscall _ _ _ _ _ => true
  | _ => false

/-- The instruction is `FA_INIT`, the only one that writes `FA` (R248, R381). -/
def Instr.isFaInit : Instr → Bool
  | .faInit _ => true
  | _ => false

/-- The instruction is one of those whose result register `RES[0]` R105 names. -/
def Instr.hasRes0 : Instr → Bool
  | .readBit | .transfer _ _ | .transferRetry _ _ | .readDp _ | .readAp _ | .readWord _ | .readByte _ => true
  | .readCoreReg _ | .faInit _ | .faUninit | .faProgramPage _ _ _ | .faEraseSector _ | .faEraseChip => true
  | .faVerify _ _ _ | .faSetRdp | .faSectorIsBoundary _ | .faSyscall _ _ _ _ _ | .lcConnect => true
  | _ => false

/-- The instruction is one of those whose result register `RES[1]` R105 names. -/
def Instr.hasRes1 : Instr → Bool
  | .transfer _ _ | .transferRetry _ _ | .faProgramPage _ _ _ => true
  | _ => false

/-- The instruction is one of the commands that may write the mirror (R158, R166, R176, R285). -/
def Instr.writesMirror : Instr → Bool
  | .writeDp _ _ | .readAp _ | .writeAp _ _ | .sessionInit => true
  | .readWord _ | .writeWord _ _ | .readByte _ | .writeByte _ _ => true
  | .readBlock _ _ _ | .writeBlock _ _ _ | .readMemory _ _ _ | .writeMemory _ _ _ => true
  | .readCoreReg _ | .writeCoreReg _ _ | .writeDebugState => true
  | .faInit _ | .faUninit | .faProgramPage _ _ _ | .faEraseSector _ | .faEraseChip => true
  | .faVerify _ _ _ | .faSetRdp | .faSyscall _ _ _ _ _ => true
  | .lcConnect | .lcPowerUp | .lcResetHalt | .lcResetRun | .lcHalt | .lcRun | .lcSoftResetHalt => true
  | _ => false

/-- The instruction is one of the commands that may pulse the reset pin (R248, R285, R286, R288, R291). -/
def Instr.pulsesReset : Instr → Bool
  | .lcResetHalt | .lcSoftResetHalt | .lcResetRun | .faInit _ => true
  | _ => false

/-- The instruction is an acknowledge of the wire (R96). -/
def Instr.isAck : Instr → Bool
  | .ackOk | .ackWait | .ackFault => true
  | _ => false

/-- The instruction is a request of the wire (R94). -/
def Instr.isRequest : Instr → Bool
  | .reqDpWr0 | .reqApWr0 | .reqDpRd0 | .reqApRd0 | .reqDpWr4 | .reqApWr4 | .reqDpRd4 | .reqApRd4 => true
  | .reqDpWr8 | .reqApWr8 | .reqDpRd8 | .reqApRd8 | .reqDpWrC | .reqApWrC | .reqDpRdC | .reqApRdC => true
  | _ => false

/-- The instruction is one of the commands that may make a logical transfer, so that `STATUS.RETRYX` is written (R150). -/
def Instr.makesLogical : Instr → Bool
  | .clockPulse | .setDir _ | .writeBit _ | .readBit | .transfer _ _ => false
  | .sessionInit | .faSectorIsBoundary _ | .lcResetRun => false
  | i => !i.isRequest && !i.isAck

/-- The instruction is one of those that may write `STATUS.ACKRAW` and `STATUS.RESULT` (R28, R141). -/
def Instr.writesAck : Instr → Bool
  | .transfer _ _ => true
  | i => i.makesLogical || i.isAck

/-- The instruction is a command above the bit operations, the ones that leave the pins idle (R22, R344). -/
def Instr.isOperation : Instr → Bool
  | .clockPulse | .setDir _ | .writeBit _ | .readBit => false
  | .reqDpWr0 | .reqApWr0 | .reqDpRd0 | .reqApRd0 | .reqDpWr4 | .reqApWr4 | .reqDpRd4 | .reqApRd4 => false
  | .reqDpWr8 | .reqApWr8 | .reqDpRd8 | .reqApRd8 | .reqDpWrC | .reqApWrC | .reqDpRdC | .reqApRdC => false
  | .ackOk | .ackWait | .ackFault => false
  | _ => true

end Sys2Proof
end

