-- ==== Sys2Proof/Certificates/Slice0/Obligations.lean ====
section
/-! DEFINITION. The statements for the provers. A statement of the form "for every state whose coming levels let the
dialogue go well, the command answers this next state" says where a command completes and with what; `Answered`, `Done` and
the dialogues are in Safety.lean. -/

section
open Sys2Proof Sys2Proof.Machine

/-! ### Encodings -/

/-- The decoder gives every instruction back from its code, whatever stands in the operand bits the command does not use
(R103 to R106, R94, R96). -/
def Obligations.DecodeEncode : Prop :=
  (∀ i : Instr, decode (encode i) = .ok i) ∧
  ∀ (i : Instr) (op : Byte) (a b : Args), encode i = .cmd op b → maskArgs a i.used = b → decode (.cmd op a) = .ok i

/-- Whatever decodes has the code of what it decodes to, the unused operand bits aside: no other opcode, header byte or
acknowledge is read as an instruction (R94, R96, R104, R106). -/
def Obligations.DecodedOnce : Prop :=
  ∀ (c : Code) (i : Instr), decode c = .ok i →
    match c with
    | .cmd op a => encode i = .cmd op (maskArgs a i.used)
    | .req h => encode i = .req h
    | .ack v => encode i = .ack v

/-- A few words written out from the spec's tables decode to the instructions they stand for (R94, R96, R104, R105). -/
def Obligations.DecodedWords : Prop :=
  decode (.cmd 0x12 ⟨0x4, 0xFFFFFFFF, 0, 0, 0⟩) = .ok (.readDp 0x4)
    ∧ decode (.cmd 0x23 ⟨0x20000003, 0xFFFFFF5A, 0, 0, 0⟩) = .ok (.writeByte 0x20000003 0x5A)
    ∧ decode (.cmd 0x38 ⟨1, 2, 3, 4, 5⟩) = .ok (.faSyscall 1 2 3 4 5)
    ∧ decode (.cmd 0x46 ⟨0, 0, 0, 0, 0⟩) = .ok .lcSoftResetHalt
    ∧ decode (.cmd 0x47 ⟨0, 0, 0, 0, 0⟩) = .error (.illegalOpcode 0x47)
    ∧ decode (.req 0xA5) = .ok .reqDpRd0 ∧ decode (.req 0x85) = .error (.notARequest 0x85)
    ∧ decode (.ack 2) = .ok .ackWait ∧ decode (.ack 7) = .error (.malformedAck 7)

/-- The sixteen request instructions, each with its byte and its request code from the table of R94: the byte decodes to it,
and in every state it takes the line and drives the byte's eight bits, bit 0 first; the request is the one in progress, the
first turnaround is next, with none of its slots counted, the byte in `SHIFT` and its parity in `PAR` (R28), and nothing else of
`LINE`, the oracle, `STATUS` or the mirror changes. That a request is an instruction of its own, and what `BITCNT`, `SHIFT` and `PAR`
hold between two phases, is the model's choice (logs 2 and 15). -/
def Obligations.RequestRows : Prop :=
  ∀ p ∈ [(Instr.reqDpWr0, 0x81#8, 0x0#4), (.reqApWr0, 0xA3, 0x1), (.reqDpRd0, 0xA5, 0x2), (.reqApRd0, 0x87, 0x3),
      (.reqDpWr4, 0xA9, 0x4), (.reqApWr4, 0x8B, 0x5), (.reqDpRd4, 0x8D, 0x6), (.reqApRd4, 0xAF, 0x7),
      (.reqDpWr8, 0xB1, 0x8), (.reqApWr8, 0x93, 0x9), (.reqDpRd8, 0x95, 0xA), (.reqApRd8, 0xB7, 0xB),
      (.reqDpWrC, 0x99, 0xC), (.reqApWrC, 0xBB, 0xD), (.reqDpRdC, 0xBD, 0xE), (.reqApRdC, 0x9F, 0xF)],
    decode (.req p.2.1) = .ok p.1 ∧
    ∀ s : State, ∃ l : Link, exec p.1 s = .next (s.setLink l)
      ∧ l.wire = { s.link.wire with
          line := { s.link.wire.line with dir := .output, dout := true }
          trace := s.link.wire.trace ++ driven ((List.range 8).map p.2.1.getLsbD) }
      ∧ l.seq.phase = .trn1 ∧ l.seq.xreq = p.2.2 ∧ l.seq.xwdata = s.link.seq.xwdata
      ∧ l.seq.bitcnt = 0 ∧ l.seq.shift = p.2.1.setWidth 32 ∧ l.seq.par = reqParity p.2.2
      ∧ l.status = s.link.status ∧ l.mir = s.link.mir

/-- The three acknowledge instructions: no slot; `ACKRAW` shows the value; OK goes on with the data phase of the request in
progress, WAIT and FAULT set `RESULT` and go to the last turnaround; no slot of the next phase is counted (R27, R28, R96, R100). That
an acknowledge is an instruction of its own, and `BITCNT` between two phases, is the model's choice (logs 2 and 15). -/
def Obligations.AcknowledgeRows : Prop :=
  ∀ s : State,
    (∃ l : Link, exec .ackOk s = .next (s.setLink l)
      ∧ l.seq.phase = (if reqRead s.link.seq.xreq then .rdata else .trn2) ∧ l.seq.acksr = 1 ∧ l.seq.bitcnt = 0
      ∧ l.status = { s.link.status with ackraw := 1 } ∧ l.wire = s.link.wire ∧ l.mir = s.link.mir) ∧
    (∃ l : Link, exec .ackWait s = .next (s.setLink l) ∧ l.seq.phase = .trn3 ∧ l.seq.acksr = 2 ∧ l.seq.bitcnt = 0
      ∧ l.status = { s.link.status with ackraw := 2, result := .wait } ∧ l.wire = s.link.wire ∧ l.mir = s.link.mir) ∧
    (∃ l : Link, exec .ackFault s = .next (s.setLink l) ∧ l.seq.phase = .trn3 ∧ l.seq.acksr = 4 ∧ l.seq.bitcnt = 0
      ∧ l.status = { s.link.status with ackraw := 4, result := .fault } ∧ l.wire = s.link.wire ∧ l.mir = s.link.mir)

/-! ### Steps, reset, invariants -/

/-- A step runs the decoded instruction: a command when the host writes `CMD.OP` to an idle OB-SWD, with the operands in
`ARG` at that moment; a request when `PHASE = REQ`; an acknowledge when `PHASE = ACK`, the three slots sampled first
(R26, R27, R103; logs 1 and 2). -/
def Obligations.StepRunsDecoded : Prop :=
  (∀ (s : State) (op : Byte) (rest : List HostAction) (i : Instr), s.link.seq.phase = .idle →
    s.host = .writeOp op :: rest → s.link.status.busy = false → decode (.cmd op s.arg) = .ok i →
    step s = exec i ((s.setHost rest).setCmdOp op)) ∧
  (∀ (s : State) (i : Instr), s.link.seq.phase = .req → (∀ rest, s.host ≠ .assertReset :: rest) →
    decode (.req (s.link.seq.shift.setWidth 8)) = .ok i → step s = exec i s) ∧
  (∀ (s : State) (i : Instr), s.link.seq.phase = .ack → (∀ rest, s.host ≠ .assertReset :: rest) →
    decode (.ack s.link.ackSample.seq.acksr) = .ok i → step s = exec i (s.setLink s.link.ackSample))

/-- A value of `CMD.OP` outside the table of R104: nothing on the wire, and of the state only `STATUS.ILLEGAL`,
`STATUS.FAIL` and `CAUSE` change (beside `CMD.OP` itself, just written, and the host's queue, log 1). Unused operand registers
and bits are ignored (R106). -/
def Obligations.IllegalOpcode : Prop :=
  (∀ (op : Byte) (a b : Args) (i : Instr), decode (.cmd op a) = .ok i → maskArgs a i.used = maskArgs b i.used →
    decode (.cmd op b) = .ok i) ∧
  ∀ (s : State) (op : Byte) (rest : List HostAction), s.link.seq.phase = .idle → s.host = .writeOp op :: rest →
    s.link.status.busy = false →
    ((0x04 ≤ op ∧ op ≤ 0x0F) ∨ (0x16 ≤ op ∧ op ≤ 0x1E) ∨ (0x2B ≤ op ∧ op ≤ 0x2F) ∨ (0x39 ≤ op ∧ op ≤ 0x3F) ∨ 0x47 ≤ op) →
    step s = .next ((((s.setHost rest).setCmdOp op).setCause .illegalOp).setLink
      (s.link.setStatus { s.link.status with illegal := true, fail := true }))

/-- What the host's writes do to an OB-SWD between operations, and that a write of `CMD.OP` while `BUSY = 1` is ignored and
any other write refused (R26, R355; logs 1, 9, 14 and 16: the refusals and the fault are the model's). With nothing waiting
a step changes nothing (log 13). -/
def Obligations.HostWrites : Prop :=
  ∀ (s : State) (rest : List HostAction), s.link.seq.phase = .idle →
    (s.host = [] → step s = .next s) ∧
    (∀ op, s.host = .writeOp op :: rest → s.link.status.busy = true → step s = .next (s.setHost rest)) ∧
    (∀ k v, s.host = .writeArg k v :: rest →
      step s = if s.link.status.busy then .refused .hostWriteWhileBusy
        else .next ((s.setHost rest).setArg (argWrite s.arg k v))) ∧
    (∀ r v, s.host = .writeDs r v :: rest →
      step s = if s.link.status.busy then .refused .hostWriteWhileBusy
        else .next ((s.setHost rest).setDs (dsWrite s.ds r v))) ∧
    (∀ o b, s.host = .writeBuf o b :: rest →
      step s = if s.link.status.busy then .refused .hostWriteWhileBusy
        else if o < s.cfg.bufSize then .next ((s.setHost rest).setBuf (s.buf.write o b)) else .fault .bufOffsetAbsent) ∧
    (∀ c, s.host = .writeCfg c :: rest →
      step s = if s.link.status.busy then .refused .hostWriteWhileBusy
        else if cfgLegal c = true ∧ c.bufSize = s.cfg.bufSize ∧ c.sectorMax = s.cfg.sectorMax
          then .next ((s.setHost rest).setCfg c) else .refused .cfgOutOfRange) ∧
    (∀ d, s.host = .present d :: rest →
      step s = if s.link.status.busy then .refused .hostWriteWhileBusy
        else if d.sect.length ≤ s.cfg.sectorMax ∧ d.code.length < 2 ^ 32
          then .next ((s.setHost rest).setDescIn d) else .refused .descriptorTooLarge)

/-- The state after hardware reset has the values of the table of R44, where the table gives one; its row `CFG.*` is the default
of every field of R9 that is not OPEN, written out (the OPEN fields stand for themselves: no value of theirs is stated). -/
def Obligations.ResetValues : Prop :=
  State.reset.link.wire.line = ⟨.output, true, true, true⟩ ∧ State.reset.link.wire.trace = []
    ∧ State.reset.cmdOp = 0 ∧ State.reset.arg = ⟨0, 0, 0, 0, 0⟩ ∧ State.reset.res0 = 0 ∧ State.reset.res1 = 0
    ∧ State.reset.link.seq.phase = .idle ∧ State.reset.link.seq.bitcnt = 0 ∧ State.reset.link.seq.shift = 0
    ∧ State.reset.link.seq.par = false ∧ State.reset.link.seq.acksr = 0 ∧ State.reset.link.seq.retrycnt = 0
    ∧ State.reset.loops = ⟨0, 0, 0, 0, 0⟩ ∧ State.reset.link.status.word = 0 ∧ State.reset.cause.code = 0
    ∧ State.reset.link.mir.selectValid = false ∧ State.reset.link.mir.cswValid = false
    ∧ State.reset.fa.valid = false
    ∧ State.reset.cfg = {
        turnaround := 1, retry := 10, regrdyPolls := 100, syscallPolls := 1000000, pwrupPolls := 100
        haltPolls := State.reset.cfg.haltPolls, debugenRetries := State.reset.cfg.debugenRetries
        softReset := false, resetDelay := State.reset.cfg.resetDelay, lineResetClocks := 50
        switchSeq := [false, true, true, true, true, false, false, true, true, true, true, false, false, true, true, true]
        lineIdleClocks := 2, blockMax := 1024, memApsel := 0, cswWord := 0x23000052, cswByte := 0x23000050
        dpIdcode := 0x0, dpAbort := 0x0, dpCtrlstat := 0x4, dpSelect := 0x8, dpRdbuff := 0xC
        apCsw := 0x00, apTar := 0x04, apDrw := 0x0C
        dhcsr := 0xE000EDF0, dcrsr := 0xE000EDF4, dcrdr := 0xE000EDF8, demcr := 0xE000EDFC, aircr := 0xE000ED0C
        dbgkey := 0xA05F0000, cDebugen := 0, cHalt := 1, sRegrdy := 16, sHalt := 17, regwnr := 16, vcCorereset := 0
        aircrReset := 0x05FA0004, stickyerr := 5, wdataerr := 7, pwrReq := 0x50000000, pwrAck := 0xA0000000
        abortClear := 0x0000001E, xpsrThumb := 0x01000000, retOk := .isZero
        bufSize := State.reset.cfg.bufSize, sectorMax := State.reset.cfg.sectorMax
        quarterDelay := State.reset.cfg.quarterDelay }

/-- An asserted `RESET` comes before anything else, whatever the sequencer is doing: no slot, the idle pins, and the values of
R44 (R380). The model's choice, not the spec's: the OPEN fields of `CFG`, which R44 leaves unspecified, take the named values of
log 8 (`HALT_POLLS`, `DEBUGEN_RETRIES` and the two delays; `BUF_SIZE` and `SECTOR_MAX` stay); what is not OB-SWD's own state, the
levels the line will show and the host's queue, stays (log 18); and it is taken between two steps, never inside a command (log
25). -/
def Obligations.HardwareReset : Prop :=
  ∀ (s : State) (rest : List HostAction), s.host = .assertReset :: rest →
    ∃ t, step s = .next t ∧ t.link.wire.line = ⟨.output, true, true, true⟩ ∧ t.link.wire.trace = []
      ∧ t.link.wire.lineIn = s.link.wire.lineIn ∧ t.host = rest
      ∧ t.cmdOp = 0 ∧ t.arg = ⟨0, 0, 0, 0, 0⟩ ∧ t.res0 = 0 ∧ t.res1 = 0 ∧ t.link.seq.phase = .idle
      ∧ t.link.seq.bitcnt = 0 ∧ t.link.seq.shift = 0 ∧ t.link.seq.par = false ∧ t.link.seq.acksr = 0
      ∧ t.link.seq.retrycnt = 0 ∧ t.loops = ⟨0, 0, 0, 0, 0⟩ ∧ t.link.status.word = 0 ∧ t.cause.code = 0
      ∧ t.link.mir.selectValid = false ∧ t.link.mir.cswValid = false ∧ t.fa.valid = false
      ∧ t.cfg = { Config.default with bufSize := s.cfg.bufSize, sectorMax := s.cfg.sectorMax }

/-- The state after reset is sound and at rest (that the OPEN fields of `CFG` are in their legal range is by the values of log 8,
the model's choice, as are the bounds beyond R9, log 9). -/
def Obligations.ResetSound : Prop := Sound State.reset ∧ AtRest State.reset

/-- Every step keeps soundness: `BUF` stays canonical and inside its size, every `CFG` field in its legal range, the clock
high and `nRESET` released, no operation in progress, `FAIL` set exactly when `CAUSE` is not 0, `ILLEGAL` only with
`F_ILLEGAL_OP`; in a frame stepped phase by phase each phase begins with `BITCNT` 0, a data phase with `PAR` 0, the write data
phase with its word in `SHIFT`. The model's choice, not the rules': that a frame is stepped phase by phase, so that `BITCNT` is 0
between two steps (logs 2 and 15); what `PAR` and `SHIFT` hold before the first bit of a data phase (log 15, read from R28); the
bounds `CFG` has beyond R9, poll caps below 2^32 and bit positions below 32, and the refusal of a write outside the ranges (log 9). -/
def Obligations.StepKeepsSound : Prop :=
  ∀ s t : State, Sound s → step s = .next t → Sound t

/-- A step that starts at rest ends at rest: a command runs whole frames (R27). -/
def Obligations.StepKeepsRest : Prop :=
  ∀ s t : State, AtRest s → step s = .next t → AtRest t

/-! ### Bit operations -/

/-- The four bit operations, in every state (R123 to R127): the slot appended, the pins and the result; success always, and
nothing else of the state changes. A released line shows the next coming level, and past those a level nothing is known of
(log 3). -/
def Obligations.BitOperations : Prop :=
  ∀ s : State,
    (s.link.wire.line.dir = .output →
      exec .clockPulse s = .next (s.afterBit { s.link.wire with
        trace := s.link.wire.trace ++ [.slot .output s.link.wire.line.dout] })
      ∧ exec .readBit s = .next ((s.setRes0 (if s.link.wire.line.dout then 1 else 0)).afterBit { s.link.wire with
        trace := s.link.wire.trace ++ [.slot .output s.link.wire.line.dout] })
      ∧ ∀ b, exec (.writeBit b) s = .next (s.afterBit { s.link.wire with
        line := { s.link.wire.line with dout := b }, trace := s.link.wire.trace ++ [.slot .output b] })) ∧
    (∀ b bs, s.link.wire.line.dir = .input → s.link.wire.lineIn = b :: bs →
      exec .clockPulse s = .next (s.afterBit { s.link.wire with
        trace := s.link.wire.trace ++ [.slot .input b], lineIn := bs })
      ∧ exec .readBit s = .next ((s.setRes0 (if b then 1 else 0)).afterBit { s.link.wire with
        trace := s.link.wire.trace ++ [.slot .input b], lineIn := bs })
      ∧ ∀ v, exec (.writeBit v) s = .next (s.afterBit { s.link.wire with
        line := { s.link.wire.line with dout := v }, trace := s.link.wire.trace ++ [.slot .input b], lineIn := bs })) ∧
    (s.link.wire.line.dir = .input → s.link.wire.lineIn = [] → ∃ b,
      exec .clockPulse s = .next (s.afterBit { s.link.wire with
        trace := s.link.wire.trace ++ [.slot .input b], draws := s.link.wire.draws + 1 })
      ∧ exec .readBit s = .next ((s.setRes0 (if b then 1 else 0)).afterBit { s.link.wire with
        trace := s.link.wire.trace ++ [.slot .input b], draws := s.link.wire.draws + 1 })
      ∧ ∀ v, exec (.writeBit v) s = .next (s.afterBit { s.link.wire with
        line := { s.link.wire.line with dout := v }, trace := s.link.wire.trace ++ [.slot .input b],
        draws := s.link.wire.draws + 1 })) ∧
    ∀ d, exec (.setDir d) s = .next (s.afterBit { s.link.wire with line := { s.link.wire.line with dir := d } })

/-! ### Transfers -/

/-- `TRANSFER` answered OK (R141): the slots of R100, the read word with a right parity bit in `RES[0]`, or 0 after a write;
`RES[1]` the code of OK. -/
def Obligations.TransferOk : Prop :=
  ∀ (s : State) (r : Req) (w : Word) (g h rest : List Bool), g.length = s.cfg.turnaround → h.length = s.cfg.turnaround →
    (∀ d, reqRead r = true → s.link.wire.lineIn = g ++ okBits ++ dataBits d ++ h ++ rest →
      ∃ l, exec (.transfer r w) s = .next ((((s.setRes0 d).setRes1 0).setCause .none).setLink l)
        ∧ Ran s.link l (okReadSlots r g (dataBits d) h) rest 1 .ok s.link.status.retryx) ∧
    (reqRead r = false → s.link.wire.lineIn = g ++ okBits ++ h ++ rest →
      ∃ l, exec (.transfer r w) s = .next ((((s.setRes0 0).setRes1 0).setCause .none).setLink l)
        ∧ Ran s.link l (okWriteSlots r g h w) rest 1 .ok s.link.status.retryx)

/-- `TRANSFER` answered WAIT, FAULT or nothing well formed (R96, R100, R141): one turnaround or the back-off, no data, the
result's code in `RES[1]`, `F_ACK`; one frame only. -/
def Obligations.TransferNotOk : Prop :=
  ∀ (s : State) (r : Req) (w : Word) (g k h rest : List Bool), g.length = s.cfg.turnaround →
    s.link.wire.lineIn = g ++ k ++ h ++ rest →
    (k = waitBits → h.length = s.cfg.turnaround →
      ∃ l, exec (.transfer r w) s = .next ((((s.setRes0 0).setRes1 1).setCause .ack).setLink l)
        ∧ Ran s.link l (shortSlots r g k h) rest 2 .wait s.link.status.retryx) ∧
    (k = faultBits → h.length = s.cfg.turnaround →
      ∃ l, exec (.transfer r w) s = .next ((((s.setRes0 0).setRes1 2).setCause .ack).setLink l)
        ∧ Ran s.link l (shortSlots r g k h) rest 4 .fault s.link.status.retryx) ∧
    (k.length = 3 → k ≠ okBits → k ≠ waitBits → k ≠ faultBits → h.length = s.cfg.turnaround + 33 →
      ∃ l, exec (.transfer r w) s = .next ((((s.setRes0 0).setRes1 3).setCause .ack).setLink l)
        ∧ Ran s.link l (shortSlots r g k h) rest (ackOfBits k) .noReply s.link.status.retryx)

/-- A read whose 33 sampled bits hold an odd number of ones, in whatever place the fault lies, ends in `ParityError`, and the
32 sampled bits are still delivered (R98, R146). -/
def Obligations.ParityFault : Prop :=
  ∀ (s : State) (r : Req) (w : Word) (g db h rest : List Bool), reqRead r = true → g.length = s.cfg.turnaround →
    h.length = s.cfg.turnaround → db.length = 33 → parityOf db = true →
    s.link.wire.lineIn = g ++ okBits ++ db ++ h ++ rest →
    ∃ l, exec (.transfer r w) s = .next ((((s.setRes0 (wordOfBits (db.take 32))).setRes1 4).setCause .ack).setLink l)
      ∧ Ran s.link l (okReadSlots r g db h) rest 1 .parityError s.link.status.retryx

/-- Whatever the line shows, a frame is the header of its request, driven, then the slots of R100 for the acknowledge really
sampled, driven or released as R100 says; a write answered OK ends with its data and parity; then the line is driven high,
the sequencer is idle, and no clock is added. -/
def Obligations.FrameSlots : Prop :=
  ∀ (n : Nat) (r : Req) (w : Word) (l : Link), ∃ es : List Event,
    (l.frame n r w).wire.trace = l.wire.trace ++ driven (headerBits r) ++ es
      ∧ (∀ e ∈ es, e.isSlot = true)
      ∧ List.replicate 8 true ++ es.map Event.isDriven = frameShape n r (ackTail (l.frame n r w).status.ackraw)
      ∧ ((l.frame n r w).status.ackraw = 1 → reqRead r = false → ∃ front, es = front ++ driven (dataBits w))
      ∧ 8 + es.length ≤ 44 + 2 * n
      ∧ (l.frame n r w).wire.line = { l.wire.line with dir := .output, dout := true }
      ∧ (l.frame n r w).seq.phase = .idle ∧ (l.frame n r w).mir = l.mir

/-- A transfer depends only on its request, its write data, the turnaround and the levels sampled during it: from two links
that will show the same levels it makes the same slots and gives the same result and data, whatever the mirror and earlier
transfers were (R140). -/
def Obligations.TransferIndependent : Prop :=
  ∀ (n : Nat) (r : Req) (w : Word) (l m : Link), l.wire.lineIn = m.wire.lineIn → l.wire.draws = m.wire.draws →
    ∃ es : List Event, (l.frame n r w).wire.trace = l.wire.trace ++ es ∧ (m.frame n r w).wire.trace = m.wire.trace ++ es
      ∧ (transfer n r w l).1 = (transfer n r w m).1
      ∧ (l.frame n r w).status.ackraw = (m.frame n r w).status.ackraw
      ∧ (l.frame n r w).wire.lineIn = (m.frame n r w).wire.lineIn

/-- The wait-retry loop makes `k` frames, at least 1 and at most the cap: the first `k - 1` end in WAIT, and either the last
does not, and its outcome is the loop's, or `k` is the cap and the loop surfaces FAULT with `RETRYX` set and the WAIT still
in `ACKRAW` (R150 to R153). -/
def Obligations.RetryLaw : Prop :=
  ∀ (n cap : Nat) (r : Req) (w : Word) (l : Link), 1 ≤ cap → ∃ k, 1 ≤ k ∧ k ≤ cap
    ∧ (∀ j, j + 1 < k → (transfer n r w (Link.attempts n r w j l.startRetry)).1.1 = .wait)
    ∧ ((transferRetry n cap r w l).2.seq.retrycnt = BitVec.ofNat 8 k)
    ∧ (((transfer n r w (Link.attempts n r w (k - 1) l.startRetry)).1.1 ≠ .wait
        ∧ (transferRetry n cap r w l).1 = (transfer n r w (Link.attempts n r w (k - 1) l.startRetry)).1
        ∧ (transferRetry n cap r w l).2 = Link.attempts n r w k l.startRetry
        ∧ (transferRetry n cap r w l).2.status.retryx = false) ∨
       (k = cap ∧ (transfer n r w (Link.attempts n r w (k - 1) l.startRetry)).1.1 = .wait
        ∧ (transferRetry n cap r w l).1.1 = .fault
        ∧ (transferRetry n cap r w l).2.wire = (Link.attempts n r w k l.startRetry).wire
        ∧ (transferRetry n cap r w l).2.status.ackraw = 2
        ∧ (transferRetry n cap r w l).2.status.result = .fault
        ∧ (transferRetry n cap r w l).2.status.retryx = true))

/-- `TRANSFER_RETRY` that ends OK after fewer than `CFG.RETRY` frames answered WAIT (R150). -/
def Obligations.RetryOk : Prop :=
  ∀ (s : State) (r : Req) (w d : Word) (b : List Bool) (e : List Event) (rest : List Bool),
    s.link.wire.lineIn = b ++ rest →
    (reqRead r = true → ReadOk s.cfg r d b e →
      ∃ l, exec (.transferRetry r w) s = .next ((((s.setRes0 d).setRes1 0).setCause .none).setLink l)
        ∧ Ran s.link l e rest 1 .ok false) ∧
    (reqRead r = false → WriteOk s.cfg r w b e →
      ∃ l, exec (.transferRetry r w) s = .next ((((s.setRes0 0).setRes1 0).setCause .none).setLink l)
        ∧ Ran s.link l e rest 1 .ok false)

/-- `TRANSFER_RETRY` that does not end OK, after the frames `ws` answered WAIT: exhaustion, with `RETRYX` set, the WAIT still in
`ACKRAW` and FAULT as the result; FAULT; a malformed acknowledge; for a read a wrong parity bit, the data delivered. None of the
last three is repeated, and `RETRYX` is 0 after them; `RES[0]` is 0 but for the wrong parity bit (R146, R150 to R152). -/
def Obligations.RetryNotOk : Prop :=
  ∀ (s : State) (r : Req) (w d : Word) (ws : Waits) (g k h b : List Bool) (e : List Event) (rest : List Bool),
    1 ≤ s.cfg.retry → ws.ok s.cfg.turnaround →
    (ws.length = s.cfg.retry → s.link.wire.lineIn = ws.levels ++ rest → ∃ l,
      exec (.transferRetry r w) s = .next ((((s.setRes0 0).setRes1 2).setCause .ack).setLink l)
      ∧ Ran s.link l (ws.slots r) rest 2 .fault true) ∧
    (ws.length < s.cfg.retry → g.length = s.cfg.turnaround →
      s.link.wire.lineIn = ws.levels ++ (g ++ k ++ h) ++ rest →
      (k = faultBits → h.length = s.cfg.turnaround → ∃ l,
        exec (.transferRetry r w) s = .next ((((s.setRes0 0).setRes1 2).setCause .ack).setLink l)
        ∧ Ran s.link l (ws.slots r ++ shortSlots r g k h) rest 4 .fault false) ∧
      (k.length = 3 → k ≠ okBits → k ≠ waitBits → k ≠ faultBits → h.length = s.cfg.turnaround + 33 → ∃ l,
        exec (.transferRetry r w) s = .next ((((s.setRes0 0).setRes1 3).setCause .ack).setLink l)
        ∧ Ran s.link l (ws.slots r ++ shortSlots r g k h) rest (ackOfBits k) .noReply false)) ∧
    (reqRead r = true → BadParity s.cfg r d b e → s.link.wire.lineIn = b ++ rest → ∃ l,
      exec (.transferRetry r w) s = .next ((((s.setRes0 d).setRes1 4).setCause .ack).setLink l)
      ∧ Ran s.link l e rest 1 .parityError false)

/-- Stepped phase by phase, the sequencer does what `TRANSFER` does in one: five steps from the start of a frame, with no host
action waiting, end in the link the whole frame leaves (R27, R141). After any frame `ACKSR` is what `ACKRAW` shows, and after a read
that reached the data phase `SHIFT` is the word of its 32 sampled data bits (R28). That the machine can be stepped phase by phase,
and that the requests and acknowledges of single phases are instructions, is the model's choice (log 2). -/
def Obligations.PhasesMakeTheFrame : Prop :=
  (∀ (s : State) (r : Req) (w : Word), s.host = [] →
    Host.Core.run Sys2Proof.core 5 (s.setLink (s.link.start r w))
      = .next (s.setLink (s.link.frame s.cfg.turnaround r w))) ∧
  ∀ (n : Nat) (r : Req) (w : Word) (l : Link),
    (l.frame n r w).seq.acksr = (l.frame n r w).status.ackraw ∧
    ((l.frame n r w).status.ackraw = 1 → reqRead r = true → ∃ (front : List Event) (d : List Bool) (p : Bool) (h : List Bool),
      (l.frame n r w).wire.trace = l.wire.trace ++ front ++ released (d ++ [p] ++ h) ∧ d.length = 32 ∧ h.length = n
        ∧ (l.frame n r w).seq.shift = wordOfBits d)

/-! ### Register operations -/

/-- `READ_DP` and `READ_AP` complete: the value of the last frame goes to `RES[0]`; the select write is left out when the
mirror holds it; the AP read's own data is discarded (R156, R159, R162). -/
def Obligations.RegisterReads : Prop :=
  ∀ (s : State) (a d : Word) (e : List Event) (rest : List Bool), cfgLegal s.cfg = true →
    (dpAddrOk a = true → Answered s.cfg (talkReadDp a d s.link.mir).1 s.link.wire.lineIn e rest →
      ∃ l, exec (.readDp a) s = .next (((s.setRes0 d).setCause .none).setLink l)
        ∧ Done s.link l (talkReadDp a d s.link.mir) e rest s.link.status.faxst .none) ∧
    (apAddrOk a = true → Answered s.cfg (talkReadAp s.cfg a d s.link.mir).1 s.link.wire.lineIn e rest →
      ∃ l, exec (.readAp a) s = .next (((s.setRes0 d).setCause .none).setLink l)
        ∧ Done s.link l (talkReadAp s.cfg a d s.link.mir) e rest s.link.status.faxst .none)

/-- `WRITE_DP` and `WRITE_AP` complete: the write and, for an AP register, its drain, both left out when the mirror holds the
value; the mirror then holds it (R158, R159, R166). -/
def Obligations.RegisterWrites : Prop :=
  ∀ (s : State) (a v : Word) (e : List Event) (rest : List Bool), cfgLegal s.cfg = true →
    (dpAddrOk a = true → Answered s.cfg (talkWriteDp s.cfg a v s.link.mir).1 s.link.wire.lineIn e rest →
      ∃ l, exec (.writeDp a v) s = .next ((s.setCause .none).setLink l)
        ∧ Done s.link l (talkWriteDp s.cfg a v s.link.mir) e rest s.link.status.faxst .none) ∧
    (apAddrOk a = true → Answered s.cfg (talkWriteAp s.cfg a v s.link.mir).1 s.link.wire.lineIn e rest →
      ∃ l, exec (.writeAp a v) s = .next ((s.setCause .none).setLink l)
        ∧ Done s.link l (talkWriteAp s.cfg a v s.link.mir) e rest s.link.status.faxst .none)

/-- `SESSION_INIT` and `LC_RESET_RUN`, in every state: no slot; both mirror valid bits cleared; the second also pulses the
reset pin, with its two events (R176, R285, R288). -/
def Obligations.MirrorClears : Prop :=
  ∀ s : State,
    exec .sessionInit s = .next ((s.setCause .none).setLink { s.link with
      mir := { s.link.mir with selectValid := false, cswValid := false }
      status := { s.link.status with fail := false, illegal := false, busy := false } })
    ∧ exec .lcResetRun s = .next ((s.setCause .none).setLink { s.link with
      wire := { s.link.wire with
        line := { s.link.wire.line with nreset := true }
        trace := s.link.wire.trace ++ [.resetAssert, .resetRelease] }
      mir := { s.link.mir with selectValid := false, cswValid := false }
      status := { s.link.status with fail := false, illegal := false, busy := false } })

/-- A failed write of `SELECT` leaves the `SELECT` mirror invalid, a failed write of `CSW` or of its drain the `CSW` mirror;
the other mirror is as it was (R158, R159, R166). For `WRITE_DP` of `SELECT`; for the `SELECT` write inside `READ_AP` and
`WRITE_AP`; for `WRITE_AP` of `CSW` with `SELECT` in place; and with a `SELECT` write made first, which the mirror then holds. -/
def Obligations.FailedWriteDropsMirror : Prop :=
  ∀ (s : State) (a v : Word) (e e2 : List Event) (mid rest : List Bool) (x : AckResult), cfgLegal s.cfg = true →
    (s.link.mir.hasSelect v = false →
      Broken s.cfg [.write (reqCode false false s.cfg.dpSelect) v] s.link.wire.lineIn e rest x →
      ∃ t, exec (.writeDp s.cfg.dpSelect v) s = .next t ∧ t.cause = .ack
        ∧ t.link.mir = { s.link.mir with selectValid := false }) ∧
    (apAddrOk a = true → s.link.mir.hasSelect (selectOf a) = false →
      Broken s.cfg [.write (reqCode false false s.cfg.dpSelect) (selectOf a)] s.link.wire.lineIn e rest x →
      ∀ i ∈ [Instr.readAp a, .writeAp a v], ∃ t, exec i s = .next t ∧ t.cause = .ack
        ∧ t.link.mir = { s.link.mir with selectValid := false }) ∧
    (apAddrOk a = true → isCsw s.cfg a = true → s.link.mir.hasCsw (apselOf a) v = false →
      (s.link.mir.hasSelect (selectOf a) = true →
        Broken s.cfg [.write (reqCode true false a) v, drainTurn s.cfg] s.link.wire.lineIn e rest x →
        ∃ t, exec (.writeAp a v) s = .next t ∧ t.cause = .ack
          ∧ t.link.mir = { s.link.mir with cswValid := false }) ∧
      (s.link.mir.hasSelect (selectOf a) = false →
        Answered s.cfg [.write (reqCode false false s.cfg.dpSelect) (selectOf a)] s.link.wire.lineIn e mid →
        Broken s.cfg [.write (reqCode true false a) v, drainTurn s.cfg] mid e2 rest x →
        ∃ t, exec (.writeAp a v) s = .next t ∧ t.cause = .ack
          ∧ t.link.mir = { s.link.mir with selectValid := true, selectVal := selectOf a, cswValid := false }))

/-- The preconditions of R345, collected: each operation whose operands or state break its own is refused; only `STATUS` and
`CAUSE` change. The runtime operations also write their own `FAXST` (R350). The transfers and the bit operations have none. That
`RES` too is unchanged is the model's reading of 93_implementation_defined.md U20 against R344 (log 11, DEDUCED). -/
def Obligations.Preconditions : Prop :=
  ∀ s : State,
    (∀ i : Instr, i.wellFormed = false → exec i s = .next (s.refusedWith s.link.status.faxst)) ∧
    (∀ a o n : Word, s.cfg.bufSize < o.toNat + n.toNat →
      exec (.readBlock a o n) s = .next (s.refusedWith s.link.status.faxst)
      ∧ exec (.writeBlock a o n) s = .next (s.refusedWith s.link.status.faxst)
      ∧ exec (.readMemory a o n) s = .next (s.refusedWith s.link.status.faxst)
      ∧ exec (.writeMemory a o n) s = .next (s.refusedWith s.link.status.faxst)
      ∧ exec (.faProgramPage a o n) s = .next (s.refusedWith .writeFailed)) ∧
    (s.fa.desc.progBufSize = 0 → ∀ a o n : Word, n ≠ 0 →
      exec (.faProgramPage a o n) s = .next (s.refusedWith .writeFailed)) ∧
    (s.fa.valid = false → ∀ a b c d f : Word,
      exec .faUninit s = .next (s.refusedWith .uninitFailed)
      ∧ exec (.faProgramPage a b c) s = .next (s.refusedWith .writeFailed)
      ∧ exec (.faEraseSector a) s = .next (s.refusedWith .eraseSectorFailed)
      ∧ exec .faEraseChip s = .next (s.refusedWith .eraseChipFailed)
      ∧ exec (.faVerify a b c) s = .next (s.refusedWith .verifyFailed)
      ∧ exec .faSetRdp s = .next (s.refusedWith .setRdpFailed)
      ∧ exec (.faSectorIsBoundary a) s = .next (s.refusedWith s.link.status.faxst)
      ∧ exec (.faSyscall a b c d f) s = .next (s.refusedWith .syscallFailed)) ∧
    (∀ (r : Req) (w : Word), ∀ i ∈ [Instr.transfer r w, .transferRetry r w],
      ∃ t, exec i s = .next t ∧ (t.cause = .none ∨ t.cause = .ack)) ∧
    (∀ (d : Dir) (b : Bool), ∀ i ∈ [Instr.clockPulse, .setDir d, .writeBit b, .readBit],
      ∃ t, exec i s = .next t ∧ t.cause = .none)

/-- When the first transfer that fails in a register operation ends in `x`, the command ends there: `F_ACK`, no further slot,
`RESULT` is `x` (R342, R346). -/
def Obligations.RegisterOpsFailFirst : Prop :=
  ∀ (s : State) (a v : Word) (e : List Event) (rest : List Bool) (x : AckResult), cfgLegal s.cfg = true →
    (dpAddrOk a = true → Broken s.cfg (talkReadDp a v s.link.mir).1 s.link.wire.lineIn e rest x →
      ∃ t, exec (.readDp a) s = .next t ∧ t.cause = .ack ∧ CutOff s.link t.link e rest x) ∧
    (dpAddrOk a = true → Broken s.cfg (talkWriteDp s.cfg a v s.link.mir).1 s.link.wire.lineIn e rest x →
      ∃ t, exec (.writeDp a v) s = .next t ∧ t.cause = .ack ∧ CutOff s.link t.link e rest x) ∧
    (apAddrOk a = true → Broken s.cfg (talkReadAp s.cfg a v s.link.mir).1 s.link.wire.lineIn e rest x →
      ∃ t, exec (.readAp a) s = .next t ∧ t.cause = .ack ∧ CutOff s.link t.link e rest x) ∧
    (apAddrOk a = true → Broken s.cfg (talkWriteAp s.cfg a v s.link.mir).1 s.link.wire.lineIn e rest x →
      ∃ t, exec (.writeAp a v) s = .next t ∧ t.cause = .ack ∧ CutOff s.link t.link e rest x)

/-! ### Target memory -/

/-- `READ_WORD` and `WRITE_WORD` complete on a word-aligned address (R184, R186). -/
def Obligations.WordAccess : Prop :=
  ∀ (s : State) (a d v : Word) (e : List Event) (rest : List Bool), cfgLegal s.cfg = true → wordAligned a = true →
    (Answered s.cfg (talkReadWord s.cfg a d s.link.mir).1 s.link.wire.lineIn e rest →
      ∃ l, exec (.readWord a) s = .next (((s.setRes0 d).setCause .none).setLink l)
        ∧ Done s.link l (talkReadWord s.cfg a d s.link.mir) e rest s.link.status.faxst .none) ∧
    (Answered s.cfg (talkWriteWord s.cfg a v s.link.mir).1 s.link.wire.lineIn e rest →
      ∃ l, exec (.writeWord a v) s = .next ((s.setCause .none).setLink l)
        ∧ Done s.link l (talkWriteWord s.cfg a v s.link.mir) e rest s.link.status.faxst .none)

/-- `READ_BYTE` and `WRITE_BYTE` complete on any address: the byte is the one in the lane `a & 3` of the word, zeros in the
other lanes of a written word (R190, R192). That bits 31:8 of `RES[0]` are 0 after `READ_BYTE` is the model's choice (log 13). -/
def Obligations.ByteAccess : Prop :=
  ∀ (s : State) (a d : Word) (b : Byte) (e : List Event) (rest : List Bool), cfgLegal s.cfg = true →
    (Answered s.cfg (talkReadByte s.cfg a d s.link.mir).1 s.link.wire.lineIn e rest →
      ∃ l, exec (.readByte a) s
          = .next (((s.setRes0 ((d >>> ((a &&& 3).toNat * 8)) &&& 0xFF)).setCause .none).setLink l)
        ∧ Done s.link l (talkReadByte s.cfg a d s.link.mir) e rest s.link.status.faxst .none) ∧
    (Answered s.cfg (talkWriteByte s.cfg a b s.link.mir).1 s.link.wire.lineIn e rest →
      ∃ l, exec (.writeByte a b) s = .next ((s.setCause .none).setLink l)
        ∧ Done s.link l (talkWriteByte s.cfg a b s.link.mir) e rest s.link.status.faxst .none)

/-- `READ_BLOCK` and `WRITE_BLOCK` complete. A read stores its words in `BUF` one after another, the first from the second
`DRW` read on and the last from the drain; a write sends one `DRW` write for each word of the range and one drain after the
last, and `BUF` is as it was (R196, R197, R200). That `WORDCNT` is 0 after it is the model's choice (log 24). -/
def Obligations.BlockAccess : Prop :=
  ∀ (s : State) (a o n : Word) (ds : List Word) (e : List Event) (rest : List Bool), cfgLegal s.cfg = true →
    blockShapeOk a n = true → bufRangeOk s.cfg.bufSize o n = true →
    (4 * ds.length = n.toNat → Answered s.cfg (talkReadWords s.cfg a ds s.link.mir).1 s.link.wire.lineIn e rest →
      ∃ l, exec (.readBlock a o n) s = .next ((((s.setBuf (storeWords s.buf o.toNat ds)).setLoops
            { s.loops with wordcnt := 0 }).setCause .none).setLink l)
        ∧ Done s.link l (talkReadWords s.cfg a ds s.link.mir) e rest s.link.status.faxst .none) ∧
    (Answered s.cfg (talkWriteWords s.cfg a (wordsAt s.buf.read (n.toNat / 4) o.toNat) s.link.mir).1
        s.link.wire.lineIn e rest →
      ∃ l, exec (.writeBlock a o n) s = .next (((s.setLoops { s.loops with wordcnt := 0 }).setCause .none).setLink l)
        ∧ Done s.link l (talkWriteWords s.cfg a (wordsAt s.buf.read (n.toNat / 4) o.toNat) s.link.mir) e rest
          s.link.status.faxst .none)

/-- `READ_MEMORY` completes for every address and size, 0 included: it reads the pieces of the walk in order and stores what
each delivers (R204). -/
def Obligations.MemoryRead : Prop :=
  ∀ (s : State) (a o n : Word) (xs : List (Piece × List Word)) (e : List Event) (rest : List Bool),
    cfgLegal s.cfg = true → bufRangeOk s.cfg.bufSize o n = true →
    xs.map Prod.fst = walkPieces s.cfg.blockMax a o.toNat n.toNat → (∀ t ∈ xs, Piece.fits t) →
    Answered s.cfg (Talk.all (xs.map (talkReadPiece s.cfg)) s.link.mir).1 s.link.wire.lineIn e rest →
    ∃ l lo, exec (.readMemory a o n) s
        = .next ((((s.setBuf (xs.foldl storePiece s.buf)).setLoops lo).setCause .none).setLink l)
      ∧ Done s.link l (Talk.all (xs.map (talkReadPiece s.cfg)) s.link.mir) e rest s.link.status.faxst .none

/-- `WRITE_MEMORY` completes for every address and size, 0 included: it writes the pieces of the walk in order; `BUF` is as it
was (R206). -/
def Obligations.MemoryWrite : Prop :=
  ∀ (s : State) (a o n : Word) (e : List Event) (rest : List Bool), cfgLegal s.cfg = true →
    bufRangeOk s.cfg.bufSize o n = true →
    Answered s.cfg (talkWriteBytes s.cfg s.buf.read a o.toNat n.toNat s.link.mir).1 s.link.wire.lineIn e rest →
    ∃ l lo, exec (.writeMemory a o n) s = .next (((s.setLoops lo).setCause .none).setLink l)
      ∧ Done s.link l (talkWriteBytes s.cfg s.buf.read a o.toNat n.toNat s.link.mir) e rest s.link.status.faxst .none

/-- The pieces of a walk cover every byte of the range once, in ascending address order, byte `k` with `BUF[off + k]`; a block
starts word aligned, holds at least one word and does not cross a multiple of the block limit (R204, R208). -/
def Obligations.WalkCovers : Prop :=
  ∀ (m : Nat) (a : Word) (o n : Nat), 4 ≤ m → m &&& (m - 1) = 0 →
    (walkPieces m a o n).flatMap Piece.bytes = (List.range n).map (fun k => (a + BitVec.ofNat 32 k, o + k))
      ∧ ∀ b p k, Piece.block b p k ∈ walkPieces m a o n →
        b.toNat % 4 = 0 ∧ 1 ≤ k ∧ b.toNat % m + 4 * k ≤ m

/-- Words stored at an offset: byte `j` of word `i` lies at `o + 4 i + j`, least significant first; every byte outside is as it
was; the memory keeps its form (R66, R196). -/
def Obligations.StoredWords : Prop :=
  ∀ (m : Memory) (o : Nat) (ds : List Word), m.wf = true →
    (∀ (i : Nat) (d : Word) (j : Nat), ds[i]? = some d → j < 4 →
      (storeWords m o ds).read (o + 4 * i + j) = (d >>> (8 * j)).setWidth 8) ∧
    (∀ x, x < o ∨ o + 4 * ds.length ≤ x → (storeWords m o ds).read x = m.read x) ∧
    (storeWords m o ds).wf = true

/-- However `READ_BLOCK` and `READ_MEMORY` end, every byte of `BUF` outside their range is as it was (R212). -/
def Obligations.ReadsKeepOutside : Prop :=
  ∀ (s : State) (a o n : Word), s.buf.wf = true →
    (∃ t, exec (.readBlock a o n) s = .next t ∧ t.buf.wf = true
      ∧ ∀ x, x < o.toNat ∨ o.toNat + n.toNat ≤ x → t.buf.read x = s.buf.read x) ∧
    (∃ t, exec (.readMemory a o n) s = .next t ∧ t.buf.wf = true
      ∧ ∀ x, x < o.toNat ∨ o.toNat + n.toNat ≤ x → t.buf.read x = s.buf.read x)

/-- The first transfer that fails in a memory or core-register operation ends it, also one of a poll: `F_ACK`, no further slot
(R180, R222, R346). `WRITE_DEBUG_STATE` has by then forced xPSR (R232). -/
def Obligations.MemoryOpsFailFirst : Prop :=
  ∀ (s : State) (a v o n : Word) (b : Byte) (ds : List Word) (xs : List (Piece × List Word)) (ws : List Word)
    (wss : List (List Word)) (e : List Event) (rest : List Bool) (x : AckResult), cfgLegal s.cfg = true →
    (wordAligned a = true → Broken s.cfg (talkReadWord s.cfg a v s.link.mir).1 s.link.wire.lineIn e rest x →
      ∃ t, exec (.readWord a) s = .next t ∧ t.cause = .ack ∧ CutOff s.link t.link e rest x) ∧
    (wordAligned a = true → Broken s.cfg (talkWriteWord s.cfg a v s.link.mir).1 s.link.wire.lineIn e rest x →
      ∃ t, exec (.writeWord a v) s = .next t ∧ t.cause = .ack ∧ CutOff s.link t.link e rest x) ∧
    (Broken s.cfg (talkReadByte s.cfg a v s.link.mir).1 s.link.wire.lineIn e rest x →
      ∃ t, exec (.readByte a) s = .next t ∧ t.cause = .ack ∧ CutOff s.link t.link e rest x) ∧
    (Broken s.cfg (talkWriteByte s.cfg a b s.link.mir).1 s.link.wire.lineIn e rest x →
      ∃ t, exec (.writeByte a b) s = .next t ∧ t.cause = .ack ∧ CutOff s.link t.link e rest x) ∧
    (blockShapeOk a n = true → bufRangeOk s.cfg.bufSize o n = true → 4 * ds.length = n.toNat →
      Broken s.cfg (talkReadWords s.cfg a ds s.link.mir).1 s.link.wire.lineIn e rest x →
      ∃ t, exec (.readBlock a o n) s = .next t ∧ t.cause = .ack ∧ CutOff s.link t.link e rest x) ∧
    (blockShapeOk a n = true → bufRangeOk s.cfg.bufSize o n = true →
      Broken s.cfg (talkWriteWords s.cfg a (wordsAt s.buf.read (n.toNat / 4) o.toNat) s.link.mir).1
        s.link.wire.lineIn e rest x →
      ∃ t, exec (.writeBlock a o n) s = .next t ∧ t.cause = .ack ∧ CutOff s.link t.link e rest x) ∧
    (bufRangeOk s.cfg.bufSize o n = true → xs.map Prod.fst = walkPieces s.cfg.blockMax a o.toNat n.toNat →
      (∀ t ∈ xs, Piece.fits t) →
      Broken s.cfg (Talk.all (xs.map (talkReadPiece s.cfg)) s.link.mir).1 s.link.wire.lineIn e rest x →
      ∃ t, exec (.readMemory a o n) s = .next t ∧ t.cause = .ack ∧ CutOff s.link t.link e rest x) ∧
    (bufRangeOk s.cfg.bufSize o n = true →
      Broken s.cfg (talkWriteBytes s.cfg s.buf.read a o.toNat n.toNat s.link.mir).1 s.link.wire.lineIn e rest x →
      ∃ t, exec (.writeMemory a o n) s = .next t ∧ t.cause = .ack ∧ CutOff s.link t.link e rest x) ∧
    (coreRegOk n = true → pollsEnd s.cfg.regrdyPolls (ready s.cfg) ws →
      Broken s.cfg (talkReadCore s.cfg n v ws s.link.mir).1 s.link.wire.lineIn e rest x →
      ∃ t, exec (.readCoreReg n) s = .next t ∧ t.cause = .ack ∧ CutOff s.link t.link e rest x) ∧
    (coreRegOk n = true → pollsEnd s.cfg.regrdyPolls (ready s.cfg) ws →
      Broken s.cfg (talkWriteCore s.cfg n v ws s.link.mir).1 s.link.wire.lineIn e rest x →
      ∃ t, exec (.writeCoreReg n v) s = .next t ∧ t.cause = .ack ∧ CutOff s.link t.link e rest x) ∧
    (loadsReady s.cfg wss →
      Broken s.cfg (talkDebugState s.cfg (thumbDs s.cfg s.ds) wss v s.link.mir).1 s.link.wire.lineIn e rest x →
      ∃ t, exec .writeDebugState s = .next t ∧ t.cause = .ack ∧ t.ds = thumbDs s.cfg s.ds
        ∧ CutOff s.link t.link e rest x)

/-- The counts of logical transfers of R210, rows 1 to 4, with the default configuration: with a cold mirror (invalid), with
the mirror holding AP 0 bank 0 and another mode, and with a warm one. -/
def Obligations.TransferCounts : Prop :=
  ∀ (m : Mirror) (a d : Word) (b : Byte) (ds : List Word), ds ≠ [] →
    let n := fun (tk : Talk) => ((tk m).1.filter Turn.isTransfer).length
    let c := Config.default
    let cost := fun (mode : Word) =>
      if m.hasSelect 0 then (if m.hasCsw 0 mode then 0 else 2) else if m.hasCsw 0 mode then 1 else 3
    n (talkReadWord c a d) = 4 + cost c.cswWord ∧ n (talkWriteWord c a d) = 4 + cost c.cswWord
      ∧ n (talkReadByte c a d) = 4 + cost c.cswByte ∧ n (talkWriteByte c a b) = 4 + cost c.cswByte
      ∧ n (talkReadWords c a ds) = 2 + ds.length + 1 + cost c.cswWord
      ∧ n (talkWriteWords c a ds) = 2 + ds.length + 1 + cost c.cswWord

/-! ### Core registers -/

/-- `READ_CORE_REG` and `WRITE_CORE_REG` complete when the ready flag shows within the polls;
`POLLCNT` is the number of polls (R222, R224, R228). -/
def Obligations.CoreRegisters : Prop :=
  ∀ (s : State) (n d v : Word) (ws : List Word) (e : List Event) (rest : List Bool), cfgLegal s.cfg = true →
    coreRegOk n = true → pollsEnd s.cfg.regrdyPolls (ready s.cfg) ws →
    (Answered s.cfg (talkReadCore s.cfg n d ws s.link.mir).1 s.link.wire.lineIn e rest →
      ∃ l, exec (.readCoreReg n) s
          = .next ((((s.setLoops (s.loops.polled ws.length)).setRes0 d).setCause .none).setLink l)
        ∧ Done s.link l (talkReadCore s.cfg n d ws s.link.mir) e rest s.link.status.faxst .none) ∧
    (Answered s.cfg (talkWriteCore s.cfg n v ws s.link.mir).1 s.link.wire.lineIn e rest →
      ∃ l, exec (.writeCoreReg n v) s = .next (((s.setLoops (s.loops.polled ws.length)).setCause .none).setLink l)
        ∧ Done s.link l (talkWriteCore s.cfg n v ws s.link.mir) e rest s.link.status.faxst .none)

/-- The ready flag 0 in all `CFG.REGRDY_POLLS` polls: `F_REGRDY_TIMEOUT`, and nothing is sent after the last poll;
`POLLCNT` is the cap (R222). -/
def Obligations.ReadyTimeouts : Prop :=
  ∀ (s : State) (n v : Word) (ws : List Word) (e : List Event) (rest : List Bool), cfgLegal s.cfg = true →
    coreRegOk n = true → pollsFail s.cfg.regrdyPolls (ready s.cfg) ws →
    (Answered s.cfg ((talkWriteWord s.cfg s.cfg.dcrsr n).andThen (talkPolls s.cfg ws) s.link.mir).1
        s.link.wire.lineIn e rest →
      ∃ t, exec (.readCoreReg n) s = .next t ∧ t.cause = .regrdyTimeout
        ∧ t.loops = s.loops.polled s.cfg.regrdyPolls
        ∧ Done s.link t.link ((talkWriteWord s.cfg s.cfg.dcrsr n).andThen (talkPolls s.cfg ws) s.link.mir) e rest
          s.link.status.faxst .regrdyTimeout) ∧
    (Answered s.cfg (talkWriteCore s.cfg n v ws s.link.mir).1 s.link.wire.lineIn e rest →
      ∃ t, exec (.writeCoreReg n v) s = .next t ∧ t.cause = .regrdyTimeout
        ∧ t.loops = s.loops.polled s.cfg.regrdyPolls
        ∧ Done s.link t.link (talkWriteCore s.cfg n v ws s.link.mir) e rest s.link.status.faxst .regrdyTimeout)

/-- `WRITE_DEBUG_STATE` (R232): xPSR forced, the nine loads in the order of the rule, the start, the status read; it completes
with neither status bit set and ends in `F_STICKY` with one of them set, after the same dialogue. -/
def Obligations.DebugState : Prop :=
  ∀ (s : State) (wss : List (List Word)) (stat : Word) (e : List Event) (rest : List Bool), cfgLegal s.cfg = true →
    loadsReady s.cfg wss →
    Answered s.cfg (talkDebugState s.cfg { s.ds with xpsr := s.cfg.xpsrThumb } wss stat s.link.mir).1
      s.link.wire.lineIn e rest →
    (stat.getLsbD s.cfg.stickyerr = false → stat.getLsbD s.cfg.wdataerr = false →
      ∃ l lo, exec .writeDebugState s
          = .next ((((s.setDs { s.ds with xpsr := s.cfg.xpsrThumb }).setLoops lo).setCause .none).setLink l)
        ∧ Done s.link l (talkDebugState s.cfg { s.ds with xpsr := s.cfg.xpsrThumb } wss stat s.link.mir) e rest
          s.link.status.faxst .none) ∧
    (stat.getLsbD s.cfg.stickyerr = true ∨ stat.getLsbD s.cfg.wdataerr = true →
      ∃ t, exec .writeDebugState s = .next t ∧ t.cause = .sticky
        ∧ t.ds = { s.ds with xpsr := s.cfg.xpsrThumb }
        ∧ Done s.link t.link (talkDebugState s.cfg { s.ds with xpsr := s.cfg.xpsrThumb } wss stat s.link.mir) e rest
          s.link.status.faxst .sticky)

/-! ### Flash runtime -/

/-- `FA_SYSCALL` completes (R244): the staged registers, the load and start, the halt polls, the harvest; the target's R0 goes
to `RET` and `RES[0]`, whatever it is; `FAXST` is `Ok`; `POLLCNT` is the number of polls of the harvest, its last loop (R222). -/
def Obligations.RemoteCall : Prop :=
  ∀ (s : State) (en a1 a2 a3 a4 : Word) (k : Call) (e : List Event) (rest : List Bool), cfgLegal s.cfg = true →
    s.fa.valid = true → k.good s.cfg →
    Answered s.cfg (talkCall s.cfg (stagedDs s.cfg s.fa.desc en a1 a2 a3 a4) k s.link.mir).1 s.link.wire.lineIn e rest →
    ∃ l, exec (.faSyscall en a1 a2 a3 a4) s
        = .next ((((s.called (stagedDs s.cfg s.fa.desc en a1 a2 a3 a4) k).setRes0 k.r0).setCause .none).setLink l)
      ∧ Done s.link l (talkCall s.cfg (stagedDs s.cfg s.fa.desc en a1 a2 a3 a4) k s.link.mir) e rest .ok .none

/-- The judged calls complete when the predicate accepts the return value: each with its own entry and arguments (R247, R250,
R257 to R260). -/
def Obligations.JudgedCalls : Prop :=
  ∀ (s : State) (a n crc : Word) (k : Call) (e : List Event) (rest : List Bool), cfgLegal s.cfg = true →
    s.fa.valid = true → k.good s.cfg →
    ∀ p ∈ [(Instr.faUninit, EntryPoint.uninit, s.fa.desc.uninit.present, s.fa.desc.uninit.addr, 0#32, 0#32, 0#32),
        (.faEraseSector a, .eraseSector, true, s.fa.desc.eraseSector, a, 0, 0),
        (.faEraseChip, .eraseChip, true, s.fa.desc.eraseChip, 0, 0, 0),
        (.faVerify a n crc, .verify, s.fa.desc.verify.present, s.fa.desc.verify.addr, a, n, crc),
        (.faSetRdp, .setRdp, s.fa.desc.setRdp.present, s.fa.desc.setRdp.addr, 0, 0, 0)],
      let ds := stagedDs s.cfg s.fa.desc p.2.2.2.1 p.2.2.2.2.1 p.2.2.2.2.2.1 p.2.2.2.2.2.2 0
      p.2.2.1 = true → retOk s.cfg p.2.1 k.r0 = true →
      Answered s.cfg (talkCall s.cfg ds k s.link.mir).1 s.link.wire.lineIn e rest →
      ∃ l, exec p.1 s = .next ((((s.called ds k).setRes0 k.r0).setCause .none).setLink l)
        ∧ Done s.link l (talkCall s.cfg ds k s.link.mir) e rest .ok .none

/-- The same calls when the predicate rejects the return value: `F_RETVAL` after the whole call, `RET` and `RES[0]` the value,
`FAXST` the operation's own (R247, R343, R350). -/
def Obligations.RejectedCalls : Prop :=
  ∀ (s : State) (a n crc : Word) (k : Call) (e : List Event) (rest : List Bool), cfgLegal s.cfg = true →
    s.fa.valid = true → k.good s.cfg →
    ∀ p ∈ [(Instr.faUninit, EntryPoint.uninit, FlashStatus.uninitFailed, s.fa.desc.uninit.present,
          s.fa.desc.uninit.addr, 0#32, 0#32, 0#32),
        (.faEraseSector a, .eraseSector, .eraseSectorFailed, true, s.fa.desc.eraseSector, a, 0, 0),
        (.faEraseChip, .eraseChip, .eraseChipFailed, true, s.fa.desc.eraseChip, 0, 0, 0),
        (.faVerify a n crc, .verify, .verifyFailed, s.fa.desc.verify.present, s.fa.desc.verify.addr, a, n, crc),
        (.faSetRdp, .setRdp, .setRdpFailed, s.fa.desc.setRdp.present, s.fa.desc.setRdp.addr, 0, 0, 0)],
      let ds := stagedDs s.cfg s.fa.desc p.2.2.2.2.1 p.2.2.2.2.2.1 p.2.2.2.2.2.2.1 p.2.2.2.2.2.2.2 0
      p.2.2.2.1 = true → retOk s.cfg p.2.1 k.r0 = false →
      Answered s.cfg (talkCall s.cfg ds k s.link.mir).1 s.link.wire.lineIn e rest →
      ∃ t, exec p.1 s = .next t ∧ t.cause = .retval ∧ t.ret = k.r0 ∧ t.res0 = k.r0 ∧ t.ds = ds
        ∧ Done s.link t.link (talkCall s.cfg ds k s.link.mir) e rest p.2.2.1 .retval

/-- A remote call that is started and never seen halted: `F_HALT_TIMEOUT` after exactly `CFG.SYSCALL_POLLS` polls, `RET` as it
was; a call whose start shows a sticky bit: `F_STICKY`, without a poll of the halt (R244, R246, R351). For `FA_SYSCALL` and
`FA_ERASE_CHIP`. -/
def Obligations.CallFailures : Prop :=
  ∀ (s : State) (en a1 a2 a3 a4 : Word) (k : Call) (e : List Event) (rest : List Bool), cfgLegal s.cfg = true →
    s.fa.valid = true →
    ∀ p ∈ [(Instr.faSyscall en a1 a2 a3 a4, FlashStatus.syscallFailed, stagedDs s.cfg s.fa.desc en a1 a2 a3 a4),
        (.faEraseChip, .eraseChipFailed, stagedDs s.cfg s.fa.desc s.fa.desc.eraseChip 0 0 0 0)],
      (k.started s.cfg → pollsFail s.cfg.syscallPolls (halted s.cfg) k.halt →
        Answered s.cfg (talkStart s.cfg p.2.2 k s.link.mir).1 s.link.wire.lineIn e rest →
        ∃ t, exec p.1 s = .next t ∧ t.cause = .haltTimeout ∧ t.ret = s.ret ∧ t.ds = p.2.2
          ∧ t.loops = s.loops.polled s.cfg.syscallPolls
          ∧ Done s.link t.link (talkStart s.cfg p.2.2 k s.link.mir) e rest p.2.1 .haltTimeout) ∧
      (loadsReady s.cfg k.loads → stickySet s.cfg k.stat = true →
        Answered s.cfg (talkDebugState s.cfg p.2.2 k.loads k.stat s.link.mir).1 s.link.wire.lineIn e rest →
        ∃ t, exec p.1 s = .next t ∧ t.cause = .sticky ∧ t.ret = s.ret ∧ t.ds = p.2.2
          ∧ Done s.link t.link (talkDebugState s.cfg p.2.2 k.loads k.stat s.link.mir) e rest p.2.1 .sticky)

/-- The first transfer that fails in an operation of the flash runtime ends it with `F_ACK` and the operation's own `FAXST`
(R346, R350). For the calls: `DS` staged, `RET` as it was. For `FA_INIT`: a failed debug-enable write is retried, and its last
failure is `F_LIFECYCLE`; any later one is `F_ACK`; the descriptor is latched in both cases (R248, R286). For
`FA_PROGRAM_PAGE`, in the chunk `y` after the accepted chunks `xs`: `RES[1]` counts the bytes of `xs`, `RET` is the value of the
last call that returned (R254, R255). -/
def Obligations.CallsFailFirst : Prop :=
  ∀ (s : State) (en a1 a2 a3 a4 : Word) (k : Call) (e : List Event) (rest : List Bool) (x : AckResult),
    cfgLegal s.cfg = true →
    (s.fa.valid = true → k.good s.cfg →
      ∀ p ∈ [(Instr.faSyscall en a1 a2 a3 a4, FlashStatus.syscallFailed, true,
            stagedDs s.cfg s.fa.desc en a1 a2 a3 a4),
          (.faUninit, .uninitFailed, s.fa.desc.uninit.present, stagedDs s.cfg s.fa.desc s.fa.desc.uninit.addr 0 0 0 0),
          (.faEraseSector a1, .eraseSectorFailed, true, stagedDs s.cfg s.fa.desc s.fa.desc.eraseSector a1 0 0 0),
          (.faEraseChip, .eraseChipFailed, true, stagedDs s.cfg s.fa.desc s.fa.desc.eraseChip 0 0 0 0),
          (.faVerify a1 a2 a3, .verifyFailed, s.fa.desc.verify.present,
            stagedDs s.cfg s.fa.desc s.fa.desc.verify.addr a1 a2 a3 0),
          (.faSetRdp, .setRdpFailed, s.fa.desc.setRdp.present,
            stagedDs s.cfg s.fa.desc s.fa.desc.setRdp.addr 0 0 0 0)],
        p.2.2.1 = true → Broken s.cfg (talkCall s.cfg p.2.2.2 k s.link.mir).1 s.link.wire.lineIn e rest x →
        ∃ t, exec p.1 s = .next t ∧ t.cause = .ack ∧ t.ret = s.ret ∧ t.ds = p.2.2.2 ∧ t.link.status.faxst = p.2.1
          ∧ CutOff s.link t.link e rest x) ∧
    (EnableFails s.cfg s.cfg.debugenRetries s.link.mir s.link.wire.lineIn e rest →
      ∃ t, exec (.faInit a1) s = .next t ∧ t.cause = .lifecycle ∧ t.fa = ⟨true, s.descIn⟩ ∧ t.ret = s.ret
        ∧ t.link.status.faxst = .initFailed ∧ t.link.status.fail = true
        ∧ t.link.wire.trace = s.link.wire.trace ++ e ∧ t.link.wire.lineIn = rest) ∧
    (∀ (ws : List Word) (e2 : List Event) (mid : List Bool) (m : Mirror),
      pollsEnd s.cfg.haltPolls (halted s.cfg) ws → k.good s.cfg →
      let tk := (talkResetSteps s.cfg (if s.cfg.softReset then talkSoftReset s.cfg else talkPulse) ws).andThen
        ((talkWriteBytes s.cfg s.descIn.codeByte s.descIn.codeAddr 0 s.descIn.codeSize.toNat).andThen
          (talkCall s.cfg (stagedDs s.cfg s.descIn s.descIn.init a1 0 0 0) k))
      Enabled s.cfg s.link.mir s.link.wire.lineIn e mid m → Broken s.cfg (tk m).1 mid e2 rest x →
      ∃ t, exec (.faInit a1) s = .next t ∧ t.cause = .ack ∧ t.fa = ⟨true, s.descIn⟩ ∧ t.ret = s.ret
        ∧ t.link.status.faxst = .initFailed ∧ CutOff s.link t.link (e ++ e2) rest x) ∧
    (∀ (o n : Word) (xs : List ((Word × Nat × Nat) × Call)) (y : (Word × Nat × Nat) × Call)
      (more : List (Word × Nat × Nat)) (e2 : List Event) (mid : List Bool),
      s.fa.valid = true → bufRangeOk s.cfg.bufSize o n = true → s.fa.desc.progBufSize ≠ 0 →
      pageChunks s.fa.desc.progBufSize.toNat n.toNat a1 o.toNat n.toNat = xs.map Prod.fst ++ y.1 :: more →
      (∀ x ∈ xs, x.2.good s.cfg ∧ retOk s.cfg .programPage x.2.r0 = true) → y.2.good s.cfg →
      let tk := Talk.all (xs.map (talkChunk s.cfg s.fa.desc s.buf.read))
      Answered s.cfg (tk s.link.mir).1 s.link.wire.lineIn e mid →
      Broken s.cfg (talkChunk s.cfg s.fa.desc s.buf.read y (tk s.link.mir).2).1 mid e2 rest x →
      ∃ t, exec (.faProgramPage a1 o n) s = .next t ∧ t.cause = .ack
        ∧ t.ret = (xs.map (·.2.r0)).getLastD s.ret ∧ t.res1 = BitVec.ofNat 32 ((xs.map (fun x => x.1.2.2)).sum)
        ∧ t.link.status.faxst = .writeFailed ∧ CutOff s.link t.link (e ++ e2) rest x)

/-- An absent entry point: `FA_UNINIT` is a success without wire activity, `FA_VERIFY` and `FA_SET_RDP` fail with
`F_UNSUPPORTED` and `FAXST` `Unsupported`, also without any (R250, R259 to R261; that a success without a call copies `RET` to
`RES[0]` is the model's choice, log 13). -/
def Obligations.AbsentEntries : Prop :=
  ∀ (s : State) (a n crc : Word), s.fa.valid = true →
    (s.fa.desc.uninit.present = false →
      exec .faUninit s = .next (((s.setRes0 s.ret).setCause .none).setLink (s.link.setStatus
        { s.link.status with fail := false, faxst := .ok, illegal := false, busy := false }))) ∧
    (∀ p ∈ [(Instr.faVerify a n crc, s.fa.desc.verify.present), (.faSetRdp, s.fa.desc.setRdp.present)],
      p.2 = false → ∃ t, exec p.1 s = .next t ∧ t.cause = .unsupported ∧ t.ret = s.ret ∧ t.ds = s.ds
        ∧ t.link = s.link.setStatus
          { s.link.status with fail := true, faxst := .unsupported, illegal := false, busy := false })

/-- `FA_INIT` (R248): latches the descriptor, resets and halts, downloads the code, calls `init`. It completes when the
predicate accepts the return value; with a rejected one it ends in `F_RETVAL`, `InitFailed`, the descriptor latched. -/
def Obligations.FlashInit : Prop :=
  ∀ (s : State) (base : Word) (ws : List Word) (k : Call) (e : List Event) (rest : List Bool),
    cfgLegal s.cfg = true → pollsEnd s.cfg.haltPolls (halted s.cfg) ws → k.good s.cfg →
    let ds := stagedDs s.cfg s.descIn s.descIn.init base 0 0 0
    let tk := (talkResetHalt s.cfg ws).andThen
      ((talkWriteBytes s.cfg s.descIn.codeByte s.descIn.codeAddr 0 s.descIn.codeSize.toNat).andThen
        (talkCall s.cfg ds k))
    Answered s.cfg (tk s.link.mir).1 s.link.wire.lineIn e rest →
    (retOk s.cfg .init k.r0 = true → ∃ l lo, exec (.faInit base) s
        = .next (((((((s.setFa ⟨true, s.descIn⟩).setDs ds).setRet k.r0).setLoops lo).setRes0 k.r0).setCause .none).setLink l)
      ∧ Done s.link l (tk s.link.mir) e rest .ok .none) ∧
    (retOk s.cfg .init k.r0 = false → ∃ t, exec (.faInit base) s = .next t ∧ t.cause = .retval
      ∧ t.fa = ⟨true, s.descIn⟩ ∧ t.ds = ds ∧ t.ret = k.r0 ∧ t.res0 = k.r0
      ∧ Done s.link t.link (tk s.link.mir) e rest .initFailed .retval)

/-- `FA_PROGRAM_PAGE` completes when every chunk's call is accepted: `RES[1]` counts all bytes, `RET` is the last call's value and
`DS` what the last call staged (R244, R254); a length of 0 completes without wire activity, `DS` and `RET` as they were (then
`RES[0]` is a copy of `RET`, the model's choice, log 13). -/
def Obligations.PageProgrammed : Prop :=
  ∀ (s : State) (a o n : Word) (xs : List ((Word × Nat × Nat) × Call)) (e : List Event) (rest : List Bool),
    cfgLegal s.cfg = true → s.fa.valid = true → bufRangeOk s.cfg.bufSize o n = true →
    (n = 0 ∨ s.fa.desc.progBufSize ≠ 0) →
    xs.map Prod.fst = pageChunks s.fa.desc.progBufSize.toNat n.toNat a o.toNat n.toNat →
    (∀ x ∈ xs, x.2.good s.cfg ∧ retOk s.cfg .programPage x.2.r0 = true) →
    Answered s.cfg (Talk.all (xs.map (talkChunk s.cfg s.fa.desc s.buf.read)) s.link.mir).1 s.link.wire.lineIn e rest →
    ∃ l lo, exec (.faProgramPage a o n) s
        = .next (((((((s.setDs ((xs.map (fun x => pageDs s.cfg s.fa.desc x.1.1 x.1.2.2)).getLastD s.ds)).setRet
            ((xs.map (·.2.r0)).getLastD s.ret)).setLoops lo).setRes0
            ((xs.map (·.2.r0)).getLastD s.ret)).setRes1 n).setCause .none).setLink l)
      ∧ Done s.link l (Talk.all (xs.map (talkChunk s.cfg s.fa.desc s.buf.read)) s.link.mir) e rest .ok .none

/-- The first chunk whose call is rejected ends `FA_PROGRAM_PAGE`: `F_RETVAL`, `WriteFailed`, no further chunk; `RES[1]` counts
the bytes of the chunks before it (R254, R255). -/
def Obligations.PageRejected : Prop :=
  ∀ (s : State) (a o n : Word) (xs : List ((Word × Nat × Nat) × Call)) (y : (Word × Nat × Nat) × Call)
    (more : List (Word × Nat × Nat)) (e : List Event) (rest : List Bool),
    cfgLegal s.cfg = true → s.fa.valid = true → bufRangeOk s.cfg.bufSize o n = true → s.fa.desc.progBufSize ≠ 0 →
    pageChunks s.fa.desc.progBufSize.toNat n.toNat a o.toNat n.toNat = xs.map Prod.fst ++ y.1 :: more →
    (∀ x ∈ xs, x.2.good s.cfg ∧ retOk s.cfg .programPage x.2.r0 = true) →
    y.2.good s.cfg → retOk s.cfg .programPage y.2.r0 = false →
    Answered s.cfg (Talk.all ((xs ++ [y]).map (talkChunk s.cfg s.fa.desc s.buf.read)) s.link.mir).1
      s.link.wire.lineIn e rest →
    ∃ t, exec (.faProgramPage a o n) s = .next t ∧ t.cause = .retval ∧ t.ret = y.2.r0 ∧ t.res0 = y.2.r0
      ∧ t.ds = pageDs s.cfg s.fa.desc y.1.1 y.1.2.2
      ∧ t.res1 = BitVec.ofNat 32 ((xs.map (fun x => x.1.2.2)).sum)
      ∧ Done s.link t.link (Talk.all ((xs ++ [y]).map (talkChunk s.cfg s.fa.desc s.buf.read)) s.link.mir) e rest
        .writeFailed .retval

/-- The chunks of a page cover every byte once in ascending order, at the address and the buffer offset of the byte; none is
empty or longer than the program buffer, and every one but the last is as long as it (R254). -/
def Obligations.ChunksCover : Prop :=
  ∀ (p : Nat) (a : Word) (o n : Nat), 0 < p →
    (pageChunks p n a o n).flatMap (fun c => (List.range c.2.2).map (fun k => (c.1 + BitVec.ofNat 32 k, c.2.1 + k)))
        = (List.range n).map (fun k => (a + BitVec.ofNat 32 k, o + k))
      ∧ (∀ c ∈ pageChunks p n a o n, 0 < c.2.2 ∧ c.2.2 ≤ p)
      ∧ ∀ c ∈ (pageChunks p n a o n).dropLast, c.2.2 = p

/-- `FA_SECTOR_IS_BOUNDARY` completes without wire activity: bit 0 of `RES[0]` tells whether the address lies on a boundary of
the entry the rule picks; `FAXST` is not written (R262, R263). Without a descriptor it is refused (R241). The model's choice, not
the spec's: the other bits of `RES[0]` are zero (log 13), and `RES` is unchanged when it is refused (log 11). -/
def Obligations.SectorBoundary : Prop :=
  ∀ (s : State) (a : Word),
    (s.fa.valid = true →
      ∃ b : Bool, exec (.faSectorIsBoundary a) s = .next ((s.setRes0 (if b then 1 else 0)).afterBit s.link.wire)
        ∧ (b = true ↔ OnBoundary s.fa.desc.sect a)) ∧
    (s.fa.valid = false → exec (.faSectorIsBoundary a) s = .next (s.refusedWith s.link.status.faxst))

/-! ### Lifecycle -/

/-- `LC_CONNECT` and `LC_POWER_UP` complete (R281, R282, R284). -/
def Obligations.ConnectAndPower : Prop :=
  ∀ (s : State) (d : Word) (ws : List Word) (e : List Event) (rest : List Bool), cfgLegal s.cfg = true →
    (Answered s.cfg (talkConnect s.cfg d s.link.mir).1 s.link.wire.lineIn e rest →
      ∃ l, exec .lcConnect s = .next (((s.setRes0 d).setCause .none).setLink l)
        ∧ Done s.link l (talkConnect s.cfg d s.link.mir) e rest s.link.status.faxst .none) ∧
    (pollsEnd s.cfg.pwrupPolls (powerAcked s.cfg) ws →
      Answered s.cfg (talkPowerUp s.cfg ws s.link.mir).1 s.link.wire.lineIn e rest →
      ∃ l, exec .lcPowerUp s = .next (((s.setLoops (s.loops.polled ws.length)).setCause .none).setLink l)
        ∧ Done s.link l (talkPowerUp s.cfg ws s.link.mir) e rest s.link.status.faxst .none)

/-- `LC_RESET_HALT` and `LC_SOFT_RESET_HALT` complete: the five steps, the third a pulse of the reset pin or a write of the
word at `CFG.AIRCR` (R286, R291). -/
def Obligations.ResetAndHalt : Prop :=
  ∀ (s : State) (ws : List Word) (e : List Event) (rest : List Bool), cfgLegal s.cfg = true →
    pollsEnd s.cfg.haltPolls (halted s.cfg) ws →
    (Answered s.cfg (talkResetHaltWith s.cfg talkPulse ws s.link.mir).1 s.link.wire.lineIn e rest →
      ∃ l, exec .lcResetHalt s = .next (((s.setLoops (s.loops.polled ws.length)).setCause .none).setLink l)
        ∧ Done s.link l (talkResetHaltWith s.cfg talkPulse ws s.link.mir) e rest s.link.status.faxst .none) ∧
    (Answered s.cfg (talkResetHaltWith s.cfg (talkSoftReset s.cfg) ws s.link.mir).1 s.link.wire.lineIn e rest →
      ∃ l, exec .lcSoftResetHalt s = .next (((s.setLoops (s.loops.polled ws.length)).setCause .none).setLink l)
        ∧ Done s.link l (talkResetHaltWith s.cfg (talkSoftReset s.cfg) ws s.link.mir) e rest
          s.link.status.faxst .none)

/-- The debug-enable write may fail up to `CFG.DEBUGEN_RETRIES - 1` times, the reset line toggled after each time, and the
reset-and-halt then completes all the same (R286a, R286b). -/
def Obligations.EnableRecovers : Prop :=
  ∀ (s : State) (k : Nat) (ws : List Word) (e1 e2 : List Event) (mid rest : List Bool), cfgLegal s.cfg = true →
    k < s.cfg.debugenRetries → pollsEnd s.cfg.haltPolls (halted s.cfg) ws → 1 ≤ k →
    EnableTries s.cfg k s.link.mir s.link.wire.lineIn e1 mid →
    Answered s.cfg (talkResetHaltWith s.cfg talkPulse ws Mirror.reset).1 mid e2 rest →
    ∃ l, exec .lcResetHalt s = .next (((s.setLoops (s.loops.polled ws.length)).setCause .none).setLink l)
      ∧ l.wire.trace = s.link.wire.trace ++ e1 ++ e2 ∧ l.wire.lineIn = rest ∧ l.status.fail = false

/-- `LC_HALT` and `LC_RUN` complete (R289, R290). -/
def Obligations.HaltAndRun : Prop :=
  ∀ (s : State) (e : List Event) (rest : List Bool), cfgLegal s.cfg = true →
    (Answered s.cfg (talkWriteWord s.cfg s.cfg.dhcsr (s.cfg.dbgkey ||| bitMask s.cfg.cDebugen ||| bitMask s.cfg.cHalt)
        s.link.mir).1 s.link.wire.lineIn e rest →
      ∃ l, exec .lcHalt s = .next ((s.setCause .none).setLink l)
        ∧ Done s.link l (talkWriteWord s.cfg s.cfg.dhcsr
          (s.cfg.dbgkey ||| bitMask s.cfg.cDebugen ||| bitMask s.cfg.cHalt) s.link.mir) e rest
          s.link.status.faxst .none) ∧
    (Answered s.cfg ((talkWriteWord s.cfg s.cfg.dhcsr s.cfg.dbgkey).andThen
        ((talkWriteDp s.cfg s.cfg.dpCtrlstat 0).andThen Talk.forget) s.link.mir).1 s.link.wire.lineIn e rest →
      ∃ l, exec .lcRun s = .next ((s.setCause .none).setLink l)
        ∧ Done s.link l ((talkWriteWord s.cfg s.cfg.dhcsr s.cfg.dbgkey).andThen
          ((talkWriteDp s.cfg s.cfg.dpCtrlstat 0).andThen Talk.forget) s.link.mir) e rest s.link.status.faxst .none)

/-- Lifecycle failures: the power acknowledge never seen whole, `F_PWRUP_TIMEOUT`; the debug-enable write failed on every
attempt, `F_LIFECYCLE`, the reset line toggled between attempts and not after the last; the halt never seen,
`F_HALT_TIMEOUT` before step 5 (R284, R286, R291). Any other transfer that fails ends the operation there with `F_ACK` (R346): in
`LC_CONNECT`, `LC_POWER_UP`, `LC_HALT`, `LC_RUN`, and after step 1 in `LC_RESET_HALT` and `LC_SOFT_RESET_HALT`. -/
def Obligations.LifecycleFailures : Prop :=
  ∀ (s : State) (d : Word) (ws : List Word) (e : List Event) (rest : List Bool) (x : AckResult), cfgLegal s.cfg = true →
    (pollsFail s.cfg.pwrupPolls (powerAcked s.cfg) ws →
      Answered s.cfg (talkPowerUp s.cfg ws s.link.mir).1 s.link.wire.lineIn e rest →
      ∃ t, exec .lcPowerUp s = .next t ∧ t.cause = .pwrupTimeout
        ∧ Done s.link t.link (talkPowerUp s.cfg ws s.link.mir) e rest s.link.status.faxst .pwrupTimeout) ∧
    (EnableFails s.cfg s.cfg.debugenRetries s.link.mir s.link.wire.lineIn e rest →
      ∀ i ∈ [Instr.lcResetHalt, .lcSoftResetHalt], ∃ t, exec i s = .next t ∧ t.cause = .lifecycle
        ∧ t.link.status.fail = true ∧ t.link.wire.trace = s.link.wire.trace ++ e ∧ t.link.wire.lineIn = rest) ∧
    (pollsFail s.cfg.haltPolls (halted s.cfg) ws →
      ∀ p ∈ [(Instr.lcResetHalt, talkPulse), (.lcSoftResetHalt, talkSoftReset s.cfg)],
        let tk := (talkEnable s.cfg).andThen
          ((talkWriteWord s.cfg s.cfg.demcr (bitMask s.cfg.vcCorereset)).andThen (p.2.andThen (talkPolls s.cfg ws)))
        Answered s.cfg (tk s.link.mir).1 s.link.wire.lineIn e rest →
        ∃ t, exec p.1 s = .next t ∧ t.cause = .haltTimeout
          ∧ Done s.link t.link (tk s.link.mir) e rest s.link.status.faxst .haltTimeout) ∧
    (pollsEnd s.cfg.pwrupPolls (powerAcked s.cfg) ws →
      ∀ p ∈ [(Instr.lcConnect, talkConnect s.cfg d), (.lcPowerUp, talkPowerUp s.cfg ws),
          (.lcHalt, talkWriteWord s.cfg s.cfg.dhcsr
            (s.cfg.dbgkey ||| bitMask s.cfg.cDebugen ||| bitMask s.cfg.cHalt)),
          (.lcRun, (talkWriteWord s.cfg s.cfg.dhcsr s.cfg.dbgkey).andThen
            ((talkWriteDp s.cfg s.cfg.dpCtrlstat 0).andThen Talk.forget))],
        Broken s.cfg (p.2 s.link.mir).1 s.link.wire.lineIn e rest x →
        ∃ t, exec p.1 s = .next t ∧ t.cause = .ack ∧ CutOff s.link t.link e rest x) ∧
    (pollsEnd s.cfg.haltPolls (halted s.cfg) ws →
      ∀ p ∈ [(Instr.lcResetHalt, talkPulse), (.lcSoftResetHalt, talkSoftReset s.cfg)],
        ∀ (e2 : List Event) (mid : List Bool) (m : Mirror), Enabled s.cfg s.link.mir s.link.wire.lineIn e mid m →
        Broken s.cfg (talkResetSteps s.cfg p.2 ws m).1 mid e2 rest x →
        ∃ t, exec p.1 s = .next t ∧ t.cause = .ack ∧ CutOff s.link t.link (e ++ e2) rest x)

/-! ### The whole machine -/

/-- Every instruction, in every state, answers a next state (R17, R349, R410), and writes nothing but what its rules name: none
writes `ARG`, `CMD.OP`, `CFG`, the descriptor input or the host's queue; `FA` only `FA_INIT`; `BUF` only the two block and
memory reads; the loop registers only the commands that poll or walk; `DS` only the commands that call the target and
`WRITE_DEBUG_STATE`; `RET` only the commands that call the target; `FAXST` only the flash runtime; the mirror only the
commands that write `SELECT` or `CSW` or begin a session; `LINE.NRESET` only the four that may pulse it, released after; `ACKRAW`
and `RESULT` only transfers and acknowledges, `RETRYX` only logical transfers; on success `RES[0]` and `RES[1]` only where R105
names them. Every command leaves `BUSY` and `ILLEGAL` 0 and `FAIL` as `CAUSE` says (R353, R381); a request or an acknowledge,
which are instructions by log 2, writes neither `CAUSE`, `RES` nor these. `TRACE` only grows; `SWCLK` rests. -/
def Obligations.EveryInstructionFrame : Prop :=
  ∀ (i : Instr) (s : State), ∃ t, exec i s = .next t
    ∧ t.arg = s.arg ∧ t.cmdOp = s.cmdOp ∧ t.cfg = s.cfg ∧ t.descIn = s.descIn ∧ t.host = s.host
    ∧ (i.isFaInit = false → t.fa = s.fa) ∧ (i.writesBuf = false → t.buf = s.buf)
    ∧ (i.writesLoops = false → t.loops = s.loops) ∧ (i.writesDs = false → t.ds = s.ds)
    ∧ (i.writesRet = false → t.ret = s.ret)
    ∧ (i.writesFaxst = false → t.link.status.faxst = s.link.status.faxst)
    ∧ (i.writesMirror = false → t.link.mir = s.link.mir)
    ∧ (i.pulsesReset = false → t.link.wire.line.nreset = s.link.wire.line.nreset)
    ∧ (t.link.wire.line.nreset = s.link.wire.line.nreset ∨ t.link.wire.line.nreset = true)
    ∧ (i.writesAck = false →
      t.link.status.ackraw = s.link.status.ackraw ∧ t.link.status.result = s.link.status.result)
    ∧ (i.makesLogical = false → t.link.status.retryx = s.link.status.retryx)
    ∧ (i.isRequest = false → i.isAck = false → t.link.status.busy = false ∧ t.link.status.illegal = false
      ∧ t.link.status.fail = decide (t.cause ≠ .none))
    ∧ (i.isRequest = true ∨ i.isAck = true → t.cause = s.cause ∧ t.res0 = s.res0 ∧ t.res1 = s.res1
      ∧ t.link.status.busy = s.link.status.busy ∧ t.link.status.illegal = s.link.status.illegal
      ∧ t.link.status.fail = s.link.status.fail)
    ∧ (t.cause = .none → i.hasRes0 = false → t.res0 = s.res0) ∧ (t.cause = .none → i.hasRes1 = false → t.res1 = s.res1)
    ∧ (∃ es, t.link.wire.trace = s.link.wire.trace ++ es)
    ∧ t.link.wire.line.clk = s.link.wire.line.clk

/-- Every operation above the bit operations leaves the pins idle, the line driven high and the sequencer at rest, when it
finds them so, whether it succeeds or fails (R22, R344). -/
def Obligations.PinsStayIdle : Prop :=
  ∀ (i : Instr) (s : State), i.isOperation = true → cfgLegal s.cfg = true → AtIdle s.link →
    ∃ t, exec i s = .next t ∧ AtIdle t.link

end
end

