-- ==== Sys2Proof/Laws/State.lean ====
section
/-! SUPPORT. Each update of a state changes its own field and no other (true by definition). -/

namespace Sys2Proof.Machine

@[simp] theorem Link.setWire_wire (l : Link) (x : Wire) : (l.setWire x).wire = x := rfl
@[simp] theorem Link.setWire_seq (l : Link) (x : Wire) : (l.setWire x).seq = l.seq := rfl
@[simp] theorem Link.setWire_status (l : Link) (x : Wire) : (l.setWire x).status = l.status := rfl
@[simp] theorem Link.setWire_mir (l : Link) (x : Wire) : (l.setWire x).mir = l.mir := rfl
@[simp] theorem Link.setSeq_wire (l : Link) (x : Seq) : (l.setSeq x).wire = l.wire := rfl
@[simp] theorem Link.setSeq_seq (l : Link) (x : Seq) : (l.setSeq x).seq = x := rfl
@[simp] theorem Link.setSeq_status (l : Link) (x : Seq) : (l.setSeq x).status = l.status := rfl
@[simp] theorem Link.setSeq_mir (l : Link) (x : Seq) : (l.setSeq x).mir = l.mir := rfl
@[simp] theorem Link.setStatus_wire (l : Link) (x : Status) : (l.setStatus x).wire = l.wire := rfl
@[simp] theorem Link.setStatus_seq (l : Link) (x : Status) : (l.setStatus x).seq = l.seq := rfl
@[simp] theorem Link.setStatus_status (l : Link) (x : Status) : (l.setStatus x).status = x := rfl
@[simp] theorem Link.setStatus_mir (l : Link) (x : Status) : (l.setStatus x).mir = l.mir := rfl
@[simp] theorem Link.setMir_wire (l : Link) (x : Mirror) : (l.setMir x).wire = l.wire := rfl
@[simp] theorem Link.setMir_seq (l : Link) (x : Mirror) : (l.setMir x).seq = l.seq := rfl
@[simp] theorem Link.setMir_status (l : Link) (x : Mirror) : (l.setMir x).status = l.status := rfl
@[simp] theorem Link.setMir_mir (l : Link) (x : Mirror) : (l.setMir x).mir = x := rfl

@[simp] theorem Link.setWire_same (l : Link) : l.setWire l.wire = l := rfl
@[simp] theorem Link.setWire_setWire (l : Link) (x y : Wire) : (l.setWire x).setWire y = l.setWire y := rfl
@[simp] theorem Link.setSeq_same (l : Link) : l.setSeq l.seq = l := rfl
@[simp] theorem Link.setSeq_setSeq (l : Link) (x y : Seq) : (l.setSeq x).setSeq y = l.setSeq y := rfl
@[simp] theorem Link.setStatus_same (l : Link) : l.setStatus l.status = l := rfl
@[simp] theorem Link.setStatus_setStatus (l : Link) (x y : Status) : (l.setStatus x).setStatus y = l.setStatus y := rfl
@[simp] theorem Link.setMir_same (l : Link) : l.setMir l.mir = l := rfl
@[simp] theorem Link.setMir_setMir (l : Link) (x y : Mirror) : (l.setMir x).setMir y = l.setMir y := rfl

@[simp] theorem State.setLink_link (s : State) (x : Link) : (s.setLink x).link = x := rfl
@[simp] theorem State.setLink_loops (s : State) (x : Link) : (s.setLink x).loops = s.loops := rfl
@[simp] theorem State.setLink_ds (s : State) (x : Link) : (s.setLink x).ds = s.ds := rfl
@[simp] theorem State.setLink_ret (s : State) (x : Link) : (s.setLink x).ret = s.ret := rfl
@[simp] theorem State.setLink_cmdOp (s : State) (x : Link) : (s.setLink x).cmdOp = s.cmdOp := rfl
@[simp] theorem State.setLink_arg (s : State) (x : Link) : (s.setLink x).arg = s.arg := rfl
@[simp] theorem State.setLink_res0 (s : State) (x : Link) : (s.setLink x).res0 = s.res0 := rfl
@[simp] theorem State.setLink_res1 (s : State) (x : Link) : (s.setLink x).res1 = s.res1 := rfl
@[simp] theorem State.setLink_cause (s : State) (x : Link) : (s.setLink x).cause = s.cause := rfl
@[simp] theorem State.setLink_fa (s : State) (x : Link) : (s.setLink x).fa = s.fa := rfl
@[simp] theorem State.setLink_descIn (s : State) (x : Link) : (s.setLink x).descIn = s.descIn := rfl
@[simp] theorem State.setLink_buf (s : State) (x : Link) : (s.setLink x).buf = s.buf := rfl
@[simp] theorem State.setLink_cfg (s : State) (x : Link) : (s.setLink x).cfg = s.cfg := rfl
@[simp] theorem State.setLink_host (s : State) (x : Link) : (s.setLink x).host = s.host := rfl
@[simp] theorem State.setLink_free (s : State) (x : Link) : (s.setLink x).free = s.free := rfl
@[simp] theorem State.setLoops_link (s : State) (x : Loops) : (s.setLoops x).link = s.link := rfl
@[simp] theorem State.setLoops_loops (s : State) (x : Loops) : (s.setLoops x).loops = x := rfl
@[simp] theorem State.setLoops_ds (s : State) (x : Loops) : (s.setLoops x).ds = s.ds := rfl
@[simp] theorem State.setLoops_ret (s : State) (x : Loops) : (s.setLoops x).ret = s.ret := rfl
@[simp] theorem State.setLoops_cmdOp (s : State) (x : Loops) : (s.setLoops x).cmdOp = s.cmdOp := rfl
@[simp] theorem State.setLoops_arg (s : State) (x : Loops) : (s.setLoops x).arg = s.arg := rfl
@[simp] theorem State.setLoops_res0 (s : State) (x : Loops) : (s.setLoops x).res0 = s.res0 := rfl
@[simp] theorem State.setLoops_res1 (s : State) (x : Loops) : (s.setLoops x).res1 = s.res1 := rfl
@[simp] theorem State.setLoops_cause (s : State) (x : Loops) : (s.setLoops x).cause = s.cause := rfl
@[simp] theorem State.setLoops_fa (s : State) (x : Loops) : (s.setLoops x).fa = s.fa := rfl
@[simp] theorem State.setLoops_descIn (s : State) (x : Loops) : (s.setLoops x).descIn = s.descIn := rfl
@[simp] theorem State.setLoops_buf (s : State) (x : Loops) : (s.setLoops x).buf = s.buf := rfl
@[simp] theorem State.setLoops_cfg (s : State) (x : Loops) : (s.setLoops x).cfg = s.cfg := rfl
@[simp] theorem State.setLoops_host (s : State) (x : Loops) : (s.setLoops x).host = s.host := rfl
@[simp] theorem State.setLoops_free (s : State) (x : Loops) : (s.setLoops x).free = s.free := rfl
@[simp] theorem State.setDs_link (s : State) (x : Ds) : (s.setDs x).link = s.link := rfl
@[simp] theorem State.setDs_loops (s : State) (x : Ds) : (s.setDs x).loops = s.loops := rfl
@[simp] theorem State.setDs_ds (s : State) (x : Ds) : (s.setDs x).ds = x := rfl
@[simp] theorem State.setDs_ret (s : State) (x : Ds) : (s.setDs x).ret = s.ret := rfl
@[simp] theorem State.setDs_cmdOp (s : State) (x : Ds) : (s.setDs x).cmdOp = s.cmdOp := rfl
@[simp] theorem State.setDs_arg (s : State) (x : Ds) : (s.setDs x).arg = s.arg := rfl
@[simp] theorem State.setDs_res0 (s : State) (x : Ds) : (s.setDs x).res0 = s.res0 := rfl
@[simp] theorem State.setDs_res1 (s : State) (x : Ds) : (s.setDs x).res1 = s.res1 := rfl
@[simp] theorem State.setDs_cause (s : State) (x : Ds) : (s.setDs x).cause = s.cause := rfl
@[simp] theorem State.setDs_fa (s : State) (x : Ds) : (s.setDs x).fa = s.fa := rfl
@[simp] theorem State.setDs_descIn (s : State) (x : Ds) : (s.setDs x).descIn = s.descIn := rfl
@[simp] theorem State.setDs_buf (s : State) (x : Ds) : (s.setDs x).buf = s.buf := rfl
@[simp] theorem State.setDs_cfg (s : State) (x : Ds) : (s.setDs x).cfg = s.cfg := rfl
@[simp] theorem State.setDs_host (s : State) (x : Ds) : (s.setDs x).host = s.host := rfl
@[simp] theorem State.setDs_free (s : State) (x : Ds) : (s.setDs x).free = s.free := rfl
@[simp] theorem State.setRet_link (s : State) (x : Word) : (s.setRet x).link = s.link := rfl
@[simp] theorem State.setRet_loops (s : State) (x : Word) : (s.setRet x).loops = s.loops := rfl
@[simp] theorem State.setRet_ds (s : State) (x : Word) : (s.setRet x).ds = s.ds := rfl
@[simp] theorem State.setRet_ret (s : State) (x : Word) : (s.setRet x).ret = x := rfl
@[simp] theorem State.setRet_cmdOp (s : State) (x : Word) : (s.setRet x).cmdOp = s.cmdOp := rfl
@[simp] theorem State.setRet_arg (s : State) (x : Word) : (s.setRet x).arg = s.arg := rfl
@[simp] theorem State.setRet_res0 (s : State) (x : Word) : (s.setRet x).res0 = s.res0 := rfl
@[simp] theorem State.setRet_res1 (s : State) (x : Word) : (s.setRet x).res1 = s.res1 := rfl
@[simp] theorem State.setRet_cause (s : State) (x : Word) : (s.setRet x).cause = s.cause := rfl
@[simp] theorem State.setRet_fa (s : State) (x : Word) : (s.setRet x).fa = s.fa := rfl
@[simp] theorem State.setRet_descIn (s : State) (x : Word) : (s.setRet x).descIn = s.descIn := rfl
@[simp] theorem State.setRet_buf (s : State) (x : Word) : (s.setRet x).buf = s.buf := rfl
@[simp] theorem State.setRet_cfg (s : State) (x : Word) : (s.setRet x).cfg = s.cfg := rfl
@[simp] theorem State.setRet_host (s : State) (x : Word) : (s.setRet x).host = s.host := rfl
@[simp] theorem State.setRet_free (s : State) (x : Word) : (s.setRet x).free = s.free := rfl
@[simp] theorem State.setCmdOp_link (s : State) (x : Byte) : (s.setCmdOp x).link = s.link := rfl
@[simp] theorem State.setCmdOp_loops (s : State) (x : Byte) : (s.setCmdOp x).loops = s.loops := rfl
@[simp] theorem State.setCmdOp_ds (s : State) (x : Byte) : (s.setCmdOp x).ds = s.ds := rfl
@[simp] theorem State.setCmdOp_ret (s : State) (x : Byte) : (s.setCmdOp x).ret = s.ret := rfl
@[simp] theorem State.setCmdOp_cmdOp (s : State) (x : Byte) : (s.setCmdOp x).cmdOp = x := rfl
@[simp] theorem State.setCmdOp_arg (s : State) (x : Byte) : (s.setCmdOp x).arg = s.arg := rfl
@[simp] theorem State.setCmdOp_res0 (s : State) (x : Byte) : (s.setCmdOp x).res0 = s.res0 := rfl
@[simp] theorem State.setCmdOp_res1 (s : State) (x : Byte) : (s.setCmdOp x).res1 = s.res1 := rfl
@[simp] theorem State.setCmdOp_cause (s : State) (x : Byte) : (s.setCmdOp x).cause = s.cause := rfl
@[simp] theorem State.setCmdOp_fa (s : State) (x : Byte) : (s.setCmdOp x).fa = s.fa := rfl
@[simp] theorem State.setCmdOp_descIn (s : State) (x : Byte) : (s.setCmdOp x).descIn = s.descIn := rfl
@[simp] theorem State.setCmdOp_buf (s : State) (x : Byte) : (s.setCmdOp x).buf = s.buf := rfl
@[simp] theorem State.setCmdOp_cfg (s : State) (x : Byte) : (s.setCmdOp x).cfg = s.cfg := rfl
@[simp] theorem State.setCmdOp_host (s : State) (x : Byte) : (s.setCmdOp x).host = s.host := rfl
@[simp] theorem State.setCmdOp_free (s : State) (x : Byte) : (s.setCmdOp x).free = s.free := rfl
@[simp] theorem State.setArg_link (s : State) (x : Args) : (s.setArg x).link = s.link := rfl
@[simp] theorem State.setArg_loops (s : State) (x : Args) : (s.setArg x).loops = s.loops := rfl
@[simp] theorem State.setArg_ds (s : State) (x : Args) : (s.setArg x).ds = s.ds := rfl
@[simp] theorem State.setArg_ret (s : State) (x : Args) : (s.setArg x).ret = s.ret := rfl
@[simp] theorem State.setArg_cmdOp (s : State) (x : Args) : (s.setArg x).cmdOp = s.cmdOp := rfl
@[simp] theorem State.setArg_arg (s : State) (x : Args) : (s.setArg x).arg = x := rfl
@[simp] theorem State.setArg_res0 (s : State) (x : Args) : (s.setArg x).res0 = s.res0 := rfl
@[simp] theorem State.setArg_res1 (s : State) (x : Args) : (s.setArg x).res1 = s.res1 := rfl
@[simp] theorem State.setArg_cause (s : State) (x : Args) : (s.setArg x).cause = s.cause := rfl
@[simp] theorem State.setArg_fa (s : State) (x : Args) : (s.setArg x).fa = s.fa := rfl
@[simp] theorem State.setArg_descIn (s : State) (x : Args) : (s.setArg x).descIn = s.descIn := rfl
@[simp] theorem State.setArg_buf (s : State) (x : Args) : (s.setArg x).buf = s.buf := rfl
@[simp] theorem State.setArg_cfg (s : State) (x : Args) : (s.setArg x).cfg = s.cfg := rfl
@[simp] theorem State.setArg_host (s : State) (x : Args) : (s.setArg x).host = s.host := rfl
@[simp] theorem State.setArg_free (s : State) (x : Args) : (s.setArg x).free = s.free := rfl
@[simp] theorem State.setRes0_link (s : State) (x : Word) : (s.setRes0 x).link = s.link := rfl
@[simp] theorem State.setRes0_loops (s : State) (x : Word) : (s.setRes0 x).loops = s.loops := rfl
@[simp] theorem State.setRes0_ds (s : State) (x : Word) : (s.setRes0 x).ds = s.ds := rfl
@[simp] theorem State.setRes0_ret (s : State) (x : Word) : (s.setRes0 x).ret = s.ret := rfl
@[simp] theorem State.setRes0_cmdOp (s : State) (x : Word) : (s.setRes0 x).cmdOp = s.cmdOp := rfl
@[simp] theorem State.setRes0_arg (s : State) (x : Word) : (s.setRes0 x).arg = s.arg := rfl
@[simp] theorem State.setRes0_res0 (s : State) (x : Word) : (s.setRes0 x).res0 = x := rfl
@[simp] theorem State.setRes0_res1 (s : State) (x : Word) : (s.setRes0 x).res1 = s.res1 := rfl
@[simp] theorem State.setRes0_cause (s : State) (x : Word) : (s.setRes0 x).cause = s.cause := rfl
@[simp] theorem State.setRes0_fa (s : State) (x : Word) : (s.setRes0 x).fa = s.fa := rfl
@[simp] theorem State.setRes0_descIn (s : State) (x : Word) : (s.setRes0 x).descIn = s.descIn := rfl
@[simp] theorem State.setRes0_buf (s : State) (x : Word) : (s.setRes0 x).buf = s.buf := rfl
@[simp] theorem State.setRes0_cfg (s : State) (x : Word) : (s.setRes0 x).cfg = s.cfg := rfl
@[simp] theorem State.setRes0_host (s : State) (x : Word) : (s.setRes0 x).host = s.host := rfl
@[simp] theorem State.setRes0_free (s : State) (x : Word) : (s.setRes0 x).free = s.free := rfl
@[simp] theorem State.setRes1_link (s : State) (x : Word) : (s.setRes1 x).link = s.link := rfl
@[simp] theorem State.setRes1_loops (s : State) (x : Word) : (s.setRes1 x).loops = s.loops := rfl
@[simp] theorem State.setRes1_ds (s : State) (x : Word) : (s.setRes1 x).ds = s.ds := rfl
@[simp] theorem State.setRes1_ret (s : State) (x : Word) : (s.setRes1 x).ret = s.ret := rfl
@[simp] theorem State.setRes1_cmdOp (s : State) (x : Word) : (s.setRes1 x).cmdOp = s.cmdOp := rfl
@[simp] theorem State.setRes1_arg (s : State) (x : Word) : (s.setRes1 x).arg = s.arg := rfl
@[simp] theorem State.setRes1_res0 (s : State) (x : Word) : (s.setRes1 x).res0 = s.res0 := rfl
@[simp] theorem State.setRes1_res1 (s : State) (x : Word) : (s.setRes1 x).res1 = x := rfl
@[simp] theorem State.setRes1_cause (s : State) (x : Word) : (s.setRes1 x).cause = s.cause := rfl
@[simp] theorem State.setRes1_fa (s : State) (x : Word) : (s.setRes1 x).fa = s.fa := rfl
@[simp] theorem State.setRes1_descIn (s : State) (x : Word) : (s.setRes1 x).descIn = s.descIn := rfl
@[simp] theorem State.setRes1_buf (s : State) (x : Word) : (s.setRes1 x).buf = s.buf := rfl
@[simp] theorem State.setRes1_cfg (s : State) (x : Word) : (s.setRes1 x).cfg = s.cfg := rfl
@[simp] theorem State.setRes1_host (s : State) (x : Word) : (s.setRes1 x).host = s.host := rfl
@[simp] theorem State.setRes1_free (s : State) (x : Word) : (s.setRes1 x).free = s.free := rfl
@[simp] theorem State.setCause_link (s : State) (x : Cause) : (s.setCause x).link = s.link := rfl
@[simp] theorem State.setCause_loops (s : State) (x : Cause) : (s.setCause x).loops = s.loops := rfl
@[simp] theorem State.setCause_ds (s : State) (x : Cause) : (s.setCause x).ds = s.ds := rfl
@[simp] theorem State.setCause_ret (s : State) (x : Cause) : (s.setCause x).ret = s.ret := rfl
@[simp] theorem State.setCause_cmdOp (s : State) (x : Cause) : (s.setCause x).cmdOp = s.cmdOp := rfl
@[simp] theorem State.setCause_arg (s : State) (x : Cause) : (s.setCause x).arg = s.arg := rfl
@[simp] theorem State.setCause_res0 (s : State) (x : Cause) : (s.setCause x).res0 = s.res0 := rfl
@[simp] theorem State.setCause_res1 (s : State) (x : Cause) : (s.setCause x).res1 = s.res1 := rfl
@[simp] theorem State.setCause_cause (s : State) (x : Cause) : (s.setCause x).cause = x := rfl
@[simp] theorem State.setCause_fa (s : State) (x : Cause) : (s.setCause x).fa = s.fa := rfl
@[simp] theorem State.setCause_descIn (s : State) (x : Cause) : (s.setCause x).descIn = s.descIn := rfl
@[simp] theorem State.setCause_buf (s : State) (x : Cause) : (s.setCause x).buf = s.buf := rfl
@[simp] theorem State.setCause_cfg (s : State) (x : Cause) : (s.setCause x).cfg = s.cfg := rfl
@[simp] theorem State.setCause_host (s : State) (x : Cause) : (s.setCause x).host = s.host := rfl
@[simp] theorem State.setCause_free (s : State) (x : Cause) : (s.setCause x).free = s.free := rfl
@[simp] theorem State.setFa_link (s : State) (x : FaBank) : (s.setFa x).link = s.link := rfl
@[simp] theorem State.setFa_loops (s : State) (x : FaBank) : (s.setFa x).loops = s.loops := rfl
@[simp] theorem State.setFa_ds (s : State) (x : FaBank) : (s.setFa x).ds = s.ds := rfl
@[simp] theorem State.setFa_ret (s : State) (x : FaBank) : (s.setFa x).ret = s.ret := rfl
@[simp] theorem State.setFa_cmdOp (s : State) (x : FaBank) : (s.setFa x).cmdOp = s.cmdOp := rfl
@[simp] theorem State.setFa_arg (s : State) (x : FaBank) : (s.setFa x).arg = s.arg := rfl
@[simp] theorem State.setFa_res0 (s : State) (x : FaBank) : (s.setFa x).res0 = s.res0 := rfl
@[simp] theorem State.setFa_res1 (s : State) (x : FaBank) : (s.setFa x).res1 = s.res1 := rfl
@[simp] theorem State.setFa_cause (s : State) (x : FaBank) : (s.setFa x).cause = s.cause := rfl
@[simp] theorem State.setFa_fa (s : State) (x : FaBank) : (s.setFa x).fa = x := rfl
@[simp] theorem State.setFa_descIn (s : State) (x : FaBank) : (s.setFa x).descIn = s.descIn := rfl
@[simp] theorem State.setFa_buf (s : State) (x : FaBank) : (s.setFa x).buf = s.buf := rfl
@[simp] theorem State.setFa_cfg (s : State) (x : FaBank) : (s.setFa x).cfg = s.cfg := rfl
@[simp] theorem State.setFa_host (s : State) (x : FaBank) : (s.setFa x).host = s.host := rfl
@[simp] theorem State.setFa_free (s : State) (x : FaBank) : (s.setFa x).free = s.free := rfl
@[simp] theorem State.setDescIn_link (s : State) (x : Descriptor) : (s.setDescIn x).link = s.link := rfl
@[simp] theorem State.setDescIn_loops (s : State) (x : Descriptor) : (s.setDescIn x).loops = s.loops := rfl
@[simp] theorem State.setDescIn_ds (s : State) (x : Descriptor) : (s.setDescIn x).ds = s.ds := rfl
@[simp] theorem State.setDescIn_ret (s : State) (x : Descriptor) : (s.setDescIn x).ret = s.ret := rfl
@[simp] theorem State.setDescIn_cmdOp (s : State) (x : Descriptor) : (s.setDescIn x).cmdOp = s.cmdOp := rfl
@[simp] theorem State.setDescIn_arg (s : State) (x : Descriptor) : (s.setDescIn x).arg = s.arg := rfl
@[simp] theorem State.setDescIn_res0 (s : State) (x : Descriptor) : (s.setDescIn x).res0 = s.res0 := rfl
@[simp] theorem State.setDescIn_res1 (s : State) (x : Descriptor) : (s.setDescIn x).res1 = s.res1 := rfl
@[simp] theorem State.setDescIn_cause (s : State) (x : Descriptor) : (s.setDescIn x).cause = s.cause := rfl
@[simp] theorem State.setDescIn_fa (s : State) (x : Descriptor) : (s.setDescIn x).fa = s.fa := rfl
@[simp] theorem State.setDescIn_descIn (s : State) (x : Descriptor) : (s.setDescIn x).descIn = x := rfl
@[simp] theorem State.setDescIn_buf (s : State) (x : Descriptor) : (s.setDescIn x).buf = s.buf := rfl
@[simp] theorem State.setDescIn_cfg (s : State) (x : Descriptor) : (s.setDescIn x).cfg = s.cfg := rfl
@[simp] theorem State.setDescIn_host (s : State) (x : Descriptor) : (s.setDescIn x).host = s.host := rfl
@[simp] theorem State.setDescIn_free (s : State) (x : Descriptor) : (s.setDescIn x).free = s.free := rfl
@[simp] theorem State.setBuf_link (s : State) (x : Memory) : (s.setBuf x).link = s.link := rfl
@[simp] theorem State.setBuf_loops (s : State) (x : Memory) : (s.setBuf x).loops = s.loops := rfl
@[simp] theorem State.setBuf_ds (s : State) (x : Memory) : (s.setBuf x).ds = s.ds := rfl
@[simp] theorem State.setBuf_ret (s : State) (x : Memory) : (s.setBuf x).ret = s.ret := rfl
@[simp] theorem State.setBuf_cmdOp (s : State) (x : Memory) : (s.setBuf x).cmdOp = s.cmdOp := rfl
@[simp] theorem State.setBuf_arg (s : State) (x : Memory) : (s.setBuf x).arg = s.arg := rfl
@[simp] theorem State.setBuf_res0 (s : State) (x : Memory) : (s.setBuf x).res0 = s.res0 := rfl
@[simp] theorem State.setBuf_res1 (s : State) (x : Memory) : (s.setBuf x).res1 = s.res1 := rfl
@[simp] theorem State.setBuf_cause (s : State) (x : Memory) : (s.setBuf x).cause = s.cause := rfl
@[simp] theorem State.setBuf_fa (s : State) (x : Memory) : (s.setBuf x).fa = s.fa := rfl
@[simp] theorem State.setBuf_descIn (s : State) (x : Memory) : (s.setBuf x).descIn = s.descIn := rfl
@[simp] theorem State.setBuf_buf (s : State) (x : Memory) : (s.setBuf x).buf = x := rfl
@[simp] theorem State.setBuf_cfg (s : State) (x : Memory) : (s.setBuf x).cfg = s.cfg := rfl
@[simp] theorem State.setBuf_host (s : State) (x : Memory) : (s.setBuf x).host = s.host := rfl
@[simp] theorem State.setBuf_free (s : State) (x : Memory) : (s.setBuf x).free = s.free := rfl
@[simp] theorem State.setCfg_link (s : State) (x : Cfg) : (s.setCfg x).link = s.link := rfl
@[simp] theorem State.setCfg_loops (s : State) (x : Cfg) : (s.setCfg x).loops = s.loops := rfl
@[simp] theorem State.setCfg_ds (s : State) (x : Cfg) : (s.setCfg x).ds = s.ds := rfl
@[simp] theorem State.setCfg_ret (s : State) (x : Cfg) : (s.setCfg x).ret = s.ret := rfl
@[simp] theorem State.setCfg_cmdOp (s : State) (x : Cfg) : (s.setCfg x).cmdOp = s.cmdOp := rfl
@[simp] theorem State.setCfg_arg (s : State) (x : Cfg) : (s.setCfg x).arg = s.arg := rfl
@[simp] theorem State.setCfg_res0 (s : State) (x : Cfg) : (s.setCfg x).res0 = s.res0 := rfl
@[simp] theorem State.setCfg_res1 (s : State) (x : Cfg) : (s.setCfg x).res1 = s.res1 := rfl
@[simp] theorem State.setCfg_cause (s : State) (x : Cfg) : (s.setCfg x).cause = s.cause := rfl
@[simp] theorem State.setCfg_fa (s : State) (x : Cfg) : (s.setCfg x).fa = s.fa := rfl
@[simp] theorem State.setCfg_descIn (s : State) (x : Cfg) : (s.setCfg x).descIn = s.descIn := rfl
@[simp] theorem State.setCfg_buf (s : State) (x : Cfg) : (s.setCfg x).buf = s.buf := rfl
@[simp] theorem State.setCfg_cfg (s : State) (x : Cfg) : (s.setCfg x).cfg = x := rfl
@[simp] theorem State.setCfg_host (s : State) (x : Cfg) : (s.setCfg x).host = s.host := rfl
@[simp] theorem State.setCfg_free (s : State) (x : Cfg) : (s.setCfg x).free = s.free := rfl
@[simp] theorem State.setHost_link (s : State) (x : List HostAction) : (s.setHost x).link = s.link := rfl
@[simp] theorem State.setHost_loops (s : State) (x : List HostAction) : (s.setHost x).loops = s.loops := rfl
@[simp] theorem State.setHost_ds (s : State) (x : List HostAction) : (s.setHost x).ds = s.ds := rfl
@[simp] theorem State.setHost_ret (s : State) (x : List HostAction) : (s.setHost x).ret = s.ret := rfl
@[simp] theorem State.setHost_cmdOp (s : State) (x : List HostAction) : (s.setHost x).cmdOp = s.cmdOp := rfl
@[simp] theorem State.setHost_arg (s : State) (x : List HostAction) : (s.setHost x).arg = s.arg := rfl
@[simp] theorem State.setHost_res0 (s : State) (x : List HostAction) : (s.setHost x).res0 = s.res0 := rfl
@[simp] theorem State.setHost_res1 (s : State) (x : List HostAction) : (s.setHost x).res1 = s.res1 := rfl
@[simp] theorem State.setHost_cause (s : State) (x : List HostAction) : (s.setHost x).cause = s.cause := rfl
@[simp] theorem State.setHost_fa (s : State) (x : List HostAction) : (s.setHost x).fa = s.fa := rfl
@[simp] theorem State.setHost_descIn (s : State) (x : List HostAction) : (s.setHost x).descIn = s.descIn := rfl
@[simp] theorem State.setHost_buf (s : State) (x : List HostAction) : (s.setHost x).buf = s.buf := rfl
@[simp] theorem State.setHost_cfg (s : State) (x : List HostAction) : (s.setHost x).cfg = s.cfg := rfl
@[simp] theorem State.setHost_host (s : State) (x : List HostAction) : (s.setHost x).host = x := rfl
@[simp] theorem State.setHost_free (s : State) (x : List HostAction) : (s.setHost x).free = s.free := rfl
@[simp] theorem State.setFree_link (s : State) (x : Nat) : (s.setFree x).link = s.link := rfl
@[simp] theorem State.setFree_loops (s : State) (x : Nat) : (s.setFree x).loops = s.loops := rfl
@[simp] theorem State.setFree_ds (s : State) (x : Nat) : (s.setFree x).ds = s.ds := rfl
@[simp] theorem State.setFree_ret (s : State) (x : Nat) : (s.setFree x).ret = s.ret := rfl
@[simp] theorem State.setFree_cmdOp (s : State) (x : Nat) : (s.setFree x).cmdOp = s.cmdOp := rfl
@[simp] theorem State.setFree_arg (s : State) (x : Nat) : (s.setFree x).arg = s.arg := rfl
@[simp] theorem State.setFree_res0 (s : State) (x : Nat) : (s.setFree x).res0 = s.res0 := rfl
@[simp] theorem State.setFree_res1 (s : State) (x : Nat) : (s.setFree x).res1 = s.res1 := rfl
@[simp] theorem State.setFree_cause (s : State) (x : Nat) : (s.setFree x).cause = s.cause := rfl
@[simp] theorem State.setFree_fa (s : State) (x : Nat) : (s.setFree x).fa = s.fa := rfl
@[simp] theorem State.setFree_descIn (s : State) (x : Nat) : (s.setFree x).descIn = s.descIn := rfl
@[simp] theorem State.setFree_buf (s : State) (x : Nat) : (s.setFree x).buf = s.buf := rfl
@[simp] theorem State.setFree_cfg (s : State) (x : Nat) : (s.setFree x).cfg = s.cfg := rfl
@[simp] theorem State.setFree_host (s : State) (x : Nat) : (s.setFree x).host = s.host := rfl
@[simp] theorem State.setFree_free (s : State) (x : Nat) : (s.setFree x).free = x := rfl

@[simp] theorem State.setLink_same (s : State) : s.setLink s.link = s := rfl
@[simp] theorem State.setLink_setLink (s : State) (x y : Link) : (s.setLink x).setLink y = s.setLink y := rfl
@[simp] theorem State.setLoops_same (s : State) : s.setLoops s.loops = s := rfl
@[simp] theorem State.setLoops_setLoops (s : State) (x y : Loops) : (s.setLoops x).setLoops y = s.setLoops y := rfl
@[simp] theorem State.setDs_same (s : State) : s.setDs s.ds = s := rfl
@[simp] theorem State.setDs_setDs (s : State) (x y : Ds) : (s.setDs x).setDs y = s.setDs y := rfl
@[simp] theorem State.setRet_same (s : State) : s.setRet s.ret = s := rfl
@[simp] theorem State.setRet_setRet (s : State) (x y : Word) : (s.setRet x).setRet y = s.setRet y := rfl
@[simp] theorem State.setCmdOp_same (s : State) : s.setCmdOp s.cmdOp = s := rfl
@[simp] theorem State.setCmdOp_setCmdOp (s : State) (x y : Byte) : (s.setCmdOp x).setCmdOp y = s.setCmdOp y := rfl
@[simp] theorem State.setArg_same (s : State) : s.setArg s.arg = s := rfl
@[simp] theorem State.setArg_setArg (s : State) (x y : Args) : (s.setArg x).setArg y = s.setArg y := rfl
@[simp] theorem State.setRes0_same (s : State) : s.setRes0 s.res0 = s := rfl
@[simp] theorem State.setRes0_setRes0 (s : State) (x y : Word) : (s.setRes0 x).setRes0 y = s.setRes0 y := rfl
@[simp] theorem State.setRes1_same (s : State) : s.setRes1 s.res1 = s := rfl
@[simp] theorem State.setRes1_setRes1 (s : State) (x y : Word) : (s.setRes1 x).setRes1 y = s.setRes1 y := rfl
@[simp] theorem State.setCause_same (s : State) : s.setCause s.cause = s := rfl
@[simp] theorem State.setCause_setCause (s : State) (x y : Cause) : (s.setCause x).setCause y = s.setCause y := rfl
@[simp] theorem State.setFa_same (s : State) : s.setFa s.fa = s := rfl
@[simp] theorem State.setFa_setFa (s : State) (x y : FaBank) : (s.setFa x).setFa y = s.setFa y := rfl
@[simp] theorem State.setDescIn_same (s : State) : s.setDescIn s.descIn = s := rfl
@[simp] theorem State.setDescIn_setDescIn (s : State) (x y : Descriptor) : (s.setDescIn x).setDescIn y = s.setDescIn y := rfl
@[simp] theorem State.setBuf_same (s : State) : s.setBuf s.buf = s := rfl
@[simp] theorem State.setBuf_setBuf (s : State) (x y : Memory) : (s.setBuf x).setBuf y = s.setBuf y := rfl
@[simp] theorem State.setCfg_same (s : State) : s.setCfg s.cfg = s := rfl
@[simp] theorem State.setCfg_setCfg (s : State) (x y : Cfg) : (s.setCfg x).setCfg y = s.setCfg y := rfl
@[simp] theorem State.setHost_same (s : State) : s.setHost s.host = s := rfl
@[simp] theorem State.setHost_setHost (s : State) (x y : List HostAction) : (s.setHost x).setHost y = s.setHost y := rfl
@[simp] theorem State.setFree_same (s : State) : s.setFree s.free = s := rfl
@[simp] theorem State.setFree_setFree (s : State) (x y : Nat) : (s.setFree x).setFree y = s.setFree y := rfl

end Sys2Proof.Machine
end

