-- ==== Sys2Proof/Laws/Wire.lean ====
section
/-! SUPPORT. The bit operations: what each does to the pins, the trace and the coming levels (R121 to R128). -/

namespace Sys2Proof.Machine

@[simp] theorem driven_nil : driven [] = [] := rfl
@[simp] theorem released_nil : released [] = [] := rfl
@[simp] theorem driven_cons (b : Bool) (bs : List Bool) : driven (b :: bs) = .slot .output b :: driven bs := rfl
@[simp] theorem released_cons (b : Bool) (bs : List Bool) : released (b :: bs) = .slot .input b :: released bs := rfl
@[simp] theorem driven_append (a b : List Bool) : driven (a ++ b) = driven a ++ driven b := List.map_append
@[simp] theorem released_append (a b : List Bool) : released (a ++ b) = released a ++ released b := List.map_append
@[simp] theorem driven_length (a : List Bool) : (driven a).length = a.length := List.length_map ..
@[simp] theorem released_length (a : List Bool) : (released a).length = a.length := List.length_map ..

/-- The wire whose line, events and coming levels are given, the rest as in `w`. -/
def Wire.with (w : Wire) (ln : Line) (e : List Event) (rest : List Bool) : Wire :=
  ⟨ln, w.trace ++ e, rest, w.draws⟩

/-- `CLOCK_PULSE` on a released line (R124). -/
theorem Wire.clockPulse_released (w : Wire) (b : Bool) (bs : List Bool) (hd : w.line.dir = .input)
    (hb : w.lineIn = b :: bs) : w.clockPulse = w.with w.line [.slot .input b] bs := by
  simp [Wire.clockPulse, Wire.slot, hd, Wire.sample, Wire.consume, hb, Wire.emit, Wire.with]

/-- `READ_BIT` on a released line (R127). -/
theorem Wire.readBit_released (w : Wire) (b : Bool) (bs : List Bool) (hd : w.line.dir = .input)
    (hb : w.lineIn = b :: bs) : w.readBit = (b, w.with w.line [.slot .input b] bs) := by
  simp [Wire.readBit, Wire.slot, hd, Wire.sample, Wire.consume, hb, Wire.emit, Wire.with]

/-- `WRITE_BIT` on a driven line (R126). -/
theorem Wire.writeBit_driven (w : Wire) (b : Bool) (hd : w.line.dir = .output) :
    w.writeBit b = w.with { w.line with dout := b } [.slot .output b] w.lineIn := by
  simp [Wire.writeBit, Wire.setDout, Wire.slot, hd, Wire.emit, Wire.with]

/-- Clock pulses on a released line: one released slot for each (R99, R124). -/
theorem Wire.clockPulses_released (g : List Bool) : ∀ (w : Wire) (rest : List Bool), w.line.dir = .input →
    w.lineIn = g ++ rest → w.clockPulses g.length = w.with w.line (released g) rest := by
  induction g with
  | nil => intro w rest _ h; cases w; simp_all [Wire.clockPulses, Wire.with]
  | cons b g ih =>
    intro w rest hd h
    rw [List.length_cons, Wire.clockPulses, Wire.clockPulse_released w b (g ++ rest) hd h,
      ih _ rest (by simpa [Wire.with] using hd) rfl]
    simp [Wire.with]

/-- The same, the count given. -/
theorem Wire.clockPulses_of_length {n : Nat} {g : List Bool} (hg : g.length = n) (w : Wire) (rest : List Bool)
    (hd : w.line.dir = .input) (h : w.lineIn = g ++ rest) :
    w.clockPulses n = w.with w.line (released g) rest := by
  subst hg; exact Wire.clockPulses_released g w rest hd h

/-- Sampled bits on a released line are the coming levels in order (R127). -/
theorem Wire.readBits_released (g : List Bool) : ∀ (w : Wire) (rest : List Bool), w.line.dir = .input →
    w.lineIn = g ++ rest → w.readBits g.length = (g, w.with w.line (released g) rest) := by
  induction g with
  | nil => intro w rest _ h; cases w; simp_all [Wire.readBits, Wire.with]
  | cons b g ih =>
    intro w rest hd h
    rw [List.length_cons, Wire.readBits, Wire.readBit_released w b (g ++ rest) hd h]
    simp only [ih _ rest (show (w.with w.line [.slot .input b] (g ++ rest)).line.dir = .input from hd) rfl]
    simp [Wire.with]

/-- The same, the count given. -/
theorem Wire.readBits_of_length {n : Nat} {g : List Bool} (hg : g.length = n) (w : Wire) (rest : List Bool)
    (hd : w.line.dir = .input) (h : w.lineIn = g ++ rest) :
    w.readBits n = (g, w.with w.line (released g) rest) := by
  subst hg; exact Wire.readBits_released g w rest hd h

/-- The level that stays on the line after driven bits. -/
def lastLevel : Bool → List Bool → Bool
  | d, [] => d
  | _, b :: bs => lastLevel b bs

/-- Written bits on a driven line: one driven slot for each (R126). -/
theorem Wire.writeBits_driven (bs : List Bool) : ∀ w : Wire, w.line.dir = .output →
    w.writeBits bs = w.with { w.line with dout := lastLevel w.line.dout bs } (driven bs) w.lineIn := by
  induction bs with
  | nil => intro w _; cases w; simp [Wire.writeBits, Wire.with, lastLevel]
  | cons b bs ih =>
    intro w hd
    rw [Wire.writeBits, Wire.writeBit_driven w b hd, ih _ (by simpa [Wire.with] using hd)]
    simp [Wire.with, lastLevel]

end Sys2Proof.Machine
end

