-- ==== Sys2Proof/Laws/Slots.lean ====
section
/-! SUPPORT. The datapath registers over a phase: what `BITCNT`, `SHIFT`, `PAR` and `ACKSR` hold after its slots, and each phase
as one move of the pins (R27, R28, R141). -/

namespace Sys2Proof.Machine

@[simp] theorem Seq.count_phase (q : Seq) : q.count.phase = q.phase := rfl
@[simp] theorem Seq.count_bitcnt (q : Seq) : q.count.bitcnt = q.bitcnt + 1 := rfl
@[simp] theorem Seq.count_shift (q : Seq) : q.count.shift = q.shift := rfl
@[simp] theorem Seq.count_par (q : Seq) : q.count.par = q.par := rfl
@[simp] theorem Seq.count_acksr (q : Seq) : q.count.acksr = q.acksr := rfl
@[simp] theorem Seq.count_xreq (q : Seq) : q.count.xreq = q.xreq := rfl
@[simp] theorem Seq.count_xwdata (q : Seq) : q.count.xwdata = q.xwdata := rfl
@[simp] theorem Seq.count_retrycnt (q : Seq) : q.count.retrycnt = q.retrycnt := rfl

@[simp] theorem Seq.enter_phase (q : Seq) (p : Phase) : (q.enter p).phase = p := by cases p <;> rfl
@[simp] theorem Seq.enter_bitcnt (q : Seq) (p : Phase) : (q.enter p).bitcnt = 0 := by cases p <;> rfl
@[simp] theorem Seq.enter_xreq (q : Seq) (p : Phase) : (q.enter p).xreq = q.xreq := by cases p <;> rfl
@[simp] theorem Seq.enter_xwdata (q : Seq) (p : Phase) : (q.enter p).xwdata = q.xwdata := by cases p <;> rfl
@[simp] theorem Seq.enter_retrycnt (q : Seq) (p : Phase) : (q.enter p).retrycnt = q.retrycnt := by cases p <;> rfl

/-- `SHIFT`, `PAR` and `ACKSR` as a phase finds them (R28). -/
@[simp] theorem Seq.enter_shift (q : Seq) (p : Phase) :
    (q.enter p).shift = if p = .wdata then q.xwdata else if p = .rdata then 0 else q.shift := by cases p <;> rfl
@[simp] theorem Seq.enter_par (q : Seq) (p : Phase) :
    (q.enter p).par = if p = .wdata ∨ p = .rdata then false else q.par := by cases p <;> rfl
@[simp] theorem Seq.enter_acksr (q : Seq) (p : Phase) : (q.enter p).acksr = if p = .ack then 0 else q.acksr := by
  cases p <;> rfl

@[simp] theorem Link.enter_wire (l : Link) (p : Phase) : (l.enter p).wire = l.wire := rfl
@[simp] theorem Link.enter_seq (l : Link) (p : Phase) : (l.enter p).seq = l.seq.enter p := rfl
@[simp] theorem Link.enter_status (l : Link) (p : Phase) : (l.enter p).status = l.status := rfl
@[simp] theorem Link.enter_mir (l : Link) (p : Phase) : (l.enter p).mir = l.mir := rfl

/-! ### Bits of a register -/

/-- Writing bit `i` of a register. -/
theorem putBit_getLsbD {w : Nat} (v : BitVec w) (i j : Nat) (b : Bool) (hj : j < w) :
    (putBit v i b).getLsbD j = if j = i then b else v.getLsbD j := by
  unfold putBit
  by_cases h : j = i
  · subst h
    cases b <;> simp [hj]
  · by_cases hlt : j < i
    · simp [hj, h, hlt]
    · have h0 : j - i ≠ 0 := by omega
      simp [hj, h, hlt, h0]

/-- Bits written one after another, the first at place `i`. -/
def putBits {w : Nat} : BitVec w → Nat → List Bool → BitVec w
  | v, _, [] => v
  | v, i, b :: bs => putBits (putBit v i b) (i + 1) bs

theorem putBits_getLsbD {w : Nat} (bs : List Bool) : ∀ (v : BitVec w) (i j : Nat), j < w →
    (putBits v i bs).getLsbD j = if i ≤ j then (bs[j - i]?).getD (v.getLsbD j) else v.getLsbD j := by
  induction bs with
  | nil => intro v i j _; simp [putBits]
  | cons b bs ih =>
    intro v i j hj
    rw [putBits, ih _ _ _ hj, putBit_getLsbD v i j b hj]
    by_cases h : j = i
    · subst h; simp
    · by_cases h2 : i ≤ j
      · have h3 : i + 1 ≤ j := by omega
        obtain ⟨k, rfl⟩ : ∃ k, j = i + 1 + k := ⟨j - (i + 1), by omega⟩
        have h4 : i + 1 + k - i = k + 1 := by omega
        simp [h, h4]; omega
      · have h3 : ¬ i + 1 ≤ j := by omega
        simp [h, h2, h3]

theorem natOfBits_testBit (bs : List Bool) : ∀ j : Nat, (natOfBits bs).testBit j = (bs[j]?).getD false := by
  induction bs with
  | nil => intro j; simp [natOfBits]
  | cons b bs ih =>
    intro j
    cases j with
    | zero => cases b <;> simp [natOfBits, Nat.testBit_zero]
    | succ j =>
      rw [Nat.testBit_succ, show natOfBits (b :: bs) / 2 = natOfBits bs by cases b <;> (simp [natOfBits]; try omega), ih]
      simp

/-- A register filled from its bit 0 on holds the value of the bits (R67, R95). -/
theorem putBits_all {w : Nat} (v : BitVec w) (bs : List Bool) (h : bs.length = w) :
    putBits v 0 bs = BitVec.ofNat w (natOfBits bs) := by
  apply BitVec.eq_of_getLsbD_eq
  intro j hj
  rw [putBits_getLsbD bs v 0 j hj, BitVec.getLsbD_ofNat, natOfBits_testBit]
  have : j < bs.length := by omega
  simp [hj, this]

/-- The parity of a word is that of the bits it was sampled from (R98). -/
theorem parity32_wordOfBits {bs : List Bool} (h : bs.length = 32) : parity32 (wordOfBits bs) = parityOf bs := by
  have hb : wordBits (wordOfBits bs) = bs := by
    apply List.ext_getElem (by simp [wordBits, h])
    intro i h1 h2
    have hi : i < 32 := h ▸ h2
    simp [wordBits, wordOfBits, BitVec.getLsbD_ofNat, natOfBits_testBit, h2, hi]
  rw [parity32, hb]

@[simp] theorem parityResult_same (p : Bool) : parityResult p p = .ok := by simp [parityResult]
@[simp] theorem parityResult_not (p : Bool) : parityResult (!p) p = .parityError := by simp [parityResult]

/-! ### Runs of slots -/

/-- What each slot keeps, a run of them keeps. -/
theorem Link.slots_induct {P : Link → Link → Prop} (refl : ∀ l, P l l) (trans : ∀ a b c, P a b → P b c → P a c)
    {slot : Link → Link} (h : ∀ l, P l (slot l)) : ∀ (n : Nat) (l : Link), P l (Link.slots slot n l)
  | 0, l => refl l
  | n + 1, l => trans _ _ _ (h l) (Link.slots_induct refl trans h n (slot l))

/-- The count of a run of slots that fits `BITCNT`. -/
theorem bitcnt_next {c : BitVec 6} {n : Nat} (h : c.toNat + (n + 1) < 64) : (c + 1).toNat = c.toNat + 1 := by
  rw [BitVec.toNat_add, show (1 : BitVec 6).toNat = 1 from rfl]
  omega

theorem bitcnt_add (c : BitVec 6) (n : Nat) : c + 1 + BitVec.ofNat 6 n = c + BitVec.ofNat 6 (n + 1) := by
  rw [BitVec.add_assoc, BitVec.ofNat_add, BitVec.add_comm (BitVec.ofNat 6 n)]; rfl

/-- Slots without a bit: the pins, and `BITCNT`. -/
theorem Link.slots_gap (n : Nat) : ∀ l : Link, Link.slots Link.gapSlot n l =
    (l.setWire (l.wire.clockPulses n)).setSeq { l.seq with bitcnt := l.seq.bitcnt + BitVec.ofNat 6 n } := by
  induction n with
  | zero => intro l; simp [Link.slots, Wire.clockPulses]; rfl
  | succ n ih =>
    intro l
    rw [Link.slots, ih]
    simp only [Link.gapSlot, Link.setSeq_seq, Seq.count_bitcnt, bitcnt_add]
    rfl

/-- Sampled slots: `SHIFT` holds the bits, `PAR` their exclusive-or. -/
theorem Link.slots_receive (n : Nat) : ∀ l : Link, l.seq.bitcnt.toNat + n < 64 → Link.slots Link.receiveSlot n l =
    (l.setWire (l.wire.readBits n).2).setSeq { l.seq with
      bitcnt := l.seq.bitcnt + BitVec.ofNat 6 n
      shift := putBits l.seq.shift l.seq.bitcnt.toNat (l.wire.readBits n).1
      par := l.seq.par ^^ parityOf (l.wire.readBits n).1 } := by
  induction n with
  | zero => intro l _; simp [Link.slots, Wire.readBits, putBits, parityOf]; rfl
  | succ n ih =>
    intro l h
    have hb := bitcnt_next h
    rw [Link.slots, ih _ (by simp only [Link.receiveSlot, Link.setSeq_seq, Seq.count_bitcnt, hb]; omega)]
    simp only [Link.receiveSlot, Link.setSeq_seq, Seq.count_bitcnt, bitcnt_add, hb, Bool.xor_assoc]
    rfl

/-- The acknowledge slots: `ACKSR` holds the bits. -/
theorem Link.slots_ack (n : Nat) : ∀ l : Link, l.seq.bitcnt.toNat + n < 64 → Link.slots Link.ackSlot n l =
    (l.setWire (l.wire.readBits n).2).setSeq { l.seq with
      bitcnt := l.seq.bitcnt + BitVec.ofNat 6 n
      acksr := putBits l.seq.acksr l.seq.bitcnt.toNat (l.wire.readBits n).1 } := by
  induction n with
  | zero => intro l _; simp [Link.slots, Wire.readBits, putBits]; rfl
  | succ n ih =>
    intro l h
    have hb := bitcnt_next h
    rw [Link.slots, ih _ (by simp only [Link.ackSlot, Link.setSeq_seq, Seq.count_bitcnt, hb]; omega)]
    simp only [Link.ackSlot, Link.setSeq_seq, Seq.count_bitcnt, bitcnt_add, hb]
    rfl

/-- The exclusive-or of the covered bits among `n` bits of a word from place `i` on. -/
def parityFrom (covered : Nat → Bool) (v : Word) : Nat → Nat → Bool
  | 0, _ => false
  | n + 1, i => (covered i && v.getLsbD i) ^^ parityFrom covered v n (i + 1)

/-- Driven slots: the bits of `SHIFT` in order; `PAR` runs over the covered ones; `SHIFT` keeps the word. -/
theorem Link.slots_send (covered : Nat → Bool) (n : Nat) : ∀ l : Link, l.seq.bitcnt.toNat + n < 64 →
    Link.slots (Link.sendSlot covered) n l =
      (l.setWire (l.wire.writeBits ((List.range' l.seq.bitcnt.toNat n).map l.seq.shift.getLsbD))).setSeq { l.seq with
        bitcnt := l.seq.bitcnt + BitVec.ofNat 6 n
        par := l.seq.par ^^ parityFrom covered l.seq.shift n l.seq.bitcnt.toNat } := by
  induction n with
  | zero => intro l _; simp [Link.slots, Wire.writeBits, parityFrom]; rfl
  | succ n ih =>
    intro l h
    have hb := bitcnt_next h
    rw [Link.slots, ih _ (by simp only [Link.sendSlot, Link.setSeq_seq, Seq.count_bitcnt, hb]; omega)]
    simp only [Link.sendSlot, Link.setSeq_seq, Seq.count_bitcnt, bitcnt_add, hb, Bool.xor_assoc, List.range'_succ]
    rfl

theorem parityFrom_all (v : Word) (n : Nat) : ∀ i : Nat,
    parityFrom (fun _ => true) v n i = parityOf ((List.range' i n).map v.getLsbD) := by
  induction n with
  | zero => intro i; rfl
  | succ n ih => intro i; simp [parityFrom, List.range'_succ, parityOf, ih]

/-- Written bits, one list after another. -/
theorem Wire.writeBits_append (a b : List Bool) : ∀ w : Wire, w.writeBits (a ++ b) = (w.writeBits a).writeBits b := by
  induction a with
  | nil => intro w; rfl
  | cons x a ih => intro w; simp [Wire.writeBits, ih]

theorem Wire.readBits_length (n : Nat) : ∀ w : Wire, (w.readBits n).1.length = n := by
  induction n with
  | zero => intro w; rfl
  | succ n ih => intro w; simp [Wire.readBits, ih]

/-! ### Each phase, entered with no slot clocked -/

/-- The header in `SHIFT` is the header's bits, and `PAR` ends as its parity bit (R91 to R93). -/
theorem header_shift : ∀ r : Req,
    (List.range' 0 8).map ((headerByte r).setWidth 32 : Word).getLsbD = headerBits r
      ∧ parityFrom headerCovered ((headerByte r).setWidth 32) 8 0 = reqParity r := by decide

/-- The request phase: the header driven, `PAR` its parity bit (R28, R142). -/
theorem Link.reqPhase_eq (l : Link) (r : Req) : l.reqPhase r =
    (l.setWire ((l.wire.setDir .output).writeBits (headerBits r))).setSeq { l.seq with
      phase := .trn1, bitcnt := 0, shift := (headerByte r).setWidth 32, par := reqParity r, xreq := r } := by
  unfold Link.reqPhase Link.slotsTo
  rw [show 8 - ((l.setWire (l.wire.setDir .output)).setSeq (l.seq.startRequest r)).seq.bitcnt.toNat = 8 from rfl,
    Link.slots_send _ _ _ (show 0 + 8 < 64 by decide)]
  simp only [Link.setSeq_seq, Seq.startRequest, Link.setSeq_wire, Link.setWire_wire, Bool.false_xor]
  rw [show (0 : BitVec 6).toNat = 0 from rfl, (header_shift r).1, (header_shift r).2]
  rfl

/-- The gap phases clock the slots that `BITCNT` leaves (R28, R143). -/
theorem Link.slotsTo_gap {l : Link} (h : l.seq.bitcnt = 0) (n : Nat) : l.slotsTo Link.gapSlot n =
    (l.setWire (l.wire.clockPulses n)).setSeq { l.seq with bitcnt := BitVec.ofNat 6 n } := by
  unfold Link.slotsTo
  rw [Link.slots_gap, h, show n - (0 : BitVec 6).toNat = n from rfl, show (0 : BitVec 6) + BitVec.ofNat 6 n = _ from BitVec.zero_add _]

theorem Link.trn1Phase_eq {l : Link} (h : l.seq.bitcnt = 0) (n : Nat) : l.trn1Phase n =
    (l.setWire ((l.wire.setDir .input).clockPulses n)).enter .ack := by
  unfold Link.trn1Phase
  rw [Link.slotsTo_gap (by simpa using h)]
  rfl

theorem Link.trn2Phase_eq {l : Link} (h : l.seq.bitcnt = 0) (n : Nat) : l.trn2Phase n =
    (l.setWire (l.wire.clockPulses n)).enter .wdata := by
  unfold Link.trn2Phase
  rw [Link.slotsTo_gap h]
  rfl

theorem Link.trn3Phase_eq {l : Link} (h : l.seq.bitcnt = 0) (n : Nat) : l.trn3Phase n =
    (l.setWire (l.wire.clockPulses n)).toIdle := by
  unfold Link.trn3Phase
  rw [Link.slotsTo_gap h]
  rfl

theorem Link.backoffPhase_eq {l : Link} (h : l.seq.bitcnt = 0) (n : Nat) : l.backoffPhase n =
    (l.setWire (l.wire.clockPulses (n + 33))).toIdle := by
  unfold Link.backoffPhase
  generalize n + 33 = k
  rw [Link.slotsTo_gap h]
  rfl

/-- The acknowledge phase: `ACKSR` is the three sampled bits, `BITCNT` 3 (R28, R144). -/
theorem Link.ackSample_eq {l : Link} (h : l.seq.bitcnt = 0) : l.ackSample =
    (l.setWire (l.wire.readBits 3).2).setSeq { l.seq with bitcnt := 3, acksr := ackOfBits (l.wire.readBits 3).1 } := by
  unfold Link.ackSample Link.slotsTo
  rw [h, show 3 - (0 : BitVec 6).toNat = 3 from rfl, Link.slots_ack _ _ (by simp [h]), h,
    show (0 : BitVec 6).toNat = 0 from rfl, putBits_all _ _ (Wire.readBits_length 3 _), ackOfBits]
  generalize BitVec.ofNat 3 (natOfBits (l.wire.readBits 3).1) = a
  generalize (l.wire.readBits 3).2 = x
  rfl

/-- The write data phase: the bits of `SHIFT`, then the parity bit, which is theirs if `PAR` was of no bit (R28, R145). -/
theorem Link.wdataPhase_eq {l : Link} (h : l.seq.bitcnt = 0) (hp : l.seq.par = false) : l.wdataPhase =
    (((l.setWire ((l.wire.setDir .output).writeBits (dataBits l.seq.shift))).setSeq { l.seq with
      par := parity32 l.seq.shift }).setResult .ok).toIdle := by
  have hw : wordBits l.seq.shift = (List.range' 0 32).map l.seq.shift.getLsbD := by
    unfold wordBits; rw [List.range_eq_range']
  unfold Link.wdataPhase Link.slotsTo
  simp only [Link.setWire_seq, h]
  rw [show 32 - (0 : BitVec 6).toNat = 32 from rfl, Link.slots_send _ _ _ (by simp [h])]
  simp only [Link.setWire_seq, h, hp]
  rw [show (0 : BitVec 6).toNat = 0 from rfl, parityFrom_all, ← hw, show parityOf (wordBits l.seq.shift) = parity32 l.seq.shift from rfl]
  simp only [dataBits, Wire.writeBits_append, Bool.false_xor]
  generalize wordBits l.seq.shift = x
  generalize parity32 l.seq.shift = y
  rfl

/-- The read data phase: `SHIFT` the 32 sampled bits, `PAR` theirs, compared with the sampled parity bit (R28, R146). -/
theorem Link.rdataPhase_eq {l : Link} (h : l.seq.bitcnt = 0) (hp : l.seq.par = false) : l.rdataPhase =
    (((l.setWire (l.wire.readBits 32).2.readBit.2).setSeq { l.seq with
      shift := wordOfBits (l.wire.readBits 32).1, par := parity32 (wordOfBits (l.wire.readBits 32).1) }).setResult
      (parityResult (l.wire.readBits 32).2.readBit.1 (parity32 (wordOfBits (l.wire.readBits 32).1)))).enter .trn3 := by
  rw [parity32_wordOfBits (Wire.readBits_length 32 _)]
  unfold Link.rdataPhase Link.slotsTo
  rw [h, show 32 - (0 : BitVec 6).toNat = 32 from rfl, Link.slots_receive _ _ (by simp [h]), h,
    show (0 : BitVec 6).toNat = 0 from rfl, putBits_all _ _ (Wire.readBits_length 32 _)]
  simp only [hp, Bool.false_xor, wordOfBits]
  generalize l.wire.readBits 32 = x
  rfl

end Sys2Proof.Machine
end

