-- ==== Sys2Proof/Laws/Frame.lean ====
section
/-! SUPPORT. One frame, whole: the slots it makes and what it leaves, for each acknowledge (R100, R141). -/

namespace Sys2Proof.Machine

/-- What a frame leaves: the slots `e`, the coming levels `rest`, the acknowledge and the result, the line driven
high, the sequencer idle; the mirror and the attempt count as they were. -/
structure FrameEnd (l l' : Link) (e : List Event) (rest : List Bool) (a : Ack) (x : AckResult) : Prop where
  wire : l'.wire = l.wire.with ⟨.output, true, l.wire.line.clk, l.wire.line.nreset⟩ e rest
  status : l'.status = { l.status with ackraw := a, result := x }
  mir : l'.mir = l.mir
  idle : l'.seq.phase = .idle
  retrycnt : l'.seq.retrycnt = l.seq.retrycnt

/-- The head of a frame: the header, the released gap, the three acknowledge slots (R142 to R144). -/
theorem Link.frameHead_eq (l : Link) {n : Nat} (r : Req) (wd : Word) {g k : List Bool} (rest : List Bool)
    (hg : g.length = n) (hk : k.length = 3) (hb : l.wire.lineIn = g ++ (k ++ rest)) :
    l.frameHead n r wd =
      ⟨l.wire.with ⟨.input, true, l.wire.line.clk, l.wire.line.nreset⟩ (driven (headerBits r) ++ released (g ++ k)) rest,
        ⟨.ack, 3, (headerByte r).setWidth 32, reqParity r, ackOfBits k, r, wd, l.seq.retrycnt⟩, l.status, l.mir⟩ := by
  have h1 : ((l.wire.setDir .output).writeBits (headerBits r)) =
      l.wire.with ⟨.output, true, l.wire.line.clk, l.wire.line.nreset⟩ (driven (headerBits r)) (g ++ (k ++ rest)) := by
    rw [Wire.writeBits_driven _ _ rfl]
    simp [Wire.with, Wire.setDir, headerBits, lastLevel, hb]
  have h2 : (((l.wire.setDir .output).writeBits (headerBits r)).setDir .input).clockPulses n =
      l.wire.with ⟨.input, true, l.wire.line.clk, l.wire.line.nreset⟩ (driven (headerBits r) ++ released g) (k ++ rest) := by
    rw [h1, Wire.clockPulses_of_length hg _ (k ++ rest) rfl rfl]
    simp [Wire.with, Wire.setDir]
  have h3 : ((((l.wire.setDir .output).writeBits (headerBits r)).setDir .input).clockPulses n).readBits 3 =
      (k, l.wire.with ⟨.input, true, l.wire.line.clk, l.wire.line.nreset⟩ (driven (headerBits r) ++ released (g ++ k)) rest) := by
    rw [h2, Wire.readBits_of_length hk _ rest rfl rfl]
    simp [Wire.with]
  unfold Link.frameHead
  rw [Link.reqPhase_eq, Link.trn1Phase_eq rfl, Link.ackSample_eq rfl]
  simp only [Link.start, Link.enter_wire, Link.setWire_wire, Link.setSeq_wire, h3]
  rfl

/-- A frame answered WAIT (R100). -/
theorem Link.frame_wait (l : Link) {n : Nat} (r : Req) (wd : Word) {g h : List Bool} (rest : List Bool)
    (hg : g.length = n) (hh : h.length = n) (hb : l.wire.lineIn = g ++ (waitBits ++ (h ++ rest))) :
    FrameEnd l (l.frame n r wd) (shortSlots r g waitBits h) rest 2 .wait ∧ (l.frame n r wd).rdata = 0 := by
  unfold Link.frame
  rw [Link.frameHead_eq l r wd (h ++ rest) hg rfl hb]
  simp [Link.ackPhase, ackTail, waitBits, ackOfBits, natOfBits, Link.tailPhases, Link.trn3Phase_eq,
    Link.setResult, Link.toIdle, Link.rdata]
  rw [Wire.clockPulses_of_length hh _ rest rfl rfl]
  constructor <;> simp [Wire.with, Wire.setDir, Wire.setDout, shortSlots]

/-- A frame answered FAULT (R100). -/
theorem Link.frame_fault (l : Link) {n : Nat} (r : Req) (wd : Word) {g h : List Bool} (rest : List Bool)
    (hg : g.length = n) (hh : h.length = n) (hb : l.wire.lineIn = g ++ (faultBits ++ (h ++ rest))) :
    FrameEnd l (l.frame n r wd) (shortSlots r g faultBits h) rest 4 .fault ∧ (l.frame n r wd).rdata = 0 := by
  unfold Link.frame
  rw [Link.frameHead_eq l r wd (h ++ rest) hg rfl hb]
  simp [Link.ackPhase, ackTail, faultBits, ackOfBits, natOfBits, Link.tailPhases, Link.trn3Phase_eq,
    Link.setResult, Link.toIdle, Link.rdata]
  rw [Wire.clockPulses_of_length hh _ rest rfl rfl]
  constructor <;> simp [Wire.with, Wire.setDir, Wire.setDout, shortSlots]

/-- A frame with a malformed acknowledge (R100). -/
theorem Link.frame_malformed (l : Link) {n : Nat} (r : Req) (wd : Word) {g k h : List Bool} (rest : List Bool)
    (hg : g.length = n) (hk : k.length = 3) (hm : ackTail (ackOfBits k) = .backoff) (hh : h.length = n + 33)
    (hb : l.wire.lineIn = g ++ (k ++ (h ++ rest))) :
    FrameEnd l (l.frame n r wd) (shortSlots r g k h) rest (ackOfBits k) .noReply ∧ (l.frame n r wd).rdata = 0 := by
  have hne : ackOfBits k ≠ 1 := by
    intro h1; rw [h1] at hm; simp [ackTail] at hm
  unfold Link.frame
  rw [Link.frameHead_eq l r wd (h ++ rest) hg hk hb]
  simp [Link.ackPhase, hm, Link.tailPhases, Link.backoffPhase_eq, Link.setResult, Link.toIdle,
    Link.rdata]
  rw [Wire.clockPulses_of_length hh _ rest rfl rfl]
  refine ⟨?_, fun h1 => absurd h1 hne⟩
  constructor <;> simp [Wire.with, Wire.setDir, Wire.setDout, shortSlots]

/-- A write frame answered OK (R100, R145). -/
theorem Link.frame_write (l : Link) {n : Nat} (r : Req) (wd : Word) {g h : List Bool} (rest : List Bool)
    (hr : reqRead r = false) (hg : g.length = n) (hh : h.length = n)
    (hb : l.wire.lineIn = g ++ (okBits ++ (h ++ rest))) :
    FrameEnd l (l.frame n r wd) (okWriteSlots r g h wd) rest 1 .ok ∧ (l.frame n r wd).rdata = 0 := by
  unfold Link.frame
  rw [Link.frameHead_eq l r wd (h ++ rest) hg rfl hb]
  simp [Link.ackPhase, ackTail, okBits, ackOfBits, natOfBits, Link.tailPhases, Link.trn2Phase_eq, Link.wdataPhase_eq,
    Link.setResult, Link.toIdle, Link.rdata, hr]
  rw [Wire.clockPulses_of_length hh _ rest rfl rfl, Wire.writeBits_driven _ _ rfl]
  constructor <;> simp [Wire.with, Wire.setDir, Wire.setDout, okWriteSlots, okBits]

/-- A read frame answered OK, the sampled parity bit being `p` (R100, R146). -/
theorem Link.frame_read (l : Link) {n : Nat} (r : Req) (wd : Word) {g db h : List Bool} (p : Bool)
    (rest : List Bool) (hr : reqRead r = true) (hg : g.length = n) (hd : db.length = 32) (hh : h.length = n)
    (hb : l.wire.lineIn = g ++ (okBits ++ (db ++ (p :: (h ++ rest))))) :
    FrameEnd l (l.frame n r wd) (okReadSlots r g (db ++ [p]) h) rest 1
        (parityResult p (parity32 (wordOfBits db)))
      ∧ (l.frame n r wd).rdata = wordOfBits db := by
  unfold Link.frame
  rw [Link.frameHead_eq l r wd (db ++ (p :: (h ++ rest))) hg rfl hb]
  simp [Link.ackPhase, ackTail, okBits, ackOfBits, natOfBits, Link.tailPhases, Link.rdataPhase_eq, Link.trn3Phase_eq,
    Link.setResult, Link.toIdle, Link.rdata, hr]
  rw [Wire.readBits_of_length hd _ (p :: (h ++ rest)) rfl rfl]
  simp only []
  rw [Wire.readBit_released _ p (h ++ rest) rfl rfl]
  simp only []
  rw [Wire.clockPulses_of_length hh _ rest rfl rfl]
  refine ⟨?_, trivial⟩
  constructor <;> simp [Wire.with, Wire.setDir, Wire.setDout, okReadSlots, okBits]

end Sys2Proof.Machine
end

