-- ==== Sys2Proof/Laws/Retry.lean ====
section
/-! SUPPORT. The wait-retry loop: what it makes and leaves for each way a logical transfer can end (R150 to R153). -/

namespace Sys2Proof.Machine

/-! ### Words as bit lists -/

theorem wordBits_length (v : Word) : (wordBits v).length = 32 := by simp [wordBits]

/-- The sampled bits of a word give the word back (R67, R97). -/
theorem wordOfBits_wordBits (v : Word) : wordOfBits (wordBits v) = v := by
  apply BitVec.eq_of_getLsbD_eq
  intro i hi
  rw [wordOfBits, BitVec.getLsbD_ofNat, natOfBits_testBit]
  simp [wordBits, hi]

/-! ### The loop's two equations -/

theorem retryLoop_zero (n : Nat) (r : Req) (w : Word) (l : Link) :
    retryLoop n r w 0 l = if (l.frame n r w).status.result = .wait
      then ((.fault, (l.frame n r w).rdata), (l.frame n r w).countAttempt.exhaust)
      else (((l.frame n r w).status.result, (l.frame n r w).rdata), (l.frame n r w).countAttempt) := rfl

theorem retryLoop_succ (n : Nat) (r : Req) (w : Word) (k : Nat) (l : Link) :
    retryLoop n r w (k + 1) l = if (l.frame n r w).status.result = .wait
      then retryLoop n r w k (l.frame n r w).countAttempt
      else (((l.frame n r w).status.result, (l.frame n r w).rdata), (l.frame n r w).countAttempt) := rfl

/-! ### Waits -/

/-- What a logical transfer leaves. -/
structure RunEnd (l l' : Link) (e : List Event) (rest : List Bool) (a : Ack) (x : AckResult) (rx : Bool) : Prop where
  wire : l'.wire = l.wire.with ⟨.output, true, l.wire.line.clk, l.wire.line.nreset⟩ e rest
  status : l'.status = { l.status with ackraw := a, result := x, retryx := rx }
  mir : l'.mir = l.mir
  idle : l'.seq.phase = .idle

/-- What frames answered WAIT leave: the link up to the line, the acknowledge, the result and the sequencer. -/
structure Waited (l l' : Link) (e : List Event) (rest : List Bool) : Prop where
  trace : l'.wire.trace = l.wire.trace ++ e
  levels : l'.wire.lineIn = rest
  draws : l'.wire.draws = l.wire.draws
  clk : l'.wire.line.clk = l.wire.line.clk
  nreset : l'.wire.line.nreset = l.wire.line.nreset
  status : l'.status = { l.status with ackraw := l'.status.ackraw, result := l'.status.result }
  mir : l'.mir = l.mir

theorem Waited.refl (l : Link) : Waited l l [] l.wire.lineIn := by constructor <;> simp

/-- A frame after the waits ends the whole run. -/
theorem Waited.frameEnd {l m l' : Link} {e1 e2 : List Event} {r1 rest : List Bool} {a : Ack} {x : AckResult}
    (h1 : Waited l m e1 r1) (h2 : FrameEnd m l' e2 rest a x) :
    RunEnd l l' (e1 ++ e2) rest a x l.status.retryx := by
  constructor
  · rw [h2.wire]; simp [Wire.with, h1.trace, h1.clk, h1.nreset, h1.draws]
  · rw [h2.status, h1.status]
  · rw [h2.mir, h1.mir]
  · exact h2.idle

theorem Waited.step {l m l' : Link} {e1 e2 : List Event} {r1 rest : List Bool} {a : Ack} {x : AckResult}
    (h1 : Waited l m e1 r1) (h2 : FrameEnd m l' e2 rest a x) : Waited l l'.countAttempt (e1 ++ e2) rest := by
  have h := h1.frameEnd h2
  constructor <;> simp [Link.countAttempt, h.wire, h.status, h.mir, Wire.with]

/-- The loop passes over frames answered WAIT while attempts are left (R150). -/
theorem retryLoop_waits (n : Nat) (r : Req) (w : Word) (ws : Waits) : ∀ (extra : Nat) (l : Link) (rest : List Bool),
    ws.ok n → ws.length ≤ extra → l.wire.lineIn = ws.levels ++ rest →
    ∃ l', retryLoop n r w extra l = retryLoop n r w (extra - ws.length) l' ∧ Waited l l' (ws.slots r) rest := by
  induction ws with
  | nil =>
    intro extra l rest _ _ hb
    refine ⟨l, by simp, ?_⟩
    have : rest = l.wire.lineIn := by simpa [Waits.levels] using hb.symm
    subst this; simpa [Waits.slots] using Waited.refl l
  | cons p ws ih =>
    intro extra l rest hok hle hb
    cases extra with
    | zero => simp at hle
    | succ extra =>
      obtain ⟨hg, hh⟩ := hok p (by simp)
      have hf := (Link.frame_wait l r w (n := n) (Waits.levels ws ++ rest) hg hh
        (by simpa [Waits.levels] using hb)).1
      have hst := (Waited.refl l).step hf
      obtain ⟨l', heq, hw⟩ := ih extra _ rest (fun q hq => hok q (by simp [hq])) (by simpa using hle)
        hst.levels
      refine ⟨l', ?_, ?_⟩
      · rw [retryLoop]
        simp only [transfer, hf.status, if_true]
        rw [heq]; simp
      · have e1 := hst.trace
        simp only [List.nil_append] at e1
        constructor
        · rw [hw.trace, e1]; simp [Waits.slots]
        · exact hw.levels
        · rw [hw.draws, hst.draws]
        · rw [hw.clk, hst.clk]
        · rw [hw.nreset, hst.nreset]
        · rw [hw.status, hst.status]
        · rw [hw.mir, hst.mir]

/-- The last frame of a loop, not answered WAIT, ends it at once (R152). -/
theorem retryLoop_last (n : Nat) (r : Req) (w : Word) (k : Nat) (l : Link)
    (hx : (l.frame n r w).status.result ≠ .wait) :
    retryLoop n r w k l = (((l.frame n r w).status.result, (l.frame n r w).rdata), (l.frame n r w).countAttempt) := by
  cases k <;> simp [retryLoop, transfer, hx]

theorem RunEnd.count {l l' : Link} {e rest a x rx} (h : RunEnd l l' e rest a x rx) :
    RunEnd l l'.countAttempt e rest a x rx :=
  ⟨h.wire, h.status, h.mir, h.idle⟩

theorem RunEnd.started {l l' : Link} {e rest a x rx} (h : RunEnd l.startRetry l' e rest a x rx) :
    RunEnd l l' e rest a x rx :=
  ⟨h.wire, by rw [h.status]; rfl, h.mir, h.idle⟩

/-- A loop whose last frame ends in `x`, not WAIT, after fewer than the cap of waits. -/
theorem transferRetry_ends (n retry : Nat) (r : Req) (w : Word) (ws : Waits) (l : Link) (b1 rest : List Bool)
    (e1 : List Event) (a : Ack) (x : AckResult) (d : Word) (hws : ws.ok n) (hlt : ws.length < retry)
    (hx : x ≠ .wait) (hb : l.wire.lineIn = ws.levels ++ (b1 ++ rest))
    (hframe : ∀ m : Link, m.wire.lineIn = b1 ++ rest →
      FrameEnd m (m.frame n r w) e1 rest a x ∧ (m.frame n r w).rdata = d) :
    ∃ l', transferRetry n retry r w l = ((x, d), l') ∧ RunEnd l l' (ws.slots r ++ e1) rest a x false := by
  obtain ⟨m, heq, hw⟩ := retryLoop_waits n r w ws (retry - 1) l.startRetry (b1 ++ rest) hws (by omega) hb
  obtain ⟨hf, hd⟩ := hframe m hw.levels
  have hres : (m.frame n r w).status.result = x := by rw [hf.status]
  refine ⟨(m.frame n r w).countAttempt, ?_, ((hw.frameEnd hf).count).started⟩
  rw [transferRetry, heq, retryLoop_last n r w _ m (by rw [hres]; exact hx), hres, hd]

/-- A logical write that ends OK. -/
theorem transferRetry_write {c : Cfg} {r : Req} {w : Word} {b : List Bool} {e : List Event} (rest : List Bool)
    (hr : reqRead r = false) (h : WriteOk c r w b e) (l : Link) (hb : l.wire.lineIn = b ++ rest) :
    ∃ l', transferRetry c.turnaround c.retry r w l = ((.ok, 0), l') ∧ RunEnd l l' e rest 1 .ok false := by
  obtain ⟨ws, g, k, hlt, hok, hg, hk, rfl, rfl⟩ := h
  refine transferRetry_ends _ _ r w ws l (g ++ okBits ++ k) rest _ 1 .ok 0 hok hlt (by decide) (by simpa using hb) ?_
  intro m hm
  exact m.frame_write r w rest hr hg hk (by simpa using hm)

/-- A logical read that ends OK. -/
theorem transferRetry_read {c : Cfg} {r : Req} {d : Word} {b : List Bool} {e : List Event} (rest : List Bool)
    (w : Word) (hr : reqRead r = true) (h : ReadOk c r d b e) (l : Link) (hb : l.wire.lineIn = b ++ rest) :
    ∃ l', transferRetry c.turnaround c.retry r w l = ((.ok, d), l') ∧ RunEnd l l' e rest 1 .ok false := by
  obtain ⟨ws, g, k, hlt, hok, hg, hk, rfl, rfl⟩ := h
  refine transferRetry_ends _ _ r w ws l (g ++ okBits ++ dataBits d ++ k) rest _ 1 .ok d hok hlt (by decide)
    (by simpa using hb) ?_
  intro m hm
  have := m.frame_read r w (parity32 d) rest hr hg (wordBits_length d) hk (by simpa [dataBits] using hm)
  simpa [wordOfBits_wordBits, dataBits] using this

/-- `CFG.RETRY` frames answered WAIT: exhaustion (R151). -/
theorem transferRetry_exhausted (n retry : Nat) (r : Req) (w : Word) (ws : Waits) (l : Link) (rest : List Bool)
    (hc : 1 ≤ retry) (hok : ws.ok n) (hlen : ws.length = retry) (hb : l.wire.lineIn = ws.levels ++ rest) :
    ∃ l', transferRetry n retry r w l = ((.fault, 0), l') ∧ RunEnd l l' (ws.slots r) rest 2 .fault true := by
  -- all but the last wait are passed over, the last uses the loop up
  obtain ⟨front, p, rfl⟩ : ∃ front p, ws = front ++ [p] := by
    rcases List.eq_nil_or_concat ws with rfl | ⟨f, p, rfl⟩
    · simp at hlen; omega
    · exact ⟨f, p, by simp⟩
  have hp := hok p (by simp)
  obtain ⟨m, heq, hw⟩ := retryLoop_waits n r w front (retry - 1) l.startRetry
    ((p.1 ++ waitBits ++ p.2) ++ rest) (fun q hq => hok q (by simp [hq])) (by simp at hlen; omega)
    (by simpa [Waits.levels, Link.startRetry] using hb)
  obtain ⟨hf, hd⟩ := m.frame_wait r w rest hp.1 hp.2 (by simpa using hw.levels)
  refine ⟨(m.frame n r w).countAttempt.exhaust, ?_, ?_⟩
  · rw [transferRetry, heq]
    have : retry - 1 - front.length = 0 := by simp at hlen; omega
    rw [this, retryLoop_zero, hd]
    simp only [hf.status, if_true]
  · have h1 := hw.frameEnd hf
    constructor
    · simp only [Link.exhaust, Link.countAttempt, Link.setStatus_wire, Link.setSeq_wire]
      rw [h1.wire]; simp [Wire.with, Waits.slots, Link.startRetry]
    · simp only [Link.exhaust, Link.countAttempt, Link.setStatus_status, Link.setSeq_status]
      rw [h1.status]; rfl
    · simpa [Link.exhaust, Link.countAttempt, Link.startRetry] using h1.mir
    · simpa [Link.exhaust, Link.countAttempt] using h1.idle

/-- FAULT ends the loop at once (R152). -/
theorem transferRetry_fault (n retry : Nat) (r : Req) (w : Word) (ws : Waits) (l : Link) (g h rest : List Bool)
    (hok : ws.ok n) (hlt : ws.length < retry) (hg : g.length = n) (hh : h.length = n)
    (hb : l.wire.lineIn = ws.levels ++ (g ++ faultBits ++ h) ++ rest) :
    ∃ l', transferRetry n retry r w l = ((.fault, 0), l')
      ∧ RunEnd l l' (ws.slots r ++ shortSlots r g faultBits h) rest 4 .fault false :=
  transferRetry_ends n retry r w ws l (g ++ faultBits ++ h) rest _ 4 .fault 0 hok hlt (by decide) (by simpa using hb)
    (fun m hm => m.frame_fault r w rest hg hh (by simpa using hm))

/-- A malformed acknowledge ends the loop at once (R152). -/
theorem transferRetry_malformed (n retry : Nat) (r : Req) (w : Word) (ws : Waits) (l : Link) (g k h rest : List Bool)
    (hok : ws.ok n) (hlt : ws.length < retry) (hg : g.length = n) (hk : k.length = 3)
    (hm : ackTail (ackOfBits k) = .backoff) (hh : h.length = n + 33)
    (hb : l.wire.lineIn = ws.levels ++ (g ++ k ++ h) ++ rest) :
    ∃ l', transferRetry n retry r w l = ((.noReply, 0), l')
      ∧ RunEnd l l' (ws.slots r ++ shortSlots r g k h) rest (ackOfBits k) .noReply false :=
  transferRetry_ends n retry r w ws l (g ++ k ++ h) rest _ (ackOfBits k) .noReply 0 hok hlt (by decide)
    (by simpa using hb) (fun m hb' => m.frame_malformed r w rest hg hk hm hh (by simpa using hb'))

/-- A logical transfer that does not end OK (R151, R152). -/
theorem transferRetry_notOk {c : Cfg} {r : Req} {b : List Bool} {e : List Event} {x : AckResult} (rest : List Bool)
    (w : Word) (hc : 1 ≤ c.retry) (h : NotOk c r b e x) (l : Link) (hb : l.wire.lineIn = b ++ rest) :
    x ≠ .ok ∧ ∃ d l' a rx, transferRetry c.turnaround c.retry r w l = ((x, d), l') ∧ RunEnd l l' e rest a x rx := by
  obtain ⟨ws, hok, ⟨hlen, rfl, rfl, rfl⟩ | ⟨hlt, g, k, h3, hg, hk, rfl, rfl, ⟨rfl, hh, rfl⟩ | ⟨hm, hh, rfl⟩⟩⟩ := h
  · obtain ⟨l', h1, h2⟩ := transferRetry_exhausted _ _ r w ws l rest hc hok hlen hb
    exact ⟨by decide, 0, l', 2, true, h1, h2⟩
  · obtain ⟨l', h1, h2⟩ := transferRetry_fault _ _ r w ws l g h3 rest hok hlt hg hh hb
    exact ⟨by decide, 0, l', 4, false, h1, h2⟩
  · obtain ⟨l', h1, h2⟩ := transferRetry_malformed _ _ r w ws l g k h3 rest hok hlt hg hk hm hh hb
    exact ⟨by decide, 0, l', _, false, h1, h2⟩

/-- A logical read whose parity bit is wrong: its result is `ParityError`, and it is not repeated (R146, R152). -/
theorem transferRetry_badParity {c : Cfg} {r : Req} {d : Word} {b : List Bool} {e : List Event} (rest : List Bool)
    (w : Word) (hr : reqRead r = true) (h : BadParity c r d b e) (l : Link) (hb : l.wire.lineIn = b ++ rest) :
    ∃ l', transferRetry c.turnaround c.retry r w l = ((.parityError, d), l')
      ∧ RunEnd l l' e rest 1 .parityError false := by
  obtain ⟨ws, g, k, hlt, hok, hg, hk, rfl, rfl⟩ := h
  refine transferRetry_ends _ _ r w ws l (g ++ okBits ++ (wordBits d ++ [!parity32 d]) ++ k) rest _ 1 .parityError d hok hlt
    (by decide) (by simpa using hb) ?_
  intro m hm
  have := m.frame_read r w (!parity32 d) rest hr hg (wordBits_length d) hk (by simpa using hm)
  simpa [wordOfBits_wordBits] using this

end Sys2Proof.Machine
end

