-- ==== Sys2Proof/Laws/Dialogue.lean ====
section
/-! SUPPORT. Dialogues: what it is for an operation to follow one, to end with it, or to be cut off in it, and how these
compose (R154, R180, R346). -/

namespace Sys2Proof.Machine

/-! ### The monad of operations -/

theorem Op.bind_apply {α β : Type} (x : Op α) (f : α → Op β) (s : State) :
    (x >>= f) s = match x s with
      | .ok a t => f a t
      | .error c t => .error c t := by
  show EStateM.bind x f s = _
  unfold EStateM.bind
  cases x s <;> rfl

theorem Op.bind_ok {α β : Type} {x : Op α} {s t : State} {a : α} (f : α → Op β) (h : x s = .ok a t) :
    (x >>= f) s = f a t := by rw [Op.bind_apply, h]

theorem Op.bind_error {α β : Type} {x : Op α} {s t : State} {c : Cause} (f : α → Op β) (h : x s = .error c t) :
    (x >>= f) s = .error c t := by rw [Op.bind_apply, h]

theorem Op.pure_apply {α : Type} (a : α) (s : State) : (pure a : Op α) s = .ok a s := rfl

theorem Op.throw_apply {α : Type} (c : Cause) (s : State) : (throw c : Op α) s = .error c s := rfl

theorem Op.get_apply (s : State) : (get : Op State) s = .ok s s := rfl

theorem Op.get_bind {α : Type} (f : State → Op α) (s : State) : ((get : Op State) >>= f) s = f s s := rfl

theorem Op.get_assoc {α β : Type} (f : State → Op α) (k : α → Op β) :
    (((get : Op State) >>= f) >>= k) = (get : Op State) >>= fun t => f t >>= k := rfl

theorem Op.ite_apply {α : Type} (p : Prop) [Decidable p] (x y : Op α) (s : State) :
    (if p then x else y) s = if p then x s else y s := by split <;> rfl

theorem modifyOp_apply (f : State → State) (s : State) : modifyOp f s = .ok () (f s) := rfl

theorem require_true {b : Bool} (h : b = true) (s : State) : require b s = .ok () s := by simp [require, h, Op.pure_apply]

theorem require_false {b : Bool} (h : b = false) (s : State) : require b s = .error .precond s := by
  simp [require, h, Op.throw_apply]

/-- `require` that holds adds nothing. -/
theorem Op.require_bind {α : Type} {b : Bool} (h : b = true) (f : Unit → Op α) : (require b >>= f) = f () := by
  funext s; rw [Op.bind_ok f (require_true h s)]

/-! ### Sequences of turns -/

theorem Answered.append {c : Cfg} : ∀ {ts us : List Turn} {b e rest}, Answered c (ts ++ us) b e rest →
    ∃ e1 mid e2, Answered c ts b e1 mid ∧ e = e1 ++ e2 ∧ Answered c us mid e2 rest := by
  intro ts
  induction ts with
  | nil => intro us b e rest h; exact ⟨[], b, e, ⟨rfl, rfl⟩, rfl, h⟩
  | cons t ts ih =>
    intro us b e rest h
    obtain ⟨b1, e1, b2, e2, ht, rfl, rfl, h2⟩ := h
    obtain ⟨f1, mid, f2, h3, rfl, h4⟩ := ih h2
    exact ⟨e1 ++ f1, mid, f2, ⟨b1, e1, b2, f1, ht, rfl, rfl, h3⟩, by simp, h4⟩

theorem Answered.join {c : Cfg} : ∀ {ts us : List Turn} {b e1 mid e2 rest}, Answered c ts b e1 mid →
    Answered c us mid e2 rest → Answered c (ts ++ us) b (e1 ++ e2) rest := by
  intro ts
  induction ts with
  | nil => rintro us b e1 mid e2 rest ⟨rfl, rfl⟩ h; exact h
  | cons t ts ih =>
    rintro us b e mid e2 rest ⟨b1, f1, b2, f2, ht, rfl, rfl, h2⟩ h
    exact ⟨b1, f1, b2, f2 ++ e2, ht, rfl, by simp, ih h2 h⟩

theorem Broken.append {c : Cfg} : ∀ {ts us : List Turn} {b e rest x}, Broken c (ts ++ us) b e rest x →
    Broken c ts b e rest x ∨
      ∃ e1 mid e2, Answered c ts b e1 mid ∧ e = e1 ++ e2 ∧ Broken c us mid e2 rest x := by
  intro ts
  induction ts with
  | nil => intro us b e rest x h; exact .inr ⟨[], b, e, ⟨rfl, rfl⟩, rfl, h⟩
  | cons t ts ih =>
    intro us b e rest x h
    rcases h with h | ⟨b1, e1, b2, e2, ht, rfl, rfl, h2⟩
    · exact .inl (.inl h)
    · rcases ih h2 with h3 | ⟨f1, mid, f2, h3, rfl, h4⟩
      · exact .inl (.inr ⟨b1, e1, b2, e2, ht, rfl, rfl, h3⟩)
      · exact .inr ⟨e1 ++ f1, mid, f2, ⟨b1, e1, b2, f1, ht, rfl, rfl, h3⟩, by simp, h4⟩

@[simp] theorem Talk.say_apply (ts : List Turn) (m : Mirror) : Talk.say ts m = (ts, m) := rfl
@[simp] theorem Talk.forget_apply (m : Mirror) : Talk.forget m = ([], m.clear) := rfl

theorem Talk.andThen_say_nil (a : Talk) : a.andThen (Talk.say []) = a := by
  funext m; simp [Talk.andThen]

theorem Talk.say_nil_andThen (a : Talk) : (Talk.say []).andThen a = a := by
  funext m; simp [Talk.andThen]

theorem Talk.andThen_assoc (a b d : Talk) : (a.andThen b).andThen d = a.andThen (b.andThen d) := by
  funext m; simp [Talk.andThen]

/-! ### What an operation leaves on the link -/

/-- What an operation that follows its dialogue to the end leaves on the link. -/
structure Leaves (l l' : Link) (said : List Turn × Mirror) (e : List Event) (rest : List Bool) : Prop where
  trace : l'.wire.trace = l.wire.trace ++ e
  levels : l'.wire.lineIn = rest
  draws : l'.wire.draws = l.wire.draws
  mirror : l'.mir = said.2
  status : l'.status = l.status.moved said.1
  pins : said.1.getLast?.any Turn.isTransfer = true → AtIdle l'
  still : said.1 = [] → l'.wire = l.wire ∧ l'.seq = l.seq

theorem Status.moved_append (s : Status) (ts us : List Turn) : (s.moved ts).moved us = s.moved (ts ++ us) := by
  unfold Status.moved
  cases h1 : ts.any Turn.isTransfer <;> cases h2 : us.any Turn.isTransfer <;> simp [h1, h2]

/-- A dialogue and then another. -/
theorem Leaves.trans {l m l' : Link} {ts us : List Turn} {m1 m2 : Mirror} {e1 e2 : List Event} {r1 rest : List Bool}
    (h1 : Leaves l m (ts, m1) e1 r1) (h2 : Leaves m l' (us, m2) e2 rest) :
    Leaves l l' (ts ++ us, m2) (e1 ++ e2) rest := by
  constructor
  · rw [h2.trace, h1.trace, List.append_assoc]
  · exact h2.levels
  · rw [h2.draws, h1.draws]
  · exact h2.mirror
  · rw [h2.status, h1.status, Status.moved_append]
  · intro h
    cases us with
    | nil =>
      have hs := h2.still rfl
      have hp := h1.pins (by simpa using h)
      unfold AtIdle at hp ⊢
      rw [hs.1, hs.2]; exact hp
    | cons u us => exact h2.pins (by simpa [List.getLast?_append, List.getLast?_cons] using h)
  · intro h
    simp only [List.append_eq_nil_iff] at h
    obtain ⟨hts, hus⟩ := h
    exact ⟨(h2.still hus).1.trans (h1.still hts).1, (h2.still hus).2.trans (h1.still hts).2⟩

/-- What an operation leaves when a transfer in it ends in `x` and nothing catches the failure. -/
structure CutShort (l l' : Link) (e : List Event) (rest : List Bool) (x : AckResult) : Prop where
  trace : l'.wire.trace = l.wire.trace ++ e
  levels : l'.wire.lineIn = rest
  result : l'.status.result = x
  pins : AtIdle l'

theorem Leaves.cutShort {l m l' : Link} {said : List Turn × Mirror} {e1 e2 : List Event} {r1 rest : List Bool}
    {x : AckResult} (h1 : Leaves l m said e1 r1) (h2 : CutShort m l' e2 rest x) : CutShort l l' (e1 ++ e2) rest x :=
  ⟨by rw [h2.trace, h1.trace, List.append_assoc], h2.levels, h2.result, h2.pins⟩

/-! ### Following a dialogue -/

/-- The outcome of an operation: a value or a failure kind, with a state. -/
def outcome {α : Type} (r : Except Cause α) (s : State) : EStateM.Result Cause State α :=
  match r with
  | .ok v => .ok v s
  | .error c => .error c s

/-- At state `s` (but for the link) the operation ends with `r` and state `s'` (but for the link) when the line answers its
whole dialogue. -/
def EndsAt {α : Type} (s : State) (op : Op α) (tk : Talk) (r : Except Cause α) (s' : State) : Prop :=
  ∀ (l : Link) (e : List Event) (rest : List Bool), Answered s.cfg (tk l.mir).1 l.wire.lineIn e rest →
    ∃ l', op (s.setLink l) = outcome r (s'.setLink l') ∧ Leaves l l' (tk l.mir) e rest

/-- At state `s` (but for the link) the operation ends with `F_ACK` at the first turn that does not go well. -/
def BreaksAt {α : Type} (s : State) (op : Op α) (tk : Talk) : Prop :=
  ∀ (l : Link) (e : List Event) (rest : List Bool) (x : AckResult), Broken s.cfg (tk l.mir).1 l.wire.lineIn e rest x →
    ∃ t, op (s.setLink l) = .error .ack t ∧ CutShort l t.link e rest x

/-- The operation follows the dialogue: it succeeds with `v` if all goes well, and otherwise ends with `F_ACK` at the first
transfer that does not. -/
structure Follows {α : Type} (s : State) (op : Op α) (tk : Talk) (v : α) (s' : State) : Prop where
  ends : EndsAt s op tk (.ok v) s'
  breaks : BreaksAt s op tk

theorem EndsAt.bind {α β : Type} {s s1 s2 : State} {op : Op α} {k : α → Op β} {tk1 tk2 : Talk} {v : α}
    {r : Except Cause β} (h1 : EndsAt s op tk1 (.ok v) s1) (hc : s1.cfg = s.cfg) (h2 : EndsAt s1 (k v) tk2 r s2) :
    EndsAt s (op >>= k) (tk1.andThen tk2) r s2 := by
  intro l e rest h
  obtain ⟨e1, mid, e2, ha, rfl, hb⟩ := Answered.append h
  obtain ⟨l1, ho, hl⟩ := h1 l e1 mid ha
  obtain ⟨l2, ho2, hl2⟩ := h2 l1 e2 rest (by rw [hc, hl.levels, hl.mirror]; exact hb)
  refine ⟨l2, ?_, ?_⟩
  · rw [Op.bind_ok k ho]; exact ho2
  · have := Leaves.trans (ts := (tk1 l.mir).1) (m1 := (tk1 l.mir).2) (us := (tk2 l1.mir).1) (m2 := (tk2 l1.mir).2) hl hl2
    rw [hl.mirror] at this
    exact this

theorem EndsAt.bindError {α β : Type} {s s1 : State} {op : Op α} {k : α → Op β} {tk : Talk} {c : Cause}
    (h1 : EndsAt s op tk (.error c) s1) : EndsAt s (op >>= k) tk (.error c) s1 := by
  intro l e rest h
  obtain ⟨l1, ho, hl⟩ := h1 l e rest h
  exact ⟨l1, by rw [Op.bind_error k ho]; rfl, hl⟩

theorem BreaksAt.bind {α β : Type} {s s1 : State} {op : Op α} {k : α → Op β} {tk1 tk2 : Talk} {v : α}
    (h1 : Follows s op tk1 v s1) (hc : s1.cfg = s.cfg) (h2 : BreaksAt s1 (k v) tk2) :
    BreaksAt s (op >>= k) (tk1.andThen tk2) := by
  intro l e rest x h
  rcases Broken.append h with h | ⟨e1, mid, e2, ha, rfl, hb⟩
  · obtain ⟨t, ho, hl⟩ := h1.breaks l e rest x h
    exact ⟨t, Op.bind_error k ho, hl⟩
  · obtain ⟨l1, ho, hl⟩ := h1.ends l e1 mid ha
    obtain ⟨t, ho2, hl2⟩ := h2 l1 e2 rest x (by rw [hc, hl.levels, hl.mirror]; exact hb)
    exact ⟨t, by rw [Op.bind_ok k ho]; exact ho2, hl.cutShort hl2⟩

theorem Follows.bind {α β : Type} {s s1 s2 : State} {op : Op α} {k : α → Op β} {tk1 tk2 : Talk} {v : α} {w : β}
    (h1 : Follows s op tk1 v s1) (hc : s1.cfg = s.cfg) (h2 : Follows s1 (k v) tk2 w s2) :
    Follows s (op >>= k) (tk1.andThen tk2) w s2 :=
  ⟨h1.ends.bind hc h2.ends, .bind h1 hc h2.breaks⟩

/-- An operation without turns that is the same for every link. -/
theorem Follows.silent {α : Type} {s s' : State} {op : Op α} {v : α}
    (h : ∀ l : Link, op (s.setLink l) = .ok v (s'.setLink l)) : Follows s op (Talk.say []) v s' := by
  constructor
  · intro l e rest ha
    obtain ⟨rfl, rfl⟩ := ha
    exact ⟨l, h l, by constructor <;> simp [Status.moved]⟩
  · intro l e rest x hb; exact hb.elim

theorem EndsAt.silentError {α : Type} {s s' : State} {op : Op α} {c : Cause}
    (h : ∀ l : Link, op (s.setLink l) = .error c (s'.setLink l)) : EndsAt s op (Talk.say []) (.error c) s' := by
  intro l e rest ha
  obtain ⟨rfl, rfl⟩ := ha
  exact ⟨l, h l, by constructor <;> simp [Status.moved]⟩

theorem Follows.pure {α : Type} (s : State) (v : α) : Follows s (Pure.pure v : Op α) (Talk.say []) v s :=
  .silent (fun _ => rfl)

/-- Follow-up of a silent first part. -/
theorem Follows.after {α β : Type} {s s1 s2 : State} {op : Op α} {k : α → Op β} {tk : Talk} {v : α} {w : β}
    (h : ∀ l : Link, op (s.setLink l) = .ok v (s1.setLink l)) (hc : s1.cfg = s.cfg) (h2 : Follows s1 (k v) tk w s2) :
    Follows s (op >>= k) tk w s2 := by
  have := (Follows.silent h).bind hc h2
  rwa [Talk.say_nil_andThen] at this

theorem EndsAt.after {α β : Type} {s s1 s2 : State} {op : Op α} {k : α → Op β} {tk : Talk} {v : α}
    {r : Except Cause β} (h : ∀ l : Link, op (s.setLink l) = .ok v (s1.setLink l)) (hc : s1.cfg = s.cfg)
    (h2 : EndsAt s1 (k v) tk r s2) : EndsAt s (op >>= k) tk r s2 := by
  have := (Follows.silent h).ends.bind hc h2
  rwa [Talk.say_nil_andThen] at this

/-- A part that only computes on the value of the one before. -/
theorem Follows.map {α β : Type} {s s1 : State} {op : Op α} {k : α → Op β} {tk : Talk} {v : α} {w : β}
    (h1 : Follows s op tk v s1) (hc : s1.cfg = s.cfg) {s2 : State}
    (h : ∀ l : Link, k v (s1.setLink l) = .ok w (s2.setLink l)) : Follows s (op >>= k) tk w s2 := by
  have := h1.bind hc (Follows.silent h)
  rwa [Talk.andThen_say_nil] at this

/-- An operation that reads the state: what it does at every link of `s` is one operation. -/
theorem Follows.get {α : Type} {s s' : State} {k : State → Op α} {op : Op α} {tk : Talk} {v : α}
    (h : ∀ l : Link, k (s.setLink l) = op) (h2 : Follows s op tk v s') :
    Follows s ((MonadState.get : Op State) >>= k) tk v s' := by
  constructor
  · intro l e rest ha
    obtain ⟨l', ho, hl⟩ := h2.ends l e rest ha
    exact ⟨l', by rw [← ho, ← h l]; rfl, hl⟩
  · intro l e rest x hb
    obtain ⟨t, ho, hl⟩ := h2.breaks l e rest x hb
    exact ⟨t, by rw [← ho, ← h l]; rfl, hl⟩

theorem EndsAt.get {α : Type} {s s' : State} {k : State → Op α} {op : Op α} {tk : Talk} {r : Except Cause α}
    (h : ∀ l : Link, k (s.setLink l) = op) (h2 : EndsAt s op tk r s') :
    EndsAt s ((MonadState.get : Op State) >>= k) tk r s' := by
  intro l e rest ha
  obtain ⟨l', ho, hl⟩ := h2 l e rest ha
  exact ⟨l', by rw [← ho, ← h l]; rfl, hl⟩

/-- A change of the mirror alone. -/
theorem Follows.mirror {s : State} {op : Op Unit} {f : Mirror → Mirror}
    (h : ∀ l : Link, op (s.setLink l) = .ok () (s.setLink (l.setMir (f l.mir)))) :
    Follows s op (fun m => ([], f m)) () s := by
  constructor
  · intro l e rest ha
    obtain ⟨rfl, rfl⟩ := ha
    exact ⟨_, h l, by constructor <;> simp [Status.moved]⟩
  · intro l e rest x hb; exact hb.elim

/-! ### Logical transfers -/

theorem Leaves.ofRun {l l' : Link} {e : List Event} {rest : List Bool} {t : Turn} (ht : t.isTransfer = true)
    (h : RunEnd l l' e rest 1 .ok false) : Leaves l l' ([t], l.mir) e rest := by
  constructor
  · rw [h.wire]; rfl
  · rw [h.wire]; rfl
  · rw [h.wire]; rfl
  · exact h.mir
  · rw [h.status]; simp [Status.moved, ht]
  · intro _; exact ⟨by rw [h.wire]; rfl, by rw [h.wire]; rfl, h.idle⟩
  · intro h0; simp at h0

theorem CutShort.ofRun {l l' : Link} {e : List Event} {rest : List Bool} {a : Ack} {x : AckResult} {rx : Bool}
    (h : RunEnd l l' e rest a x rx) : CutShort l l' e rest x :=
  ⟨by rw [h.wire]; rfl, by rw [h.wire]; rfl, by rw [h.status],
    ⟨by rw [h.wire]; rfl, by rw [h.wire]; rfl, h.idle⟩⟩

theorem needOk_ok (d : Word) : needOk (.ok, d) = pure d := rfl

theorem needOk_fail {x : AckResult} (d : Word) (h : x ≠ .ok) : needOk (x, d) = throw .ack := by
  simp [needOk, h]

theorem logical_apply (r : Req) (w : Word) (s : State) (l : Link) :
    logical r w (s.setLink l) = .ok (transferRetry s.cfg.turnaround s.cfg.retry r w l).1
      (s.setLink (transferRetry s.cfg.turnaround s.cfg.retry r w l).2) := rfl

theorem logical_of {s : State} {r : Req} {w : Word} {l l' : Link} {x : AckResult × Word}
    (h : transferRetry s.cfg.turnaround s.cfg.retry r w l = (x, l')) :
    logical r w (s.setLink l) = .ok x (s.setLink l') := by rw [logical_apply, h]

theorem reqRead_reqCode (ap rd : Bool) (a : Word) : reqRead (reqCode ap rd a) = rd := by
  cases ap <;> cases rd <;> simp [reqRead, reqCode]

/-- A logical transfer that does not end OK, as an operation. -/
theorem logical_failed {s : State} {t : Turn} {r : Req} {w : Word} {b e rest x} (hc : 1 ≤ s.cfg.retry)
    (ht : (t = .write r w ∧ reqRead r = false) ∨ ((∃ d, t = .read r d) ∨ t = .readAny r) ∧ reqRead r = true)
    (h : t.failed s.cfg b e x) (l : Link) (hb : l.wire.lineIn = b ++ rest) :
    ∃ d l', logical r w (s.setLink l) = .ok (x, d) (s.setLink l') ∧ x ≠ .ok ∧ CutShort l l' e rest x
      ∧ l'.mir = l.mir := by
  have key : (NotOk s.cfg r b e x ∨ (x = .parityError ∧ ∃ d, BadParity s.cfg r d b e)) ∧
      (reqRead r = false → NotOk s.cfg r b e x) := by
    rcases ht with ⟨rfl, hr⟩ | ⟨⟨d, rfl⟩ | rfl, hr⟩
    · exact ⟨.inl h, fun _ => h⟩
    · exact ⟨h, fun h0 => by simp [hr] at h0⟩
    · exact ⟨h, fun h0 => by simp [hr] at h0⟩
  cases hrr : reqRead r with
  | false =>
    obtain ⟨hx, d, l', a, rx, ho, hrun⟩ := transferRetry_notOk rest w hc (key.2 hrr) l hb
    exact ⟨d, l', logical_of ho, hx, .ofRun hrun, hrun.mir⟩
  | true =>
    rcases key.1 with h1 | ⟨rfl, d, h1⟩
    · obtain ⟨hx, d, l', a, rx, ho, hrun⟩ := transferRetry_notOk rest w hc h1 l hb
      exact ⟨d, l', logical_of ho, hx, .ofRun hrun, hrun.mir⟩
    · obtain ⟨l', ho, hrun⟩ := transferRetry_badParity rest w hrr h1 l hb
      exact ⟨d, l', logical_of ho, by decide, .ofRun hrun, hrun.mir⟩

theorem Broken.single {c : Cfg} {t : Turn} {b e rest x} (h : Broken c [t] b e rest x) :
    ∃ b1, t.failed c b1 e x ∧ b = b1 ++ rest := by
  rcases h with h | ⟨_, _, _, _, _, _, _, h⟩
  · exact h
  · exact h.elim

theorem Answered.single {c : Cfg} {t : Turn} {b e rest} (h : Answered c [t] b e rest) :
    ∃ b1, t.answered c b1 e ∧ b = b1 ++ rest := by
  obtain ⟨b1, e1, b2, e2, ht, rfl, rfl, rfl, rfl⟩ := h
  exact ⟨b1, by simpa using ht, rfl⟩

/-- A logical write that must end OK (R154). -/
theorem follows_write (s : State) (ap : Bool) (a w : Word) (hc : 1 ≤ s.cfg.retry) :
    Follows s (logicalOk (reqCode ap false a) w) (Talk.say [.write (reqCode ap false a) w]) 0 s := by
  constructor
  · intro l e rest h
    obtain ⟨b1, ht, hb⟩ := Answered.single h
    obtain ⟨l', ho, hrun⟩ := transferRetry_write rest (reqRead_reqCode ap false a) ht l hb
    exact ⟨l', by rw [logicalOk, Op.bind_ok _ (logical_of ho)]; rfl, Leaves.ofRun rfl hrun⟩
  · intro l e rest x h
    obtain ⟨b1, ht, hb⟩ := Broken.single h
    obtain ⟨d, l', ho, hx, hcut, _⟩ := logical_failed (w := w) hc (.inl ⟨rfl, reqRead_reqCode ap false a⟩) ht l hb
    exact ⟨_, by rw [logicalOk, Op.bind_ok _ ho, needOk_fail d hx]; rfl, hcut⟩

/-- A logical read that must end OK and delivers `d` (R154). -/
theorem follows_read (s : State) (ap : Bool) (a d w : Word) (hc : 1 ≤ s.cfg.retry) :
    Follows s (logicalOk (reqCode ap true a) w) (Talk.say [.read (reqCode ap true a) d]) d s := by
  constructor
  · intro l e rest h
    obtain ⟨b1, ht, hb⟩ := Answered.single h
    obtain ⟨l', ho, hrun⟩ := transferRetry_read rest w (reqRead_reqCode ap true a) ht l hb
    exact ⟨l', by rw [logicalOk, Op.bind_ok _ (logical_of ho)]; rfl, Leaves.ofRun rfl hrun⟩
  · intro l e rest x h
    obtain ⟨b1, ht, hb⟩ := Broken.single h
    obtain ⟨d', l', ho, hx, hcut, _⟩ :=
      logical_failed (w := w) hc (.inr ⟨.inl ⟨d, rfl⟩, reqRead_reqCode ap true a⟩) ht l hb
    exact ⟨_, by rw [logicalOk, Op.bind_ok _ ho, needOk_fail d' hx]; rfl, hcut⟩

/-- A logical read whose data is discarded, with what follows it. -/
theorem follows_readAny {β : Type} {s s2 : State} {k : Word → Op β} {tk : Talk} {v : β} (ap : Bool) (a w : Word)
    (hc : 1 ≤ s.cfg.retry) (hk : ∀ d, Follows s (k d) tk v s2) :
    Follows s (logicalOk (reqCode ap true a) w >>= k) ((Talk.say [.readAny (reqCode ap true a)]).andThen tk) v s2 := by
  constructor
  · intro l e rest h
    obtain ⟨e1, mid, e2, h1, rfl, h2⟩ := Answered.append h
    obtain ⟨b1, ⟨d, ht⟩, hb⟩ := Answered.single h1
    obtain ⟨l1, ho, hrun⟩ := transferRetry_read mid w (reqRead_reqCode ap true a) ht l hb
    have hl : Leaves l l1 ([Turn.readAny (reqCode ap true a)], l.mir) e1 mid := Leaves.ofRun rfl hrun
    obtain ⟨l2, ho2, hl2⟩ := (hk d).ends l1 e2 rest (by rw [hl.levels, hl.mirror]; exact h2)
    refine ⟨l2, ?_, ?_⟩
    · rw [Op.bind_ok k (show logicalOk (reqCode ap true a) w (s.setLink l) = .ok d (s.setLink l1) by
        rw [logicalOk, Op.bind_ok _ (logical_of ho)]; rfl)]
      exact ho2
    · have h3 := Leaves.trans (us := (tk l1.mir).1) (m2 := (tk l1.mir).2) hl hl2
      rw [hl.mirror] at h3
      exact h3
  · intro l e rest x h
    rcases Broken.append h with h1 | ⟨e1, mid, e2, h1, rfl, h2⟩
    · obtain ⟨b1, ht, hb⟩ := Broken.single h1
      obtain ⟨d', l', ho, hx, hcut, _⟩ :=
        logical_failed (w := w) hc (.inr ⟨.inr rfl, reqRead_reqCode ap true a⟩) ht l hb
      refine ⟨_, Op.bind_error k (show logicalOk (reqCode ap true a) w (s.setLink l) = .error .ack (s.setLink l') by
        rw [logicalOk, Op.bind_ok _ ho, needOk_fail d' hx]; rfl), hcut⟩
    · obtain ⟨b1, ⟨d, ht⟩, hb⟩ := Answered.single h1
      obtain ⟨l1, ho, hrun⟩ := transferRetry_read mid w (reqRead_reqCode ap true a) ht l hb
      have hl : Leaves l l1 ([Turn.readAny (reqCode ap true a)], l.mir) e1 mid := Leaves.ofRun rfl hrun
      obtain ⟨t, ho2, hcut⟩ := (hk d).breaks l1 e2 rest x (by rw [hl.levels, hl.mirror]; exact h2)
      refine ⟨t, ?_, hl.cutShort hcut⟩
      rw [Op.bind_ok k (show logicalOk (reqCode ap true a) w (s.setLink l) = .ok d (s.setLink l1) by
        rw [logicalOk, Op.bind_ok _ (logical_of ho)]; rfl)]
      exact ho2

end Sys2Proof.Machine
end

