-- ==== Sys2Proof/Laws/Follow.lean ====
section
/-! SUPPORT. Each operation of U1 and U2 follows its dialogue (R154 to R234). -/

namespace Sys2Proof.Machine

/-! ### What a legal configuration gives -/

/-- The clauses of `cfgLegal` the operations need. -/
structure Legal (c : Cfg) : Prop where
  retry : 1 ≤ c.retry
  idcode : dpAddrOk c.dpIdcode = true
  abort : dpAddrOk c.dpAbort = true
  ctrlstat : dpAddrOk c.dpCtrlstat = true
  select : dpAddrOk c.dpSelect = true
  csw : apAddrOk (memAp c c.apCsw) = true
  tar : apAddrOk (memAp c c.apTar) = true
  drw : apAddrOk (memAp c c.apDrw) = true
  dhcsr : wordAligned c.dhcsr = true
  dcrsr : wordAligned c.dcrsr = true
  dcrdr : wordAligned c.dcrdr = true
  demcr : wordAligned c.demcr = true
  aircr : wordAligned c.aircr = true
  regrdy : 1 ≤ c.regrdyPolls
  syscall : 1 ≤ c.syscallPolls
  pwrup : 1 ≤ c.pwrupPolls
  halt : 1 ≤ c.haltPolls
  debugen : 1 ≤ c.debugenRetries
  block : 4 ≤ c.blockMax
  blockPow : c.blockMax &&& (c.blockMax - 1) = 0

theorem apAddrOk_memAp (c : Cfg) (reg : Word) (h : reg &&& 0xFFFFFF03 = 0) : apAddrOk (memAp c reg) = true := by
  have h1 : reg &&& 0x00FFFF03#32 = (reg &&& 0xFFFFFF03#32) &&& 0x00FFFF03#32 := by
    rw [BitVec.and_assoc]; congr 1
  have h2 : (c.memApsel.setWidth 32 <<< 24) &&& 0x00FFFF03#32 = 0#32 := by
    generalize c.memApsel = x
    revert x; decide
  have h3 : reg &&& 0xFFFFFF03#32 = 0#32 := h
  have h4 : (c.memApsel.setWidth 32 <<< 24 ||| reg) &&& 0x00FFFF03#32 = 0#32 := by
    rw [BitVec.and_comm, BitVec.and_or_distrib_left, BitVec.and_comm, h2, BitVec.and_comm, h1, h3]; rfl
  exact decide_eq_true h4

theorem legal_of {c : Cfg} (h : cfgLegal c = true) : Legal c := by
  simp only [cfgLegal, Bool.and_eq_true, decide_eq_true_eq] at h
  constructor <;> first | (apply apAddrOk_memAp; simp_all; done) | (simp_all; done)

/-! ### The register operations -/

theorem logicalOk_eq (r : Req) (w : Word) : logicalOk r w = (logical r w >>= needOk) := rfl

theorem follows_readDp {s : State} {a d : Word} (hc : Legal s.cfg) (ha : dpAddrOk a = true) :
    Follows s (readDp a) (talkReadDp a d) d s := by
  have : readDp a = logicalOk (reqCode false true a) 0 := by rw [readDp, Op.require_bind ha]
  rw [this]
  exact follows_read s false a d 0 hc.retry

/-- What `WRITE_DP` does at a link, the address being a DP address (R158). -/
theorem writeDp_apply {a : Word} (v : Word) (s : State) (l : Link) (ha : dpAddrOk a = true) :
    writeDp a v (s.setLink l) =
      if a = s.cfg.dpSelect ∧ l.mir.hasSelect v = true then .ok () (s.setLink l)
      else (logical (reqCode false false a) v >>= fun x => followSelect a v x.1 >>= fun _ => needOk x >>= fun _ => pure ())
        (s.setLink l) := by
  rw [writeDp, Op.require_bind ha, Op.get_bind]
  exact Op.ite_apply _ _ _ _

/-- What `followSelect` does at a link (R158). -/
theorem followSelect_apply (a v : Word) (r : AckResult) (s : State) (l : Link) :
    followSelect a v r (s.setLink l) = .ok () (s.setLink
      (if a = s.cfg.dpSelect then l.setMir (if r = .ok then l.mir.holdSelect v else l.mir.dropSelect) else l)) := by
  rw [followSelect, Op.get_bind, Op.ite_apply]
  by_cases h : a = s.cfg.dpSelect <;> simp only [State.setLink_cfg, h, if_true, if_false] <;> rfl

theorem Mirror.holdSelect_of_has {m : Mirror} {v : Word} (h : m.hasSelect v = true) : m.holdSelect v = m := by
  simp only [Mirror.hasSelect, Bool.and_eq_true, decide_eq_true_eq] at h
  cases m; simp_all [Mirror.holdSelect]

theorem Mirror.holdCsw_of_has {m : Mirror} {ap : BitVec 8} {v : Word} (h : m.hasCsw ap v = true) :
    m.holdCsw ap v = m := by
  simp only [Mirror.hasCsw, Bool.and_eq_true, decide_eq_true_eq] at h
  cases m; simp_all [Mirror.holdCsw]

theorem Leaves.withMir {l l' : Link} {ts : List Turn} {m m' : Mirror} {e rest} (h : Leaves l l' (ts, m) e rest) :
    Leaves l (l'.setMir m') (ts, m') e rest :=
  ⟨h.trace, h.levels, h.draws, rfl, h.status, h.pins, h.still⟩

theorem CutShort.withMir {l l' : Link} {m' : Mirror} {e rest x} (h : CutShort l l' e rest x) :
    CutShort l (l'.setMir m') e rest x :=
  ⟨h.trace, h.levels, h.result, h.pins⟩

theorem Leaves.nothing (l : Link) : Leaves l l ([], l.mir) [] l.wire.lineIn := by
  constructor <;> simp [Status.moved]

theorem follows_writeDp {s : State} {a v : Word} (hc : Legal s.cfg) (ha : dpAddrOk a = true) :
    Follows s (writeDp a v) (talkWriteDp s.cfg a v) () s := by
  constructor
  · intro l e rest h
    rw [writeDp_apply v s l ha]
    by_cases hsel : a = s.cfg.dpSelect
    · cases hhas : l.mir.hasSelect v with
      | true =>
        simp only [talkWriteDp, if_pos hsel, hhas, if_true] at h
        obtain ⟨rfl, rfl⟩ := h
        refine ⟨l, by simp [hsel, outcome], ?_⟩
        simpa [talkWriteDp, hsel, hhas, Mirror.holdSelect_of_has hhas] using Leaves.nothing l
      | false =>
        simp only [talkWriteDp, if_pos hsel, hhas] at h
        obtain ⟨b1, ht, hb⟩ := Answered.single h
        obtain ⟨l', ho, hrun⟩ := transferRetry_write rest (reqRead_reqCode false false a) ht l hb
        refine ⟨l'.setMir (l'.mir.holdSelect v), ?_, ?_⟩
        · rw [if_neg (by simp), Op.bind_ok _ (logical_of ho), Op.bind_ok _ (followSelect_apply ..)]
          simp [hsel, needOk_ok, outcome, Op.pure_apply]
        · have := (Leaves.ofRun (t := .write (reqCode false false a) v) rfl hrun).withMir (m' := l'.mir.holdSelect v)
          simpa [talkWriteDp, hsel, hhas, hrun.mir] using this
    · simp only [talkWriteDp, if_neg hsel] at h
      obtain ⟨b1, ht, hb⟩ := Answered.single h
      obtain ⟨l', ho, hrun⟩ := transferRetry_write rest (reqRead_reqCode false false a) ht l hb
      refine ⟨l', ?_, ?_⟩
      · rw [if_neg (by simp [hsel]), Op.bind_ok _ (logical_of ho), Op.bind_ok _ (followSelect_apply ..)]
        simp [hsel, needOk_ok, outcome, Op.pure_apply]
      · simpa [talkWriteDp, hsel] using Leaves.ofRun (t := .write (reqCode false false a) v) rfl hrun
  · intro l e rest x h
    rw [writeDp_apply v s l ha]
    by_cases hsel : a = s.cfg.dpSelect ∧ l.mir.hasSelect v = true
    · simp only [talkWriteDp, if_pos hsel.1, hsel.2, if_true] at h
      exact h.elim
    · have h' : Broken s.cfg [.write (reqCode false false a) v] l.wire.lineIn e rest x := by
        simp only [talkWriteDp] at h
        by_cases h1 : a = s.cfg.dpSelect
        · simpa [h1, show l.mir.hasSelect v = false by simpa [h1] using hsel] using h
        · simpa [h1] using h
      obtain ⟨b1, ht, hb⟩ := Broken.single h'
      obtain ⟨d, l', ho, hx, hcut, _⟩ := logical_failed hc.retry (.inl ⟨rfl, reqRead_reqCode false false a⟩) ht l hb
      rw [if_neg hsel, Op.bind_ok _ ho, Op.bind_ok _ (followSelect_apply ..), needOk_fail d hx]
      refine ⟨_, rfl, ?_⟩
      simp only [State.setLink_link]
      split
      · exact hcut.withMir
      · exact hcut

theorem follows_selectAp {s : State} {apaddr : Word} (hc : Legal s.cfg) :
    Follows s (selectAp apaddr) (talkSelect s.cfg apaddr) () s :=
  Follows.get (fun _ => rfl) (follows_writeDp hc hc.select)

theorem follows_drain {s : State} {d : Word} (hc : Legal s.cfg) :
    Follows s drain (Talk.say [.read (reqCode false true s.cfg.dpRdbuff) d]) d s :=
  Follows.get (fun _ => rfl) (follows_read s false _ d 0 hc.retry)

/-- A drain whose data is discarded, with what follows it. -/
theorem follows_drainAny {β : Type} {s s2 : State} {k : Word → Op β} {tk : Talk} {v : β} (hc : Legal s.cfg)
    (hk : ∀ d, Follows s (k d) tk v s2) : Follows s (drain >>= k) ((Talk.say [drainTurn s.cfg]).andThen tk) v s2 := by
  have h := follows_readAny (s := s) false s.cfg.dpRdbuff 0 hc.retry hk
  rw [drain, Op.get_assoc]
  exact Follows.get (fun _ => rfl) h

theorem follows_readAp {s : State} {a d : Word} (hc : Legal s.cfg) (ha : apAddrOk a = true) :
    Follows s (readAp a) (talkReadAp s.cfg a d) d s := by
  rw [readAp, Op.require_bind ha]
  exact (follows_selectAp hc).bind rfl (follows_readAny true a 0 hc.retry (fun _ => follows_drain hc))

/-- `followCsw` at a link (R166). -/
theorem followCsw_apply (a v : Word) (r : AckResult) (s : State) (l : Link) :
    followCsw a v r (s.setLink l) = .ok () (s.setLink
      (if isCsw s.cfg a = true then l.setMir (if r = .ok then l.mir.holdCsw (apselOf a) v else l.mir.dropCsw)
        else l)) := by
  rw [followCsw, Op.get_bind, Op.ite_apply]
  by_cases h : isCsw s.cfg a = true <;> simp only [State.setLink_cfg, h, if_true, if_false] <;> rfl

/-- The AP write and its drain, when both end OK (R166). -/
theorem apWriteDrain_ok {s : State} {a v : Word} {l : Link} {e rest}
    (h : Answered s.cfg [.write (reqCode true false a) v, drainTurn s.cfg] l.wire.lineIn e rest) :
    ∃ l', apWriteDrain a v (s.setLink l) = .ok .ok (s.setLink l')
      ∧ Leaves l l' ([.write (reqCode true false a) v, drainTurn s.cfg], l.mir) e rest := by
  obtain ⟨e1, mid, e2, h1, rfl, h2⟩ := Answered.append (ts := [_]) h
  obtain ⟨b1, ht, hb⟩ := Answered.single h1
  obtain ⟨l1, ho, hrun⟩ := transferRetry_write mid (reqRead_reqCode true false a) ht l hb
  have hl := Leaves.ofRun (t := .write (reqCode true false a) v) rfl hrun
  obtain ⟨b2, ⟨d, ht2⟩, hb2⟩ := Answered.single h2
  obtain ⟨l2, ho2, hrun2⟩ :=
    transferRetry_read rest 0 (reqRead_reqCode false true s.cfg.dpRdbuff) ht2 l1 (by rw [hl.levels]; exact hb2)
  have hl2 := Leaves.ofRun (t := drainTurn s.cfg) rfl hrun2
  refine ⟨l2, ?_, ?_⟩
  · rw [apWriteDrain, Op.bind_ok _ (logical_of ho)]
    simp only [if_true]
    rw [Op.get_bind]
    exact Op.bind_ok _ (logical_of ho2)
  · have := hl.trans hl2
    rwa [hl.mirror] at this

/-- The AP write and its drain, when one of them does not end OK (R166). -/
theorem apWriteDrain_fail {s : State} {a v : Word} {l : Link} {e rest x} (hc : Legal s.cfg)
    (h : Broken s.cfg [.write (reqCode true false a) v, drainTurn s.cfg] l.wire.lineIn e rest x) :
    ∃ l', apWriteDrain a v (s.setLink l) = .ok x (s.setLink l') ∧ x ≠ .ok ∧ CutShort l l' e rest x := by
  rcases Broken.append (ts := [_]) h with h1 | ⟨e1, mid, e2, h1, rfl, h2⟩
  · obtain ⟨b1, ht, hb⟩ := Broken.single h1
    obtain ⟨d, l', ho, hx, hcut, _⟩ := logical_failed hc.retry (.inl ⟨rfl, reqRead_reqCode true false a⟩) ht l hb
    refine ⟨l', ?_, hx, hcut⟩
    rw [apWriteDrain, Op.bind_ok _ ho]
    simp only [if_neg hx]; rfl
  · obtain ⟨b1, ht, hb⟩ := Answered.single h1
    obtain ⟨l1, ho, hrun⟩ := transferRetry_write mid (reqRead_reqCode true false a) ht l hb
    have hl := Leaves.ofRun (t := .write (reqCode true false a) v) rfl hrun
    obtain ⟨b2, ht2, hb2⟩ := Broken.single h2
    obtain ⟨d, l2, ho2, hx, hcut, _⟩ := logical_failed (w := 0) hc.retry
      (.inr ⟨.inr rfl, reqRead_reqCode false true s.cfg.dpRdbuff⟩) ht2 l1 (by rw [hl.levels]; exact hb2)
    refine ⟨l2, ?_, hx, hl.cutShort hcut⟩
    rw [apWriteDrain, Op.bind_ok _ (logical_of ho)]
    simp only [if_true]
    rw [Op.get_bind]
    exact Op.bind_ok _ ho2

/-- The part of `WRITE_AP` after the select (R166). -/
def writeApReg (a v : Word) : Op Unit := do
  let s ← get
  if isCsw s.cfg a = true ∧ s.link.mir.hasCsw (apselOf a) v = true then pure ()
  else
    let r ← apWriteDrain a v
    followCsw a v r
    if r = .ok then pure () else throw .ack

theorem writeApReg_apply (a v : Word) (s : State) (l : Link) :
    writeApReg a v (s.setLink l) =
      if isCsw s.cfg a = true ∧ l.mir.hasCsw (apselOf a) v = true then .ok () (s.setLink l)
      else (apWriteDrain a v >>= fun r => followCsw a v r >>= fun _ => if r = .ok then pure () else throw .ack)
        (s.setLink l) := by
  rw [writeApReg, Op.get_bind]
  exact Op.ite_apply _ _ _ _

theorem follows_writeApReg {s : State} {a v : Word} (hc : Legal s.cfg) :
    Follows s (writeApReg a v) (talkApReg s.cfg a v) () s := by
  constructor
  · intro l e rest h
    rw [writeApReg_apply]
    by_cases hcsw : isCsw s.cfg a = true
    · cases hhas : l.mir.hasCsw (apselOf a) v with
      | true =>
        simp only [talkApReg, if_pos hcsw, hhas, if_true] at h
        obtain ⟨rfl, rfl⟩ := h
        refine ⟨l, by simp [hcsw, outcome], ?_⟩
        simpa [talkApReg, hcsw, hhas, Mirror.holdCsw_of_has hhas] using Leaves.nothing l
      | false =>
        simp only [talkApReg, if_pos hcsw, hhas] at h
        obtain ⟨l', ho, hl⟩ := apWriteDrain_ok h
        refine ⟨l'.setMir (l'.mir.holdCsw (apselOf a) v), ?_, ?_⟩
        · rw [if_neg (by simp), Op.bind_ok _ ho, Op.bind_ok _ (followCsw_apply ..)]
          simp [hcsw, outcome, Op.pure_apply]
        · have := hl.withMir (m' := l'.mir.holdCsw (apselOf a) v)
          simpa [talkApReg, hcsw, hhas, hl.mirror] using this
    · simp only [talkApReg, if_neg hcsw] at h
      obtain ⟨l', ho, hl⟩ := apWriteDrain_ok h
      refine ⟨l', ?_, ?_⟩
      · rw [if_neg (by simp [hcsw]), Op.bind_ok _ ho, Op.bind_ok _ (followCsw_apply ..)]
        simp [hcsw, outcome, Op.pure_apply]
      · simpa [talkApReg, hcsw] using hl
  · intro l e rest x h
    rw [writeApReg_apply]
    by_cases hcsw : isCsw s.cfg a = true ∧ l.mir.hasCsw (apselOf a) v = true
    · simp only [talkApReg, if_pos hcsw.1, hcsw.2, if_true] at h
      exact h.elim
    · have h' : Broken s.cfg [.write (reqCode true false a) v, drainTurn s.cfg] l.wire.lineIn e rest x := by
        simp only [talkApReg] at h
        by_cases h1 : isCsw s.cfg a = true
        · simpa [h1, show l.mir.hasCsw (apselOf a) v = false by simpa [h1] using hcsw] using h
        · simpa [h1] using h
      obtain ⟨l', ho, hx, hcut⟩ := apWriteDrain_fail hc h'
      rw [if_neg hcsw, Op.bind_ok _ ho, Op.bind_ok _ (followCsw_apply ..)]
      simp only [if_neg hx]
      refine ⟨_, rfl, ?_⟩
      simp only [State.setLink_link]
      split
      · exact hcut.withMir
      · exact hcut

theorem follows_writeAp {s : State} {a v : Word} (hc : Legal s.cfg) (ha : apAddrOk a = true) :
    Follows s (writeAp a v) (talkWriteAp s.cfg a v) () s := by
  have : writeAp a v = (selectAp a >>= fun _ => writeApReg a v) := by rw [writeAp, Op.require_bind ha]; rfl
  rw [this]
  exact (follows_selectAp hc).bind rfl (follows_writeApReg hc)

end Sys2Proof.Machine
end

