-- ==== Sys2Proof/Laws/FollowMemory.lean ====
section
/-! SUPPORT. Each memory operation of U2 follows its dialogue (R184 to R206). -/

namespace Sys2Proof.Machine

/-! ### Single transfers -/

theorem follows_setMode {s : State} {mode : Cfg → Word} (hc : Legal s.cfg) :
    Follows s (setMode mode) (talkWriteAp s.cfg (memAp s.cfg s.cfg.apCsw) (mode s.cfg)) () s :=
  Follows.get (fun _ => rfl) (follows_writeAp hc hc.csw)

theorem follows_setAddr {s : State} {a : Word} (hc : Legal s.cfg) :
    Follows s (setAddr a) (talkWriteAp s.cfg (memAp s.cfg s.cfg.apTar) a) () s :=
  Follows.get (fun _ => rfl) (follows_writeAp hc hc.tar)

theorem follows_readDrw {s : State} {d : Word} (hc : Legal s.cfg) :
    Follows s readDrw (talkReadAp s.cfg (memAp s.cfg s.cfg.apDrw) d) d s :=
  Follows.get (fun _ => rfl) (follows_readAp hc hc.drw)

theorem follows_writeDrw {s : State} {v : Word} (hc : Legal s.cfg) :
    Follows s (writeDrw v) (talkWriteAp s.cfg (memAp s.cfg s.cfg.apDrw) v) () s :=
  Follows.get (fun _ => rfl) (follows_writeAp hc hc.drw)

theorem follows_selectDrw {s : State} (hc : Legal s.cfg) :
    Follows s selectDrw (talkSelect s.cfg (memAp s.cfg s.cfg.apDrw)) () s :=
  Follows.get (fun _ => rfl) (follows_selectAp hc)

/-- The mode and the address, with what follows them (R181). -/
theorem Follows.aim {β : Type} {s s2 : State} {mode : Cfg → Word} {a : Word} {k : Unit → Op β} {tk : Talk} {v : β}
    (hc : Legal s.cfg) (h : Follows s (k ()) tk v s2) :
    Follows s (setMode mode >>= fun _ => setAddr a >>= k) ((talkAim s.cfg (mode s.cfg) a).andThen tk) v s2 := by
  rw [talkAim, Talk.andThen_assoc]
  exact (follows_setMode hc).bind rfl ((follows_setAddr hc).bind rfl h)

theorem follows_readWord {s : State} {a d : Word} (hc : Legal s.cfg) (ha : wordAligned a = true) :
    Follows s (readWord a) (talkReadWord s.cfg a d) d s := by
  rw [readWord, Op.require_bind ha]
  exact Follows.aim hc (follows_readDrw hc)

theorem follows_writeWord {s : State} {a v : Word} (hc : Legal s.cfg) (ha : wordAligned a = true) :
    Follows s (writeWord a v) (talkWriteWord s.cfg a v) () s := by
  rw [writeWord, Op.require_bind ha]
  exact Follows.aim hc (follows_writeDrw hc)

theorem follows_readByte {s : State} {a d : Word} (hc : Legal s.cfg) :
    Follows s (readByte a) (talkReadByte s.cfg a d) (laneByte a d) s := by
  rw [readByte]
  exact Follows.aim hc ((follows_readDrw hc).map rfl (fun _ => rfl))

theorem follows_writeByte {s : State} {a : Word} {b : Byte} (hc : Legal s.cfg) :
    Follows s (writeByte a b) (talkWriteByte s.cfg a b) () s := by
  rw [writeByte]
  exact Follows.aim hc (follows_writeDrw hc)

/-! ### Block transfers -/

/-- The state with that `WORDCNT`. -/
def State.counted (s : State) (k : Nat) : State := s.setLoops { s.loops with wordcnt := BitVec.ofNat 32 k }

theorem Talk.say_cons (t : Turn) (ts : List Turn) : Talk.say (t :: ts) = (Talk.say [t]).andThen (Talk.say ts) := rfl

theorem postedReads_cons (c : Cfg) (d d2 : Word) (ds : List Word) :
    postedReads c (d :: d2 :: ds) = .read (reqCode true true c.apDrw) d :: postedReads c (d2 :: ds) := rfl

theorem follows_apRead {s : State} {d : Word} (hc : Legal s.cfg) :
    Follows s apRead (Talk.say [.read (reqCode true true s.cfg.apDrw) d]) d s :=
  Follows.get (fun _ => rfl) (follows_read s true _ d 0 hc.retry)

theorem follows_apWrite {s : State} {w : Word} (hc : Legal s.cfg) :
    Follows s (apWrite w) (Talk.say [.write (reqCode true false s.cfg.apDrw) w]) () s :=
  Follows.get (fun _ => rfl) ((follows_write s true s.cfg.apDrw w hc.retry).map rfl (fun _ => rfl))

/-- The posted reads of a block (R196, R197). -/
theorem follows_readStream (ds : List Word) : ∀ (s : State) (o : Nat) (d : Word), Legal s.cfg →
    Follows s (readStream ds.length o) (Talk.say (postedReads s.cfg (d :: ds))) ()
      ((s.counted 0).setBuf (storeWords s.buf o (d :: ds))) := by
  induction ds with
  | nil =>
    intro s o d hc
    refine Follows.after (s1 := s.counted 0) (fun _ => rfl) rfl ?_
    exact Follows.map (follows_drain (s := s.counted 0) hc) rfl (fun _ => rfl)
  | cons d2 ds ih =>
    intro s o d hc
    rw [postedReads_cons, Talk.say_cons]
    refine Follows.after (s1 := s.counted (ds.length + 1)) (fun _ => rfl) rfl ?_
    refine Follows.bind (follows_apRead (s := s.counted (ds.length + 1)) hc) rfl ?_
    refine Follows.after (s1 := (s.counted (ds.length + 1)).setBuf (s.buf.writeWord o d)) (fun _ => rfl) rfl ?_
    exact ih ((s.counted (ds.length + 1)).setBuf (s.buf.writeWord o d)) (o + 4) d2 hc

/-- The writes of a block and the drain after the last (R200). -/
theorem follows_writeStream (src : Nat → Byte) : ∀ (n : Nat) (s : State) (o : Nat), Legal s.cfg →
    Follows s (writeStream src n o)
      (Talk.say ((wordsAt src n o).map (Turn.write (reqCode true false s.cfg.apDrw)) ++ [drainTurn s.cfg])) ()
      (s.counted 0) := by
  intro n
  induction n with
  | zero =>
    intro s o hc
    refine Follows.after (s1 := s.counted 0) (fun _ => rfl) rfl ?_
    have := follows_drainAny (s := s.counted 0) hc (fun _ => Follows.pure (s.counted 0) ())
    rw [Talk.andThen_say_nil] at this
    exact this
  | succ n ih =>
    intro s o hc
    rw [wordsAt, List.map_cons, List.cons_append, Talk.say_cons]
    refine Follows.after (s1 := s.counted (n + 1)) (fun _ => rfl) rfl ?_
    refine Follows.bind (follows_apWrite (s := s.counted (n + 1)) hc) rfl ?_
    exact ih (s.counted (n + 1)) (o + 4) hc

/-- The wire part of a block read of the words `ds` (R196). -/
theorem follows_readWords {s : State} {a : Word} {o : Nat} {ds : List Word} (hc : Legal s.cfg) (hd : ds ≠ []) :
    Follows s (readWords a o (4 * ds.length)) (talkReadWords s.cfg a ds) ()
      ((s.counted 0).setBuf (storeWords s.buf o ds)) := by
  obtain ⟨d, ds, rfl⟩ := List.exists_cons_of_ne_nil hd
  have h4 : 4 * (d :: ds).length / 4 = ds.length + 1 := by simp
  rw [readWords, h4]
  refine Follows.aim hc ((follows_selectDrw hc).bind rfl ?_)
  refine Follows.after (s1 := s.counted (ds.length + 1)) (fun _ => rfl) rfl ?_
  rw [Talk.say_cons]
  have hr : Follows (s.counted (ds.length + 1)) (apRead >>= fun _ => readStream (ds.length + 1 - 1) o)
      ((Talk.say [.readAny (reqCode true true s.cfg.apDrw)]).andThen (Talk.say (postedReads s.cfg (d :: ds)))) ()
      ((s.counted 0).setBuf (storeWords s.buf o (d :: ds))) := by
    have h := follows_readAny (s := s.counted (ds.length + 1)) (k := fun _ => readStream ds.length o) true s.cfg.apDrw 0
      hc.retry (fun _ => follows_readStream ds (s.counted (ds.length + 1)) o d hc)
    rw [apRead, Op.get_assoc]
    exact Follows.get (fun _ => rfl) h
  exact hr

/-- The wire part of a block write (R200). -/
theorem follows_writeWords {s : State} {src : Nat → Byte} {a : Word} {o k : Nat} (hc : Legal s.cfg) :
    Follows s (writeWords src a o (4 * k)) (talkWriteWords s.cfg a (wordsAt src k o)) () (s.counted 0) := by
  have h4 : 4 * k / 4 = k := by omega
  rw [writeWords, h4]
  exact Follows.aim hc ((follows_selectDrw hc).bind rfl (follows_writeStream src k s o hc))

/-! ### The walk (R204 to R208) -/

theorem toNat_and_pred_pow {m : Nat} (h4 : 4 ≤ m) (hp : m &&& (m - 1) = 0) (x : Nat) : x &&& (m - 1) = x % m := by
  obtain ⟨k, rfl⟩ := (Nat.and_sub_one_eq_zero_iff_isPowerOfTwo (by omega)).1 hp
  exact Nat.and_two_pow_sub_one_eq_mod x k

theorem four_dvd_pow {m : Nat} (h4 : 4 ≤ m) (hp : m &&& (m - 1) = 0) : 4 ∣ m := by
  obtain ⟨k, rfl⟩ := (Nat.and_sub_one_eq_zero_iff_isPowerOfTwo (by omega)).1 hp
  have : 2 ≤ k := by
    by_contra h
    have : k = 0 ∨ k = 1 := by omega
    rcases this with rfl | rfl <;> simp at h4
  exact ⟨2 ^ (k - 2), by rw [show k = (k - 2) + 2 by omega, pow_add]; simp; omega⟩

theorem wordAligned_iff (a : Word) : wordAligned a = true ↔ a.toNat % 4 = 0 := by
  simp only [wordAligned, decide_eq_true_eq]
  rw [← BitVec.toNat_inj, BitVec.toNat_and]
  show a.toNat &&& 3 = 0 ↔ _
  rw [show (3 : Nat) = 2 ^ 2 - 1 from rfl, Nat.and_two_pow_sub_one_eq_mod]

/-- The pieces of a walk with their dialogues, from the state's `BUF`: what the byte and block operations must do for the
walk to follow them. -/
structure WalkOps {T : Type} (c : Cfg) (byteOp : Word → Nat → Op Unit) (blockOp : Word → Nat → Nat → Op Unit)
    (pc : T → Piece) (fits : T → Prop) (tk : T → Talk) (st : Memory → T → Memory) : Prop where
  byte : ∀ (s : State) (t : T) (a : Word) (o : Nat), s.cfg = c → pc t = .byte a o → fits t →
    ∃ lo, Follows s (byteOp a o) (tk t) () ((s.setBuf (st s.buf t)).setLoops lo)
  block : ∀ (s : State) (t : T) (a : Word) (o k : Nat), s.cfg = c → pc t = .block a o k → 1 ≤ k → fits t →
    ∃ lo, Follows s (blockOp a o (4 * k)) (tk t) () ((s.setBuf (st s.buf t)).setLoops lo)

section Walk

variable {T : Type} {c : Cfg} {byteOp : Word → Nat → Op Unit} {blockOp : Word → Nat → Nat → Op Unit}
  {pc : T → Piece} {fits : T → Prop} {tk : T → Talk} {st : Memory → T → Memory}

theorem setCursor_after (s : State) (a : Word) (o n : Nat) :
    ∃ lo, ∀ l : Link, setCursor a o n (s.setLink l) = .ok () ((s.setLoops lo).setLink l) :=
  ⟨{ s.loops with addrcur := a, bufcur := BitVec.ofNat 32 o, lencur := BitVec.ofNat 32 n }, fun _ => rfl⟩

theorem walkTail_follows (W : WalkOps c byteOp blockOp pc fits tk st) : ∀ (n : Nat) (a : Word) (o : Nat) (xs : List T)
    (s : State), s.cfg = c → xs.map pc = bytePieces n a o → (∀ t ∈ xs, fits t) →
    ∃ lo, Follows s (walkTail byteOp n a o) (Talk.all (xs.map tk)) () ((s.setBuf (xs.foldl st s.buf)).setLoops lo) := by
  intro n
  induction n with
  | zero =>
    intro a o xs s _ hx _
    have : xs = [] := by simpa [bytePieces] using hx
    subst this
    exact ⟨s.loops, Follows.pure s ()⟩
  | succ n ih =>
    intro a o xs s hs hx hf
    obtain ⟨t, ts, rfl⟩ : ∃ t ts, xs = t :: ts := by
      cases xs with
      | nil => simp [bytePieces] at hx
      | cons t ts => exact ⟨t, ts, rfl⟩
    simp only [List.map_cons, bytePieces, List.cons.injEq] at hx
    obtain ⟨lo1, h1⟩ := setCursor_after s a o (n + 1)
    obtain ⟨lo2, h2⟩ := W.byte (s.setLoops lo1) t a o hs hx.1 (hf t (by simp))
    obtain ⟨lo3, h3⟩ := ih (a + 1) (o + 1) ts _
      (show ((((s.setLoops lo1).setBuf (st s.buf t)).setLoops lo2)).cfg = c from hs) hx.2
      (fun u hu => hf u (by simp [hu]))
    exact ⟨lo3, Follows.after h1 rfl (h2.bind rfl h3)⟩

theorem leadCount_zero (a : Word) : leadCount a 0 = 0 := by simp [leadCount]

theorem leadCount_aligned {a : Word} (n : Nat) (h : wordAligned a = true) : leadCount a n = 0 := by
  have := (wordAligned_iff a).1 h
  simp [leadCount, this]

theorem leadCount_succ {a : Word} (n : Nat) (h : wordAligned a = false) :
    leadCount a (n + 1) = leadCount (a + 1) n + 1 := by
  have h0 : ¬ a.toNat % 4 = 0 := by
    intro h1; rw [(wordAligned_iff a).2 h1] at h; exact absurd h (by decide)
  have h1 : (a + 1).toNat % 4 = (a.toNat + 1) % 4 := by
    rw [BitVec.toNat_add]; simp
  unfold leadCount
  omega

theorem walkLead_follows (W : WalkOps c byteOp blockOp pc fits tk st) : ∀ (n : Nat) (a : Word) (o : Nat) (xs : List T)
    (s : State), s.cfg = c → xs.map pc = bytePieces (leadCount a n) a o → (∀ t ∈ xs, fits t) →
    ∃ lo, Follows s (walkLead byteOp n a o) (Talk.all (xs.map tk))
      ⟨a + BitVec.ofNat 32 (leadCount a n), o + leadCount a n, n - leadCount a n⟩
      ((s.setBuf (xs.foldl st s.buf)).setLoops lo) := by
  intro n
  induction n with
  | zero =>
    intro a o xs s _ hx _
    rw [leadCount_zero] at hx ⊢
    have : xs = [] := by simpa [bytePieces] using hx
    subst this
    exact ⟨s.loops, by simpa [walkLead, Talk.all] using Follows.pure s (Cursor.mk a o 0)⟩
  | succ n ih =>
    intro a o xs s hs hx hf
    cases hal : wordAligned a with
    | true =>
      rw [leadCount_aligned _ hal] at hx ⊢
      have : xs = [] := by simpa [bytePieces] using hx
      subst this
      exact ⟨s.loops, by simpa [walkLead, hal, Talk.all] using Follows.pure s (Cursor.mk a o (n + 1))⟩
    | false =>
      rw [leadCount_succ n hal] at hx ⊢
      obtain ⟨t, ts, rfl⟩ : ∃ t ts, xs = t :: ts := by
        cases xs with
        | nil => simp [bytePieces] at hx
        | cons t ts => exact ⟨t, ts, rfl⟩
      simp only [List.map_cons, bytePieces, List.cons.injEq] at hx
      obtain ⟨lo1, h1⟩ := setCursor_after s a o (n + 1)
      obtain ⟨lo2, h2⟩ := W.byte (s.setLoops lo1) t a o hs hx.1 (hf t (by simp))
      obtain ⟨lo3, h3⟩ := ih (a + 1) (o + 1) ts _
        (show ((((s.setLoops lo1).setBuf (st s.buf t)).setLoops lo2)).cfg = c from hs) hx.2
        (fun u hu => hf u (by simp [hu]))
      refine ⟨lo3, ?_⟩
      have hw : walkLead byteOp (n + 1) a o =
          (setCursor a o (n + 1) >>= fun _ => byteOp a o >>= fun _ => walkLead byteOp n (a + 1) (o + 1)) := by
        simp [walkLead, hal]
      rw [hw]
      have hcur : (⟨a + BitVec.ofNat 32 (leadCount (a + 1) n + 1), o + (leadCount (a + 1) n + 1),
          n + 1 - (leadCount (a + 1) n + 1)⟩ : Cursor) =
          ⟨a + 1 + BitVec.ofNat 32 (leadCount (a + 1) n), o + 1 + leadCount (a + 1) n, n - leadCount (a + 1) n⟩ := by
        congr 1
        · rw [Nat.add_comm (leadCount (a + 1) n) 1, BitVec.ofNat_add, BitVec.add_assoc]; rfl
        · omega
        · omega
      rw [hcur]
      exact Follows.after h1 rfl (h2.bind rfl h3)

/-- The block length of the walk, for a legal block size and an aligned address (R204). -/
theorem blockLen_eq {m : Nat} (h4 : 4 ≤ m) (hp : m &&& (m - 1) = 0) (a : Word) (left : Nat) :
    blockLen m a left = min (left / 4 * 4) (m - a.toNat % m) := by
  rw [blockLen, toNat_and_pred_pow h4 hp]

theorem blockLen_words {m : Nat} (h4 : 4 ≤ m) (hp : m &&& (m - 1) = 0) {a : Word} (ha : a.toNat % 4 = 0) {left : Nat}
    (hl : 3 < left) : 4 * (blockLen m a left / 4) = blockLen m a left ∧ 4 ≤ blockLen m a left := by
  rw [blockLen_eq h4 hp]
  obtain ⟨q, rfl⟩ := four_dvd_pow h4 hp
  have h1 : a.toNat % (4 * q) % 4 = 0 := by rw [Nat.mod_mul_right_mod]; exact ha
  have h2 : a.toNat % (4 * q) < 4 * q := Nat.mod_lt _ (by omega)
  omega

theorem walkBlocks_follows (W : WalkOps c byteOp blockOp pc fits tk st) (h4 : 4 ≤ c.blockMax)
    (hp : c.blockMax &&& (c.blockMax - 1) = 0) : ∀ (fuel : Nat) (pf : Nat) (cu : Cursor) (xs : List T) (s : State),
    s.cfg = c → cu.left ≤ fuel → cu.left / 4 * 4 ≤ pf → (3 < cu.left → cu.addr.toNat % 4 = 0) →
    xs.map pc = blockPieces c.blockMax pf cu.addr cu.off (cu.left / 4 * 4) → (∀ t ∈ xs, fits t) →
    ∃ lo, Follows s (walkBlocks blockOp fuel cu) (Talk.all (xs.map tk))
      ⟨cu.addr + BitVec.ofNat 32 (cu.left / 4 * 4), cu.off + cu.left / 4 * 4, cu.left - cu.left / 4 * 4⟩
      ((s.setBuf (xs.foldl st s.buf)).setLoops lo) := by
  intro fuel
  induction fuel with
  | zero =>
    intro pf cu xs s hs hle hpf hal hx hf
    have h0 : cu.left = 0 := by omega
    rw [h0] at hx
    have : xs = [] := by
      cases pf <;> simpa [blockPieces] using hx
    subst this
    refine ⟨s.loops, ?_⟩
    cases cu; simp only at h0; subst h0
    simpa [walkBlocks, Talk.all] using Follows.pure s (Cursor.mk _ _ 0)
  | succ fuel ih =>
    intro pf cu xs s hs hle hpf hal hx hf
    by_cases h3 : cu.left ≤ 3
    · have h0 : cu.left / 4 * 4 = 0 := by omega
      rw [h0] at hx ⊢
      have : xs = [] := by
        cases pf <;> simpa [blockPieces] using hx
      subst this
      refine ⟨s.loops, ?_⟩
      cases cu; simpa [walkBlocks, h3, Talk.all] using Follows.pure s (Cursor.mk _ _ _)
    · obtain ⟨hw4, hge⟩ := blockLen_words h4 hp (hal (by omega)) (show 3 < cu.left by omega)
      have hbl := blockLen_eq h4 hp cu.addr cu.left
      generalize hn : blockLen c.blockMax cu.addr cu.left = n at *
      obtain ⟨pf, rfl⟩ : ∃ q, pf = q + 1 := ⟨pf - 1, by omega⟩
      have hne : ¬ cu.left / 4 * 4 = 0 := by omega
      simp only [blockPieces, if_neg hne, ← hbl] at hx
      obtain ⟨t, ts, rfl⟩ : ∃ t ts, xs = t :: ts := by
        cases xs with
        | nil => simp at hx
        | cons t ts => exact ⟨t, ts, rfl⟩
      simp only [List.map_cons, List.cons.injEq] at hx
      obtain ⟨lo1, h1⟩ := setCursor_after s cu.addr cu.off cu.left
      obtain ⟨lo2, h2⟩ := W.block (s.setLoops lo1) t cu.addr cu.off (n / 4) hs hx.1 (by omega) (hf t (by simp))
      rw [hw4] at h2
      have hleft : cu.left / 4 * 4 - n = (cu.left - n) / 4 * 4 := by omega
      obtain ⟨lo3, h3'⟩ := ih pf ⟨cu.addr + BitVec.ofNat 32 n, cu.off + n, cu.left - n⟩ ts _
        (show ((((s.setLoops lo1).setBuf (st s.buf t)).setLoops lo2)).cfg = c from hs) (by simp; omega)
        (by simp; omega)
        (by
          intro _
          have := hal (by omega)
          simp only [BitVec.toNat_add, BitVec.toNat_ofNat]
          omega)
        (by rw [← hleft]; exact hx.2) (fun u hu => hf u (by simp [hu]))
      refine ⟨lo3, ?_⟩
      have hcur : (⟨cu.addr + BitVec.ofNat 32 (cu.left / 4 * 4), cu.off + cu.left / 4 * 4,
          cu.left - cu.left / 4 * 4⟩ : Cursor) =
          ⟨cu.addr + BitVec.ofNat 32 n + BitVec.ofNat 32 ((cu.left - n) / 4 * 4), cu.off + n + (cu.left - n) / 4 * 4,
            cu.left - n - (cu.left - n) / 4 * 4⟩ := by
        congr 1
        · rw [BitVec.add_assoc, ← BitVec.ofNat_add]; congr 2; omega
        · omega
        · omega
      rw [hcur]
      have hwb : walkBlocks blockOp (fuel + 1) cu = ((MonadState.get : Op State) >>= fun s' =>
          setCursor cu.addr cu.off cu.left >>= fun _ =>
            blockOp cu.addr cu.off (blockLen s'.cfg.blockMax cu.addr cu.left) >>= fun _ =>
              walkBlocks blockOp fuel ⟨cu.addr + BitVec.ofNat 32 (blockLen s'.cfg.blockMax cu.addr cu.left),
                cu.off + blockLen s'.cfg.blockMax cu.addr cu.left,
                cu.left - blockLen s'.cfg.blockMax cu.addr cu.left⟩) := by
        simp only [walkBlocks, if_neg h3]
      rw [hwb]
      refine Follows.get (op := setCursor cu.addr cu.off cu.left >>= fun _ => blockOp cu.addr cu.off n >>= fun _ =>
        walkBlocks blockOp fuel ⟨cu.addr + BitVec.ofNat 32 n, cu.off + n, cu.left - n⟩) ?_ ?_
      · intro l; simp only [State.setLink_cfg, hs, hn]
      · exact Follows.after h1 rfl (h2.bind rfl h3')

theorem Talk.all_append (a b : List Talk) : Talk.all (a ++ b) = (Talk.all a).andThen (Talk.all b) := by
  induction a with
  | nil => exact (Talk.say_nil_andThen _).symm
  | cons t ts ih => simp only [List.cons_append, Talk.all, ih, Talk.andThen_assoc]

/-- The walk follows its pieces (R204, R206, R208). -/
theorem walk_follows (W : WalkOps c byteOp blockOp pc fits tk st) (h4 : 4 ≤ c.blockMax)
    (hp : c.blockMax &&& (c.blockMax - 1) = 0) (addr : Word) (off size : Nat) (xs : List T) (s : State) (hs : s.cfg = c)
    (hx : xs.map pc = walkPieces c.blockMax addr off size) (hf : ∀ t ∈ xs, fits t) :
    ∃ lo, Follows s (walk byteOp blockOp addr off size) (Talk.all (xs.map tk)) ()
      ((s.setBuf (xs.foldl st s.buf)).setLoops lo) := by
  simp only [walkPieces, List.append_assoc] at hx
  obtain ⟨xa, xr, rfl, hxa, hxr⟩ := List.map_eq_append_iff.1 hx
  obtain ⟨xb, xc, rfl, hxb, hxc⟩ := List.map_eq_append_iff.1 hxr
  obtain ⟨lo1, h1⟩ := walkLead_follows W size addr off xa s hs hxa (fun t ht => hf t (by simp [ht]))
  have hlead : 3 < size - leadCount addr size → (addr + BitVec.ofNat 32 (leadCount addr size)).toNat % 4 = 0 := by
    intro h
    unfold leadCount at h ⊢
    simp only [BitVec.toNat_add, BitVec.toNat_ofNat]
    omega
  obtain ⟨lo2, h2⟩ := walkBlocks_follows W h4 hp (size - leadCount addr size)
    ((size - leadCount addr size) / 4 * 4)
    ⟨addr + BitVec.ofNat 32 (leadCount addr size), off + leadCount addr size, size - leadCount addr size⟩ xb
    ((s.setBuf (xa.foldl st s.buf)).setLoops lo1) hs (Nat.le_refl _) (Nat.le_refl _) hlead hxb
    (fun t ht => hf t (by simp [ht]))
  obtain ⟨lo3, h3⟩ := walkTail_follows W (size - leadCount addr size - (size - leadCount addr size) / 4 * 4)
    (addr + BitVec.ofNat 32 (leadCount addr size) + BitVec.ofNat 32 ((size - leadCount addr size) / 4 * 4))
    (off + leadCount addr size + (size - leadCount addr size) / 4 * 4) xc
    ((((s.setBuf (xa.foldl st s.buf)).setLoops lo1).setBuf
      (xb.foldl st (xa.foldl st s.buf))).setLoops lo2) hs
    (by
      rw [hxc, BitVec.add_assoc, ← BitVec.ofNat_add])
    (fun t ht => hf t (by simp [ht]))
  refine ⟨lo3, ?_⟩
  rw [List.map_append, List.map_append, Talk.all_append, Talk.all_append, List.foldl_append, List.foldl_append]
  exact h1.bind rfl (h2.bind rfl h3)

end Walk

/-! ### The general entry points -/

/-- The written walk (R206, R248). -/
theorem follows_writeBytesFrom {s : State} {src : Nat → Byte} {addr : Word} {off size : Nat} (hc : Legal s.cfg) :
    ∃ lo, Follows s (writeBytesFrom src addr off size) (talkWriteBytes s.cfg src addr off size) () (s.setLoops lo) := by
  have W : WalkOps s.cfg (fun a o => writeByte a (src o)) (writeWords src) id (fun _ => True) (talkWritePiece s.cfg src)
      (fun m _ => m) := by
    constructor
    · intro t p a o ht hp _
      subst hp
      exact ⟨t.loops, by
        have h := follows_writeByte (s := t) (a := a) (b := src o) (by rw [ht]; exact hc)
        rw [ht] at h; exact h⟩
    · intro t p a o k ht hp _ _
      subst hp
      exact ⟨_, by
        have h := follows_writeWords (s := t) (src := src) (a := a) (o := o) (k := k) (by rw [ht]; exact hc)
        rw [ht] at h; exact h⟩
  obtain ⟨lo, h⟩ := walk_follows W hc.block hc.blockPow addr off size (walkPieces s.cfg.blockMax addr off size) s rfl
    (by simp) (fun _ _ => trivial)
  refine ⟨lo, ?_⟩
  have hfold : ∀ (xs : List Piece) (m : Memory), xs.foldl (fun m _ => m) m = m := by
    intro xs; induction xs with
    | nil => intro m; rfl
    | cons x xs ih => intro m; exact ih m
  rw [hfold] at h
  exact h

theorem storeWords_length_cons (m : Memory) (o : Nat) (d : Word) (ds : List Word) :
    storeWords m o (d :: ds) = storeWords (m.writeWord o d) (o + 4) ds := rfl

/-- The read walk, `xs` being the pieces with the words the target gives (R204). -/
theorem follows_readWalk {s : State} {addr : Word} {off size : Nat} (hc : Legal s.cfg) (xs : List (Piece × List Word))
    (hx : xs.map Prod.fst = walkPieces s.cfg.blockMax addr off size) (hf : ∀ t ∈ xs, Piece.fits t) :
    ∃ lo, Follows s (walk readByteTo readWords addr off size) (Talk.all (xs.map (talkReadPiece s.cfg))) ()
      ((s.setBuf (xs.foldl storePiece s.buf)).setLoops lo) := by
  have W : WalkOps s.cfg readByteTo readWords Prod.fst Piece.fits (talkReadPiece s.cfg) storePiece := by
    constructor
    · rintro t ⟨p, ds⟩ a o ht hp _
      subst hp
      exact ⟨t.loops, by
        have h := follows_readByte (s := t) (a := a) (d := ds.headD 0) (by rw [ht]; exact hc)
        rw [ht] at h
        exact h.map rfl (fun _ => rfl)⟩
    · rintro t ⟨p, ds⟩ a o k ht hp hk hfit
      subst hp
      have hlen : ds.length = k := hfit
      subst hlen
      exact ⟨_, by
        have h := follows_readWords (s := t) (a := a) (o := o) (ds := ds) (by rw [ht]; exact hc)
          (by intro h0; simp [h0] at hk)
        rw [ht] at h; exact h⟩
  exact walk_follows W hc.block hc.blockPow addr off size xs s rfl hx hf

end Sys2Proof.Machine
end

