-- ==== Sys2Proof/Laws/Footprint.lean ====
section
/-! SUPPORT. What an operation may change, however it ends: the trace only grows, and each operation writes the state its
rules name and nothing else (R141, R180, R344, R381). -/

namespace Sys2Proof.Machine

/-- The pieces of state, besides the link, that an operation may write. -/
structure Touch where
  loops : Bool := false
  ds : Bool := false
  ret : Bool := false
  res0 : Bool := false
  res1 : Bool := false
  buf : Bool := false
  fa : Bool := false
  /-- The reset pin may be pulsed. -/
  pulse : Bool := false

/-- What holds between the states before and after the body of an operation that may write `p`. -/
structure Within (p : Touch) (s t : State) : Prop where
  arg : t.arg = s.arg
  cfg : t.cfg = s.cfg
  descIn : t.descIn = s.descIn
  host : t.host = s.host
  cmdOp : t.cmdOp = s.cmdOp
  cause : t.cause = s.cause
  free : t.free = s.free
  trace : s.link.wire.trace <+: t.link.wire.trace
  clk : t.link.wire.line.clk = s.link.wire.line.clk
  /-- A pulse leaves `nRESET` released (R285). -/
  pulsed : t.link.wire.line.nreset = s.link.wire.line.nreset ∨ t.link.wire.line.nreset = true
  nreset : p.pulse = false → t.link.wire.line.nreset = s.link.wire.line.nreset
  status : t.link.status = { s.link.status with
    ackraw := t.link.status.ackraw, result := t.link.status.result, retryx := t.link.status.retryx }
  idle : s.link.seq.phase = .idle → t.link.seq.phase = .idle
  loops : p.loops = false → t.loops = s.loops
  ds : p.ds = false → t.ds = s.ds
  ret : p.ret = false → t.ret = s.ret
  res0 : p.res0 = false → t.res0 = s.res0
  res1 : p.res1 = false → t.res1 = s.res1
  buf : p.buf = false → t.buf = s.buf
  fa : p.fa = false → t.fa = s.fa

theorem Within.refl (p : Touch) (s : State) : Within p s s := by constructor <;> simp

theorem Within.trans {p : Touch} {s t u : State} (h1 : Within p s t) (h2 : Within p t u) : Within p s u where
  arg := h2.arg.trans h1.arg
  cfg := h2.cfg.trans h1.cfg
  descIn := h2.descIn.trans h1.descIn
  host := h2.host.trans h1.host
  cmdOp := h2.cmdOp.trans h1.cmdOp
  cause := h2.cause.trans h1.cause
  free := h2.free.trans h1.free
  trace := h1.trace.trans h2.trace
  clk := h2.clk.trans h1.clk
  pulsed := by
    rcases h2.pulsed with h | h
    · rw [h]; exact h1.pulsed
    · exact .inr h
  nreset := fun h => (h2.nreset h).trans (h1.nreset h)
  status := by rw [h2.status, h1.status]
  idle := fun h => h2.idle (h1.idle h)
  loops := fun h => (h2.loops h).trans (h1.loops h)
  ds := fun h => (h2.ds h).trans (h1.ds h)
  ret := fun h => (h2.ret h).trans (h1.ret h)
  res0 := fun h => (h2.res0 h).trans (h1.res0 h)
  res1 := fun h => (h2.res1 h).trans (h1.res1 h)
  buf := fun h => (h2.buf h).trans (h1.buf h)
  fa := fun h => (h2.fa h).trans (h1.fa h)

/-- More may be written. -/
theorem Within.weaken {p q : Touch} {s t : State} (h : Within p s t)
    (h1 : q.loops = false → p.loops = false) (h2 : q.ds = false → p.ds = false) (h3 : q.ret = false → p.ret = false)
    (h4 : q.res0 = false → p.res0 = false) (h5 : q.res1 = false → p.res1 = false) (h6 : q.buf = false → p.buf = false)
    (h7 : q.fa = false → p.fa = false) (h8 : q.pulse = false → p.pulse = false) : Within q s t :=
  { h with
    loops := fun k => h.loops (h1 k)
    ds := fun k => h.ds (h2 k)
    ret := fun k => h.ret (h3 k)
    res0 := fun k => h.res0 (h4 k)
    res1 := fun k => h.res1 (h5 k)
    buf := fun k => h.buf (h6 k)
    fa := fun k => h.fa (h7 k)
    nreset := fun k => h.nreset (h8 k) }

/-- A released reset pin stays released. -/
theorem Within.released {p : Touch} {s t : State} (h : Within p s t) (hs : s.link.wire.line.nreset = true) :
    t.link.wire.line.nreset = true := by
  rcases h.pulsed with h | h
  · rw [h, hs]
  · exact h

/-- Nothing but the link. -/
theorem Within.link_only {s t : State} (h : Within {} s t) : t = s.setLink t.link := by
  cases s; cases t
  simp only [State.setLink, State.mk.injEq, true_and]
  exact ⟨h.loops rfl, h.ds rfl, h.ret rfl, h.cmdOp, h.arg, h.res0 rfl, h.res1 rfl, h.cause, h.fa rfl, h.descIn,
    h.buf rfl, h.cfg, h.host, h.free⟩

/-- The state an operation ends in. -/
def finalState {α : Type} : EStateM.Result Cause State α → State
  | .ok _ t => t
  | .error _ t => t

/-- However the operation ends, it has written no more than `p`. -/
def Keeps {α : Type} (p : Touch) (op : Op α) : Prop := ∀ s, Within p s (finalState (op s))

theorem Keeps.pure {α : Type} (p : Touch) (v : α) : Keeps p (Pure.pure v : Op α) := fun s => Within.refl p s

theorem Keeps.throw {α : Type} (p : Touch) (c : Cause) : Keeps p (MonadExcept.throw c : Op α) :=
  fun s => Within.refl p s

theorem Keeps.get (p : Touch) : Keeps p (MonadState.get : Op State) := fun s => Within.refl p s

theorem Keeps.bind {α β : Type} {p : Touch} {x : Op α} {f : α → Op β} (h1 : Keeps p x) (h2 : ∀ a, Keeps p (f a)) :
    Keeps p (x >>= f) := by
  intro s
  have hx := h1 s
  rw [Op.bind_apply]
  cases h : x s with
  | ok a t => rw [h] at hx; exact hx.trans (h2 a t)
  | error c t => rw [h] at hx; exact hx

theorem Keeps.ite {α : Type} {p : Touch} (q : Prop) [Decidable q] {x y : Op α} (h1 : Keeps p x) (h2 : Keeps p y) :
    Keeps p (if q then x else y) := by split <;> assumption

theorem Keeps.weaken {α : Type} {p q : Touch} {x : Op α} (h : Keeps p x)
    (h1 : q.loops = false → p.loops = false := by decide) (h2 : q.ds = false → p.ds = false := by decide)
    (h3 : q.ret = false → p.ret = false := by decide) (h4 : q.res0 = false → p.res0 = false := by decide)
    (h5 : q.res1 = false → p.res1 = false := by decide) (h6 : q.buf = false → p.buf = false := by decide)
    (h7 : q.fa = false → p.fa = false := by decide) (h8 : q.pulse = false → p.pulse = false := by decide) : Keeps q x :=
  fun s => (h s).weaken h1 h2 h3 h4 h5 h6 h7 h8

theorem Keeps.require (p : Touch) (b : Bool) : Keeps p (require b) := by
  unfold Sys2Proof.Machine.require; exact Keeps.ite _ (Keeps.pure p ()) (Keeps.throw p _)

/-! ### The wire -/

/-- What holds between the wires before and after bit operations. -/
structure WireGrows (w w' : Wire) : Prop where
  trace : w.trace <+: w'.trace
  clk : w'.line.clk = w.line.clk
  nreset : w'.line.nreset = w.line.nreset

theorem WireGrows.refl (w : Wire) : WireGrows w w := ⟨List.prefix_rfl, rfl, rfl⟩

theorem WireGrows.trans {a b c : Wire} (h1 : WireGrows a b) (h2 : WireGrows b c) : WireGrows a c :=
  ⟨h1.trace.trans h2.trace, h2.clk.trans h1.clk, h2.nreset.trans h1.nreset⟩

theorem WireGrows.emit (w : Wire) (e : Event) : WireGrows w (w.emit e) := ⟨List.prefix_append _ _, rfl, rfl⟩

theorem WireGrows.consume (w : Wire) : WireGrows w w.consume := by
  unfold Wire.consume; split <;> exact ⟨List.prefix_rfl, rfl, rfl⟩

theorem WireGrows.slot (w : Wire) : WireGrows w w.slot.2 := by
  unfold Wire.slot
  split
  · exact WireGrows.emit _ _
  · exact (WireGrows.consume w).trans (WireGrows.emit _ _)

theorem WireGrows.setDir (w : Wire) (d : Dir) : WireGrows w (w.setDir d) := ⟨List.prefix_rfl, rfl, rfl⟩

theorem WireGrows.setDout (w : Wire) (b : Bool) : WireGrows w (w.setDout b) := ⟨List.prefix_rfl, rfl, rfl⟩

theorem WireGrows.writeBit (w : Wire) (b : Bool) : WireGrows w (w.writeBit b) :=
  (WireGrows.setDout w b).trans (WireGrows.slot _)

theorem WireGrows.clockPulses : ∀ (n : Nat) (w : Wire), WireGrows w (w.clockPulses n)
  | 0, w => WireGrows.refl w
  | n + 1, w => (WireGrows.slot w).trans (WireGrows.clockPulses n _)

theorem WireGrows.writeBits : ∀ (bs : List Bool) (w : Wire), WireGrows w (w.writeBits bs)
  | [], w => WireGrows.refl w
  | b :: bs, w => (WireGrows.writeBit w b).trans (WireGrows.writeBits bs _)

theorem WireGrows.readBits : ∀ (n : Nat) (w : Wire), WireGrows w (w.readBits n).2
  | 0, w => WireGrows.refl w
  | n + 1, w => (WireGrows.slot w).trans (WireGrows.readBits n _)

/-! ### The link -/

/-- What holds between the links before and after a phase of a frame. -/
structure LinkGrows (l l' : Link) : Prop where
  wire : WireGrows l.wire l'.wire
  status : l'.status = { l.status with
    ackraw := l'.status.ackraw, result := l'.status.result, retryx := l'.status.retryx }

theorem LinkGrows.refl (l : Link) : LinkGrows l l := ⟨WireGrows.refl _, by simp⟩

theorem LinkGrows.trans {a b c : Link} (h1 : LinkGrows a b) (h2 : LinkGrows b c) : LinkGrows a c :=
  ⟨h1.wire.trans h2.wire, by rw [h2.status, h1.status]⟩

theorem LinkGrows.start (l : Link) (r : Req) (w : Word) : LinkGrows l (l.start r w) := ⟨WireGrows.refl _, by simp [Link.start]⟩

/-- The pins move, the sequencer counts: the rest is as it was. -/
theorem LinkGrows.moved {l : Link} {w : Wire} (h : WireGrows l.wire w) (q : Seq) : LinkGrows l ((l.setWire w).setSeq q) :=
  ⟨h, rfl⟩

theorem LinkGrows.slotsTo {slot : Link → Link} (h : ∀ l, LinkGrows l (slot l)) (l : Link) (total : Nat) :
    LinkGrows l (l.slotsTo slot total) :=
  Link.slots_induct (P := LinkGrows) LinkGrows.refl (fun _ _ _ => LinkGrows.trans) h _ l

theorem LinkGrows.gapSlot (l : Link) : LinkGrows l l.gapSlot := .moved (WireGrows.slot _) _

theorem LinkGrows.writeBit (l : Link) (b : Bool) (q : Seq) : LinkGrows l ((l.setWire (l.wire.writeBit b)).setSeq q) :=
  .moved (WireGrows.writeBits [b] _) _

theorem LinkGrows.enter (l : Link) (p : Phase) : LinkGrows l (l.enter p) := ⟨WireGrows.refl _, rfl⟩

theorem LinkGrows.setDir (l : Link) (d : Dir) : LinkGrows l (l.setWire (l.wire.setDir d)) := ⟨WireGrows.setDir _ _, rfl⟩

theorem LinkGrows.setResult (l : Link) (x : AckResult) : LinkGrows l (l.setResult x) := ⟨WireGrows.refl _, rfl⟩

theorem LinkGrows.reqPhase (l : Link) (r : Req) : LinkGrows l (l.reqPhase r) :=
  (LinkGrows.moved (WireGrows.setDir _ _) _).trans <|
    (LinkGrows.slotsTo (fun m => LinkGrows.writeBit m _ _) _ 8).trans (.enter _ _)

theorem LinkGrows.trn1Phase (l : Link) (n : Nat) : LinkGrows l (l.trn1Phase n) :=
  (LinkGrows.setDir _ _).trans <| (LinkGrows.slotsTo LinkGrows.gapSlot _ n).trans (.enter _ _)

theorem LinkGrows.ackSample (l : Link) : LinkGrows l l.ackSample :=
  LinkGrows.slotsTo (fun _ => .moved (WireGrows.slot _) _) l 3

theorem LinkGrows.ackPhase (l : Link) (v : Ack) : LinkGrows l (l.ackPhase v) := by
  unfold Link.ackPhase
  cases ackTail v <;> simp only [] <;> (try split) <;> exact ⟨WireGrows.refl _, rfl⟩

theorem LinkGrows.toIdle (l : Link) : LinkGrows l l.toIdle :=
  ⟨(WireGrows.setDout _ _).trans (WireGrows.setDir _ _), rfl⟩

theorem LinkGrows.trn2Phase (l : Link) (n : Nat) : LinkGrows l (l.trn2Phase n) :=
  (LinkGrows.slotsTo LinkGrows.gapSlot l n).trans (.enter _ _)

theorem LinkGrows.wdataPhase (l : Link) : LinkGrows l l.wdataPhase :=
  (LinkGrows.setDir _ _).trans <| (LinkGrows.slotsTo (fun m => LinkGrows.writeBit m _ _) _ 32).trans <|
    (LinkGrows.writeBit _ _ _).trans <| (LinkGrows.setResult _ _).trans (.toIdle _)

theorem LinkGrows.rdataPhase (l : Link) : LinkGrows l l.rdataPhase :=
  (LinkGrows.slotsTo (fun _ => .moved (WireGrows.slot _) _) l 32).trans <|
    (LinkGrows.moved (WireGrows.slot _) _).trans <| (LinkGrows.setResult _ _).trans (.enter _ _)

theorem LinkGrows.trn3Phase (l : Link) (n : Nat) : LinkGrows l (l.trn3Phase n) :=
  (LinkGrows.slotsTo LinkGrows.gapSlot l n).trans (.toIdle _)

theorem LinkGrows.backoffPhase (l : Link) (n : Nat) : LinkGrows l (l.backoffPhase n) :=
  (LinkGrows.slotsTo LinkGrows.gapSlot l (n + 33)).trans (.toIdle _)

theorem LinkGrows.tailPhases (l : Link) (n : Nat) : LinkGrows l (l.tailPhases n) := by
  unfold Link.tailPhases
  split
  · exact (LinkGrows.trn2Phase l n).trans (LinkGrows.wdataPhase _)
  · exact (LinkGrows.rdataPhase l).trans (LinkGrows.trn3Phase _ n)
  · exact LinkGrows.trn3Phase l n
  · exact LinkGrows.backoffPhase l n
  all_goals exact LinkGrows.refl l

theorem LinkGrows.advance (l : Link) (n : Nat) : LinkGrows l (l.advance n) := by
  unfold Link.advance
  split
  · exact LinkGrows.trn1Phase l n
  · exact LinkGrows.trn2Phase l n
  · exact LinkGrows.wdataPhase l
  · exact LinkGrows.rdataPhase l
  · exact LinkGrows.trn3Phase l n
  · exact LinkGrows.backoffPhase l n
  all_goals exact LinkGrows.refl l

theorem LinkGrows.frame (l : Link) (n : Nat) (r : Req) (w : Word) : LinkGrows l (l.frame n r w) :=
  (LinkGrows.start l r w).trans <| (LinkGrows.reqPhase _ r).trans <| (LinkGrows.trn1Phase _ n).trans <|
    (LinkGrows.ackSample _).trans <| (LinkGrows.ackPhase _ _).trans <| LinkGrows.tailPhases _ n

/-- After a whole frame the line is driven high and the sequencer is idle, whatever the line showed (R141, R147). -/
theorem Link.frame_atIdle (l : Link) (n : Nat) (r : Req) (w : Word) : AtIdle (l.frame n r w) := by
  unfold Link.frame
  simp only []
  generalize l.frameHead n r w = h
  unfold Link.ackPhase
  cases ackTail h.seq.acksr <;> simp only []
  · split
    · exact ⟨rfl, rfl, rfl⟩
    · exact ⟨rfl, rfl, rfl⟩
  all_goals exact ⟨rfl, rfl, rfl⟩

theorem retryLoop_grows (n : Nat) (r : Req) (w : Word) : ∀ (k : Nat) (l : Link),
    LinkGrows l (retryLoop n r w k l).2 ∧ AtIdle (retryLoop n r w k l).2
  | 0, l => by
    have h := LinkGrows.frame l n r w
    have hi := Link.frame_atIdle l n r w
    rw [retryLoop_zero]
    generalize l.frame n r w = f at h hi ⊢
    by_cases hx : f.status.result = .wait
    · rw [if_pos hx]
      refine ⟨⟨h.wire, ?_⟩, hi⟩
      show { f.status with retryx := true, result := .fault } = _
      rw [h.status]; rfl
    · rw [if_neg hx]
      exact ⟨⟨h.wire, h.status⟩, hi⟩
  | k + 1, l => by
    have h := LinkGrows.frame l n r w
    have hi := Link.frame_atIdle l n r w
    rw [retryLoop_succ]
    generalize l.frame n r w = f at h hi ⊢
    by_cases hx : f.status.result = .wait
    · rw [if_pos hx]
      have h2 := retryLoop_grows n r w k f.countAttempt
      exact ⟨LinkGrows.trans (b := f.countAttempt) ⟨h.wire, h.status⟩ h2.1, h2.2⟩
    · rw [if_neg hx]
      exact ⟨⟨h.wire, h.status⟩, hi⟩

theorem transferRetry_grows (n retry : Nat) (r : Req) (w : Word) (l : Link) :
    LinkGrows l (transferRetry n retry r w l).2 ∧ AtIdle (transferRetry n retry r w l).2 := by
  have h := retryLoop_grows n r w (retry - 1) l.startRetry
  exact ⟨LinkGrows.trans (b := l.startRetry) ⟨WireGrows.refl _, rfl⟩ h.1, h.2⟩

/-- The mirror and `STATUS.RETRYX` are as they were. -/
def MirrorKept (a b : Link) : Prop := b.mir = a.mir ∧ b.status.retryx = a.status.retryx

theorem MirrorKept.slotsTo {slot : Link → Link} (h : ∀ l, MirrorKept l (slot l)) (l : Link) (total : Nat) :
    MirrorKept l (l.slotsTo slot total) :=
  Link.slots_induct (P := MirrorKept) (fun _ => ⟨rfl, rfl⟩) (fun _ _ _ h1 h2 => ⟨h2.1.trans h1.1, h2.2.trans h1.2⟩) h _ l

/-- A phase leaves the mirror and `STATUS.RETRYX` alone (R140, R141). -/
theorem Link.tailPhases_leaves (l : Link) (n : Nat) :
    (l.tailPhases n).mir = l.mir ∧ (l.tailPhases n).status.retryx = l.status.retryx := by
  have gap : ∀ (m : Link) (k : Nat), MirrorKept m (m.slotsTo Link.gapSlot k) := MirrorKept.slotsTo (fun _ => ⟨rfl, rfl⟩)
  have send : ∀ m : Link, MirrorKept m m.wdataPhase := fun m =>
    MirrorKept.slotsTo (slot := Link.sendSlot (fun _ => true)) (fun _ => ⟨rfl, rfl⟩) (m.setWire (m.wire.setDir .output)) 32
  have receive : MirrorKept l l.rdataPhase := MirrorKept.slotsTo (slot := Link.receiveSlot) (fun _ => ⟨rfl, rfl⟩) l 32
  unfold Link.tailPhases
  split
  · exact ⟨(send _).1.trans (gap l n).1, (send _).2.trans (gap l n).2⟩
  · exact ⟨(gap _ n).1.trans receive.1, (gap _ n).2.trans receive.2⟩
  · exact gap l n
  · exact gap l (n + 33)
  all_goals exact ⟨rfl, rfl⟩

theorem Link.ackPhase_leaves (l : Link) (v : Ack) :
    (l.ackPhase v).mir = l.mir ∧ (l.ackPhase v).status.retryx = l.status.retryx := by
  unfold Link.ackPhase
  cases ackTail v <;> simp only [] <;> (try split) <;> exact ⟨rfl, rfl⟩

theorem MirrorKept.enter {a b : Link} (h : MirrorKept a b) (p : Phase) : MirrorKept a (b.enter p) := h

theorem Link.reqPhase_leaves (l : Link) (r : Req) : MirrorKept l (l.reqPhase r) := by
  unfold Link.reqPhase
  refine MirrorKept.enter ?_ _
  have h := MirrorKept.slotsTo (slot := Link.sendSlot headerCovered) (fun _ => ⟨rfl, rfl⟩)
    ((l.setWire (l.wire.setDir .output)).setSeq (l.seq.startRequest r)) 8
  exact ⟨h.1, h.2⟩

theorem Link.trn1Phase_leaves (l : Link) (n : Nat) : MirrorKept l (l.trn1Phase n) := by
  unfold Link.trn1Phase
  refine MirrorKept.enter ?_ _
  have h := MirrorKept.slotsTo (slot := Link.gapSlot) (fun _ => ⟨rfl, rfl⟩) (l.setWire (l.wire.setDir .input)) n
  exact ⟨h.1, h.2⟩

theorem Link.ackSample_leaves (l : Link) : MirrorKept l l.ackSample :=
  MirrorKept.slotsTo (slot := Link.ackSlot) (fun _ => ⟨rfl, rfl⟩) l 3

theorem Link.frameHead_leaves (l : Link) (n : Nat) (r : Req) (w : Word) : MirrorKept l (l.frameHead n r w) :=
  have h1 := Link.reqPhase_leaves (l.start r w) r
  have h2 := Link.trn1Phase_leaves ((l.start r w).reqPhase r) n
  have h3 := Link.ackSample_leaves (((l.start r w).reqPhase r).trn1Phase n)
  ⟨h3.1.trans (h2.1.trans h1.1), h3.2.trans (h2.2.trans h1.2)⟩

/-- A frame leaves the mirror and `STATUS.RETRYX` alone (R140, R141). -/
theorem Link.frame_leaves (l : Link) (n : Nat) (r : Req) (w : Word) :
    (l.frame n r w).mir = l.mir ∧ (l.frame n r w).status.retryx = l.status.retryx := by
  have hh := Link.frameHead_leaves l n r w
  have e : l.frame n r w = ((l.frameHead n r w).ackPhase (l.frameHead n r w).seq.acksr).tailPhases n := rfl
  rw [e]
  generalize l.frameHead n r w = h at hh ⊢
  have h1 := Link.ackPhase_leaves h h.seq.acksr
  have h2 := Link.tailPhases_leaves (h.ackPhase h.seq.acksr) n
  exact ⟨h2.1.trans (h1.1.trans hh.1), h2.2.trans (h1.2.trans hh.2)⟩

/-- The wait-retry loop leaves the mirror alone (R140, R150). -/
theorem retryLoop_mir (n : Nat) (r : Req) (w : Word) : ∀ (k : Nat) (l : Link), (retryLoop n r w k l).2.mir = l.mir
  | 0, l => by
    have h := (Link.frame_leaves l n r w).1
    rw [retryLoop_zero]
    generalize l.frame n r w = f at h ⊢
    split <;> exact h
  | k + 1, l => by
    have h := (Link.frame_leaves l n r w).1
    rw [retryLoop_succ]
    generalize l.frame n r w = f at h ⊢
    split
    · exact (retryLoop_mir n r w k f.countAttempt).trans h
    · exact h

theorem logical_mir (r : Req) (w : Word) (s : State) : (finalState (logical r w s)).link.mir = s.link.mir :=
  retryLoop_mir s.cfg.turnaround r w (s.cfg.retry - 1) s.link.startRetry

theorem Within.ofLink {p : Touch} {s : State} {l : Link} (h : LinkGrows s.link l)
    (hi : s.link.seq.phase = .idle → l.seq.phase = .idle) : Within p s (s.setLink l) where
  arg := rfl
  cfg := rfl
  descIn := rfl
  host := rfl
  cmdOp := rfl
  cause := rfl
  free := rfl
  trace := h.wire.trace
  clk := h.wire.clk
  pulsed := .inl h.wire.nreset
  nreset := fun _ => h.wire.nreset
  status := h.status
  idle := hi
  loops := fun _ => rfl
  ds := fun _ => rfl
  ret := fun _ => rfl
  res0 := fun _ => rfl
  res1 := fun _ => rfl
  buf := fun _ => rfl
  fa := fun _ => rfl

/-! ### U1 -/

theorem keeps_logical (p : Touch) (r : Req) (w : Word) : Keeps p (logical r w) := by
  intro s
  have h := transferRetry_grows s.cfg.turnaround s.cfg.retry r w s.link
  exact Within.ofLink h.1 (fun _ => h.2.2.2)

theorem keeps_needOk (p : Touch) (x : AckResult × Word) : Keeps p (needOk x) :=
  Keeps.ite _ (Keeps.pure p _) (Keeps.throw p _)

theorem keeps_logicalOk (p : Touch) (r : Req) (w : Word) : Keeps p (logicalOk r w) :=
  (keeps_logical p r w).bind (fun _ => keeps_needOk p _)

theorem keeps_modifyMirror (p : Touch) (f : Mirror → Mirror) : Keeps p (modifyMirror f) :=
  fun _ => Within.ofLink ⟨WireGrows.refl _, rfl⟩ id

theorem keeps_sessionInit (p : Touch) : Keeps p sessionInit := keeps_modifyMirror p _

theorem keeps_readDp (p : Touch) (a : Word) : Keeps p (readDp a) :=
  (Keeps.require p _).bind (fun _ => keeps_logicalOk p _ _)

theorem keeps_followSelect (p : Touch) (a v : Word) (r : AckResult) : Keeps p (followSelect a v r) :=
  (Keeps.get p).bind (fun _ => Keeps.ite _ (keeps_modifyMirror p _) (Keeps.pure p _))

theorem keeps_writeDp (p : Touch) (a v : Word) : Keeps p (writeDp a v) :=
  (Keeps.require p _).bind fun _ => (Keeps.get p).bind fun _ =>
    Keeps.ite _ (Keeps.pure p _) ((keeps_logical p _ _).bind fun _ => (keeps_followSelect p _ _ _).bind fun _ =>
      (keeps_needOk p _).bind fun _ => Keeps.pure p _)

theorem keeps_drain (p : Touch) : Keeps p drain := (Keeps.get p).bind fun _ => keeps_logicalOk p _ _

theorem keeps_selectAp (p : Touch) (a : Word) : Keeps p (selectAp a) := (Keeps.get p).bind fun _ => keeps_writeDp p _ _

theorem keeps_readAp (p : Touch) (a : Word) : Keeps p (readAp a) :=
  (Keeps.require p _).bind fun _ => (keeps_selectAp p a).bind fun _ => (keeps_logicalOk p _ _).bind fun _ =>
    keeps_drain p

theorem keeps_apWriteDrain (p : Touch) (a v : Word) : Keeps p (apWriteDrain a v) :=
  (keeps_logical p _ _).bind fun _ => Keeps.ite _
    ((Keeps.get p).bind fun _ => (keeps_logical p _ _).bind fun _ => Keeps.pure p _) (Keeps.pure p _)

theorem keeps_followCsw (p : Touch) (a v : Word) (r : AckResult) : Keeps p (followCsw a v r) :=
  (Keeps.get p).bind (fun _ => Keeps.ite _ (keeps_modifyMirror p _) (Keeps.pure p _))

theorem keeps_writeAp (p : Touch) (a v : Word) : Keeps p (writeAp a v) :=
  (Keeps.require p _).bind fun _ => (keeps_selectAp p a).bind fun _ => (Keeps.get p).bind fun _ =>
    Keeps.ite _ (Keeps.pure p _) ((keeps_apWriteDrain p _ _).bind fun _ => (keeps_followCsw p _ _ _).bind fun _ =>
      Keeps.ite _ (Keeps.pure p _) (Keeps.throw p _))

/-! ### U2 -/

theorem keeps_setMode (p : Touch) (m : Cfg → Word) : Keeps p (setMode m) := (Keeps.get p).bind fun _ => keeps_writeAp p _ _
theorem keeps_setAddr (p : Touch) (a : Word) : Keeps p (setAddr a) := (Keeps.get p).bind fun _ => keeps_writeAp p _ _
theorem keeps_readDrw (p : Touch) : Keeps p readDrw := (Keeps.get p).bind fun _ => keeps_readAp p _
theorem keeps_writeDrw (p : Touch) (v : Word) : Keeps p (writeDrw v) := (Keeps.get p).bind fun _ => keeps_writeAp p _ _
theorem keeps_selectDrw (p : Touch) : Keeps p selectDrw := (Keeps.get p).bind fun _ => keeps_selectAp p _
theorem keeps_apRead (p : Touch) : Keeps p apRead := (Keeps.get p).bind fun _ => keeps_logicalOk p _ _
theorem keeps_apWrite (p : Touch) (w : Word) : Keeps p (apWrite w) :=
  (Keeps.get p).bind fun _ => (keeps_logicalOk p _ _).bind fun _ => Keeps.pure p _

theorem keeps_readWord (p : Touch) (a : Word) : Keeps p (readWord a) :=
  (Keeps.require p _).bind fun _ => (keeps_setMode p _).bind fun _ => (keeps_setAddr p _).bind fun _ => keeps_readDrw p

theorem keeps_writeWord (p : Touch) (a v : Word) : Keeps p (writeWord a v) :=
  (Keeps.require p _).bind fun _ => (keeps_setMode p _).bind fun _ => (keeps_setAddr p _).bind fun _ => keeps_writeDrw p v

theorem keeps_readByte (p : Touch) (a : Word) : Keeps p (readByte a) :=
  (keeps_setMode p _).bind fun _ => (keeps_setAddr p _).bind fun _ => (keeps_readDrw p).bind fun _ => Keeps.pure p _

theorem keeps_writeByte (p : Touch) (a : Word) (b : Byte) : Keeps p (writeByte a b) :=
  (keeps_setMode p _).bind fun _ => (keeps_setAddr p _).bind fun _ => keeps_writeDrw p _

/-- Changes of the loop registers. -/
theorem keeps_loops (p : Touch) (h : p.loops = true) (f : State → Loops) :
    Keeps p (modifyOp (fun s => s.setLoops (f s))) := by
  intro s; constructor <;> simp [finalState, modifyOp, h]

theorem keeps_setWordcnt (p : Touch) (h : p.loops = true) (n : Nat) : Keeps p (setWordcnt n) := keeps_loops p h _
theorem keeps_setCursor (p : Touch) (h : p.loops = true) (a : Word) (o n : Nat) : Keeps p (setCursor a o n) :=
  keeps_loops p h _
theorem keeps_setPollcnt (p : Touch) (h : p.loops = true) (n : Word) : Keeps p (setPollcnt n) := keeps_loops p h _
theorem keeps_incPollcnt (p : Touch) (h : p.loops = true) : Keeps p incPollcnt := keeps_loops p h _

theorem keeps_buf (p : Touch) (h : p.buf = true) (f : State → Memory) :
    Keeps p (modifyOp (fun s => s.setBuf (f s))) := by
  intro s; constructor <;> simp [finalState, modifyOp, h]

theorem keeps_readStream (p : Touch) (h : p.loops = true) (hb : p.buf = true) : ∀ (n o : Nat), Keeps p (readStream n o)
  | 0, _ => (keeps_setWordcnt p h 0).bind fun _ => (keeps_drain p).bind fun _ => keeps_buf p hb _
  | n + 1, o => (keeps_setWordcnt p h _).bind fun _ => (keeps_apRead p).bind fun _ => (keeps_buf p hb _).bind fun _ =>
    keeps_readStream p h hb n (o + 4)

theorem keeps_writeStream (p : Touch) (h : p.loops = true) (src : Nat → Byte) : ∀ (n o : Nat),
    Keeps p (writeStream src n o)
  | 0, _ => (keeps_setWordcnt p h 0).bind fun _ => (keeps_drain p).bind fun _ => Keeps.pure p _
  | n + 1, o => (keeps_setWordcnt p h _).bind fun _ => (keeps_apWrite p _).bind fun _ =>
    keeps_writeStream p h src n (o + 4)

theorem keeps_readWords (p : Touch) (h : p.loops = true) (hb : p.buf = true) (a : Word) (o n : Nat) :
    Keeps p (readWords a o n) :=
  (keeps_setMode p _).bind fun _ => (keeps_setAddr p _).bind fun _ => (keeps_selectDrw p).bind fun _ =>
    (keeps_setWordcnt p h _).bind fun _ => (keeps_apRead p).bind fun _ => keeps_readStream p h hb _ _

theorem keeps_writeWords (p : Touch) (h : p.loops = true) (src : Nat → Byte) (a : Word) (o n : Nat) :
    Keeps p (writeWords src a o n) :=
  (keeps_setMode p _).bind fun _ => (keeps_setAddr p _).bind fun _ => (keeps_selectDrw p).bind fun _ =>
    keeps_writeStream p h src _ _

theorem keeps_requireRange (p : Touch) (o n : Word) : Keeps p (requireRange o n) :=
  (Keeps.get p).bind fun _ => Keeps.require p _

theorem keeps_readBlock (p : Touch) (h : p.loops = true) (hb : p.buf = true) (a o n : Word) : Keeps p (readBlock a o n) :=
  (Keeps.require p _).bind fun _ => (keeps_requireRange p o n).bind fun _ => keeps_readWords p h hb _ _ _

theorem keeps_writeBlock (p : Touch) (h : p.loops = true) (a o n : Word) : Keeps p (writeBlock a o n) :=
  (Keeps.require p _).bind fun _ => (keeps_requireRange p o n).bind fun _ => (Keeps.get p).bind fun _ =>
    keeps_writeWords p h _ _ _ _

section Walk

variable {p : Touch} {byteOp : Word → Nat → Op Unit} {blockOp : Word → Nat → Nat → Op Unit}

theorem keeps_walkLead (h : p.loops = true) (hb : ∀ a o, Keeps p (byteOp a o)) : ∀ (n : Nat) (a : Word) (o : Nat),
    Keeps p (walkLead byteOp n a o)
  | 0, _, _ => Keeps.pure p _
  | n + 1, a, o => Keeps.ite _ (Keeps.pure p _) ((keeps_setCursor p h _ _ _).bind fun _ => (hb a o).bind fun _ =>
    keeps_walkLead h hb n _ _)

theorem keeps_walkBlocks (h : p.loops = true) (hk : ∀ a o n, Keeps p (blockOp a o n)) : ∀ (fuel : Nat) (c : Cursor),
    Keeps p (walkBlocks blockOp fuel c)
  | 0, _ => Keeps.pure p _
  | n + 1, _ => Keeps.ite _ (Keeps.pure p _) ((Keeps.get p).bind fun _ => (keeps_setCursor p h _ _ _).bind fun _ =>
    (hk _ _ _).bind fun _ => keeps_walkBlocks h hk n _)

theorem keeps_walkTail (h : p.loops = true) (hb : ∀ a o, Keeps p (byteOp a o)) : ∀ (n : Nat) (a : Word) (o : Nat),
    Keeps p (walkTail byteOp n a o)
  | 0, _, _ => Keeps.pure p _
  | n + 1, a, o => (keeps_setCursor p h _ _ _).bind fun _ => (hb a o).bind fun _ => keeps_walkTail h hb n _ _

theorem keeps_walk (h : p.loops = true) (hb : ∀ a o, Keeps p (byteOp a o)) (hk : ∀ a o n, Keeps p (blockOp a o n))
    (a : Word) (o n : Nat) : Keeps p (walk byteOp blockOp a o n) :=
  (keeps_walkLead h hb n a o).bind fun _ => (keeps_walkBlocks h hk _ _).bind fun _ => keeps_walkTail h hb _ _ _

end Walk

theorem keeps_readMemory (p : Touch) (h : p.loops = true) (hb : p.buf = true) (a o n : Word) :
    Keeps p (readMemory a o n) :=
  (keeps_requireRange p o n).bind fun _ => keeps_walk h
    (fun a _ => (keeps_readByte p a).bind fun _ => keeps_buf p hb _) (fun _ _ _ => keeps_readWords p h hb _ _ _) _ _ _

theorem keeps_writeBytesFrom (p : Touch) (h : p.loops = true) (src : Nat → Byte) (a : Word) (o n : Nat) :
    Keeps p (writeBytesFrom src a o n) :=
  keeps_walk h (fun _ _ => keeps_writeByte p _ _) (fun _ _ _ => keeps_writeWords p h src _ _ _) _ _ _

theorem keeps_writeMemory (p : Touch) (h : p.loops = true) (a o n : Word) : Keeps p (writeMemory a o n) :=
  (keeps_requireRange p o n).bind fun _ => (Keeps.get p).bind fun _ => keeps_writeBytesFrom p h _ _ _ _

theorem keeps_pollLoop {p : Touch} (h : p.loops = true) {read : Op Word} (hr : Keeps p read) (done : Word → Bool)
    (c : Cause) : ∀ n, Keeps p (pollLoop read done c n)
  | 0 => hr.bind fun _ => (keeps_incPollcnt p h).bind fun _ => Keeps.ite _ (Keeps.pure p _) (Keeps.throw p _)
  | n + 1 => hr.bind fun _ => (keeps_incPollcnt p h).bind fun _ => Keeps.ite _ (Keeps.pure p _)
    (keeps_pollLoop h hr done c n)

theorem keeps_pollUntil {p : Touch} (h : p.loops = true) {read : Op Word} (hr : Keeps p read) (cap : Nat)
    (done : Word → Bool) (c : Cause) : Keeps p (pollUntil cap read done c) :=
  (keeps_setPollcnt p h 0).bind fun _ => keeps_pollLoop h hr done c _

theorem keeps_readDhcsr (p : Touch) : Keeps p readDhcsr := (Keeps.get p).bind fun _ => keeps_readWord p _

theorem keeps_pollReady (p : Touch) (h : p.loops = true) : Keeps p pollReady :=
  (Keeps.get p).bind fun _ => keeps_pollUntil h (keeps_readDhcsr p) _ _ _

theorem keeps_readCoreReg (p : Touch) (h : p.loops = true) (n : Word) : Keeps p (readCoreReg n) :=
  (Keeps.require p _).bind fun _ => (Keeps.get p).bind fun _ => (keeps_writeWord p _ _).bind fun _ =>
    (keeps_pollReady p h).bind fun _ => keeps_readWord p _

theorem keeps_writeCoreReg (p : Touch) (h : p.loops = true) (n v : Word) : Keeps p (writeCoreReg n v) :=
  (Keeps.require p _).bind fun _ => (Keeps.get p).bind fun _ => (keeps_writeWord p _ _).bind fun _ =>
    (keeps_writeWord p _ _).bind fun _ => keeps_pollReady p h

theorem keeps_writeCoreRegs (p : Touch) (h : p.loops = true) : ∀ l : List (Word × Word), Keeps p (writeCoreRegs l)
  | [] => Keeps.pure p _
  | (n, v) :: rest => (keeps_writeCoreReg p h n v).bind fun _ => keeps_writeCoreRegs p h rest

theorem keeps_ds (p : Touch) (h : p.ds = true) (f : State → Ds) : Keeps p (modifyOp (fun s => s.setDs (f s))) := by
  intro s; constructor <;> simp [finalState, modifyOp, h]

theorem keeps_writeDebugState (p : Touch) (h : p.loops = true) (hd : p.ds = true) : Keeps p writeDebugState :=
  (keeps_ds p hd _).bind fun _ => (Keeps.get p).bind fun _ => (keeps_writeCoreRegs p h _).bind fun _ =>
    (keeps_writeWord p _ _).bind fun _ => (keeps_readDp p _).bind fun _ => Keeps.ite _ (Keeps.throw p _) (Keeps.pure p _)

/-! ### U4 -/

theorem keeps_wireDo (p : Touch) (f : Cfg → Wire → Wire) (h : ∀ c w, WireGrows w (f c w)) : Keeps p (wireDo f) :=
  fun s => Within.ofLink ⟨h s.cfg s.link.wire, rfl⟩ id

theorem keeps_lineReset (p : Touch) : Keeps p lineReset :=
  keeps_wireDo p _ (fun _ _ => (WireGrows.setDir _ _).trans (WireGrows.writeBits _ _))

theorem keeps_resetPulse (p : Touch) (hp : p.pulse = true) : Keeps p resetPulse := by
  refine Keeps.bind ?_ (fun _ => keeps_sessionInit p)
  intro s
  constructor <;> simp [finalState, wireDo, linkOp, Wire.driveReset, Wire.emit, hp]

theorem keeps_lcConnect (p : Touch) : Keeps p lcConnect :=
  (keeps_sessionInit p).bind fun _ => (keeps_lineReset p).bind fun _ =>
    (keeps_wireDo p _ (fun _ _ => (WireGrows.setDir _ _).trans (WireGrows.writeBits _ _))).bind fun _ =>
      (keeps_lineReset p).bind fun _ => (keeps_wireDo p _ (fun _ _ => WireGrows.writeBits _ _)).bind fun _ =>
        (Keeps.get p).bind fun _ => keeps_readDp p _

theorem keeps_lcPowerUp (p : Touch) (h : p.loops = true) : Keeps p lcPowerUp :=
  (Keeps.get p).bind fun _ => (keeps_writeDp p _ _).bind fun _ => (keeps_writeDp p _ _).bind fun _ =>
    (keeps_writeDp p _ _).bind fun _ => keeps_pollUntil h (keeps_readDp p _) _ _ _

theorem keeps_debugEnable (p : Touch) : Keeps p debugEnable := (Keeps.get p).bind fun _ => keeps_writeWord p _ _

theorem keeps_enableDebug (p : Touch) (hp : p.pulse = true) : ∀ n, Keeps p (enableDebug n)
  | 0 => by
    intro s
    have h := keeps_debugEnable p s
    unfold enableDebug
    cases hd : debugEnable s <;> rw [hd] at h <;> exact h
  | n + 1 => by
    intro s
    have h := keeps_debugEnable p s
    have h2 : Keeps p (resetPulse >>= fun _ => enableDebug n) := (keeps_resetPulse p hp).bind fun _ => keeps_enableDebug p hp n
    unfold enableDebug
    cases hd : debugEnable s with
    | ok a t => rw [hd] at h; exact h
    | error c t => rw [hd] at h; exact h.trans (h2 t)

theorem keeps_writeDemcr (p : Touch) (v : Word) : Keeps p (writeDemcr v) := (Keeps.get p).bind fun _ => keeps_writeWord p _ _

theorem keeps_waitHalt (p : Touch) (h : p.loops = true) : Keeps p waitHalt :=
  (Keeps.get p).bind fun _ => keeps_pollUntil h (keeps_readDhcsr p) _ _ _

theorem keeps_softReset (p : Touch) : Keeps p softReset :=
  (Keeps.get p).bind fun _ => (keeps_writeWord p _ _).bind fun _ => keeps_sessionInit p

theorem keeps_resetHaltWith (p : Touch) (h : p.loops = true) (hp : p.pulse = true) {step3 : Op Unit} (h3 : Keeps p step3) :
    Keeps p (resetHaltWith step3) :=
  (Keeps.get p).bind fun _ => (keeps_enableDebug p hp _).bind fun _ => (keeps_writeDemcr p _).bind fun _ => h3.bind fun _ =>
    (keeps_waitHalt p h).bind fun _ => keeps_writeDemcr p _

theorem keeps_resetHalt (p : Touch) (h : p.loops = true) (hp : p.pulse = true) : Keeps p resetHalt :=
  (Keeps.get p).bind fun _ => Keeps.ite _ (keeps_resetHaltWith p h hp (keeps_softReset p))
    (keeps_resetHaltWith p h hp (keeps_resetPulse p hp))

theorem keeps_lcHalt (p : Touch) : Keeps p lcHalt := (Keeps.get p).bind fun _ => keeps_writeWord p _ _

theorem keeps_lcRun (p : Touch) : Keeps p lcRun :=
  (Keeps.get p).bind fun _ => (keeps_writeWord p _ _).bind fun _ => (keeps_writeDp p _ _).bind fun _ => keeps_sessionInit p

/-! ### U3 -/

theorem keeps_requireFa (p : Touch) : Keeps p requireFa := (Keeps.get p).bind fun _ => Keeps.require p _

theorem keeps_harvest (p : Touch) (h : p.loops = true) (hr : p.ret = true) : Keeps p harvest := by
  refine (keeps_readCoreReg p h 0).bind fun _ => Keeps.bind ?_ (fun _ => Keeps.pure p _)
  intro s; constructor <;> simp [finalState, modifyOp, hr]

theorem keeps_faSyscall (p : Touch) (h : p.loops = true) (hd : p.ds = true) (hr : p.ret = true) (e a b c d : Word) :
    Keeps p (faSyscall e a b c d) :=
  (keeps_requireFa p).bind fun _ => (keeps_ds p hd _).bind fun _ => (keeps_writeDebugState p h hd).bind fun _ =>
    Keeps.bind ((Keeps.get p).bind fun _ => keeps_pollUntil h (keeps_readDhcsr p) _ _ _) fun _ => keeps_harvest p h hr

theorem keeps_judgedCall (p : Touch) (h : p.loops = true) (hd : p.ds = true) (hr : p.ret = true) (x : EntryPoint)
    (e a b c d : Word) : Keeps p (judgedCall x e a b c d) :=
  (keeps_faSyscall p h hd hr e a b c d).bind fun _ => (Keeps.get p).bind fun _ =>
    Keeps.ite _ (Keeps.pure p _) (Keeps.throw p _)

theorem keeps_faInit (p : Touch) (h : p.loops = true) (hd : p.ds = true) (hr : p.ret = true) (hf : p.fa = true)
    (hp : p.pulse = true) (b : Word) : Keeps p (faInit b) := by
  refine Keeps.bind ?_ fun _ => (keeps_resetHalt p h hp).bind fun _ =>
    Keeps.bind ((Keeps.get p).bind fun _ => keeps_writeBytesFrom p h _ _ _ _) fun _ => (Keeps.get p).bind fun _ =>
      keeps_judgedCall p h hd hr _ _ _ _ _ _
  intro s; constructor <;> simp [finalState, latchFa, modifyOp, hf]

theorem keeps_faUninit (p : Touch) (h : p.loops = true) (hd : p.ds = true) (hr : p.ret = true) : Keeps p faUninit :=
  (keeps_requireFa p).bind fun _ => (Keeps.get p).bind fun _ =>
    Keeps.ite _ (keeps_judgedCall p h hd hr _ _ _ _ _ _) (Keeps.pure p _)

theorem keeps_res1 (p : Touch) (h : p.res1 = true) (f : State → Word) :
    Keeps p (modifyOp (fun s => s.setRes1 (f s))) := by
  intro s; constructor <;> simp [finalState, modifyOp, h]

theorem keeps_programChunk (p : Touch) (h : p.loops = true) (hd : p.ds = true) (hr : p.ret = true) (h1 : p.res1 = true)
    (a : Word) (o c : Nat) : Keeps p (programChunk a o c) :=
  (Keeps.get p).bind fun _ => Keeps.bind ((Keeps.get p).bind fun _ => keeps_writeBytesFrom p h _ _ _ _) fun _ =>
    (keeps_judgedCall p h hd hr _ _ _ _ _ _).bind fun _ => keeps_res1 p h1 _

theorem keeps_programChunks (p : Touch) (h : p.loops = true) (hd : p.ds = true) (hr : p.ret = true) (h1 : p.res1 = true) :
    ∀ (n : Nat) (a : Word) (o k : Nat), Keeps p (programChunks n a o k)
  | 0, _, _, _ => Keeps.pure p _
  | n + 1, _, _, _ => Keeps.ite _ (Keeps.pure p _) ((Keeps.get p).bind fun _ => (keeps_setCursor p h _ _ _).bind fun _ =>
    (keeps_programChunk p h hd hr h1 _ _ _).bind fun _ => keeps_programChunks p h hd hr h1 n _ _ _)

theorem keeps_faProgramPage (p : Touch) (h : p.loops = true) (hd : p.ds = true) (hr : p.ret = true) (h1 : p.res1 = true)
    (a o n : Word) : Keeps p (faProgramPage a o n) :=
  (keeps_requireFa p).bind fun _ => (keeps_requireRange p o n).bind fun _ => (Keeps.get p).bind fun _ =>
    (Keeps.require p _).bind fun _ => (keeps_res1 p h1 _).bind fun _ => keeps_programChunks p h hd hr h1 _ _ _ _

theorem keeps_faEraseSector (p : Touch) (h : p.loops = true) (hd : p.ds = true) (hr : p.ret = true) (a : Word) :
    Keeps p (faEraseSector a) :=
  (keeps_requireFa p).bind fun _ => (Keeps.get p).bind fun _ => keeps_judgedCall p h hd hr _ _ _ _ _ _

theorem keeps_faEraseChip (p : Touch) (h : p.loops = true) (hd : p.ds = true) (hr : p.ret = true) : Keeps p faEraseChip :=
  (keeps_requireFa p).bind fun _ => (Keeps.get p).bind fun _ => keeps_judgedCall p h hd hr _ _ _ _ _ _

theorem keeps_faVerify (p : Touch) (h : p.loops = true) (hd : p.ds = true) (hr : p.ret = true) (a n c : Word) :
    Keeps p (faVerify a n c) :=
  (keeps_requireFa p).bind fun _ => (Keeps.get p).bind fun _ =>
    Keeps.ite _ (keeps_judgedCall p h hd hr _ _ _ _ _ _) (Keeps.throw p _)

theorem keeps_faSetRdp (p : Touch) (h : p.loops = true) (hd : p.ds = true) (hr : p.ret = true) : Keeps p faSetRdp :=
  (keeps_requireFa p).bind fun _ => (Keeps.get p).bind fun _ =>
    Keeps.ite _ (keeps_judgedCall p h hd hr _ _ _ _ _ _) (Keeps.throw p _)

theorem keeps_faSectorIsBoundary (p : Touch) (a : Word) : Keeps p (faSectorIsBoundary a) :=
  (keeps_requireFa p).bind fun _ => (Keeps.get p).bind fun _ => Keeps.pure p _

end Sys2Proof.Machine
end

