-- ==== Sys2Proof/Laws/FollowRuntime.lean ====
section
/-! SUPPORT. Polls, core registers, the remote call, the lifecycle and the flash runtime follow their dialogues
(R222 to R295). -/

namespace Sys2Proof.Machine

/-! ### Polls -/

/-- The state with that `POLLCNT`. -/
def State.polled (s : State) (k : Nat) : State := s.setLoops (s.loops.polled k)

theorem incPollcnt_polled (s : State) (j : Nat) (l : Link) :
    incPollcnt ((s.polled j).setLink l) = .ok () ((s.polled (j + 1)).setLink l) := by
  show EStateM.Result.ok () _ = EStateM.Result.ok () _
  congr 1
  simp only [State.polled, Loops.polled, State.setLink, State.setLoops, BitVec.ofNat_add]
  rfl

section Polls

variable {read : Op Word} {done : Word → Bool} {timeout : Cause} {tk : Word → Talk}

/-- The body of a poll loop after its read: count, test, and go on or stop. -/
theorem poll_step_done {s : State} {d : Word} {j : Nat} {k : Op Unit}
    (hr : Follows (s.polled j) read (tk d) d (s.polled j)) (hd : done d = true) :
    Follows (s.polled j) (read >>= fun w => incPollcnt >>= fun _ => if done w then pure () else k) (tk d) ()
      (s.polled (j + 1)) := by
  have h : Follows (s.polled j) (incPollcnt >>= fun _ => if done d then (pure () : Op Unit) else k) (Talk.say []) ()
      (s.polled (j + 1)) := by
    rw [if_pos hd]
    exact Follows.after (incPollcnt_polled s j) rfl (Follows.pure _ ())
  have := hr.bind (k := fun w => incPollcnt >>= fun _ => if done w then (pure () : Op Unit) else k) rfl h
  rwa [Talk.andThen_say_nil] at this

theorem pollLoop_follows (ws : List Word) : ∀ (extra : Nat) (s : State) (j : Nat) (last : Word),
    (∀ (j : Nat) (d : Word), Follows (s.polled j) read (tk d) d (s.polled j)) → ws.length ≤ extra →
    (∀ w ∈ ws, done w = false) → done last = true →
    Follows (s.polled j) (pollLoop read done timeout extra) (Talk.all ((ws ++ [last]).map tk)) ()
      (s.polled (j + (ws.length + 1))) := by
  induction ws with
  | nil =>
    intro extra s j last hr _ _ hl
    have h1 : Talk.all (([] ++ [last] : List Word).map tk) = tk last := by simp [Talk.all, Talk.andThen_say_nil]
    rw [h1]
    cases extra with
    | zero => exact poll_step_done (hr j last) hl
    | succ n => exact poll_step_done (hr j last) hl
  | cons w ws ih =>
    intro extra s j last hr hle hf hl
    obtain ⟨n, rfl⟩ : ∃ n, extra = n + 1 := by
      cases extra with
      | zero => simp at hle
      | succ n => exact ⟨n, rfl⟩
    have hw : done w = false := hf w (by simp)
    have h2 := ih n s (j + 1) last hr (by simpa using hle) (fun u hu => hf u (by simp [hu])) hl
    have h3 : Follows (s.polled j) (incPollcnt >>= fun _ => if done w then (pure () : Op Unit) else
        pollLoop read done timeout n) (Talk.all ((ws ++ [last]).map tk)) () (s.polled (j + 1 + (ws.length + 1))) := by
      rw [if_neg (by simp [hw])]
      exact Follows.after (incPollcnt_polled s j) rfl h2
    have h4 := (hr j w).bind
      (k := fun w => incPollcnt >>= fun _ => if done w then (pure () : Op Unit) else pollLoop read done timeout n) rfl h3
    have e : j + 1 + (ws.length + 1) = j + ((w :: ws).length + 1) := by simp; omega
    rw [e] at h4
    exact h4

theorem pollLoop_timeout (ws : List Word) : ∀ (extra : Nat) (s : State) (j : Nat),
    (∀ (j : Nat) (d : Word), Follows (s.polled j) read (tk d) d (s.polled j)) → ws.length = extra + 1 →
    (∀ w ∈ ws, done w = false) →
    EndsAt (s.polled j) (pollLoop read done timeout extra) (Talk.all (ws.map tk)) (.error timeout)
      (s.polled (j + ws.length)) := by
  induction ws with
  | nil => intro extra s j _ h; simp at h
  | cons w ws ih =>
    intro extra s j hr hlen hf
    have hw : done w = false := hf w (by simp)
    cases extra with
    | zero =>
      have : ws = [] := by simpa using hlen
      subst this
      have h3 : EndsAt (s.polled j) (incPollcnt >>= fun _ => if done w then (pure () : Op Unit) else throw timeout)
          (Talk.say []) (.error timeout) (s.polled (j + 1)) := by
        rw [if_neg (by simp [hw])]
        exact EndsAt.after (incPollcnt_polled s j) rfl (EndsAt.silentError (fun _ => rfl))
      exact (hr j w).ends.bind rfl h3
    | succ n =>
      have h2 := ih n s (j + 1) hr (by simpa using hlen) (fun u hu => hf u (by simp [hu]))
      have h3 : EndsAt (s.polled j) (incPollcnt >>= fun _ => if done w then (pure () : Op Unit) else
          pollLoop read done timeout n) (Talk.all (ws.map tk)) (.error timeout) (s.polled (j + 1 + ws.length)) := by
        rw [if_neg (by simp [hw])]
        exact EndsAt.after (incPollcnt_polled s j) rfl h2
      have h4 := (hr j w).ends.bind
        (k := fun w => incPollcnt >>= fun _ => if done w then (pure () : Op Unit) else pollLoop read done timeout n) rfl h3
      have e : j + 1 + ws.length = j + (w :: ws).length := by simp; omega
      rw [e] at h4
      exact h4

theorem pollUntil_follows {s : State} {cap : Nat} {ws : List Word}
    (hr : ∀ (j : Nat) (d : Word), Follows (s.polled j) read (tk d) d (s.polled j)) (h : pollsEnd cap done ws) :
    Follows s (pollUntil cap read done timeout) (Talk.all (ws.map tk)) () (s.polled ws.length) := by
  obtain ⟨front, last, rfl, hlen, hf, hl⟩ := h
  have h1 := pollLoop_follows (timeout := timeout) front (cap - 1) s 0 last hr (by simp at hlen; omega) hf hl
  have e : 0 + (front.length + 1) = (front ++ [last]).length := by simp
  rw [e] at h1
  exact Follows.after (s1 := s.polled 0) (fun _ => rfl) rfl h1

theorem pollUntil_timeout {s : State} {cap : Nat} {ws : List Word}
    (hr : ∀ (j : Nat) (d : Word), Follows (s.polled j) read (tk d) d (s.polled j)) (h : pollsFail cap done ws) :
    EndsAt s (pollUntil cap read done timeout) (Talk.all (ws.map tk)) (.error timeout) (s.polled ws.length) := by
  obtain ⟨hne, hlen, hf⟩ := h
  have hpos : 0 < ws.length := List.length_pos_iff.2 hne
  have h1 := pollLoop_timeout (timeout := timeout) ws (cap - 1) s 0 hr (by omega) hf
  rw [Nat.zero_add] at h1
  exact EndsAt.after (s1 := s.polled 0) (fun _ => rfl) rfl h1

end Polls

theorem follows_readDhcsr {s : State} (hc : Legal s.cfg) (j : Nat) (d : Word) :
    Follows (s.polled j) readDhcsr (talkReadWord s.cfg s.cfg.dhcsr d) d (s.polled j) :=
  Follows.get (fun _ => rfl) (follows_readWord (s := s.polled j) hc hc.dhcsr)

theorem follows_pollReady {s : State} {ws : List Word} (hc : Legal s.cfg)
    (h : pollsEnd s.cfg.regrdyPolls (ready s.cfg) ws) :
    Follows s pollReady (talkPolls s.cfg ws) () (s.polled ws.length) :=
  Follows.get (fun _ => rfl) (pollUntil_follows (done := ready s.cfg) (follows_readDhcsr hc) h)

theorem pollReady_timeout {s : State} {ws : List Word} (hc : Legal s.cfg)
    (h : pollsFail s.cfg.regrdyPolls (ready s.cfg) ws) :
    EndsAt s pollReady (talkPolls s.cfg ws) (.error .regrdyTimeout) (s.polled ws.length) :=
  EndsAt.get (fun _ => rfl) (pollUntil_timeout (done := ready s.cfg) (follows_readDhcsr hc) h)

theorem follows_waitCall {s : State} {ws : List Word} (hc : Legal s.cfg)
    (h : pollsEnd s.cfg.syscallPolls (halted s.cfg) ws) :
    Follows s waitCall (talkPolls s.cfg ws) () (s.polled ws.length) :=
  Follows.get (fun _ => rfl) (pollUntil_follows (done := halted s.cfg) (follows_readDhcsr hc) h)

theorem waitCall_timeout {s : State} {ws : List Word} (hc : Legal s.cfg)
    (h : pollsFail s.cfg.syscallPolls (halted s.cfg) ws) :
    EndsAt s waitCall (talkPolls s.cfg ws) (.error .haltTimeout) (s.polled ws.length) :=
  EndsAt.get (fun _ => rfl) (pollUntil_timeout (done := halted s.cfg) (follows_readDhcsr hc) h)

theorem follows_waitHalt {s : State} {ws : List Word} (hc : Legal s.cfg)
    (h : pollsEnd s.cfg.haltPolls (halted s.cfg) ws) :
    Follows s waitHalt (talkPolls s.cfg ws) () (s.polled ws.length) :=
  Follows.get (fun _ => rfl) (pollUntil_follows (done := halted s.cfg) (follows_readDhcsr hc) h)

theorem waitHalt_timeout {s : State} {ws : List Word} (hc : Legal s.cfg)
    (h : pollsFail s.cfg.haltPolls (halted s.cfg) ws) :
    EndsAt s waitHalt (talkPolls s.cfg ws) (.error .haltTimeout) (s.polled ws.length) :=
  EndsAt.get (fun _ => rfl) (pollUntil_timeout (done := halted s.cfg) (follows_readDhcsr hc) h)

/-! ### Core registers -/

theorem follows_readCoreReg {s : State} {n d : Word} {ws : List Word} (hc : Legal s.cfg) (hn : coreRegOk n = true)
    (h : pollsEnd s.cfg.regrdyPolls (ready s.cfg) ws) :
    Follows s (readCoreReg n) (talkReadCore s.cfg n d ws) d (s.polled ws.length) := by
  rw [readCoreReg, Op.require_bind hn]
  refine Follows.get (op := writeWord s.cfg.dcrsr (selectorRead n) >>= fun _ => pollReady >>= fun _ =>
    readWord s.cfg.dcrdr) (fun _ => rfl) ?_
  refine (follows_writeWord hc hc.dcrsr).bind rfl ?_
  refine (follows_pollReady hc h).bind rfl ?_
  exact follows_readWord (s := s.polled ws.length) hc hc.dcrdr

theorem readCoreReg_timeout {s : State} {n : Word} {ws : List Word} (hc : Legal s.cfg) (hn : coreRegOk n = true)
    (h : pollsFail s.cfg.regrdyPolls (ready s.cfg) ws) :
    EndsAt s (readCoreReg n) ((talkWriteWord s.cfg s.cfg.dcrsr (selectorRead n)).andThen (talkPolls s.cfg ws))
      (.error .regrdyTimeout) (s.polled ws.length) := by
  rw [readCoreReg, Op.require_bind hn]
  refine EndsAt.get (op := writeWord s.cfg.dcrsr (selectorRead n) >>= fun _ => pollReady >>= fun _ =>
    readWord s.cfg.dcrdr) (fun _ => rfl) ?_
  refine (follows_writeWord hc hc.dcrsr).ends.bind rfl ?_
  exact (pollReady_timeout hc h).bindError

theorem follows_writeCoreReg {s : State} {n v : Word} {ws : List Word} (hc : Legal s.cfg) (hn : coreRegOk n = true)
    (h : pollsEnd s.cfg.regrdyPolls (ready s.cfg) ws) :
    Follows s (writeCoreReg n v) (talkWriteCore s.cfg n v ws) () (s.polled ws.length) := by
  rw [writeCoreReg, Op.require_bind hn]
  refine Follows.get (op := writeWord s.cfg.dcrdr v >>= fun _ => writeWord s.cfg.dcrsr (selectorWrite s.cfg n) >>= fun _ =>
    pollReady) (fun _ => rfl) ?_
  refine (follows_writeWord hc hc.dcrdr).bind rfl ?_
  refine (follows_writeWord hc hc.dcrsr).bind rfl ?_
  exact follows_pollReady hc h

theorem writeCoreReg_timeout {s : State} {n v : Word} {ws : List Word} (hc : Legal s.cfg) (hn : coreRegOk n = true)
    (h : pollsFail s.cfg.regrdyPolls (ready s.cfg) ws) :
    EndsAt s (writeCoreReg n v) (talkWriteCore s.cfg n v ws) (.error .regrdyTimeout) (s.polled ws.length) := by
  rw [writeCoreReg, Op.require_bind hn]
  refine EndsAt.get (op := writeWord s.cfg.dcrdr v >>= fun _ => writeWord s.cfg.dcrsr (selectorWrite s.cfg n) >>= fun _ =>
    pollReady) (fun _ => rfl) ?_
  refine (follows_writeWord hc hc.dcrdr).ends.bind rfl ?_
  refine (follows_writeWord hc hc.dcrsr).ends.bind rfl ?_
  exact pollReady_timeout hc h

/-- A list of register loads, each with its ready polls. -/
theorem follows_writeCoreRegs : ∀ (xs : List (Word × Word)) (wss : List (List Word)) (s : State), Legal s.cfg →
    xs.length = wss.length → (∀ x ∈ xs, coreRegOk x.1 = true) →
    (∀ ws ∈ wss, pollsEnd s.cfg.regrdyPolls (ready s.cfg) ws) →
    ∃ lo, Follows s (writeCoreRegs xs) (talkLoads s.cfg (xs.zip wss)) () (s.setLoops lo)
      ∧ ∃ k, lo = { s.loops with pollcnt := k } := by
  intro xs
  induction xs with
  | nil => intro wss s _ _ _ _; exact ⟨s.loops, Follows.pure s (), s.loops.pollcnt, rfl⟩
  | cons x xs ih =>
    intro wss s hc hlen hx hw
    obtain ⟨ws, wss, rfl⟩ : ∃ a b, wss = a :: b := by
      cases wss with
      | nil => simp at hlen
      | cons a b => exact ⟨a, b, rfl⟩
    obtain ⟨lo, h, k, hk⟩ := ih wss (s.polled ws.length) hc (by simpa using hlen) (fun y hy => hx y (by simp [hy]))
      (fun u hu => hw u (by simp [hu]))
    refine ⟨lo, ?_, k, by rw [hk]; rfl⟩
    exact (follows_writeCoreReg hc (hx x (by simp)) (hw ws (by simp))).bind rfl h

theorem loads_ok (d : Ds) : ∀ x ∈ d.loads, coreRegOk x.1 = true := by
  intro x hx
  simp only [Ds.loads, List.mem_cons, List.not_mem_nil, or_false] at hx
  rcases hx with rfl | rfl | rfl | rfl | rfl | rfl | rfl | rfl | rfl <;> rfl

/-- `WRITE_DEBUG_STATE` up to and with its status read; then the sticky test (R232). -/
theorem follows_debugState {s : State} {wss : List (List Word)} {stat : Word} (hc : Legal s.cfg)
    (hw : loadsReady s.cfg wss) :
    ∃ k, (stickySet s.cfg stat = false →
        Follows s writeDebugState (talkDebugState s.cfg (thumbDs s.cfg s.ds) wss stat) ()
          ((s.setDs (thumbDs s.cfg s.ds)).setLoops { s.loops with pollcnt := k })) ∧
      (stickySet s.cfg stat = true →
        EndsAt s writeDebugState (talkDebugState s.cfg (thumbDs s.cfg s.ds) wss stat) (.error .sticky)
          ((s.setDs (thumbDs s.cfg s.ds)).setLoops { s.loops with pollcnt := k })) := by
  obtain ⟨lo, h, k, rfl⟩ := follows_writeCoreRegs (thumbDs s.cfg s.ds).loads wss (s.setDs (thumbDs s.cfg s.ds)) hc
    (by rw [hw.1]; rfl) (loads_ok _) hw.2
  refine ⟨k, ?_, ?_⟩
  · intro hst
    refine Follows.after (s1 := s.setDs (thumbDs s.cfg s.ds)) (fun _ => rfl) rfl ?_
    refine Follows.get (op := writeCoreRegs (thumbDs s.cfg s.ds).loads >>= fun _ =>
      writeWord s.cfg.dhcsr (debugEnableWord s.cfg) >>= fun _ => readDp s.cfg.dpCtrlstat >>= fun w =>
        if stickySet s.cfg w = true then (throw .sticky : Op Unit) else pure ()) (fun _ => rfl) ?_
    refine h.bind rfl ?_
    refine (follows_writeWord (s := (s.setDs (thumbDs s.cfg s.ds)).setLoops _) hc hc.dhcsr).bind rfl ?_
    refine Follows.map (follows_readDp (s := (s.setDs (thumbDs s.cfg s.ds)).setLoops _) hc hc.ctrlstat) rfl ?_
    intro l
    have : ¬ stickySet s.cfg stat = true := by simp [hst]
    exact by rw [Op.ite_apply]; exact if_neg this
  · intro hst
    refine EndsAt.after (s1 := s.setDs (thumbDs s.cfg s.ds)) (fun _ => rfl) rfl ?_
    refine EndsAt.get (op := writeCoreRegs (thumbDs s.cfg s.ds).loads >>= fun _ =>
      writeWord s.cfg.dhcsr (debugEnableWord s.cfg) >>= fun _ => readDp s.cfg.dpCtrlstat >>= fun w =>
        if stickySet s.cfg w = true then (throw .sticky : Op Unit) else pure ()) (fun _ => rfl) ?_
    refine h.ends.bind rfl ?_
    refine (follows_writeWord (s := (s.setDs (thumbDs s.cfg s.ds)).setLoops _) hc hc.dhcsr).ends.bind rfl ?_
    have h2 := (follows_readDp (s := (s.setDs (thumbDs s.cfg s.ds)).setLoops { s.loops with pollcnt := k }) (d := stat)
      hc hc.ctrlstat).ends.bind
      (k := fun w => if stickySet s.cfg w = true then (throw .sticky : Op Unit) else pure ()) (tk2 := Talk.say [])
      (r := .error .sticky) rfl (EndsAt.silentError (fun l => by rw [Op.ite_apply]; exact if_pos hst))
    rw [Talk.andThen_say_nil] at h2
    exact h2

/-! ### The remote call -/

/-- The state of a remote call after its staging. -/
theorem stageCall_apply (e a1 a2 a3 a4 : Word) (s : State) (l : Link) :
    stageCall e a1 a2 a3 a4 (s.setLink l) = .ok () ((s.setDs { s.ds with
      r0 := a1, r1 := a2, r2 := a3, r3 := a4, r9 := s.fa.desc.staticBase, r13 := s.fa.desc.stackPtr,
      r14 := s.fa.desc.bkpt, r15 := e }).setLink l) := rfl

theorem requireFa_apply {s : State} (hv : s.fa.valid = true) (l : Link) :
    requireFa (s.setLink l) = .ok () (s.setLink l) := by
  rw [requireFa, Op.get_bind]; exact require_true hv _

section Call

variable {s : State} {e a1 a2 a3 a4 : Word} {k : Call}

/-- The registers a call stages. -/
abbrev callDs (s : State) (e a1 a2 a3 a4 : Word) : Ds := stagedDs s.cfg s.fa.desc e a1 a2 a3 a4

/-- The start of a call whose sticky bits are clear. -/
theorem follows_start (hc : Legal s.cfg) (hk : k.started s.cfg) :
    ∃ n, Follows (s.setDs { s.ds with
        r0 := a1, r1 := a2, r2 := a3, r3 := a4, r9 := s.fa.desc.staticBase, r13 := s.fa.desc.stackPtr,
        r14 := s.fa.desc.bkpt, r15 := e }) writeDebugState
      (talkDebugState s.cfg (callDs s e a1 a2 a3 a4) k.loads k.stat) ()
      ((s.setDs (callDs s e a1 a2 a3 a4)).setLoops { s.loops with pollcnt := n }) := by
  obtain ⟨n, h, _⟩ := follows_debugState (s := s.setDs { s.ds with
        r0 := a1, r1 := a2, r2 := a3, r3 := a4, r9 := s.fa.desc.staticBase, r13 := s.fa.desc.stackPtr,
        r14 := s.fa.desc.bkpt, r15 := e }) (stat := k.stat) hc hk.1
  exact ⟨n, h hk.2⟩

theorem follows_faSyscall (hc : Legal s.cfg) (hv : s.fa.valid = true) (hk : k.good s.cfg) :
    Follows s (faSyscall e a1 a2 a3 a4) (talkCall s.cfg (callDs s e a1 a2 a3 a4) k) k.r0
      (s.called (callDs s e a1 a2 a3 a4) k) := by
  obtain ⟨n, hs⟩ := follows_start (e := e) (a1 := a1) (a2 := a2) (a3 := a3) (a4 := a4) hc hk.1
  refine Follows.after (requireFa_apply hv) rfl (Follows.after (stageCall_apply e a1 a2 a3 a4 s) rfl ?_)
  rw [talkCall, talkStart, Talk.andThen_assoc]
  refine hs.bind rfl ?_
  refine (follows_waitCall (s := (s.setDs (callDs s e a1 a2 a3 a4)).setLoops _) hc hk.2.1).bind rfl ?_
  refine Follows.map (follows_readCoreReg
    (s := (((s.setDs (callDs s e a1 a2 a3 a4)).setLoops { s.loops with pollcnt := n }).polled k.halt.length)) (d := k.r0)
    hc (by decide) hk.2.2) rfl ?_
  intro l
  rfl

theorem faSyscall_haltTimeout (hc : Legal s.cfg) (hv : s.fa.valid = true) (hk : k.started s.cfg)
    (hh : pollsFail s.cfg.syscallPolls (halted s.cfg) k.halt) :
    EndsAt s (faSyscall e a1 a2 a3 a4) (talkStart s.cfg (callDs s e a1 a2 a3 a4) k) (.error .haltTimeout)
      ((s.setDs (callDs s e a1 a2 a3 a4)).polled k.halt.length) := by
  obtain ⟨n, hs⟩ := follows_start (e := e) (a1 := a1) (a2 := a2) (a3 := a3) (a4 := a4) hc hk
  refine EndsAt.after (requireFa_apply hv) rfl (EndsAt.after (stageCall_apply e a1 a2 a3 a4 s) rfl ?_)
  exact hs.ends.bind rfl
    (waitCall_timeout (s := (s.setDs (callDs s e a1 a2 a3 a4)).setLoops { s.loops with pollcnt := n }) hc hh).bindError

theorem faSyscall_sticky (hc : Legal s.cfg) (hv : s.fa.valid = true) (hw : loadsReady s.cfg k.loads)
    (hst : stickySet s.cfg k.stat = true) :
    ∃ n, EndsAt s (faSyscall e a1 a2 a3 a4) (talkDebugState s.cfg (callDs s e a1 a2 a3 a4) k.loads k.stat)
      (.error .sticky) ((s.setDs (callDs s e a1 a2 a3 a4)).setLoops { s.loops with pollcnt := n }) := by
  obtain ⟨n, _, h⟩ := follows_debugState (s := s.setDs { s.ds with
        r0 := a1, r1 := a2, r2 := a3, r3 := a4, r9 := s.fa.desc.staticBase, r13 := s.fa.desc.stackPtr,
        r14 := s.fa.desc.bkpt, r15 := e }) (stat := k.stat) hc hw
  refine ⟨n, ?_⟩
  refine EndsAt.after (requireFa_apply hv) rfl (EndsAt.after (stageCall_apply e a1 a2 a3 a4 s) rfl ?_)
  exact (h hst).bindError

theorem judge_true {x : EntryPoint} {r : Word} {t : State} (h : retOk t.cfg x r = true) (l : Link) :
    judge x r (t.setLink l) = .ok () (t.setLink l) := by
  rw [judge, Op.get_bind, Op.ite_apply]; exact if_pos h

theorem judge_false {x : EntryPoint} {r : Word} {t : State} (h : retOk t.cfg x r = false) (l : Link) :
    judge x r (t.setLink l) = .error .retval (t.setLink l) := by
  rw [judge, Op.get_bind, Op.ite_apply]; exact if_neg (by simp [h])

/-- A call whose return value is accepted (R247). -/
theorem follows_judgedCall {x : EntryPoint} (hc : Legal s.cfg) (hv : s.fa.valid = true) (hk : k.good s.cfg)
    (hr : retOk s.cfg x k.r0 = true) :
    Follows s (judgedCall x e a1 a2 a3 a4) (talkCall s.cfg (callDs s e a1 a2 a3 a4) k) ()
      (s.called (callDs s e a1 a2 a3 a4) k) :=
  (follows_faSyscall hc hv hk).map rfl (judge_true hr)

/-- A call whose return value is rejected (R247). -/
theorem judgedCall_retval {x : EntryPoint} (hc : Legal s.cfg) (hv : s.fa.valid = true) (hk : k.good s.cfg)
    (hr : retOk s.cfg x k.r0 = false) :
    EndsAt s (judgedCall x e a1 a2 a3 a4) (talkCall s.cfg (callDs s e a1 a2 a3 a4) k) (.error .retval)
      (s.called (callDs s e a1 a2 a3 a4) k) := by
  have h := (follows_faSyscall (e := e) (a1 := a1) (a2 := a2) (a3 := a3) (a4 := a4) hc hv hk).ends.bind
    (k := fun r => judge x r) (tk2 := Talk.say []) (r := .error .retval) rfl (EndsAt.silentError (judge_false hr))
  rw [Talk.andThen_say_nil] at h
  exact h

/-- A failing call fails the operation that makes it (R346). -/
theorem judgedCall_error {x : EntryPoint} {tk : Talk} {c : Cause} {s' : State}
    (h : EndsAt s (faSyscall e a1 a2 a3 a4) tk (.error c) s') : EndsAt s (judgedCall x e a1 a2 a3 a4) tk (.error c) s' :=
  h.bindError

end Call

end Sys2Proof.Machine
end

