-- ==== Sys2Proof/Laws/FollowFlash.lean ====
section
/-! SUPPORT. The lifecycle operations and the operations of the flash runtime follow their dialogues (R248 to R295). -/

namespace Sys2Proof.Machine

/-! ### Lifecycle -/

theorem follows_sessionInit (s : State) : Follows s sessionInit Talk.forget () s :=
  Follows.mirror (f := Mirror.clear) (fun _ => rfl)

/-- Events that OB-SWD makes by itself. -/
theorem Follows.sent {s : State} {op : Op Unit} {es : List Event} {f : Link → Link}
    (h : ∀ l : Link, op (s.setLink l) = .ok () (s.setLink (f l)))
    (hf : ∀ l : Link, (f l).wire.trace = l.wire.trace ++ es ∧ (f l).wire.lineIn = l.wire.lineIn
      ∧ (f l).wire.draws = l.wire.draws ∧ (f l).mir = l.mir ∧ (f l).status = l.status) :
    Follows s op (Talk.say [.sent es]) () s := by
  constructor
  · intro l e rest ha
    obtain ⟨b1, ⟨rfl, rfl⟩, hb⟩ := Answered.single ha
    obtain ⟨h1, h2, h3, h4, h5⟩ := hf l
    refine ⟨f l, h l, ⟨h1, ?_, h3, h4, ?_, ?_, ?_⟩⟩
    · rw [h2]; simpa using hb
    · rw [h5]; simp [Status.moved, Turn.isTransfer]
    · intro h0; simp [Turn.isTransfer] at h0
    · intro h0; simp at h0
  · intro l e rest x hb
    obtain ⟨_, h1, _⟩ := Broken.single hb
    exact h1.elim

theorem Wire.sendBits_eq (w : Wire) (bs : List Bool) :
    w.sendBits bs = w.with { w.line with dir := .output, dout := lastLevel w.line.dout bs } (driven bs) w.lineIn := by
  rw [Wire.sendBits, Wire.writeBits_driven _ _ rfl]; rfl

theorem follows_sendBits {s : State} (g : Cfg → List Bool) :
    Follows s (wireDo (fun c w => w.sendBits (g c))) (Talk.say [.sent (driven (g s.cfg))]) () s :=
  Follows.sent (f := fun l => l.setWire (l.wire.sendBits (g s.cfg))) (fun _ => rfl)
    (fun l => by simp [Wire.sendBits_eq, Wire.with])

theorem follows_lineReset (s : State) : Follows s lineReset (Talk.say [lineResetTurn s.cfg]) () s :=
  follows_sendBits (fun c => List.replicate c.lineResetClocks true)

/-- The second line reset of a connect with the idle clocks after it (R282). -/
theorem follows_resetIdle {β : Type} {s s2 : State} {k : Unit → Op β} {tk : Talk} {v : β}
    (h : Follows s (k ()) tk v s2) :
    Follows s (lineReset >>= fun _ =>
        wireDo (fun c w => w.writeBits (List.replicate c.lineIdleClocks false)) >>= k)
      ((Talk.say [lineResetTurn s.cfg, .sent (driven (List.replicate s.cfg.lineIdleClocks false))]).andThen tk) v s2 := by
  let f : Link → Link := fun l => l.setWire
    ((l.wire.sendBits (List.replicate s.cfg.lineResetClocks true)).writeBits
      (List.replicate s.cfg.lineIdleClocks false))
  have hf : ∀ l : Link, f l = l.setWire (l.wire.with
      { l.wire.line with dir := .output, dout := lastLevel (lastLevel l.wire.line.dout
        (List.replicate s.cfg.lineResetClocks true)) (List.replicate s.cfg.lineIdleClocks false) }
      (driven (List.replicate s.cfg.lineResetClocks true) ++ driven (List.replicate s.cfg.lineIdleClocks false))
      l.wire.lineIn) := by
    intro l
    show l.setWire _ = _
    rw [Wire.sendBits_eq, Wire.writeBits_driven _ _ rfl]
    simp [Wire.with]
  have h1 : ∀ l : Link, (lineReset >>= fun _ =>
        wireDo (fun c w => w.writeBits (List.replicate c.lineIdleClocks false)) >>= k) (s.setLink l)
      = k () (s.setLink (f l)) := fun _ => rfl
  constructor
  · intro l e rest ha
    obtain ⟨e1, mid, e2, ha1, rfl, ha2⟩ := Answered.append ha
    obtain ⟨b1, g1, b2, g2, ⟨rfl, rfl⟩, hb, rfl, b3, g3, b4, g4, ⟨rfl, rfl⟩, hb2, rfl, hb4, rfl⟩ := ha1
    have hlv : (f l).wire.lineIn = mid := by
      rw [hf]; simp [Wire.with, hb, hb2, hb4]
    obtain ⟨l2, ho, hl⟩ := h.ends (f l) e2 rest (by rw [hlv]; exact ha2)
    refine ⟨l2, by rw [h1, ho], ?_⟩
    have hl1 : Leaves l (f l) ([lineResetTurn s.cfg, .sent (driven (List.replicate s.cfg.lineIdleClocks false))], l.mir)
        (driven (List.replicate s.cfg.lineResetClocks true) ++
          (driven (List.replicate s.cfg.lineIdleClocks false) ++ [])) mid := by
      refine ⟨?_, hlv, ?_, ?_, ?_, ?_, ?_⟩
      · rw [hf]; simp [Wire.with]
      · rw [hf]; rfl
      · rw [hf]; rfl
      · rw [hf]; simp [Status.moved, Turn.isTransfer, lineResetTurn]
      · intro h0; simp [Turn.isTransfer] at h0
      · intro h0; simp at h0
    exact hl1.trans hl
  · intro l e rest x hb
    rcases Broken.append hb with hb | ⟨e1, mid, e2, ha1, rfl, ha2⟩
    · rcases hb with ⟨_, h0, _⟩ | ⟨_, _, _, _, _, _, _, ⟨_, h0, _⟩ | ⟨_, _, _, _, _, _, _, h0⟩⟩ <;> exact h0.elim
    · obtain ⟨b1, g1, b2, g2, ⟨rfl, rfl⟩, hb1, rfl, b3, g3, b4, g4, ⟨rfl, rfl⟩, hb2, rfl, hb4, rfl⟩ := ha1
      have hlv : (f l).wire.lineIn = mid := by
        rw [hf]; simp [Wire.with, hb1, hb2, hb4]
      obtain ⟨t, ho, hcut⟩ := h.breaks (f l) e2 rest x (by rw [hlv]; exact ha2)
      refine ⟨t, by rw [h1, ho], ?_⟩
      refine ⟨?_, hcut.levels, hcut.result, hcut.pins⟩
      rw [hcut.trace, hf]; simp [Wire.with]

theorem follows_lcConnect {s : State} {d : Word} (hc : Legal s.cfg) :
    Follows s lcConnect (talkConnect s.cfg d) d s := by
  have h1 : Follows s ((MonadState.get : Op State) >>= fun t => readDp t.cfg.dpIdcode) (talkReadDp s.cfg.dpIdcode d) d s :=
    Follows.get (fun _ => rfl) (follows_readDp hc hc.idcode)
  have h2 := follows_resetIdle (k := fun _ => (MonadState.get : Op State) >>= fun t => readDp t.cfg.dpIdcode) h1
  have e : talkConnect s.cfg d = Talk.forget.andThen ((Talk.say [lineResetTurn s.cfg]).andThen
      ((Talk.say [.sent (driven s.cfg.switchSeq)]).andThen ((Talk.say [lineResetTurn s.cfg,
        .sent (driven (List.replicate s.cfg.lineIdleClocks false))]).andThen (talkReadDp s.cfg.dpIdcode d)))) := rfl
  rw [e]
  refine (follows_sessionInit s).bind rfl ?_
  refine (follows_lineReset s).bind rfl ?_
  refine (follows_sendBits (s := s) (fun c => c.switchSeq)).bind rfl ?_
  exact h2

theorem follows_lcPowerUp {s : State} {ws : List Word} (hc : Legal s.cfg)
    (h : pollsEnd s.cfg.pwrupPolls (powerAcked s.cfg) ws) :
    Follows s lcPowerUp (talkPowerUp s.cfg ws) () (s.polled ws.length) := by
  refine Follows.get (op := writeDp s.cfg.dpAbort s.cfg.abortClear >>= fun _ => writeDp s.cfg.dpSelect 0 >>= fun _ =>
    writeDp s.cfg.dpCtrlstat s.cfg.pwrReq >>= fun _ =>
      pollUntil s.cfg.pwrupPolls (readDp s.cfg.dpCtrlstat) (powerAcked s.cfg) .pwrupTimeout) (fun _ => rfl) ?_
  refine (follows_writeDp hc hc.abort).bind rfl ?_
  refine (follows_writeDp hc hc.select).bind rfl ?_
  refine (follows_writeDp hc hc.ctrlstat).bind rfl ?_
  exact pollUntil_follows (fun j d => follows_readDp (s := s.polled j) hc hc.ctrlstat) h

theorem lcPowerUp_timeout {s : State} {ws : List Word} (hc : Legal s.cfg)
    (h : pollsFail s.cfg.pwrupPolls (powerAcked s.cfg) ws) :
    EndsAt s lcPowerUp (talkPowerUp s.cfg ws) (.error .pwrupTimeout) (s.polled ws.length) := by
  refine EndsAt.get (op := writeDp s.cfg.dpAbort s.cfg.abortClear >>= fun _ => writeDp s.cfg.dpSelect 0 >>= fun _ =>
    writeDp s.cfg.dpCtrlstat s.cfg.pwrReq >>= fun _ =>
      pollUntil s.cfg.pwrupPolls (readDp s.cfg.dpCtrlstat) (powerAcked s.cfg) .pwrupTimeout) (fun _ => rfl) ?_
  refine (follows_writeDp hc hc.abort).ends.bind rfl ?_
  refine (follows_writeDp hc hc.select).ends.bind rfl ?_
  refine (follows_writeDp hc hc.ctrlstat).ends.bind rfl ?_
  exact pollUntil_timeout (fun j d => follows_readDp (s := s.polled j) hc hc.ctrlstat) h

theorem follows_resetPulse (s : State) : Follows s resetPulse talkPulse () s := by
  have h : Follows s (wireDo (fun _ w => (w.driveReset false .resetAssert).driveReset true .resetRelease))
      (Talk.say [pulseTurn]) () s :=
    Follows.sent (f := fun l => l.setWire ((l.wire.driveReset false .resetAssert).driveReset true .resetRelease))
      (fun _ => rfl) (fun l => by simp [Wire.driveReset, Wire.emit])
  exact h.bind rfl (follows_sessionInit s)

theorem follows_softReset {s : State} (hc : Legal s.cfg) : Follows s softReset (talkSoftReset s.cfg) () s := by
  refine Follows.get (op := writeWord s.cfg.aircr s.cfg.aircrReset >>= fun _ => sessionInit) (fun _ => rfl) ?_
  exact (follows_writeWord hc hc.aircr).bind rfl (follows_sessionInit s)

theorem follows_debugEnable {s : State} (hc : Legal s.cfg) : Follows s debugEnable (talkEnable s.cfg) () s :=
  Follows.get (fun _ => rfl) (follows_writeWord hc hc.dhcsr)

/-- Step 1 when the first write succeeds (R286). -/
theorem enableDebug_ends {s : State} (hc : Legal s.cfg) (n : Nat) :
    EndsAt s (enableDebug n) (talkEnable s.cfg) (.ok ()) s := by
  intro l e rest ha
  obtain ⟨l', ho, hl⟩ := (follows_debugEnable hc).ends l e rest ha
  refine ⟨l', ?_, hl⟩
  cases n <;> simp only [enableDebug, ho, outcome]

theorem follows_writeDemcr {s : State} {v : Word} (hc : Legal s.cfg) :
    Follows s (writeDemcr v) (talkWriteWord s.cfg s.cfg.demcr v) () s :=
  Follows.get (fun _ => rfl) (follows_writeWord hc hc.demcr)

theorem resetHaltWith_ends {s : State} {step3 : Op Unit} {tk3 : Talk} {ws : List Word} (hc : Legal s.cfg)
    (h3 : EndsAt s step3 tk3 (.ok ()) s) (h : pollsEnd s.cfg.haltPolls (halted s.cfg) ws) :
    EndsAt s (resetHaltWith step3) (talkResetHaltWith s.cfg tk3 ws) (.ok ()) (s.polled ws.length) := by
  refine EndsAt.get (op := enableDebug (s.cfg.debugenRetries - 1) >>= fun _ => writeDemcr (bitMask s.cfg.vcCorereset) >>=
    fun _ => step3 >>= fun _ => waitHalt >>= fun _ => writeDemcr 0) (fun _ => rfl) ?_
  refine (enableDebug_ends hc _).bind rfl ?_
  refine (follows_writeDemcr hc).ends.bind rfl ?_
  refine h3.bind rfl ?_
  refine (follows_waitHalt hc h).ends.bind rfl ?_
  exact (follows_writeDemcr (s := s.polled ws.length) hc).ends

theorem resetHaltWith_timeout {s : State} {step3 : Op Unit} {tk3 : Talk} {ws : List Word} (hc : Legal s.cfg)
    (h3 : EndsAt s step3 tk3 (.ok ()) s) (h : pollsFail s.cfg.haltPolls (halted s.cfg) ws) :
    EndsAt s (resetHaltWith step3)
      ((talkEnable s.cfg).andThen ((talkWriteWord s.cfg s.cfg.demcr (bitMask s.cfg.vcCorereset)).andThen
        (tk3.andThen (talkPolls s.cfg ws)))) (.error .haltTimeout) (s.polled ws.length) := by
  refine EndsAt.get (op := enableDebug (s.cfg.debugenRetries - 1) >>= fun _ => writeDemcr (bitMask s.cfg.vcCorereset) >>=
    fun _ => step3 >>= fun _ => waitHalt >>= fun _ => writeDemcr 0) (fun _ => rfl) ?_
  refine (enableDebug_ends hc _).bind rfl ?_
  refine (follows_writeDemcr hc).ends.bind rfl ?_
  refine h3.bind rfl ?_
  exact (waitHalt_timeout hc h).bindError

theorem resetHalt_ends {s : State} {ws : List Word} (hc : Legal s.cfg)
    (h : pollsEnd s.cfg.haltPolls (halted s.cfg) ws) :
    EndsAt s resetHalt (talkResetHalt s.cfg ws) (.ok ()) (s.polled ws.length) := by
  refine EndsAt.get (op := if s.cfg.softReset = true then lcSoftResetHalt else lcResetHalt) (fun _ => rfl) ?_
  unfold talkResetHalt
  cases s.cfg.softReset with
  | true => exact resetHaltWith_ends hc (follows_softReset hc).ends h
  | false => exact resetHaltWith_ends hc (follows_resetPulse s).ends h

theorem follows_lcHalt {s : State} (hc : Legal s.cfg) :
    Follows s lcHalt (talkWriteWord s.cfg s.cfg.dhcsr (debugEnableWord s.cfg ||| bitMask s.cfg.cHalt)) () s :=
  Follows.get (fun _ => rfl) (follows_writeWord hc hc.dhcsr)

theorem follows_lcRun {s : State} (hc : Legal s.cfg) :
    Follows s lcRun ((talkWriteWord s.cfg s.cfg.dhcsr s.cfg.dbgkey).andThen
      ((talkWriteDp s.cfg s.cfg.dpCtrlstat 0).andThen Talk.forget)) () s := by
  refine Follows.get (op := writeWord s.cfg.dhcsr s.cfg.dbgkey >>= fun _ => writeDp s.cfg.dpCtrlstat 0 >>= fun _ =>
    sessionInit) (fun _ => rfl) ?_
  exact (follows_writeWord hc hc.dhcsr).bind rfl ((follows_writeDp hc hc.ctrlstat).bind rfl (follows_sessionInit s))

/-! ### The failing debug-enable (R286 step 1) -/

theorem isCsw_memAp {c : Cfg} (h : c.apCsw &&& 0xFFFFFF03 = 0) : isCsw c (memAp c c.apCsw) = true := by
  have h3 : c.apCsw &&& 0xFFFFFF03#32 = 0#32 := h
  have h2 : (c.memApsel.setWidth 32 <<< 24) &&& 0xFC#32 = 0#32 := by
    generalize c.memApsel = x
    revert x; decide
  have h4 : c.apCsw &&& 0xFC#32 = c.apCsw := by
    have h5 : c.apCsw = c.apCsw &&& (0xFC#32 ||| 0xFFFFFF03#32) := by
      rw [show (0xFC#32 ||| 0xFFFFFF03#32) = BitVec.allOnes 32 from rfl, BitVec.and_allOnes]
    rw [BitVec.and_or_distrib_left, h3, BitVec.or_zero] at h5
    exact h5.symm
  have h6 : (c.memApsel.setWidth 32 <<< 24 ||| c.apCsw) &&& 0xFC#32 = c.apCsw := by
    rw [BitVec.and_comm, BitVec.and_or_distrib_left, BitVec.and_comm, h2, BitVec.and_comm, h4, BitVec.zero_or]
  exact decide_eq_true h6

/-- A write of a word makes the same turns from every mirror that holds nothing. -/
theorem talkEnable_clear {c : Cfg} (h : c.apCsw &&& 0xFFFFFF03 = 0) (m : Mirror) :
    (talkEnable c m.clear).1 = (talkEnable c Mirror.reset).1 := by
  have key : ∀ m : Mirror, m.selectValid = false → m.cswValid = false → ∀ v,
      talkWriteAp c (memAp c c.apCsw) v m = talkWriteAp c (memAp c c.apCsw) v Mirror.reset := by
    intro m h1 h2 v
    simp [talkWriteAp, Talk.andThen, talkSelect, talkWriteDp, talkApReg, isCsw_memAp h, Mirror.hasSelect, Mirror.hasCsw,
      h1, h2, Mirror.reset, Mirror.holdSelect, Mirror.holdCsw]
  simp only [talkEnable, talkWriteWord, talkAim, Talk.andThen]
  rw [key m.clear rfl rfl]

theorem resetPulse_apply (s : State) : resetPulse s = .ok () (s.setLink
    ((s.link.setWire ((s.link.wire.driveReset false .resetAssert).driveReset true .resetRelease)).setMir s.link.mir.clear)) :=
  rfl

/-- Step 1 when every write fails: as many attempts as allowed, the reset line toggled between them (R286). -/
theorem enableDebug_fails {s : State} (hc : Legal s.cfg) (hcsw : s.cfg.apCsw &&& 0xFFFFFF03 = 0) : ∀ (n : Nat) (l : Link) (m : Mirror)
    (e : List Event) (rest : List Bool), (talkEnable s.cfg l.mir).1 = (talkEnable s.cfg m).1 →
    EnableFails s.cfg (n + 1) m l.wire.lineIn e rest →
    ∃ l', enableDebug n (s.setLink l) = .error .lifecycle (s.setLink l') ∧ l'.wire.trace = l.wire.trace ++ e
      ∧ l'.wire.lineIn = rest := by
  intro n
  induction n with
  | zero =>
    intro l m e rest hm h
    obtain ⟨x, h⟩ := h
    rw [← hm] at h
    obtain ⟨t, ho, hcut⟩ := (follows_debugEnable hc).breaks l e rest x h
    have hk := keeps_debugEnable {} (s.setLink l)
    rw [ho] at hk
    have ht : t = s.setLink t.link := by have := hk.link_only; simpa [finalState] using this
    refine ⟨t.link, ?_, hcut.trace, hcut.levels⟩
    simp only [enableDebug, ho]
    rw [← ht]
  | succ n ih =>
    intro l m e rest hm h
    obtain ⟨x, e1, b2, e2, h, rfl, h2⟩ := h
    rw [← hm] at h
    obtain ⟨t, ho, hcut⟩ := (follows_debugEnable hc).breaks l e1 b2 x h
    have hk := keeps_debugEnable {} (s.setLink l)
    rw [ho] at hk
    have ht : t = s.setLink t.link := by have := hk.link_only; simpa [finalState] using this
    obtain ⟨l', ho2, htr, hlv⟩ := ih
      ((t.link.setWire ((t.link.wire.driveReset false .resetAssert).driveReset true .resetRelease)).setMir t.link.mir.clear)
      Mirror.reset e2 rest (talkEnable_clear hcsw _) (by
        show EnableFails s.cfg (n + 1) Mirror.reset t.link.wire.lineIn e2 rest
        rw [hcut.levels]; exact h2)
    refine ⟨l', ?_, ?_, hlv⟩
    · simp only [enableDebug, ho]
      rw [Op.bind_ok _ (resetPulse_apply t)]
      rw [ht]
      exact ho2
    · rw [htr]
      simp only [Wire.driveReset, Wire.emit, Link.setMir_wire, Link.setWire_wire]
      rw [hcut.trace]; simp

/-! ### The flash runtime -/

theorem follows_download {s : State} (hc : Legal s.cfg) :
    ∃ lo, Follows s downloadCode (talkWriteBytes s.cfg s.fa.desc.codeByte s.fa.desc.codeAddr 0 s.fa.desc.codeSize.toNat) ()
      (s.setLoops lo) := by
  obtain ⟨lo, h⟩ := follows_writeBytesFrom (s := s) (src := s.fa.desc.codeByte) (addr := s.fa.desc.codeAddr) (off := 0)
    (size := s.fa.desc.codeSize.toNat) hc
  exact ⟨lo, Follows.get (fun _ => rfl) h⟩

/-- `FA_INIT`: the descriptor is latched, the target reset and halted, the code loaded, the entry called (R248). -/
theorem faInit_ends {s : State} {base : Word} {ws : List Word} {k : Call} {r : Except Cause Unit} (hc : Legal s.cfg)
    (h : pollsEnd s.cfg.haltPolls (halted s.cfg) ws) (hk : k.good s.cfg)
    (hr : r = if retOk s.cfg .init k.r0 = true then .ok () else .error .retval) :
    ∃ lo, EndsAt s (faInit base)
      ((talkResetHalt s.cfg ws).andThen ((talkWriteBytes s.cfg s.descIn.codeByte s.descIn.codeAddr 0
        s.descIn.codeSize.toNat).andThen
          (talkCall s.cfg (stagedDs s.cfg s.descIn s.descIn.init base 0 0 0) k))) r
      ((((s.setFa ⟨true, s.descIn⟩).setDs (stagedDs s.cfg s.descIn s.descIn.init base 0 0 0)).setRet k.r0).setLoops lo) := by
  obtain ⟨lo, hd⟩ := follows_download (s := (s.setFa ⟨true, s.descIn⟩).polled ws.length) hc
  refine ⟨lo.polled k.harvest.length, ?_⟩
  refine EndsAt.after (s1 := s.setFa ⟨true, s.descIn⟩) (fun _ => rfl) rfl ?_
  refine (resetHalt_ends (s := s.setFa ⟨true, s.descIn⟩) hc h).bind rfl ?_
  refine hd.ends.bind rfl ?_
  refine EndsAt.get (op := judgedCall .init s.descIn.init base 0 0 0) (fun _ => rfl) ?_
  let t := (((s.setFa ⟨true, s.descIn⟩).polled ws.length).setLoops lo)
  cases hret : retOk s.cfg .init k.r0 with
  | true =>
    rw [hr, if_pos hret]
    exact (follows_judgedCall (s := t) (k := k) hc rfl hk hret).ends
  | false =>
    rw [hr, if_neg (by simp [hret])]
    exact judgedCall_retval (s := t) (k := k) hc rfl hk hret

/-- The part of an `FA_*` operation after its `FA.VALID` test and its look at the descriptor. -/
theorem EndsAt.withFa {α : Type} {s s' : State} {kk : State → Op α} {op : Op α} {tk : Talk} {r : Except Cause α}
    (hv : s.fa.valid = true) (h : ∀ l : Link, kk (s.setLink l) = op) (h2 : EndsAt s op tk r s') :
    EndsAt s (requireFa >>= fun _ => (MonadState.get : Op State) >>= kk) tk r s' :=
  EndsAt.after (requireFa_apply hv) rfl (EndsAt.get h h2)

theorem Follows.withFa {α : Type} {s s' : State} {kk : State → Op α} {op : Op α} {tk : Talk} {v : α}
    (hv : s.fa.valid = true) (h : ∀ l : Link, kk (s.setLink l) = op) (h2 : Follows s op tk v s') :
    Follows s (requireFa >>= fun _ => (MonadState.get : Op State) >>= kk) tk v s' :=
  Follows.after (requireFa_apply hv) rfl (Follows.get h h2)

/-- One accepted chunk (R254). -/
theorem follows_programChunk {s : State} {x : (Word × Nat × Nat) × Call} (hc : Legal s.cfg) (hv : s.fa.valid = true)
    (hk : x.2.good s.cfg) (hr : retOk s.cfg .programPage x.2.r0 = true) :
    ∃ lo, Follows s (programChunk x.1.1 x.1.2.1 x.1.2.2) (talkChunk s.cfg s.fa.desc s.buf.read x) ()
      ((s.chunked x).setLoops lo) := by
  obtain ⟨lo, hw⟩ := follows_writeBytesFrom (s := s) (src := s.buf.read) (addr := s.fa.desc.progBuf) (off := x.1.2.1)
    (size := x.1.2.2) hc
  refine ⟨lo.polled x.2.harvest.length, ?_⟩
  refine Follows.get (op := writeMemoryFrom s.fa.desc.progBuf x.1.2.1 x.1.2.2 >>= fun _ =>
    judgedCall .programPage s.fa.desc.programPage x.1.1 (BitVec.ofNat 32 x.1.2.2) s.fa.desc.progBuf 0 >>= fun _ =>
      modifyOp (fun t => t.setRes1 (t.res1 + BitVec.ofNat 32 x.1.2.2))) (fun _ => rfl) ?_
  refine Follows.bind (Follows.get (fun _ => rfl) hw) rfl ?_
  refine Follows.map (follows_judgedCall (s := s.setLoops lo) (k := x.2) hc hv hk hr) rfl ?_
  intro l; rfl

/-- A chunk whose return value is rejected (R247, R254). -/
theorem programChunk_retval {s : State} {x : (Word × Nat × Nat) × Call} (hc : Legal s.cfg) (hv : s.fa.valid = true)
    (hk : x.2.good s.cfg) (hr : retOk s.cfg .programPage x.2.r0 = false) :
    ∃ lo, EndsAt s (programChunk x.1.1 x.1.2.1 x.1.2.2) (talkChunk s.cfg s.fa.desc s.buf.read x) (.error .retval)
      (((s.setDs (pageDs s.cfg s.fa.desc x.1.1 x.1.2.2)).setRet x.2.r0).setLoops lo) := by
  obtain ⟨lo, hw⟩ := follows_writeBytesFrom (s := s) (src := s.buf.read) (addr := s.fa.desc.progBuf) (off := x.1.2.1)
    (size := x.1.2.2) hc
  refine ⟨lo.polled x.2.harvest.length, ?_⟩
  refine EndsAt.get (op := writeMemoryFrom s.fa.desc.progBuf x.1.2.1 x.1.2.2 >>= fun _ =>
    judgedCall .programPage s.fa.desc.programPage x.1.1 (BitVec.ofNat 32 x.1.2.2) s.fa.desc.progBuf 0 >>= fun _ =>
      modifyOp (fun t => t.setRes1 (t.res1 + BitVec.ofNat 32 x.1.2.2))) (fun _ => rfl) ?_
  refine EndsAt.bind (Follows.get (fun _ => rfl) hw).ends rfl ?_
  exact (judgedCall_retval (s := s.setLoops lo) (k := x.2) hc hv hk hr).bindError

theorem programChunks_succ (fuel : Nat) (a : Word) (o left : Nat) (h : left ≠ 0) :
    programChunks (fuel + 1) a o left = ((MonadState.get : Op State) >>= fun s => setCursor a o left >>= fun _ =>
      programChunk a o (chunkLen s.fa.desc left) >>= fun _ =>
        programChunks fuel (a + BitVec.ofNat 32 (chunkLen s.fa.desc left)) (o + chunkLen s.fa.desc left)
          (left - chunkLen s.fa.desc left)) := by
  simp only [programChunks, if_neg h]

theorem programChunks_zero (fuel : Nat) (a : Word) (o : Nat) : programChunks fuel a o 0 = pure () := by
  cases fuel <;> simp [programChunks]

/-- The accepted chunks `xs`, then what the loop does after them (R254). -/
theorem programChunks_run {f : Descriptor} {c : Cfg} {src : Nat → Byte} (hc : Legal c) {r : Except Cause Unit} {tk : Talk}
    {fin : State → State} : ∀ (xs : List ((Word × Nat × Nat) × Call)) (ys : List (Word × Nat × Nat)) (fuel : Nat) (a : Word)
      (o left : Nat) (s : State), s.cfg = c → s.fa = ⟨true, f⟩ → s.buf.read = src →
    (∀ x ∈ xs, x.2.good c ∧ retOk c .programPage x.2.r0 = true) →
    pageChunks f.progBufSize.toNat fuel a o left = xs.map Prod.fst ++ ys →
    (∀ (fuel' : Nat) (a' : Word) (o' left' : Nat) (t : State), t.cfg = c → t.fa = ⟨true, f⟩ → t.buf.read = src →
      pageChunks f.progBufSize.toNat fuel' a' o' left' = ys →
      ∃ lo, EndsAt t (programChunks fuel' a' o' left') tk r ((fin t).setLoops lo)) →
    (∀ (t : State) (lo : Loops), ∃ lo', fin (t.setLoops lo) = (fin t).setLoops lo') →
    ∃ lo, EndsAt s (programChunks fuel a o left) ((Talk.all (xs.map (talkChunk c f src))).andThen tk) r
      ((fin (xs.foldl State.chunked s)).setLoops lo) := by
  intro xs
  induction xs with
  | nil =>
    intro ys fuel a o left s hs hf hb _ hp hrest _
    rw [show Talk.all (List.map (talkChunk c f src) []) = Talk.say [] from rfl, Talk.say_nil_andThen]
    exact hrest fuel a o left s hs hf hb hp
  | cons x xs ih =>
    intro ys fuel a o left s hs hf hb hx hp hrest hfin
    cases fuel with
    | zero => simp [pageChunks] at hp
    | succ fuel =>
      by_cases h0 : left = 0
      · simp [pageChunks, h0] at hp
      · simp only [pageChunks, if_neg h0, List.map_cons, List.cons_append, List.cons.injEq] at hp
        obtain ⟨hp1, hp2⟩ := hp
        have hfd : s.fa.desc = f := by rw [hf]
        have hn : chunkLen f left = min left f.progBufSize.toNat := rfl
        rw [programChunks_succ _ _ _ _ h0]
        obtain ⟨lo1, h1⟩ := setCursor_after s a o left
        obtain ⟨hk, hret⟩ := hx x (by simp)
        obtain ⟨lo2, h2⟩ := follows_programChunk (s := s.setLoops lo1) (x := x) (by rw [show (s.setLoops lo1).cfg = c from hs]; exact hc)
          (by rw [show (s.setLoops lo1).fa = ⟨true, f⟩ from hf]) (by rw [show (s.setLoops lo1).cfg = c from hs]; exact hk)
          (by rw [show (s.setLoops lo1).cfg = c from hs]; exact hret)
        obtain ⟨lo3, h3⟩ := ih ys fuel (a + BitVec.ofNat 32 (min left f.progBufSize.toNat))
          (o + min left f.progBufSize.toNat) (left - min left f.progBufSize.toNat)
          (((s.setLoops lo1).chunked x).setLoops lo2) hs hf hb (fun y hy => hx y (by simp [hy])) hp2 hrest hfin
        -- the loop registers do not matter to the chunks
        have hfold : ∀ (zs : List ((Word × Nat × Nat) × Call)) (t : State) (lo : Loops),
            zs.foldl State.chunked (t.setLoops lo) = (zs.foldl State.chunked t).setLoops lo := by
          intro zs
          induction zs with
          | nil => intro t lo; rfl
          | cons z zs ihz => intro t lo; exact ihz (t.chunked z) lo
        have e1 : ((s.setLoops lo1).chunked x).setLoops lo2 = (s.chunked x).setLoops lo2 := rfl
        rw [e1, hfold] at h3
        obtain ⟨lo4, h4⟩ := hfin (xs.foldl State.chunked (s.chunked x)) lo2
        rw [h4] at h3
        refine ⟨lo3, ?_⟩
        refine EndsAt.get (op := setCursor a o left >>= fun _ => programChunk x.1.1 x.1.2.1 x.1.2.2 >>= fun _ =>
          programChunks fuel (a + BitVec.ofNat 32 (min left f.progBufSize.toNat)) (o + min left f.progBufSize.toNat)
            (left - min left f.progBufSize.toNat)) ?_ ?_
        · intro l
          rw [show (s.setLink l).fa.desc = f from hfd, hn, ← hp1]
        · refine EndsAt.after h1 rfl ?_
          have h5 := h2.ends.bind (k := fun _ => programChunks fuel (a + BitVec.ofNat 32 (min left f.progBufSize.toNat))
            (o + min left f.progBufSize.toNat) (left - min left f.progBufSize.toNat)) rfl h3
          have e2 : talkChunk (s.setLoops lo1).cfg (s.setLoops lo1).fa.desc (s.setLoops lo1).buf.read x =
              talkChunk c f src x := by
            show talkChunk s.cfg s.fa.desc s.buf.read x = _
            rw [hs, hfd, hb]
          rw [e2] at h5
          rw [List.map_cons, Talk.all, Talk.andThen_assoc]
          exact h5

/-- All chunks accepted (R254). -/
theorem programChunks_ends {s : State} {f : Descriptor} (hc : Legal s.cfg) (hf : s.fa = ⟨true, f⟩)
    (xs : List ((Word × Nat × Nat) × Call)) (fuel : Nat) (a : Word) (o left : Nat)
    (hx : ∀ x ∈ xs, x.2.good s.cfg ∧ retOk s.cfg .programPage x.2.r0 = true)
    (hp : xs.map Prod.fst = pageChunks f.progBufSize.toNat fuel a o left) :
    ∃ lo, EndsAt s (programChunks fuel a o left) (Talk.all (xs.map (talkChunk s.cfg f s.buf.read))) (.ok ())
      ((xs.foldl State.chunked s).setLoops lo) := by
  have h := programChunks_run (c := s.cfg) (f := f) (src := s.buf.read) hc (r := .ok ()) (tk := Talk.say []) (fin := id)
    xs [] fuel a o left s rfl hf rfl hx (by rw [List.append_nil, hp]) ?_ (fun _ lo => ⟨lo, rfl⟩)
  · rwa [Talk.andThen_say_nil] at h
  · intro fuel' a' o' left' t _ _ _ hnil
    refine ⟨t.loops, ?_⟩
    have : programChunks fuel' a' o' left' = pure () := by
      cases fuel' with
      | zero => rfl
      | succ n =>
        by_cases h0 : left' = 0
        · rw [h0, programChunks_zero]
        · simp [pageChunks, h0] at hnil
    rw [this]
    exact (Follows.pure t ()).ends

/-- The chunks `xs` accepted, the return value of the next one rejected (R247, R254). -/
theorem programChunks_retval {s : State} {f : Descriptor} (hc : Legal s.cfg) (hf : s.fa = ⟨true, f⟩)
    (xs : List ((Word × Nat × Nat) × Call)) (y : (Word × Nat × Nat) × Call) (more : List (Word × Nat × Nat)) (fuel : Nat)
    (a : Word) (o left : Nat) (hx : ∀ x ∈ xs, x.2.good s.cfg ∧ retOk s.cfg .programPage x.2.r0 = true)
    (hy : y.2.good s.cfg) (hr : retOk s.cfg .programPage y.2.r0 = false)
    (hp : pageChunks f.progBufSize.toNat fuel a o left = xs.map Prod.fst ++ y.1 :: more) :
    ∃ lo, EndsAt s (programChunks fuel a o left)
      ((Talk.all (xs.map (talkChunk s.cfg f s.buf.read))).andThen (talkChunk s.cfg f s.buf.read y)) (.error .retval)
      ((((xs.foldl State.chunked s).setDs (pageDs s.cfg f y.1.1 y.1.2.2)).setRet y.2.r0).setLoops lo) := by
  refine programChunks_run (c := s.cfg) (f := f) (src := s.buf.read) hc (r := .error .retval)
    (tk := talkChunk s.cfg f s.buf.read y) (fin := fun t => (t.setDs (pageDs s.cfg f y.1.1 y.1.2.2)).setRet y.2.r0)
    xs (y.1 :: more) fuel a o left s rfl hf rfl hx hp ?_ (fun t lo => ⟨lo, rfl⟩)
  intro fuel' a' o' left' t hs ht hb hcons
  cases fuel' with
  | zero => simp [pageChunks] at hcons
  | succ n =>
    by_cases h0 : left' = 0
    · simp [pageChunks, h0] at hcons
    · simp only [pageChunks, if_neg h0, List.cons.injEq] at hcons
      have htd : t.fa.desc = f := by rw [ht]
      have hn : chunkLen f left' = min left' f.progBufSize.toNat := rfl
      rw [programChunks_succ _ _ _ _ h0]
      obtain ⟨lo1, h1⟩ := setCursor_after t a' o' left'
      obtain ⟨lo2, h2⟩ := programChunk_retval (s := t.setLoops lo1) (x := y)
        (by rw [show (t.setLoops lo1).cfg = s.cfg from hs]; exact hc)
        (by rw [show (t.setLoops lo1).fa = ⟨true, f⟩ from ht]) (by rw [show (t.setLoops lo1).cfg = s.cfg from hs]; exact hy)
        (by rw [show (t.setLoops lo1).cfg = s.cfg from hs]; exact hr)
      refine ⟨lo2, ?_⟩
      refine EndsAt.get (op := setCursor a' o' left' >>= fun _ => programChunk y.1.1 y.1.2.1 y.1.2.2 >>= fun _ =>
        programChunks n (a' + BitVec.ofNat 32 (min left' f.progBufSize.toNat)) (o' + min left' f.progBufSize.toNat)
          (left' - min left' f.progBufSize.toNat)) ?_ ?_
      · intro l
        rw [show (t.setLink l).fa.desc = f from htd, hn, ← hcons.1]
      · refine EndsAt.after h1 rfl ?_
        have h5 := h2.bindError (k := fun _ => programChunks n (a' + BitVec.ofNat 32 (min left' f.progBufSize.toNat))
          (o' + min left' f.progBufSize.toNat) (left' - min left' f.progBufSize.toNat))
        have e2 : talkChunk (t.setLoops lo1).cfg (t.setLoops lo1).fa.desc (t.setLoops lo1).buf.read y =
            talkChunk s.cfg f s.buf.read y := by
          show talkChunk t.cfg t.fa.desc t.buf.read y = _
          rw [hs, htd, hb]
        rw [e2] at h5
        have e3 : pageDs (t.setLoops lo1).cfg (t.setLoops lo1).fa.desc y.1.1 y.1.2.2 = pageDs s.cfg f y.1.1 y.1.2.2 := by
          show pageDs t.cfg t.fa.desc _ _ = _
          rw [hs, htd]
        rw [e3] at h5
        exact h5

end Sys2Proof.Machine
end

