-- ==== Sys2Proof/Laws/Memory.lean ====
section
/-! SUPPORT. The buffer memory: every operation keeps the canonical form and the bound, a read after a write gives the
value written, a write leaves every other byte alone (R39, R66). -/

namespace Sys2Proof.Machine

/-- The machine starts with a canonical `BUF`. -/
theorem reset_buf_wf : State.reset.buf.wf = true := rfl

theorem memoryWfFrom_mono : ∀ (m : Memory) {lo lo' : Nat}, lo' ≤ lo → memoryWfFrom lo m = true →
    memoryWfFrom lo' m = true
  | [], _, _, _, _ => rfl
  | (k, v) :: m, lo, lo', h, hw => by
    simp only [memoryWfFrom, Bool.and_eq_true, decide_eq_true_eq] at hw ⊢
    exact ⟨⟨by omega, hw.1.2⟩, hw.2⟩

theorem memoryWfFrom_write : ∀ (m : Memory) (lo a : Nat) (v : Byte), lo ≤ a → memoryWfFrom lo m = true →
    memoryWfFrom lo (m.write a v) = true
  | [], lo, a, v, h, _ => by
    unfold Memory.write
    split
    · rfl
    · rename_i hv
      simp [memoryWfFrom, h, hv]
  | (k, w) :: m, lo, a, v, h, hw => by
    have hw' := hw
    simp only [memoryWfFrom, Bool.and_eq_true, decide_eq_true_eq] at hw'
    unfold Memory.write
    split
    · rename_i hk
      simp only [memoryWfFrom, Bool.and_eq_true, decide_eq_true_eq]
      exact ⟨hw'.1, memoryWfFrom_write m (k + 1) a v (by omega) hw'.2⟩
    · split
      · rename_i hk1 hk
        split
        · exact memoryWfFrom_mono m (by omega) hw'.2
        · rename_i hv
          subst hk
          simp only [memoryWfFrom, Bool.and_eq_true, decide_eq_true_eq]
          exact ⟨⟨h, by simp [hv]⟩, hw'.2⟩
      · split
        · exact hw
        · rename_i hk1 hk hv
          simp only [memoryWfFrom, Bool.and_eq_true, decide_eq_true_eq]
          exact ⟨⟨h, by simp [hv]⟩, ⟨by omega, hw'.1.2⟩, hw'.2⟩

/-- A write keeps the canonical form. -/
theorem Memory.wf_write {m : Memory} (h : m.wf = true) (a : Nat) (v : Byte) : (m.write a v).wf = true :=
  memoryWfFrom_write m 0 a v (Nat.zero_le a) h

/-- Writing bytes keeps the canonical form. -/
theorem Memory.wf_writeBytes : ∀ (bs : List Byte) {m : Memory} (a : Nat), m.wf = true → (m.writeBytes a bs).wf = true
  | [], _, _, h => h
  | b :: bs, _, a, h => Memory.wf_writeBytes bs (a + 1) (Memory.wf_write h a b)

/-- Writing a word keeps the canonical form. -/
theorem Memory.wf_writeWord {m : Memory} (h : m.wf = true) (a : Nat) (v : Word) : (m.writeWord a v).wf = true :=
  Memory.wf_writeBytes _ a h

/-- A write keeps the bound. -/
theorem Memory.below_write {n : Nat} : ∀ {m : Memory} {a : Nat} (v : Byte), m.below n = true → a < n →
    (m.write a v).below n = true
  | [], a, v, _, ha => by
    unfold Memory.write
    split
    · rfl
    · simp [Memory.below, ha]
  | (k, w) :: m, a, v, h, ha => by
    have h' := h
    simp only [Memory.below, List.all_cons, Bool.and_eq_true, decide_eq_true_eq] at h'
    unfold Memory.write
    split
    · have := Memory.below_write (m := m) (a := a) v h'.2 ha
      simp only [Memory.below, List.all_cons, Bool.and_eq_true, decide_eq_true_eq]
      exact ⟨h'.1, this⟩
    · split
      · split
        · exact h'.2
        · simp only [Memory.below, List.all_cons, Bool.and_eq_true, decide_eq_true_eq]
          exact ⟨ha, h'.2⟩
      · split
        · exact h
        · simp only [Memory.below, List.all_cons, Bool.and_eq_true, decide_eq_true_eq]
          exact ⟨ha, h'.1, h'.2⟩

theorem Memory.below_writeBytes {n : Nat} : ∀ (bs : List Byte) {m : Memory} {a : Nat}, m.below n = true →
    a + bs.length ≤ n → (m.writeBytes a bs).below n = true
  | [], _, _, h, _ => h
  | b :: bs, m, a, h, ha => by
    simp only [List.length_cons] at ha
    exact Memory.below_writeBytes bs (Memory.below_write b h (by omega)) (by omega)

/-! ### Reading -/

/-- Below the least listed offset every byte is unwritten. -/
theorem Memory.read_low : ∀ {m : Memory} {lo a : Nat}, memoryWfFrom lo m = true → a < lo → m.read a = bufUnwritten
  | [], _, _, _, _ => rfl
  | (k, v) :: m, lo, a, h, ha => by
    simp only [memoryWfFrom, Bool.and_eq_true, decide_eq_true_eq] at h
    unfold Memory.read
    rw [if_neg (by omega)]
    exact Memory.read_low h.2 (by omega)

theorem read_write_from : ∀ (m : Memory) (lo a b : Nat) (v : Byte), memoryWfFrom lo m = true →
    (m.write a v).read b = if b = a then v else m.read b
  | [], lo, a, b, v, _ => by
    unfold Memory.write
    split
    · rename_i hv; simp [Memory.read, hv]
    · simp only [Memory.read]
      by_cases h : b = a
      · simp [h]
      · rw [if_neg (Ne.symm h), if_neg h]
  | (k, w) :: m, lo, a, b, v, hw => by
    have hw' := hw
    simp only [memoryWfFrom, Bool.and_eq_true, decide_eq_true_eq] at hw'
    unfold Memory.write
    split
    · rename_i hk
      simp only [Memory.read, read_write_from m (k + 1) a b v hw'.2]
      by_cases h : k = b
      · subst h; simp [show ¬ k = a by omega]
      · simp [h]
    · split
      · rename_i hk1 hk
        subst hk
        split
        · rename_i hv
          by_cases h : b = k
          · subst h; rw [if_pos rfl, Memory.read_low hw'.2 (by omega), hv]
          · rw [if_neg h]; simp [Memory.read, Ne.symm h]
        · by_cases h : b = k
          · simp [Memory.read, h]
          · simp [Memory.read, h, Ne.symm h]
      · rename_i hk1 hk
        split
        · rename_i hv
          by_cases h : b = a
          · subst h
            rw [if_pos rfl, hv]
            simp only [Memory.read]
            rw [if_neg hk]
            exact Memory.read_low hw'.2 (by omega)
          · rw [if_neg h]
        · by_cases h : b = a
          · simp [Memory.read, h]
          · simp [Memory.read, h, Ne.symm h]

/-- Reading after a write: the byte written there, every other byte as it was. -/
theorem Memory.read_write {m : Memory} (h : m.wf = true) (a b : Nat) (v : Byte) :
    (m.write a v).read b = if b = a then v else m.read b := read_write_from m 0 a b v h

/-- Bytes outside a written range are as they were. -/
theorem Memory.read_writeBytes_outside : ∀ (bs : List Byte) {m : Memory} {a b : Nat}, m.wf = true →
    (b < a ∨ a + bs.length ≤ b) → (m.writeBytes a bs).read b = m.read b
  | [], _, _, _, _, _ => rfl
  | c :: bs, m, a, b, h, hb => by
    simp only [List.length_cons] at hb
    unfold Memory.writeBytes
    rw [Memory.read_writeBytes_outside bs (Memory.wf_write h a c) (by omega), Memory.read_write h, if_neg (by omega)]

/-- Bytes inside a written range are the bytes written. -/
theorem Memory.read_writeBytes_inside : ∀ (bs : List Byte) {m : Memory} {a : Nat} (i : Nat), m.wf = true →
    i < bs.length → (m.writeBytes a bs).read (a + i) = bs.getD i 0
  | [], _, _, i, _, hi => by simp at hi
  | c :: bs, m, a, 0, h, _ => by
    unfold Memory.writeBytes
    rw [Memory.read_writeBytes_outside bs (Memory.wf_write h a c) (by omega), Nat.add_zero, Memory.read_write h]
    simp
  | c :: bs, m, a, i + 1, h, hi => by
    unfold Memory.writeBytes
    have := Memory.read_writeBytes_inside bs (a := a + 1) i (Memory.wf_write h a c) (by simpa using hi)
    rw [show a + (i + 1) = a + 1 + i by omega, this]
    simp

/-! ### Words -/

/-- The bytes of a word put together are the word (R66). -/
theorem wordOfBytes_bytes (v : Word) : wordOfBytes (byteOf v 0) (byteOf v 1) (byteOf v 2) (byteOf v 3) = v := by
  apply BitVec.eq_of_getLsbD_eq
  intro i hi
  simp only [wordOfBytes, byteOf, BitVec.getLsbD_or, BitVec.getLsbD_shiftLeft, BitVec.getLsbD_setWidth,
    BitVec.getLsbD_ushiftRight]
  by_cases h1 : i < 8
  · simp [h1, hi, show i < 16 by omega, show i < 24 by omega]
  · by_cases h2 : i < 16
    · simp [h1, h2, hi, show i < 24 by omega, show i - 8 < 8 by omega, show 8 + (i - 8) = i by omega, show i - 8 < 32 by omega]
    · by_cases h3 : i < 24
      · simp [h1, h2, h3, hi, show i - 16 < 8 by omega, show ¬ i - 8 < 8 by omega, show 16 + (i - 16) = i by omega,
          show i - 16 < 32 by omega]
      · simp [h1, h2, h3, hi, show i - 24 < 8 by omega, show ¬ i - 8 < 8 by omega, show ¬ i - 16 < 8 by omega,
          show 24 + (i - 24) = i by omega, show i - 24 < 32 by omega]

/-- A word written and read back (R66). -/
theorem Memory.wordAt_writeWord {m : Memory} (h : m.wf = true) (o : Nat) (v : Word) :
    wordAt (m.writeWord o v).read o = v := by
  have key : ∀ i, i < 4 → (m.writeWord o v).read (o + i) =
      [byteOf v 0, byteOf v 1, byteOf v 2, byteOf v 3].getD i 0 :=
    fun i hi => Memory.read_writeBytes_inside _ i h hi
  have h0 := key 0 (by decide)
  rw [Nat.add_zero] at h0
  unfold wordAt
  rw [h0, key 1 (by decide), key 2 (by decide), key 3 (by decide)]
  exact wordOfBytes_bytes v

end Sys2Proof.Machine
end

