-- ==== Sys2Proof/Laws/Command.lean ====
section
/-! SUPPORT. A body run as a command: its start, its end, and what that leaves (R353, R381). -/

namespace Sys2Proof.Machine

/-- The link at the start of a command (R381). -/
def Link.begun (l : Link) : Link := l.setStatus { l.status with busy := true, illegal := false }

/-- The link at the end of a command that ends with `c`, `FAXST` being `f` (R353). -/
def Link.ended (l : Link) (f : FlashStatus) (c : Cause) : Link :=
  l.setStatus { l.status with fail := decide (c ≠ .none), faxst := f, busy := false }

@[simp] theorem State.beginOp_eq (s : State) : s.beginOp = s.setLink s.link.begun := rfl

theorem State.endOp_eq (s : State) (c : Cause) : s.endOp c = (s.setCause c).setLink (s.link.ended s.link.status.faxst c) := rfl

/-- What a followed dialogue leaves once the command has ended. -/
theorem Leaves.done {l l' : Link} {said : List Turn × Mirror} {e rest} (h : Leaves l.begun l' said e rest)
    (f : FlashStatus) (c : Cause) : Done l (l'.ended f c) said e rest f c := by
  constructor
  · exact h.trace
  · exact h.levels
  · exact h.draws
  · exact h.mirror
  · simp only [Link.ended, Link.setStatus_status, h.status, Status.moved]
    split <;> rfl
  · exact h.pins
  · exact h.still

/-- `FAXST` after a followed dialogue. -/
theorem Leaves.faxst {l l' : Link} {said : List Turn × Mirror} {e rest} (h : Leaves l.begun l' said e rest) :
    l'.status.faxst = l.status.faxst := by
  rw [h.status, Status.moved]; split <;> rfl

theorem CutShort.cutOff {l l' : Link} {e rest x} (h : CutShort l.begun l' e rest x) (f : FlashStatus) :
    CutOff l (l'.ended f .ack) e rest x :=
  ⟨h.trace, h.levels, h.result, rfl, rfl, h.pins⟩

/-- The body of a command whose dialogue the line answers. -/
theorem command_body {α : Type} {s s' : State} {body : Op α} {tk : Talk} {r : Except Cause α} (h : EndsAt s body tk r s')
    {e : List Event} {rest : List Bool} (ha : Answered s.cfg (tk s.link.mir).1 s.link.wire.lineIn e rest) :
    ∃ l', body s.beginOp = outcome r (s'.setLink l') ∧ Leaves s.link.begun l' (tk s.link.mir) e rest :=
  h s.link.begun e rest ha

/-- A command that succeeds and whose results do not concern the link. -/
theorem command_ok {α : Type} {s s' : State} {body : Op α} {tk : Talk} {v : α} (h : EndsAt s body tk (.ok v) s')
    {onOk : α → State → State} {onFail : Cause → State → State} {s2 : State}
    (hok : ∀ l, onOk v (s'.setLink l) = s2.setLink l)
    {e : List Event} {rest : List Bool} (ha : Answered s.cfg (tk s.link.mir).1 s.link.wire.lineIn e rest) :
    ∃ l, command body onOk onFail s = (s2.setCause .none).setLink l
      ∧ Done s.link l (tk s.link.mir) e rest s.link.status.faxst .none := by
  obtain ⟨l', ho, hl⟩ := command_body h ha
  refine ⟨l'.ended s.link.status.faxst .none, ?_, hl.done _ _⟩
  have : command body onOk onFail s = (onOk v (s'.setLink l')).endOp .none := by
    simp only [command, ho, outcome]
  rw [this, hok, State.endOp_eq]
  simp only [State.setLink_link, hl.faxst]
  rfl

/-- A command of U3 that succeeds (R240). -/
theorem command_flashOk {α : Type} {s s' : State} {body : Op α} {tk : Talk} {v : α} (h : EndsAt s body tk (.ok v) s')
    {onFail : Cause → State → State}
    {e : List Event} {rest : List Bool} (ha : Answered s.cfg (tk s.link.mir).1 s.link.wire.lineIn e rest) :
    ∃ l, command body flashOk onFail s = ((s'.setRes0 s'.ret).setCause .none).setLink l
      ∧ Done s.link l (tk s.link.mir) e rest .ok .none := by
  obtain ⟨l', ho, hl⟩ := command_body h ha
  refine ⟨l'.ended .ok .none, ?_, hl.done _ _⟩
  have : command body flashOk onFail s = (flashOk v (s'.setLink l')).endOp .none := by
    simp only [command, ho, outcome]
  rw [this, State.endOp_eq]
  rfl

/-- A command that fails at the end of a dialogue, with what is done then not concerning the link. -/
theorem command_error {α : Type} {s s' : State} {body : Op α} {tk : Talk} {c : Cause} (h : EndsAt s body tk (.error c) s')
    {onOk : α → State → State} {onFail : Cause → State → State} {s2 : State}
    (hf : ∀ l, onFail c (s'.setLink l) = s2.setLink l)
    {e : List Event} {rest : List Bool} (ha : Answered s.cfg (tk s.link.mir).1 s.link.wire.lineIn e rest) :
    ∃ l, command body onOk onFail s = (s2.setCause c).setLink l
      ∧ Done s.link l (tk s.link.mir) e rest s.link.status.faxst c := by
  obtain ⟨l', ho, hl⟩ := command_body h ha
  refine ⟨l'.ended s.link.status.faxst c, ?_, hl.done _ _⟩
  have : command body onOk onFail s = (onFail c (s'.setLink l')).endOp c := by
    simp only [command, ho, outcome]
  rw [this, hf, State.endOp_eq]
  simp only [State.setLink_link, hl.faxst]
  rfl

/-- A command of U3 that fails at the end of a dialogue. -/
theorem command_flashError {α : Type} {s s' : State} {body : Op α} {tk : Talk} {c : Cause}
    (h : EndsAt s body tk (.error c) s') {onOk : α → State → State} {f : FlashStatus} {s2 : State}
    (hf : ∀ l, flashFailRes c (s'.setLink l) = s2.setLink l)
    {e : List Event} {rest : List Bool} (ha : Answered s.cfg (tk s.link.mir).1 s.link.wire.lineIn e rest) :
    ∃ l, command body onOk (flashFail f) s = (s2.setCause c).setLink l
      ∧ Done s.link l (tk s.link.mir) e rest (if c = .unsupported then .unsupported else f) c := by
  obtain ⟨l', ho, hl⟩ := command_body h ha
  refine ⟨l'.ended (if c = .unsupported then .unsupported else f) c, ?_, hl.done _ _⟩
  have : command body onOk (flashFail f) s = (flashFail f c (s'.setLink l')).endOp c := by
    simp only [command, ho, outcome]
  rw [this, flashFail, hf, State.endOp_eq]
  rfl

/-- A command cut off by a transfer that does not end OK. -/
theorem command_breaks {α : Type} {s : State} {body : Op α} {tk : Talk} (h : BreaksAt s body tk)
    {onOk : α → State → State} {onFail : Cause → State → State}
    (hl : ∀ t, ∃ l, (onFail .ack t).link = l ∧ l.wire = t.link.wire ∧ l.seq = t.link.seq ∧
      l.status.result = t.link.status.result)
    {e : List Event} {rest : List Bool} {x : AckResult}
    (hb : Broken s.cfg (tk s.link.mir).1 s.link.wire.lineIn e rest x) :
    (command body onOk onFail s).cause = .ack ∧ CutOff s.link (command body onOk onFail s).link e rest x := by
  obtain ⟨t, ho, hcut⟩ := h s.link.begun e rest x hb
  have h0 : command body onOk onFail s = (onFail .ack t).endOp .ack := by
    have : body s.beginOp = .error .ack t := ho
    simp only [command, this]
  obtain ⟨l, h1, h2, h3, h4⟩ := hl t
  rw [h0]
  refine ⟨rfl, ?_⟩
  show CutOff s.link ((onFail .ack t).link.ended _ .ack) e rest x
  rw [h1]
  refine ⟨?_, ?_, ?_, rfl, rfl, ?_⟩
  · show l.wire.trace = _; rw [h2]; exact hcut.trace
  · show l.wire.lineIn = _; rw [h2]; exact hcut.levels
  · show l.status.result = _; rw [h4]; exact hcut.result
  · have := hcut.pins
    unfold AtIdle at this ⊢
    show l.wire.line.dir = _ ∧ l.wire.line.dout = _ ∧ l.seq.phase = _
    rw [h2, h3]; exact this

/-- What a command may change: what its body may, `RES`, the free values, `CAUSE` and `STATUS`. -/
theorem command_state {α : Type} (body : Op α) (onOk : α → State → State) (onFail : Cause → State → State) (s : State) :
    (∃ v t, body s.beginOp = .ok v t ∧ command body onOk onFail s = (onOk v t).endOp .none) ∨
      (∃ c t, body s.beginOp = .error c t ∧ command body onOk onFail s = (onFail c t).endOp c) := by
  unfold command
  cases h : body s.beginOp with
  | ok v t => exact .inl ⟨v, t, rfl, rfl⟩
  | error c t => exact .inr ⟨c, t, rfl, rfl⟩

end Sys2Proof.Machine
end

