-- ==== Sys2Proof/Laws/Orderly.lean ====
section
/-! SUPPORT. Every operation leaves the pins idle when it finds them so, and ends in failure only with a failure kind of R343
(R22, R342, R344). -/

namespace Sys2Proof.Machine

/-- The operation keeps the idle pins and raises named failure kinds only. -/
structure Orderly {α : Type} (op : Op α) : Prop where
  idle : ∀ s, AtIdle s.link → AtIdle (finalState (op s)).link
  named : ∀ s c t, op s = .error c t → c ≠ .none

theorem Orderly.pure {α : Type} (v : α) : Orderly (Pure.pure v : Op α) := ⟨fun _ h => h, fun _ _ _ h => nomatch h⟩

theorem Orderly.throw {α : Type} {c : Cause} (hc : c ≠ .none) : Orderly (MonadExcept.throw c : Op α) :=
  ⟨fun _ h => h, fun s c' t h => by
    have h1 : EStateM.Result.error c s = (EStateM.Result.error c' t : EStateM.Result Cause State α) := h
    cases h1; exact hc⟩

theorem Orderly.get : Orderly (MonadState.get : Op State) := ⟨fun _ h => h, fun _ _ _ h => nomatch h⟩

theorem Orderly.bind {α β : Type} {x : Op α} {f : α → Op β} (h1 : Orderly x) (h2 : ∀ a, Orderly (f a)) :
    Orderly (x >>= f) := by
  constructor
  · intro s hs
    have hx := h1.idle s hs
    rw [Op.bind_apply]
    cases h : x s with
    | ok a t => rw [h] at hx; exact (h2 a).idle t hx
    | error c t => rw [h] at hx; exact hx
  · intro s c t h
    rw [Op.bind_apply] at h
    cases hx : x s with
    | ok a u => rw [hx] at h; exact (h2 a).named u c t h
    | error c' u =>
      rw [hx] at h
      have := h1.named s c' u hx
      cases h; exact this

theorem Orderly.ite {α : Type} (q : Prop) [Decidable q] {x y : Op α} (h1 : Orderly x) (h2 : Orderly y) :
    Orderly (if q then x else y) := by split <;> assumption

theorem Orderly.require (b : Bool) : Orderly (require b) := by
  unfold Sys2Proof.Machine.require; exact Orderly.ite _ (Orderly.pure ()) (Orderly.throw (by decide))

/-- A change of the state that leaves the pins and the sequencer. -/
theorem Orderly.modify {f : State → State}
    (h : ∀ s, (f s).link.wire.line = s.link.wire.line ∧ (f s).link.seq.phase = s.link.seq.phase) : Orderly (modifyOp f) :=
  ⟨fun s hs => by
    obtain ⟨h1, h2⟩ := h s
    show AtIdle (f s).link
    unfold AtIdle at hs ⊢
    rw [h1, h2]; exact hs, fun _ _ _ h => nomatch h⟩

/-! ### U1 -/

theorem orderly_logical (r : Req) (w : Word) : Orderly (logical r w) :=
  ⟨fun s _ => (transferRetry_grows s.cfg.turnaround s.cfg.retry r w s.link).2, fun _ _ _ h => nomatch h⟩

theorem orderly_needOk (x : AckResult × Word) : Orderly (needOk x) :=
  Orderly.ite _ (Orderly.pure _) (Orderly.throw (by decide))

theorem orderly_logicalOk (r : Req) (w : Word) : Orderly (logicalOk r w) :=
  (orderly_logical r w).bind fun _ => orderly_needOk _

theorem orderly_modifyMirror (f : Mirror → Mirror) : Orderly (modifyMirror f) := ⟨fun _ h => h, fun _ _ _ h => nomatch h⟩

theorem orderly_sessionInit : Orderly sessionInit := orderly_modifyMirror _

theorem orderly_readDp (a : Word) : Orderly (readDp a) := (Orderly.require _).bind fun _ => orderly_logicalOk _ _

theorem orderly_followSelect (a v : Word) (r : AckResult) : Orderly (followSelect a v r) :=
  Orderly.get.bind fun _ => Orderly.ite _ (orderly_modifyMirror _) (Orderly.pure _)

theorem orderly_writeDp (a v : Word) : Orderly (writeDp a v) :=
  (Orderly.require _).bind fun _ => Orderly.get.bind fun _ =>
    Orderly.ite _ (Orderly.pure _) ((orderly_logical _ _).bind fun _ => (orderly_followSelect _ _ _).bind fun _ =>
      (orderly_needOk _).bind fun _ => Orderly.pure _)

theorem orderly_drain : Orderly drain := Orderly.get.bind fun _ => orderly_logicalOk _ _

theorem orderly_selectAp (a : Word) : Orderly (selectAp a) := Orderly.get.bind fun _ => orderly_writeDp _ _

theorem orderly_readAp (a : Word) : Orderly (readAp a) :=
  (Orderly.require _).bind fun _ => (orderly_selectAp a).bind fun _ => (orderly_logicalOk _ _).bind fun _ => orderly_drain

theorem orderly_apWriteDrain (a v : Word) : Orderly (apWriteDrain a v) :=
  (orderly_logical _ _).bind fun _ => Orderly.ite _
    (Orderly.get.bind fun _ => (orderly_logical _ _).bind fun _ => Orderly.pure _) (Orderly.pure _)

theorem orderly_followCsw (a v : Word) (r : AckResult) : Orderly (followCsw a v r) :=
  Orderly.get.bind fun _ => Orderly.ite _ (orderly_modifyMirror _) (Orderly.pure _)

theorem orderly_writeAp (a v : Word) : Orderly (writeAp a v) :=
  (Orderly.require _).bind fun _ => (orderly_selectAp a).bind fun _ => Orderly.get.bind fun _ =>
    Orderly.ite _ (Orderly.pure _) ((orderly_apWriteDrain _ _).bind fun _ => (orderly_followCsw _ _ _).bind fun _ =>
      Orderly.ite _ (Orderly.pure _) (Orderly.throw (by decide)))

theorem orderly_rawTransfer (x : AckResult × Word) : Orderly (rawTransfer x) :=
  (Orderly.modify (f := fun s => (s.setRes0 x.2).setRes1 (x.1.code.setWidth 32)) (fun _ => ⟨rfl, rfl⟩)).bind fun _ =>
    (orderly_needOk x).bind fun _ => Orderly.pure _

theorem orderly_transfer (r : Req) (w : Word) : Orderly (linkOp (fun c l => transfer c.turnaround r w l)) :=
  ⟨fun s _ => Link.frame_atIdle s.link s.cfg.turnaround r w, fun _ _ _ h => nomatch h⟩

/-! ### U2 -/

theorem orderly_setMode (m : Cfg → Word) : Orderly (setMode m) := Orderly.get.bind fun _ => orderly_writeAp _ _
theorem orderly_setAddr (a : Word) : Orderly (setAddr a) := Orderly.get.bind fun _ => orderly_writeAp _ _
theorem orderly_readDrw : Orderly readDrw := Orderly.get.bind fun _ => orderly_readAp _
theorem orderly_writeDrw (v : Word) : Orderly (writeDrw v) := Orderly.get.bind fun _ => orderly_writeAp _ _
theorem orderly_selectDrw : Orderly selectDrw := Orderly.get.bind fun _ => orderly_selectAp _
theorem orderly_apRead : Orderly apRead := Orderly.get.bind fun _ => orderly_logicalOk _ _
theorem orderly_apWrite (w : Word) : Orderly (apWrite w) :=
  Orderly.get.bind fun _ => (orderly_logicalOk _ _).bind fun _ => Orderly.pure _

theorem orderly_readWord (a : Word) : Orderly (readWord a) :=
  (Orderly.require _).bind fun _ => (orderly_setMode _).bind fun _ => (orderly_setAddr _).bind fun _ => orderly_readDrw

theorem orderly_writeWord (a v : Word) : Orderly (writeWord a v) :=
  (Orderly.require _).bind fun _ => (orderly_setMode _).bind fun _ => (orderly_setAddr _).bind fun _ => orderly_writeDrw v

theorem orderly_readByte (a : Word) : Orderly (readByte a) :=
  (orderly_setMode _).bind fun _ => (orderly_setAddr _).bind fun _ => orderly_readDrw.bind fun _ => Orderly.pure _

theorem orderly_writeByte (a : Word) (b : Byte) : Orderly (writeByte a b) :=
  (orderly_setMode _).bind fun _ => (orderly_setAddr _).bind fun _ => orderly_writeDrw _

theorem orderly_loops (f : State → Loops) : Orderly (modifyOp (fun s => s.setLoops (f s))) :=
  Orderly.modify (fun _ => ⟨rfl, rfl⟩)

theorem orderly_buf (f : State → Memory) : Orderly (modifyOp (fun s => s.setBuf (f s))) :=
  Orderly.modify (fun _ => ⟨rfl, rfl⟩)

theorem orderly_readStream : ∀ (n o : Nat), Orderly (readStream n o)
  | 0, _ => (orderly_loops _).bind fun _ => orderly_drain.bind fun _ => orderly_buf _
  | n + 1, o => (orderly_loops _).bind fun _ => orderly_apRead.bind fun _ => (orderly_buf _).bind fun _ =>
    orderly_readStream n (o + 4)

theorem orderly_writeStream (src : Nat → Byte) : ∀ (n o : Nat), Orderly (writeStream src n o)
  | 0, _ => (orderly_loops _).bind fun _ => orderly_drain.bind fun _ => Orderly.pure _
  | n + 1, o => (orderly_loops _).bind fun _ => (orderly_apWrite _).bind fun _ => orderly_writeStream src n (o + 4)

theorem orderly_readWords (a : Word) (o n : Nat) : Orderly (readWords a o n) :=
  (orderly_setMode _).bind fun _ => (orderly_setAddr _).bind fun _ => orderly_selectDrw.bind fun _ =>
    (orderly_loops _).bind fun _ => orderly_apRead.bind fun _ => orderly_readStream _ _

theorem orderly_writeWords (src : Nat → Byte) (a : Word) (o n : Nat) : Orderly (writeWords src a o n) :=
  (orderly_setMode _).bind fun _ => (orderly_setAddr _).bind fun _ => orderly_selectDrw.bind fun _ =>
    orderly_writeStream src _ _

theorem orderly_requireRange (o n : Word) : Orderly (requireRange o n) := Orderly.get.bind fun _ => Orderly.require _

theorem orderly_readBlock (a o n : Word) : Orderly (readBlock a o n) :=
  (Orderly.require _).bind fun _ => (orderly_requireRange o n).bind fun _ => orderly_readWords _ _ _

theorem orderly_writeBlock (a o n : Word) : Orderly (writeBlock a o n) :=
  (Orderly.require _).bind fun _ => (orderly_requireRange o n).bind fun _ => Orderly.get.bind fun _ =>
    orderly_writeWords _ _ _ _

section Walk

variable {byteOp : Word → Nat → Op Unit} {blockOp : Word → Nat → Nat → Op Unit}

theorem orderly_walkLead (hb : ∀ a o, Orderly (byteOp a o)) : ∀ (n : Nat) (a : Word) (o : Nat),
    Orderly (walkLead byteOp n a o)
  | 0, _, _ => Orderly.pure _
  | n + 1, a, o => Orderly.ite _ (Orderly.pure _) ((orderly_loops _).bind fun _ => (hb a o).bind fun _ =>
    orderly_walkLead hb n _ _)

theorem orderly_walkBlocks (hk : ∀ a o n, Orderly (blockOp a o n)) : ∀ (fuel : Nat) (c : Cursor),
    Orderly (walkBlocks blockOp fuel c)
  | 0, _ => Orderly.pure _
  | n + 1, _ => Orderly.ite _ (Orderly.pure _) (Orderly.get.bind fun _ => (orderly_loops _).bind fun _ =>
    (hk _ _ _).bind fun _ => orderly_walkBlocks hk n _)

theorem orderly_walkTail (hb : ∀ a o, Orderly (byteOp a o)) : ∀ (n : Nat) (a : Word) (o : Nat),
    Orderly (walkTail byteOp n a o)
  | 0, _, _ => Orderly.pure _
  | n + 1, a, o => (orderly_loops _).bind fun _ => (hb a o).bind fun _ => orderly_walkTail hb n _ _

theorem orderly_walk (hb : ∀ a o, Orderly (byteOp a o)) (hk : ∀ a o n, Orderly (blockOp a o n)) (a : Word) (o n : Nat) :
    Orderly (walk byteOp blockOp a o n) :=
  (orderly_walkLead hb n a o).bind fun _ => (orderly_walkBlocks hk _ _).bind fun _ => orderly_walkTail hb _ _ _

end Walk

theorem orderly_readMemory (a o n : Word) : Orderly (readMemory a o n) :=
  (orderly_requireRange o n).bind fun _ => orderly_walk (fun a _ => (orderly_readByte a).bind fun _ => orderly_buf _)
    (fun _ _ _ => orderly_readWords _ _ _) _ _ _

theorem orderly_writeBytesFrom (src : Nat → Byte) (a : Word) (o n : Nat) : Orderly (writeBytesFrom src a o n) :=
  orderly_walk (fun _ _ => orderly_writeByte _ _) (fun _ _ _ => orderly_writeWords src _ _ _) _ _ _

theorem orderly_writeMemory (a o n : Word) : Orderly (writeMemory a o n) :=
  (orderly_requireRange o n).bind fun _ => Orderly.get.bind fun _ => orderly_writeBytesFrom _ _ _ _

theorem orderly_pollLoop {read : Op Word} (hr : Orderly read) (done : Word → Bool) {c : Cause} (hc : c ≠ .none) :
    ∀ n, Orderly (pollLoop read done c n)
  | 0 => hr.bind fun _ => (orderly_loops _).bind fun _ => Orderly.ite _ (Orderly.pure _) (Orderly.throw hc)
  | n + 1 => hr.bind fun _ => (orderly_loops _).bind fun _ => Orderly.ite _ (Orderly.pure _)
    (orderly_pollLoop hr done hc n)

theorem orderly_pollUntil {read : Op Word} (hr : Orderly read) (cap : Nat) (done : Word → Bool) {c : Cause}
    (hc : c ≠ .none) : Orderly (pollUntil cap read done c) :=
  (orderly_loops _).bind fun _ => orderly_pollLoop hr done hc _

theorem orderly_readDhcsr : Orderly readDhcsr := Orderly.get.bind fun _ => orderly_readWord _

theorem orderly_pollReady : Orderly pollReady :=
  Orderly.get.bind fun _ => orderly_pollUntil orderly_readDhcsr _ _ (by decide)

theorem orderly_readCoreReg (n : Word) : Orderly (readCoreReg n) :=
  (Orderly.require _).bind fun _ => Orderly.get.bind fun _ => (orderly_writeWord _ _).bind fun _ =>
    orderly_pollReady.bind fun _ => orderly_readWord _

theorem orderly_writeCoreReg (n v : Word) : Orderly (writeCoreReg n v) :=
  (Orderly.require _).bind fun _ => Orderly.get.bind fun _ => (orderly_writeWord _ _).bind fun _ =>
    (orderly_writeWord _ _).bind fun _ => orderly_pollReady

theorem orderly_writeCoreRegs : ∀ l : List (Word × Word), Orderly (writeCoreRegs l)
  | [] => Orderly.pure _
  | (n, v) :: rest => (orderly_writeCoreReg n v).bind fun _ => orderly_writeCoreRegs rest

theorem orderly_ds (f : State → Ds) : Orderly (modifyOp (fun s => s.setDs (f s))) := Orderly.modify (fun _ => ⟨rfl, rfl⟩)

theorem orderly_writeDebugState : Orderly writeDebugState :=
  (orderly_ds _).bind fun _ => Orderly.get.bind fun _ => (orderly_writeCoreRegs _).bind fun _ =>
    (orderly_writeWord _ _).bind fun _ => (orderly_readDp _).bind fun _ =>
      Orderly.ite _ (Orderly.throw (by decide)) (Orderly.pure _)

/-! ### U4 -/

theorem orderly_resetPulse : Orderly resetPulse :=
  Orderly.bind ⟨fun _ h => h, fun _ _ _ h => nomatch h⟩ fun _ => orderly_sessionInit

theorem orderly_lcPowerUp : Orderly lcPowerUp :=
  Orderly.get.bind fun _ => (orderly_writeDp _ _).bind fun _ => (orderly_writeDp _ _).bind fun _ =>
    (orderly_writeDp _ _).bind fun _ => orderly_pollUntil (orderly_readDp _) _ _ (by decide)

theorem orderly_debugEnable : Orderly debugEnable := Orderly.get.bind fun _ => orderly_writeWord _ _

theorem orderly_enableDebug : ∀ n, Orderly (enableDebug n)
  | 0 => by
    constructor
    · intro s hs
      have h := orderly_debugEnable.idle s hs
      unfold enableDebug
      cases hd : debugEnable s <;> rw [hd] at h <;> exact h
    · intro s c t h
      unfold enableDebug at h
      cases hd : debugEnable s <;> rw [hd] at h <;> cases h
      decide
  | n + 1 => by
    have h2 : Orderly (resetPulse >>= fun _ => enableDebug n) := orderly_resetPulse.bind fun _ => orderly_enableDebug n
    constructor
    · intro s hs
      have h := orderly_debugEnable.idle s hs
      unfold enableDebug
      cases hd : debugEnable s with
      | ok a t => rw [hd] at h; exact h
      | error c t => rw [hd] at h; exact h2.idle t h
    · intro s c t h
      unfold enableDebug at h
      cases hd : debugEnable s with
      | ok a u => rw [hd] at h; cases h
      | error c' u => rw [hd] at h; exact h2.named u c t h

theorem orderly_writeDemcr (v : Word) : Orderly (writeDemcr v) := Orderly.get.bind fun _ => orderly_writeWord _ _

theorem orderly_waitHalt : Orderly waitHalt :=
  Orderly.get.bind fun _ => orderly_pollUntil orderly_readDhcsr _ _ (by decide)

theorem orderly_softReset : Orderly softReset :=
  Orderly.get.bind fun _ => (orderly_writeWord _ _).bind fun _ => orderly_sessionInit

theorem orderly_resetHaltWith {step3 : Op Unit} (h3 : Orderly step3) : Orderly (resetHaltWith step3) :=
  Orderly.get.bind fun _ => (orderly_enableDebug _).bind fun _ => (orderly_writeDemcr _).bind fun _ => h3.bind fun _ =>
    orderly_waitHalt.bind fun _ => orderly_writeDemcr _

theorem orderly_resetHalt : Orderly resetHalt :=
  Orderly.get.bind fun _ => Orderly.ite _ (orderly_resetHaltWith orderly_softReset)
    (orderly_resetHaltWith orderly_resetPulse)

theorem orderly_lcHalt : Orderly lcHalt := Orderly.get.bind fun _ => orderly_writeWord _ _

theorem orderly_lcRun : Orderly lcRun :=
  Orderly.get.bind fun _ => (orderly_writeWord _ _).bind fun _ => (orderly_writeDp _ _).bind fun _ => orderly_sessionInit

/-- A connect ends in the DP read of `IDCODE`, whatever the pins were: its last transfer leaves them idle (R282). -/
theorem lcConnect_idle (s : State) (h : dpAddrOk s.cfg.dpIdcode = true) : AtIdle (finalState (lcConnect s)).link := by
  have key : ∀ t : State, t.cfg = s.cfg → AtIdle (finalState (((MonadState.get : Op State) >>= fun u =>
      readDp u.cfg.dpIdcode) t)).link := by
    intro t ht
    rw [Op.get_bind, ht, readDp, Op.require_bind h, logicalOk_eq', Op.bind_apply]
    have hl := (transferRetry_grows t.cfg.turnaround t.cfg.retry (reqCode false true s.cfg.dpIdcode) 0 t.link).2
    exact (orderly_needOk _).idle (t.setLink _) hl
  rw [lcConnect]
  simp only [Op.bind_apply, sessionInit, modifyMirror, linkOp, lineReset, wireDo]
  exact key _ rfl
where
  logicalOk_eq' {r : Req} {w : Word} : logicalOk r w = (logical r w >>= needOk) := rfl

theorem lcConnect_named (s : State) (c : Cause) (t : State) (h : lcConnect s = .error c t) : c ≠ .none := by
  rw [lcConnect] at h
  simp only [Op.bind_apply, sessionInit, modifyMirror, linkOp, lineReset, wireDo] at h
  exact (Orderly.get.bind fun u : State => orderly_readDp u.cfg.dpIdcode).named _ c t h

/-! ### U3 -/

theorem orderly_requireFa : Orderly requireFa := Orderly.get.bind fun _ => Orderly.require _

theorem orderly_harvest : Orderly harvest :=
  (orderly_readCoreReg 0).bind fun _ => Orderly.bind (Orderly.modify (fun _ => ⟨rfl, rfl⟩)) fun _ => Orderly.pure _

theorem orderly_faSyscall (e a b c d : Word) : Orderly (faSyscall e a b c d) :=
  orderly_requireFa.bind fun _ => (orderly_ds _).bind fun _ => orderly_writeDebugState.bind fun _ =>
    Orderly.bind (Orderly.get.bind fun _ => orderly_pollUntil orderly_readDhcsr _ _ (by decide)) fun _ => orderly_harvest

theorem orderly_judgedCall (x : EntryPoint) (e a b c d : Word) : Orderly (judgedCall x e a b c d) :=
  (orderly_faSyscall e a b c d).bind fun _ => Orderly.get.bind fun _ =>
    Orderly.ite _ (Orderly.pure _) (Orderly.throw (by decide))

theorem orderly_faInit (b : Word) : Orderly (faInit b) :=
  Orderly.bind (Orderly.modify (fun _ => ⟨rfl, rfl⟩)) fun _ => orderly_resetHalt.bind fun _ =>
    Orderly.bind (Orderly.get.bind fun _ => orderly_writeBytesFrom _ _ _ _) fun _ => Orderly.get.bind fun _ =>
      orderly_judgedCall _ _ _ _ _ _

theorem orderly_faUninit : Orderly faUninit :=
  orderly_requireFa.bind fun _ => Orderly.get.bind fun _ =>
    Orderly.ite _ (orderly_judgedCall _ _ _ _ _ _) (Orderly.pure _)

theorem orderly_programChunk (a : Word) (o c : Nat) : Orderly (programChunk a o c) :=
  Orderly.get.bind fun _ => Orderly.bind (Orderly.get.bind fun _ => orderly_writeBytesFrom _ _ _ _) fun _ =>
    (orderly_judgedCall _ _ _ _ _ _).bind fun _ => Orderly.modify (fun _ => ⟨rfl, rfl⟩)

theorem orderly_programChunks : ∀ (n : Nat) (a : Word) (o k : Nat), Orderly (programChunks n a o k)
  | 0, _, _, _ => Orderly.pure _
  | n + 1, _, _, _ => Orderly.ite _ (Orderly.pure _) (Orderly.get.bind fun _ => (orderly_loops _).bind fun _ =>
    (orderly_programChunk _ _ _).bind fun _ => orderly_programChunks n _ _ _)

theorem orderly_faProgramPage (a o n : Word) : Orderly (faProgramPage a o n) :=
  orderly_requireFa.bind fun _ => (orderly_requireRange o n).bind fun _ => Orderly.get.bind fun _ =>
    (Orderly.require _).bind fun _ => Orderly.bind (Orderly.modify (fun _ => ⟨rfl, rfl⟩)) fun _ =>
      orderly_programChunks _ _ _ _

theorem orderly_faEraseSector (a : Word) : Orderly (faEraseSector a) :=
  orderly_requireFa.bind fun _ => Orderly.get.bind fun _ => orderly_judgedCall _ _ _ _ _ _

theorem orderly_faEraseChip : Orderly faEraseChip :=
  orderly_requireFa.bind fun _ => Orderly.get.bind fun _ => orderly_judgedCall _ _ _ _ _ _

theorem orderly_faVerify (a n c : Word) : Orderly (faVerify a n c) :=
  orderly_requireFa.bind fun _ => Orderly.get.bind fun _ =>
    Orderly.ite _ (orderly_judgedCall _ _ _ _ _ _) (Orderly.throw (by decide))

theorem orderly_faSetRdp : Orderly faSetRdp :=
  orderly_requireFa.bind fun _ => Orderly.get.bind fun _ =>
    Orderly.ite _ (orderly_judgedCall _ _ _ _ _ _) (Orderly.throw (by decide))

theorem orderly_faSectorIsBoundary (a : Word) : Orderly (faSectorIsBoundary a) :=
  orderly_requireFa.bind fun _ => Orderly.get.bind fun _ => Orderly.pure _

end Sys2Proof.Machine
end

