-- ==== Sys2Proof/Laws/PerInstr.lean ====
section
/-! SUPPORT. A law of every instruction's encoding, one lemma for each constructor: which of the three formats its code has,
and the fixed bits of that format (30_encoding.md R91, R93, R96, R103, R106). -/

namespace Sys2Proof.Laws

/-- The fixed bits of a format: a command opcode is below 0x47 (R106); a request header has Start 1, Stop 0, Park 1 and an
even number of ones in between (R91, R93); an acknowledge has exactly one bit set (R96). -/
def fixedBits : Code → Bool
  | .cmd op _ => op.toNat < 0x47
  | .req h => h.getLsbD 0 && !h.getLsbD 6 && h.getLsbD 7
      && !(h.getLsbD 1 ^^ h.getLsbD 2 ^^ h.getLsbD 3 ^^ h.getLsbD 4 ^^ h.getLsbD 5)
  | .ack v => v = 1 || v = 2 || v = 4

/-- The code of `i` has its format's fixed bits. -/
def Format.Statement (i : Instr) : Prop := fixedBits (encode i) = true

theorem Format.clockPulse : Format.Statement .clockPulse := rfl
theorem Format.setDir (d : Dir) : Format.Statement (.setDir d) := rfl
theorem Format.writeBit (b : Bool) : Format.Statement (.writeBit b) := rfl
theorem Format.readBit : Format.Statement .readBit := rfl
theorem Format.transfer (req : Req) (wdata : Word) : Format.Statement (.transfer req wdata) := rfl
theorem Format.transferRetry (req : Req) (wdata : Word) : Format.Statement (.transferRetry req wdata) := rfl
theorem Format.readDp (addr : Word) : Format.Statement (.readDp addr) := rfl
theorem Format.writeDp (addr value : Word) : Format.Statement (.writeDp addr value) := rfl
theorem Format.readAp (apaddr : Word) : Format.Statement (.readAp apaddr) := rfl
theorem Format.writeAp (apaddr value : Word) : Format.Statement (.writeAp apaddr value) := rfl
theorem Format.sessionInit : Format.Statement .sessionInit := rfl
theorem Format.readWord (addr : Word) : Format.Statement (.readWord addr) := rfl
theorem Format.writeWord (addr value : Word) : Format.Statement (.writeWord addr value) := rfl
theorem Format.readByte (addr : Word) : Format.Statement (.readByte addr) := rfl
theorem Format.writeByte (addr : Word) (value : Byte) : Format.Statement (.writeByte addr value) := rfl
theorem Format.readBlock (addr buf size : Word) : Format.Statement (.readBlock addr buf size) := rfl
theorem Format.writeBlock (addr buf size : Word) : Format.Statement (.writeBlock addr buf size) := rfl
theorem Format.readMemory (addr buf size : Word) : Format.Statement (.readMemory addr buf size) := rfl
theorem Format.writeMemory (addr buf size : Word) : Format.Statement (.writeMemory addr buf size) := rfl
theorem Format.readCoreReg (n : Word) : Format.Statement (.readCoreReg n) := rfl
theorem Format.writeCoreReg (n value : Word) : Format.Statement (.writeCoreReg n value) := rfl
theorem Format.writeDebugState : Format.Statement .writeDebugState := rfl
theorem Format.faInit (base : Word) : Format.Statement (.faInit base) := rfl
theorem Format.faUninit : Format.Statement .faUninit := rfl
theorem Format.faProgramPage (addr buf len : Word) : Format.Statement (.faProgramPage addr buf len) := rfl
theorem Format.faEraseSector (addr : Word) : Format.Statement (.faEraseSector addr) := rfl
theorem Format.faEraseChip : Format.Statement .faEraseChip := rfl
theorem Format.faVerify (addr size crc : Word) : Format.Statement (.faVerify addr size crc) := rfl
theorem Format.faSetRdp : Format.Statement .faSetRdp := rfl
theorem Format.faSectorIsBoundary (addr : Word) : Format.Statement (.faSectorIsBoundary addr) := rfl
theorem Format.faSyscall (entry a1 a2 a3 a4 : Word) : Format.Statement (.faSyscall entry a1 a2 a3 a4) := rfl
theorem Format.lcConnect : Format.Statement .lcConnect := rfl
theorem Format.lcPowerUp : Format.Statement .lcPowerUp := rfl
theorem Format.lcResetHalt : Format.Statement .lcResetHalt := rfl
theorem Format.lcResetRun : Format.Statement .lcResetRun := rfl
theorem Format.lcHalt : Format.Statement .lcHalt := rfl
theorem Format.lcRun : Format.Statement .lcRun := rfl
theorem Format.lcSoftResetHalt : Format.Statement .lcSoftResetHalt := rfl
theorem Format.reqDpWr0 : Format.Statement .reqDpWr0 := rfl
theorem Format.reqApWr0 : Format.Statement .reqApWr0 := rfl
theorem Format.reqDpRd0 : Format.Statement .reqDpRd0 := rfl
theorem Format.reqApRd0 : Format.Statement .reqApRd0 := rfl
theorem Format.reqDpWr4 : Format.Statement .reqDpWr4 := rfl
theorem Format.reqApWr4 : Format.Statement .reqApWr4 := rfl
theorem Format.reqDpRd4 : Format.Statement .reqDpRd4 := rfl
theorem Format.reqApRd4 : Format.Statement .reqApRd4 := rfl
theorem Format.reqDpWr8 : Format.Statement .reqDpWr8 := rfl
theorem Format.reqApWr8 : Format.Statement .reqApWr8 := rfl
theorem Format.reqDpRd8 : Format.Statement .reqDpRd8 := rfl
theorem Format.reqApRd8 : Format.Statement .reqApRd8 := rfl
theorem Format.reqDpWrC : Format.Statement .reqDpWrC := rfl
theorem Format.reqApWrC : Format.Statement .reqApWrC := rfl
theorem Format.reqDpRdC : Format.Statement .reqDpRdC := rfl
theorem Format.reqApRdC : Format.Statement .reqApRdC := rfl
theorem Format.ackOk : Format.Statement .ackOk := rfl
theorem Format.ackWait : Format.Statement .ackWait := rfl
theorem Format.ackFault : Format.Statement .ackFault := rfl

end Sys2Proof.Laws
end

