-- ==== Sys2Proof/Laws/ReadRange.lean ====
section
/-! SUPPORT. The reads into `BUF` write inside their range only, however they end (R212). -/

namespace Sys2Proof.Machine

/-- Between `s` and `t` only offsets `o` to `o + n - 1` of `BUF` changed, and its form was kept. -/
def RangeOnly (o n : Nat) (m m' : Memory) : Prop :=
  m.wf = true → m'.wf = true ∧ (∀ k, o + n ≤ k → m.below k = true → m'.below k = true)
    ∧ ∀ x, x < o ∨ o + n ≤ x → m'.read x = m.read x

theorem RangeOnly.refl (o n : Nat) (m : Memory) : RangeOnly o n m m := fun h => ⟨h, fun _ _ h => h, fun _ _ => rfl⟩

theorem RangeOnly.trans {o n : Nat} {a b c : Memory} (h1 : RangeOnly o n a b) (h2 : RangeOnly o n b c) :
    RangeOnly o n a c := by
  intro h
  obtain ⟨k1, k2, k3⟩ := h1 h
  obtain ⟨j1, j2, j3⟩ := h2 k1
  exact ⟨j1, fun k hk hb => j2 k hk (k2 k hk hb), fun x hx => (j3 x hx).trans (k3 x hx)⟩

theorem RangeOnly.widen {o n o' n' : Nat} {a b : Memory} (h : RangeOnly o' n' a b) (h1 : o ≤ o') (h2 : o' + n' ≤ o + n) :
    RangeOnly o n a b := by
  intro hw
  obtain ⟨k1, k2, k3⟩ := h hw
  exact ⟨k1, fun k hk hb => k2 k (by omega) hb, fun x hx => k3 x (by omega)⟩

theorem RangeOnly.writeBytes (m : Memory) (o : Nat) (bs : List Byte) : RangeOnly o bs.length m (m.writeBytes o bs) :=
  fun h => ⟨Memory.wf_writeBytes bs o h, fun _ hk hb => Memory.below_writeBytes bs hb hk,
    fun _ hx => Memory.read_writeBytes_outside bs h hx⟩

/-- However the operation ends, it wrote only inside the range. -/
def Ranged {α : Type} (o n : Nat) (op : Op α) : Prop := ∀ s, RangeOnly o n s.buf (finalState (op s)).buf

theorem Ranged.bind {α β : Type} {o n : Nat} {x : Op α} {f : α → Op β} (h1 : Ranged o n x) (h2 : ∀ a, Ranged o n (f a)) :
    Ranged o n (x >>= f) := by
  intro s
  have hx := h1 s
  rw [Op.bind_apply]
  cases h : x s with
  | ok a t => rw [h] at hx; exact hx.trans (h2 a t)
  | error c t => rw [h] at hx; exact hx

theorem Ranged.widen {α : Type} {o n o' n' : Nat} {x : Op α} (h : Ranged o' n' x) (h1 : o ≤ o') (h2 : o' + n' ≤ o + n) :
    Ranged o n x := fun s => (h s).widen h1 h2

/-- What an operation that writes loop registers only may write. -/
abbrev loopsOnly : Touch := { loops := true }

theorem Ranged.ofKeeps {α : Type} {x : Op α} (h : Keeps loopsOnly x) (o n : Nat) : Ranged o n x := by
  intro s; rw [(h s).buf rfl]; exact RangeOnly.refl o n _

theorem ranged_writeWord (o : Nat) (v : Word) : Ranged o 4 (bufWriteWord o v) :=
  fun s => RangeOnly.writeBytes s.buf o _

theorem ranged_writeByte (o : Nat) (v : Byte) : Ranged o 1 (bufWriteByte o v) :=
  fun s => RangeOnly.writeBytes s.buf o [v]

theorem ranged_readStream : ∀ (left o : Nat), Ranged o (4 * (left + 1)) (readStream left o)
  | 0, o => (Ranged.ofKeeps (keeps_setWordcnt _ rfl 0) o _).bind fun _ => (Ranged.ofKeeps (keeps_drain _) o _).bind fun _ =>
    ranged_writeWord o _
  | left + 1, o => (Ranged.ofKeeps (keeps_setWordcnt _ rfl _) o _).bind fun _ => (Ranged.ofKeeps (keeps_apRead _) o _).bind fun _ =>
    ((ranged_writeWord o _).widen (Nat.le_refl _) (by omega)).bind fun _ =>
      (ranged_readStream left (o + 4)).widen (by omega) (by omega)

theorem ranged_readWords (a : Word) (o n : Nat) : Ranged o (4 * (n / 4 - 1 + 1)) (readWords a o n) :=
  (Ranged.ofKeeps (keeps_setMode _ _) o _).bind fun _ => (Ranged.ofKeeps (keeps_setAddr _ _) o _).bind fun _ =>
    (Ranged.ofKeeps (keeps_selectDrw _) o _).bind fun _ => (Ranged.ofKeeps (keeps_setWordcnt _ rfl _) o _).bind fun _ =>
      (Ranged.ofKeeps (keeps_apRead _) o _).bind fun _ => ranged_readStream _ o

theorem ranged_readByteTo (a : Word) (o : Nat) : Ranged o 1 (readByteTo a o) :=
  (Ranged.ofKeeps (keeps_readByte _ a) o 1).bind fun _ => ranged_writeByte o _

theorem ranged_pure {α : Type} (o n : Nat) (v : α) : Ranged o n (pure v : Op α) := fun _ => RangeOnly.refl o n _

/-- The cursor a walk part answers stays inside the range. -/
def Walked {o n : Nat} (op : Op Cursor) : Prop :=
  ∀ s, RangeOnly o n s.buf (finalState (op s)).buf ∧ ∀ c t, op s = .ok c t → o ≤ c.off ∧ c.off + c.left ≤ o + n

theorem ranged_lead : ∀ (left : Nat) (a : Word) (o off n : Nat), o ≤ off → off + left ≤ o + n →
    Walked (o := o) (n := n) (walkLead readByteTo left a off)
  | 0, a, o, off, n, h1, h2 => fun s => ⟨RangeOnly.refl o n _, fun c t h => by cases h; exact ⟨h1, by simpa using h2⟩⟩
  | left + 1, a, o, off, n, h1, h2 => by
    intro s
    unfold walkLead
    rw [Op.ite_apply]
    split
    · exact ⟨RangeOnly.refl o n _, fun c t h => by cases h; exact ⟨h1, h2⟩⟩
    · have hb := (ranged_readByteTo a off).widen (o := o) (n := n) h1 (by omega)
      have hcur : ∃ u, setCursor a off (left + 1) s = .ok () u ∧ u.buf = s.buf := ⟨_, rfl, rfl⟩
      obtain ⟨u, hu, hub⟩ := hcur
      rw [Op.bind_ok _ hu, Op.bind_apply, ← hub]
      have hx := hb u
      cases hr : readByteTo a off u with
      | error c t => rw [hr] at hx; exact ⟨hx, fun _ _ h => nomatch h⟩
      | ok v t =>
        rw [hr] at hx
        obtain ⟨k1, k2⟩ := ranged_lead left (a + 1) o (off + 1) n (by omega) (by omega) t
        exact ⟨hx.trans k1, k2⟩

theorem ranged_blocks : ∀ (fuel : Nat) (c : Cursor) (o n : Nat), o ≤ c.off → c.off + c.left ≤ o + n →
    Walked (o := o) (n := n) (walkBlocks readWords fuel c)
  | 0, c, o, n, h1, h2 => fun s => ⟨RangeOnly.refl o n _, fun c t h => by cases h; exact ⟨h1, h2⟩⟩
  | fuel + 1, c, o, n, h1, h2 => by
    intro s
    unfold walkBlocks
    rw [Op.ite_apply]
    split
    · exact ⟨RangeOnly.refl o n _, fun c t h => by cases h; exact ⟨h1, h2⟩⟩
    · rename_i h3
      have hlen : blockLen s.cfg.blockMax c.addr c.left ≤ c.left := by unfold blockLen; omega
      have hb := (ranged_readWords c.addr c.off (blockLen s.cfg.blockMax c.addr c.left)).widen (o := o) (n := n) h1 (by omega)
      have hcur : ∃ u, setCursor c.addr c.off c.left s = .ok () u ∧ u.buf = s.buf := ⟨_, rfl, rfl⟩
      obtain ⟨u, hu, hub⟩ := hcur
      rw [Op.get_bind, Op.bind_ok _ hu, Op.bind_apply, ← hub]
      have hx := hb u
      cases hr : readWords c.addr c.off (blockLen s.cfg.blockMax c.addr c.left) u with
      | error c t => rw [hr] at hx; exact ⟨hx, fun _ _ h => nomatch h⟩
      | ok v t =>
        rw [hr] at hx
        obtain ⟨k1, k2⟩ := ranged_blocks fuel ⟨_, _, _⟩ o n (show o ≤ c.off + _ by omega)
          (show c.off + blockLen s.cfg.blockMax c.addr c.left + (c.left - blockLen s.cfg.blockMax c.addr c.left) ≤ _ by omega) t
        exact ⟨hx.trans k1, k2⟩

theorem ranged_tail : ∀ (left : Nat) (a : Word) (o off n : Nat), o ≤ off → off + left ≤ o + n →
    Ranged o n (walkTail readByteTo left a off)
  | 0, _, o, _, n, _, _ => ranged_pure o n _
  | left + 1, a, o, off, n, h1, h2 =>
    (Ranged.ofKeeps (keeps_setCursor _ rfl _ _ _) o n).bind fun _ =>
      ((ranged_readByteTo a off).widen h1 (by omega)).bind fun _ => ranged_tail left (a + 1) o (off + 1) n (by omega) (by omega)

theorem ranged_readMemory (a o n : Word) : Ranged o.toNat n.toNat (readMemory a o n) := by
  refine (Ranged.ofKeeps (keeps_requireRange _ o n) _ _).bind fun _ => ?_
  intro s
  unfold walk
  obtain ⟨h1, h2⟩ := ranged_lead n.toNat a o.toNat o.toNat n.toNat (Nat.le_refl _) (Nat.le_refl _) s
  rw [Op.bind_apply]
  cases hl : walkLead readByteTo n.toNat a o.toNat s with
  | error c t => rw [hl] at h1; exact h1
  | ok c t =>
    rw [hl] at h1
    obtain ⟨h3, h4⟩ := h2 c t hl
    obtain ⟨k1, k2⟩ := ranged_blocks c.left c o.toNat n.toNat h3 h4 t
    simp only
    rw [Op.bind_apply]
    cases hb : walkBlocks readWords c.left c t with
    | error c2 u => rw [hb] at k1; exact h1.trans k1
    | ok c2 u =>
      rw [hb] at k1
      obtain ⟨k3, k4⟩ := k2 c2 u hb
      exact (h1.trans k1).trans (ranged_tail c2.left c2.addr o.toNat c2.off n.toNat k3 k4 u)

/-- A block has as many bytes as whole words. -/
theorem blockShape_words {a n : Word} (h : blockShapeOk a n = true) : 4 * (n.toNat / 4 - 1 + 1) = n.toNat := by
  simp only [blockShapeOk, Bool.and_eq_true, bne_iff_ne, ne_eq, decide_eq_true_eq] at h
  have h0 : n.toNat ≠ 0 := fun h0 => h.1.2 (BitVec.eq_of_toNat_eq h0)
  have h2 := congrArg BitVec.toNat h.2
  rw [BitVec.toNat_and] at h2
  have h3 : n.toNat &&& 3 = n.toNat % 4 := Nat.and_two_pow_sub_one_eq_mod n.toNat 2
  have h4 : n.toNat % 4 = 0 := by rw [← h3]; exact h2
  omega

theorem ranged_readBlock (a o n : Word) : Ranged o.toNat n.toNat (readBlock a o n) := by
  intro s
  unfold readBlock
  cases h : blockShapeOk a n with
  | false => rw [Op.bind_error _ (require_false rfl s)]; exact RangeOnly.refl _ _ _
  | true =>
    rw [Op.require_bind rfl]
    refine Ranged.bind (Ranged.ofKeeps (keeps_requireRange _ o n) _ _) (fun _ => ?_) s
    have := ranged_readWords a o.toNat n.toNat
    rwa [blockShape_words h] at this

end Sys2Proof.Machine
end

