-- ==== Sys2Proof/Tests/Slice0.lean ====
section
/-! SUPPORT. Tests of the model. Their expected values are the tables of 30_encoding.md, the vectors T1 to T84 of
95_test_vectors.md and the worked examples the rules give; none is a result of the model. -/

namespace Sys2Proof.Tests

open Sys2Proof.Machine

/-! ### Well-formed terms: one ill-formed term for each check (R70, R345) -/

theorem test_wf_readDp : (Instr.readDp 0x5).wellFormed = false := by decide
theorem test_wf_writeDp : (Instr.writeDp 0x10 0).wellFormed = false := by decide
theorem test_wf_readAp : (Instr.readAp 0x102).wellFormed = false ∧ (Instr.readAp 0x1).wellFormed = false := by decide
theorem test_wf_writeAp : (Instr.writeAp 0x00010000 0).wellFormed = false := by decide
theorem test_wf_readWord : (Instr.readWord 0x20000002).wellFormed = false := by decide
theorem test_wf_writeWord : (Instr.writeWord 0x20000001 0).wellFormed = false := by decide
theorem test_wf_readBlock : (Instr.readBlock 0x20000002 0 4).wellFormed = false
    ∧ (Instr.readBlock 0x20000000 0 0).wellFormed = false ∧ (Instr.readBlock 0x20000000 0 6).wellFormed = false := by decide
theorem test_wf_writeBlock : (Instr.writeBlock 0x20000001 0 4).wellFormed = false
    ∧ (Instr.writeBlock 0x20000000 0 0).wellFormed = false ∧ (Instr.writeBlock 0x20000000 0 7).wellFormed = false := by decide
theorem test_wf_readCoreReg : (Instr.readCoreReg 17).wellFormed = false ∧ (Instr.readCoreReg 16).wellFormed = true := by decide
theorem test_wf_writeCoreReg : (Instr.writeCoreReg 17 0).wellFormed = false := by decide

/-! ### Every constructor's code, written out from R94, R96, R104 and R105 -/

/-- Operand registers with a value of its own in each. -/
def args : Args := ⟨0x11223344, 0x55667788, 0x99AABBCC, 0xDDEEFF00, 0x12345678⟩

theorem test_decode_bits : ∀ p ∈ [((0x00 : Byte), Instr.clockPulse), (0x01, .setDir .input), (0x02, .writeBit false),
    (0x03, .readBit)], decode (.cmd p.1 args) = .ok p.2 := by decide
theorem test_decode_bits_set : decode (.cmd 0x01 ⟨1, 0, 0, 0, 0⟩) = .ok (.setDir .output)
    ∧ decode (.cmd 0x02 ⟨1, 0, 0, 0, 0⟩) = .ok (.writeBit true) := by decide
/-- T8: bits 31:1 of a one-bit operand are ignored. -/
theorem test_decode_ignores : decode (.cmd 0x02 ⟨0xFFFFFFFE, 0, 0, 0, 0⟩) = .ok (.writeBit false) := by decide
theorem test_decode_transfers : ∀ p ∈ [((0x10 : Byte), Instr.transfer 0x4 0x55667788), (0x11, .transferRetry 0x4 0x55667788),
    (0x12, .readDp 0x11223344), (0x13, .writeDp 0x11223344 0x55667788), (0x14, .readAp 0x11223344),
    (0x15, .writeAp 0x11223344 0x55667788), (0x1F, .sessionInit)], decode (.cmd p.1 args) = .ok p.2 := by decide
theorem test_decode_memory : ∀ p ∈ [((0x20 : Byte), Instr.readWord 0x11223344), (0x21, .writeWord 0x11223344 0x55667788),
    (0x22, .readByte 0x11223344), (0x23, .writeByte 0x11223344 0x88), (0x24, .readBlock 0x11223344 0x55667788 0x99AABBCC),
    (0x25, .writeBlock 0x11223344 0x55667788 0x99AABBCC), (0x26, .readMemory 0x11223344 0x55667788 0x99AABBCC),
    (0x27, .writeMemory 0x11223344 0x55667788 0x99AABBCC)], decode (.cmd p.1 args) = .ok p.2 := by decide
theorem test_decode_core : ∀ p ∈ [((0x28 : Byte), Instr.readCoreReg 0x11223344), (0x29, .writeCoreReg 0x11223344 0x55667788),
    (0x2A, .writeDebugState)], decode (.cmd p.1 args) = .ok p.2 := by decide
theorem test_decode_flash : ∀ p ∈ [((0x30 : Byte), Instr.faInit 0x11223344), (0x31, .faUninit),
    (0x32, .faProgramPage 0x11223344 0x55667788 0x99AABBCC), (0x33, .faEraseSector 0x11223344), (0x34, .faEraseChip),
    (0x35, .faVerify 0x11223344 0x55667788 0x99AABBCC), (0x36, .faSetRdp), (0x37, .faSectorIsBoundary 0x11223344),
    (0x38, .faSyscall 0x11223344 0x55667788 0x99AABBCC 0xDDEEFF00 0x12345678)], decode (.cmd p.1 args) = .ok p.2 := by decide
theorem test_decode_lifecycle : ∀ p ∈ [((0x40 : Byte), Instr.lcConnect), (0x41, .lcPowerUp), (0x42, .lcResetHalt),
    (0x43, .lcResetRun), (0x44, .lcHalt), (0x45, .lcRun), (0x46, .lcSoftResetHalt)], decode (.cmd p.1 args) = .ok p.2 := by decide
theorem test_decode_requests : ∀ p ∈ [((0x81 : Byte), Instr.reqDpWr0), (0xA3, .reqApWr0), (0xA5, .reqDpRd0), (0x87, .reqApRd0),
    (0xA9, .reqDpWr4), (0x8B, .reqApWr4), (0x8D, .reqDpRd4), (0xAF, .reqApRd4), (0xB1, .reqDpWr8), (0x93, .reqApWr8),
    (0x95, .reqDpRd8), (0xB7, .reqApRd8), (0x99, .reqDpWrC), (0xBB, .reqApWrC), (0xBD, .reqDpRdC), (0x9F, .reqApRdC)],
    decode (.req p.1) = .ok p.2 := by decide
theorem test_decode_acks : decode (.ack 1) = .ok .ackOk ∧ decode (.ack 2) = .ok .ackWait ∧ decode (.ack 4) = .ok .ackFault := by
  decide
/-- R96: every other acknowledge is malformed. -/
theorem test_decode_malformed : ∀ v ∈ [(0 : Ack), 3, 5, 6, 7], decode (.ack v) = .error (.malformedAck v) := by decide
/-- T84. -/
theorem test_decode_illegal : ∀ op ∈ [(0x04 : Byte), 0x16, 0x2B, 0x39, 0x47, 0xFF],
    decode (.cmd op args) = .error (.illegalOpcode op) := by decide
/-- Words of the table, bit 0 of the first byte first. -/
theorem test_tableWord : decodeTableWord 8 0x2A = some .writeDebugState
    ∧ decodeTableWord 16 0x0101 = some (.setDir .output) ∧ decodeTableWord 8 0xA5 = some .reqDpRd0
    ∧ decodeTableWord 3 4 = some .ackFault := by decide

/-- T10: request codes. -/
theorem test_reqCode : reqCode false true 0x4 = 0x6 ∧ reqCode false false 0x8 = 0x8 ∧ reqCode true true 0xC = 0xF
    ∧ reqCode true false 0x4 = 0x5 := by decide
/-- T9: headers with their parity. -/
theorem test_headers : headerBits 0x2 = [true, false, true, false, false, true, false, true] ∧ headerByte 0xD = 0xBB
    ∧ headerByte 0xF = 0x9F ∧ headerByte 0x0 = 0x81 := by decide
/-- T11. -/
theorem test_parity : [0x00000001#32, 0x80000000, 0x7FFFFFFF, 0x23000050, 0xA05F0001, 0xE000EDF0, 0x01000000].all parity32 = true
    ∧ [0x00000000#32, 0x00000003, 0xFFFFFFFF, 0x2BA01477, 0x23000052, 0x50000000, 0x0000001E].any parity32 = false := by decide

/-! ### Frames as the vectors write them -/

/-- A frame of the vectors (`N = 1`): request byte, and the data written or read, or the acknowledge that ends it. -/
inductive Fr where
  | w (h : Byte) (v : Word)
  | r (h : Byte) (d : Word)
  | short (h : Byte) (ack : List Bool)
  | reset

/-- What the line shows during the frame; turnarounds show 1. -/
def Fr.levels : Fr → List Bool
  | .w _ _ => [true, true, false, false, true]
  | .r _ d => [true, true, false, false] ++ (List.range 32).map d.getLsbD ++ [parity32 d, true]
  | .short _ k => [true] ++ k ++ [true]
  | .reset => []

/-- The slots of the frame: `o` and `i` of the vectors. -/
def Fr.slots : Fr → List Event
  | .w h v => (List.range 8).map (fun i => .slot .output (h.getLsbD i))
      ++ [true, true, false, false, true].map (.slot .input)
      ++ (List.range 32).map (fun i => .slot .output (v.getLsbD i)) ++ [.slot .output (parity32 v)]
  | .r h d => (List.range 8).map (fun i => .slot .output (h.getLsbD i)) ++ (Fr.r h d).levels.map (.slot .input)
  | .short h k => (List.range 8).map (fun i => .slot .output (h.getLsbD i)) ++ (Fr.short h k).levels.map (.slot .input)
  | .reset => [.resetAssert, .resetRelease]

/-- A state whose line will show the given levels. -/
def showing (bs : List Bool) (s : State) : State := s.setLink (s.link.setWire { s.link.wire with lineIn := bs })

/-- The instruction makes exactly these frames, uses up what the line shows, and leaves a state that passes the test. -/
def makes (i : Instr) (s : State) (fs : List Fr) (test : State → Bool) : Bool :=
  match exec i (showing (fs.flatMap Fr.levels) s) with
  | .next t => t.link.wire.trace == fs.flatMap Fr.slots && t.link.wire.lineIn == [] && test t
  | .fault _ | .refused _ => false

/-- A mirror that holds `SELECT` 0 and, where `v` is given, `CSW` of AP 0. -/
def mirrored (v : Option Word) (s : State) : State :=
  s.setLink (s.link.setMir ⟨true, 0, v.isSome, 0, v.getD 0⟩)

/-- Warm in word mode. -/
def warm : State := mirrored (some 0x23000052) State.reset

/-- The descriptor of program P4. -/
def descriptor : Descriptor where
  init := 0x20000005
  uninit := ⟨true, 0x20000009⟩
  eraseChip := 0x2000000B
  eraseSector := 0x2000000D
  programPage := 0x2000000F
  verify := ⟨false, 0⟩
  setRdp := ⟨false, 0⟩
  bkpt := 0x20000001
  staticBase := 0x20000400
  stackPtr := 0x20001000
  progBuf := 0x20000800
  progBufSize := 256
  codeAddr := 0x20000000
  code := [0x00, 0xBE, 0x00, 0xBF]
  sect := [⟨256, 0⟩]

/-- Warm, with a descriptor latched. -/
def loaded : State := warm.setFa ⟨true, descriptor⟩


/-! ### Bit operations (T1 to T7) -/

/-- The line released, showing one level. -/
def heard (b dout : Bool) : State :=
  showing [b] (State.reset.setLink (Link.reset.setWire { Wire.reset with line := ⟨.input, dout, true, true⟩ }))

/-- The instruction goes on to a state that passes the test. -/
def gives (i : Instr) (s : State) (test : State → Bool) : Bool :=
  match exec i s with
  | .next t => test t
  | .fault _ | .refused _ => false

theorem test_clockPulse_driven : gives .clockPulse State.reset (fun t => t.link.wire.trace = [.slot .output true]
    ∧ t.link.wire.line = Line.reset ∧ t.link.status.word = 0) = true := by decide
theorem test_clockPulse_released : gives .clockPulse (heard false true) (fun t => t.link.wire.trace = [.slot .input false]) = true := by
  decide
theorem test_setDir : gives (.setDir .input) State.reset (fun t => t.link.wire.line.dir = .input ∧ t.link.wire.line.dout = true
    ∧ t.link.wire.trace = []) = true := by decide
theorem test_writeBit_driven : gives (.writeBit false) State.reset (fun t => t.link.wire.line.dout = false
    ∧ t.link.wire.trace = [.slot .output false]) = true := by decide
theorem test_writeBit_released : gives (.writeBit true) (heard false true) (fun t => t.link.wire.line.dout = true
    ∧ t.link.wire.trace = [.slot .input false] ∧ t.cause = .none) = true := by decide
theorem test_readBit_released : gives .readBit (heard true false) (fun t => t.res0 = 1 ∧ t.link.wire.trace = [.slot .input true]) = true := by
  decide
theorem test_readBit_driven : gives .readBit (State.reset.setLink (Link.reset.setWire (Wire.reset.setDout false)))
    (fun t => t.res0 = 0 ∧ t.link.wire.trace = [.slot .output false]) = true := by decide

/-! ### Transfers (T12 to T27) -/

/-- T12, R149. -/
theorem test_transfer_read : makes (.transfer 0x2 0) State.reset [.r 0xA5 0x2BA01477]
    (fun t => t.res0 = 0x2BA01477 ∧ t.res1 = 0 ∧ t.link.status.word = 0x0001 ∧ t.link.wire.trace.length = 46) = true := by
  decide +kernel
/-- T19: the acknowledge 1, 1, 1 and 34 more released slots. -/
theorem test_transfer_malformed : makes (.transfer 0x2 0) State.reset [.short 0xA5 (List.replicate 36 true)]
    (fun t => t.res1 = 3 ∧ t.link.status.word = 0x009F ∧ t.cause.code = 1 ∧ t.link.wire.trace.length = 46) = true := by
  decide +kernel
/-- T22. -/
theorem test_transferRetry_ok : makes (.transferRetry 0x2 0) State.reset
    [.short 0xA5 [false, true, false], .short 0xA5 [false, true, false], .r 0xA5 7]
    (fun t => t.res0 = 7 ∧ t.link.status.word = 0x0001 ∧ t.link.wire.trace.length = 72 ∧ t.link.seq.retrycnt = 3) = true := by
  decide +kernel
/-- T21. -/
theorem test_transferRetry_exhausted : makes (.transferRetry 0x2 0) State.reset
    (List.replicate 10 (.short 0xA5 [false, true, false]))
    (fun t => t.res1 = 2 ∧ t.link.status.word = 0x00D2 ∧ t.link.wire.trace.length = 130) = true := by decide +kernel

/-! ### Register operations (T28 to T46) -/

theorem test_readDp : makes (.readDp 0x4) State.reset [.r 0x8D 0xF0000000]
    (fun t => t.res0 = 0xF0000000 ∧ t.link.mir = Mirror.reset) = true := by decide +kernel
theorem test_readDp_refused : makes (.readDp 0x5) State.reset [] (fun t => t.cause.code = 2 ∧ t.link.status.word = 0x0080) = true := by
  decide
theorem test_writeDp : makes (.writeDp 0x8 0xF0) warm [.w 0xB1 0xF0]
    (fun t => t.link.mir.selectValid = true ∧ t.link.mir.selectVal = 0xF0) = true := by decide +kernel
theorem test_writeDp_fault : makes (.writeDp 0x8 0x10) warm [.short 0xB1 [false, false, true]]
    (fun t => t.link.mir.selectValid = false ∧ t.link.mir.cswValid = true ∧ t.link.status.word = 0x0094) = true := by
  decide +kernel
theorem test_readAp : makes (.readAp 0x0100000C) warm [.w 0xB1 0x01000000, .r 0x9F 5, .r 0xBD 7]
    (fun t => t.res0 = 7 ∧ t.link.mir.selectVal = 0x01000000) = true := by decide +kernel
theorem test_readAp_refused : makes (.readAp 0x102) State.reset [] (fun t => t.cause = .precond) = true := by decide
theorem test_writeAp_other : makes (.writeAp 0x01000000 0x23000052) warm [.w 0xB1 0x01000000, .w 0xA3 0x23000052, .r 0xBD 0]
    (fun t => t.link.mir = ⟨true, 0x01000000, true, 1, 0x23000052⟩) = true := by decide +kernel
theorem test_writeAp_elided : makes (.writeAp 0 0x23000052) warm [] (fun t => t.link.mir = warm.link.mir ∧ t.cause = .none) = true := by
  decide
theorem test_sessionInit : makes .sessionInit warm [] (fun t => t.link.mir.selectValid = false ∧ t.link.mir.cswValid = false) = true := by
  decide

/-! ### Memory operations (T47 to T53) -/

theorem test_readWord : makes (.readWord 0xE0042000) (mirrored none State.reset)
    [.w 0xA3 0x23000052, .r 0xBD 0, .w 0x8B 0xE0042000, .r 0xBD 0, .r 0x9F 9, .r 0xBD 0x10016410]
    (fun t => t.res0 = 0x10016410 ∧ t.link.mir = warm.link.mir) = true := by decide +kernel
theorem test_readWord_refused : makes (.readWord 0x20000002) State.reset [] (fun t => t.cause.code = 2) = true := by decide
theorem test_writeWord : makes (.writeWord 0xE000EDF0 0xA05F0001) warm
    [.w 0x8B 0xE000EDF0, .r 0xBD 0, .w 0xBB 0xA05F0001, .r 0xBD 0] (fun t => t.cause = .none) = true := by decide +kernel
theorem test_readByte : makes (.readByte 0x20000003) (mirrored (some 0x23000050) State.reset)
    [.w 0x8B 0x20000003, .r 0xBD 0, .r 0x9F 0, .r 0xBD 0xDDCCBBAA] (fun t => t.res0 = 0xDD) = true := by decide +kernel
theorem test_writeByte : makes (.writeByte 0x20000001 0x5A) (mirrored (some 0x23000050) State.reset)
    [.w 0x8B 0x20000001, .r 0xBD 0, .w 0xBB 0x00005A00, .r 0xBD 0] (fun t => t.cause = .none) = true := by decide +kernel
theorem test_readBlock : makes (.readBlock 0x20000000 0 8) warm
    [.w 0x8B 0x20000000, .r 0xBD 0, .r 0x9F 1, .r 0x9F 0x11223344, .r 0xBD 0x55667788]
    (fun t => t.buf.map Prod.snd = [0x44, 0x33, 0x22, 0x11, 0x88, 0x77, 0x66, 0x55]) = true := by decide +kernel
theorem test_readBlock_refused : makes (.readBlock 0x20000000 1020 8) warm [] (fun t => t.cause = .precond ∧ t.buf = []) = true := by
  decide +kernel
theorem test_writeBlock : makes (.writeBlock 0x20000000 0 8)
    (warm.setBuf [(0, 1), (1, 2), (2, 3), (3, 4), (4, 5), (5, 6), (6, 7), (7, 8)])
    [.w 0x8B 0x20000000, .r 0xBD 0, .w 0xBB 0x04030201, .w 0xBB 0x08070605, .r 0xBD 0] (fun t => t.cause = .none) = true := by
  decide +kernel
/-- T52: the row of 0x20000003, without its last byte. -/
theorem test_readMemory : makes (.readMemory 0x20000003 16 5) (mirrored (some 0x23000050) State.reset)
    [.w 0x8B 0x20000003, .r 0xBD 0, .r 0x9F 0, .r 0xBD 0x11000000,
      .w 0xA3 0x23000052, .r 0xBD 0, .w 0x8B 0x20000004, .r 0xBD 0, .r 0x9F 0, .r 0xBD 0x55443322]
    (fun t => t.buf = [(16, 0x11), (17, 0x22), (18, 0x33), (19, 0x44), (20, 0x55)]) = true := by decide +kernel
theorem test_readMemory_none : makes (.readMemory 0x20000001 1024 0) warm [] (fun t => t.cause = .none) = true := by decide
/-- T52: the wrap at the top of the address space. -/
theorem test_writeMemory : makes (.writeMemory 0xFFFFFFFF 0 2) ((mirrored (some 0x23000050) State.reset).setBuf [(0, 0x11), (1, 0x22)])
    [.w 0x8B 0xFFFFFFFF, .r 0xBD 0, .w 0xBB 0x11000000, .r 0xBD 0, .w 0x8B 0, .r 0xBD 0, .w 0xBB 0x22, .r 0xBD 0]
    (fun t => t.cause = .none) = true := by decide +kernel

/-! ### Core registers (T54) -/

theorem test_readCoreReg : makes (.readCoreReg 16) warm
    [.w 0x8B 0xE000EDF4, .r 0xBD 0, .w 0xBB 0x10, .r 0xBD 0, .w 0x8B 0xE000EDF0, .r 0xBD 0, .r 0x9F 0, .r 0xBD 0x10000,
      .w 0x8B 0xE000EDF8, .r 0xBD 0, .r 0x9F 0, .r 0xBD 0x61000000]
    (fun t => t.res0 = 0x61000000 ∧ t.loops.pollcnt = 1) = true := by decide +kernel
theorem test_readCoreReg_refused : makes (.readCoreReg 17) warm [] (fun t => t.cause.code = 2) = true := by decide
theorem test_writeCoreReg : makes (.writeCoreReg 15 0x20000021) warm
    [.w 0x8B 0xE000EDF8, .r 0xBD 0, .w 0xBB 0x20000021, .r 0xBD 0, .w 0x8B 0xE000EDF4, .r 0xBD 0, .w 0xBB 0x1000F, .r 0xBD 0,
      .w 0x8B 0xE000EDF0, .r 0xBD 0, .r 0x9F 0, .r 0xBD 0x10000] (fun t => t.cause = .none) = true := by decide +kernel

/-- The frames of a word write and of a word read, warm in word mode. -/
def wWord (a v : Word) : List Fr := [.w 0x8B a, .r 0xBD 0, .w 0xBB v, .r 0xBD 0]
def rWord (a d : Word) : List Fr := [.w 0x8B a, .r 0xBD 0, .r 0x9F 0, .r 0xBD d]

/-- The frames of a register load (R228). -/
def load (n v : Word) : List Fr :=
  wWord 0xE000EDF8 v ++ wWord 0xE000EDF4 (0x10000 ||| n) ++ rWord 0xE000EDF0 0x30001

/-- The first load of `WRITE_DEBUG_STATE` goes well, the second is refused by the target: xPSR is forced, the rest of `DS` as
it was (R232, T54g). -/
theorem test_writeDebugState : makes .writeDebugState (warm.setDs ⟨5, 6, 7, 8, 9, 10, 11, 12, 0x61000000⟩)
    (load 0 5 ++ [.w 0x8B 0xE000EDF8, .r 0xBD 0, .short 0xBB [false, false, true]])
    (fun t => t.cause.code = 1 ∧ t.ds = ⟨5, 6, 7, 8, 9, 10, 11, 12, 0x01000000⟩) = true := by decide +kernel

/-! ### Flash runtime (T57 to T77, P3, P4) -/

/-- A write of `TAR` that the target refuses. -/
def refusedTar : List Fr := [.short 0x8B [false, false, true]]

/-- The registers program P3 stages, the first load done. -/
theorem test_faEraseSector : makes (.faEraseSector 0x08000000) loaded (load 0 0x08000000 ++ refusedTar)
    (fun t => t.link.status.word = 0x0494 ∧ t.ret = 0
      ∧ t.ds = ⟨0x08000000, 0, 0, 0, 0x20000400, 0x20001000, 0x20000001, 0x2000000D, 0x01000000⟩) = true := by decide +kernel
theorem test_faEraseChip : makes .faEraseChip loaded refusedTar
    (fun t => t.ds.r15 = 0x2000000B ∧ t.link.status.word = 0x0594) = true := by decide +kernel
theorem test_faSyscall : makes (.faSyscall 0x2000000D 1 2 3 4) loaded refusedTar
    (fun t => t.ds = ⟨1, 2, 3, 4, 0x20000400, 0x20001000, 0x20000001, 0x2000000D, 0x01000000⟩
      ∧ t.link.status.faxst = .syscallFailed) = true := by decide +kernel
/-- T58. -/
theorem test_faSyscall_refused : makes (.faSyscall 0 0 0 0 0) State.reset []
    (fun t => t.link.status.word = 0x0980 ∧ t.cause.code = 2) = true := by decide
/-- T57. -/
theorem test_faVerify_absent : makes (.faVerify 1 2 3) loaded []
    (fun t => t.cause.code = 7 ∧ t.link.status.word = 0x0880) = true := by decide
theorem test_faSetRdp_absent : makes .faSetRdp loaded [] (fun t => t.cause.code = 7 ∧ t.link.status.faxst.code = 8) = true := by
  decide
theorem test_faUninit_absent : makes .faUninit (loaded.setFa ⟨true, { descriptor with uninit := ⟨false, 0⟩ }⟩) []
    (fun t => t.cause = .none ∧ t.link.status.word = 0) = true := by decide
theorem test_faUninit : makes .faUninit loaded refusedTar
    (fun t => t.ds.r15 = 0x20000009 ∧ t.link.status.faxst = .uninitFailed) = true := by decide +kernel
/-- P4: the descriptor stays latched when step 1 fails; one attempt, no reset pulse (R286a). -/
theorem test_faInit : makes (.faInit 0x08000000) (warm.setDescIn descriptor) refusedTar
    (fun t => t.fa = ⟨true, descriptor⟩ ∧ t.cause.code = 8 ∧ t.link.status.word = 0x0194) = true := by decide +kernel
/-- T59: a length of 0, and a program buffer of size 0. -/
theorem test_faProgramPage_none : makes (.faProgramPage 0x08000000 0 0) loaded []
    (fun t => t.cause = .none ∧ t.res1 = 0) = true := by decide
theorem test_faProgramPage_noBuffer : makes (.faProgramPage 0x08000000 0 4)
    (loaded.setFa ⟨true, { descriptor with progBufSize := 0 }⟩) [] (fun t => t.cause.code = 2) = true := by decide +kernel
theorem test_faSectorIsBoundary : makes (.faSectorIsBoundary 0x08000100) loaded []
    (fun t => t.res0 = 1 ∧ t.link.status.word = 0) = true := by decide +kernel

/-- T60 to T77. -/
def flashTable : List Sector := [⟨0x4000, 0x08000000⟩, ⟨0x10000, 0x08010000⟩, ⟨0x20000, 0x08020000⟩]

theorem test_boundary_one : [0#32, 0x800, 0xFFFFF800].all (sectorIsBoundary [⟨0x800, 0⟩]) = true
    ∧ [0x400#32, 0x7FF, 0xFFFFFFFF].any (sectorIsBoundary [⟨0x800, 0⟩]) = false := by decide +kernel
theorem test_boundary_table :
    [0x08000000#32, 0x08004000, 0x0800C000, 0x08010000, 0x08020000, 0x08040000].all (sectorIsBoundary flashTable) = true
    ∧ [0x08014000#32, 0x08030000, 0x07FFFFFF, 0x0801FFFF].any (sectorIsBoundary flashTable) = false := by decide +kernel
theorem test_boundary_corners : sectorIsBoundary [] 0 = false ∧ sectorIsBoundary [⟨0, 0⟩] 0 = false
    ∧ [0x100#32, 0x400].all (sectorIsBoundary [⟨0x300, 0x100⟩]) = true
    ∧ [0x300#32, 0x000].any (sectorIsBoundary [⟨0x300, 0x100⟩]) = false := by decide +kernel

/-! ### Lifecycle (T78 to T83) -/

/-- T78: the 118 line slots, then the frame of T12. -/
theorem test_lcConnect : gives .lcConnect (showing (Fr.r 0xA5 0x2BA01477).levels warm)
    (fun t => t.res0 = 0x2BA01477 ∧ t.link.mir.selectValid = false ∧ t.link.wire.trace.length = 164
      ∧ (t.link.wire.trace.drop 50).take 17 = [false, true, true, true, true, false, false, true,
          true, true, true, false, false, true, true, true, true].map (.slot .output)
      ∧ t.link.wire.trace.drop 116 = [.slot .output false, .slot .output false] ++ (Fr.r 0xA5 0x2BA01477).slots) = true := by
  decide +kernel
/-- T79. -/
theorem test_lcPowerUp : makes .lcPowerUp State.reset [.w 0x81 0x1E, .w 0xB1 0, .w 0xA9 0x50000000, .r 0x8D 0xF0000000]
    (fun t => t.link.status.word = 0x0001 ∧ t.link.mir.hasSelect 0 = true) = true := by decide +kernel
/-- T80. -/
theorem test_lcResetRun : makes .lcResetRun warm [.reset]
    (fun t => t.link.mir.selectValid = false ∧ t.link.wire.line = Line.reset) = true := by decide
/-- T81. -/
theorem test_lcHalt : makes .lcHalt warm (wWord 0xE000EDF0 0xA05F0003) (fun t => t.cause = .none) = true := by decide +kernel
theorem test_lcRun : makes .lcRun warm (wWord 0xE000EDF0 0xA05F0000 ++ [.w 0xA9 0])
    (fun t => t.cause = .none ∧ t.link.mir.selectValid = false ∧ t.link.mir.cswValid = false) = true := by decide +kernel
/-- T82 up to step 4: after the pulse the mirror is invalid, so the poll begins with the write of `SELECT`. -/
theorem test_lcResetHalt : makes .lcResetHalt warm (wWord 0xE000EDF0 0xA05F0001 ++ wWord 0xE000EDFC 1 ++ [.reset]
      ++ [.short 0xB1 [false, false, true]])
    (fun t => t.cause = .ack ∧ t.link.mir.selectValid = false) = true := by decide +kernel
/-- T82: three attempts, a pulse after the first two, no later step. -/
theorem test_lcResetHalt_fails : makes .lcResetHalt (warm.setCfg { Config.default with debugenRetries := 3 })
    (refusedTar ++ [.reset, .w 0xB1 0, .short 0xA3 [false, false, true], .reset, .short 0xB1 [false, false, true]])
    (fun t => t.cause.code = 8) = true := by decide +kernel
/-- T83 up to the write of `AIRCR`, no reset event. -/
theorem test_lcSoftResetHalt : makes .lcSoftResetHalt warm (wWord 0xE000EDF0 0xA05F0001 ++ wWord 0xE000EDFC 1
      ++ [.w 0x8B 0xE000ED0C, .r 0xBD 0, .short 0xBB [false, false, true]]) (fun t => t.cause = .ack) = true := by decide +kernel

/-! ### Wire rows and steps (R94, R96, T84) -/

theorem test_requests : ∀ p ∈ [(Instr.reqDpWr0, (0x81 : Byte)), (.reqApWr0, 0xA3), (.reqDpRd0, 0xA5), (.reqApRd0, 0x87),
    (.reqDpWr4, 0xA9), (.reqApWr4, 0x8B), (.reqDpRd4, 0x8D), (.reqApRd4, 0xAF), (.reqDpWr8, 0xB1), (.reqApWr8, 0x93),
    (.reqDpRd8, 0x95), (.reqApRd8, 0xB7), (.reqDpWrC, 0x99), (.reqApWrC, 0xBB), (.reqDpRdC, 0xBD), (.reqApRdC, 0x9F)],
    makes p.1 State.reset [] (fun _ => true) = false ∧ gives p.1 State.reset (fun t =>
      t.link.wire.trace = (List.range 8).map (fun i => .slot .output (p.2.getLsbD i)) ∧ t.link.seq.phase = .trn1) = true := by
  decide +kernel
theorem test_acks : gives .ackOk State.reset (fun t => t.link.status.word = 0x0001 ∧ t.link.seq.phase = .trn2) = true
    ∧ gives .ackWait State.reset (fun t => t.link.status.word = 0x000A ∧ t.link.seq.phase = .trn3) = true
    ∧ gives .ackFault State.reset (fun t => t.link.status.word = 0x0014 ∧ t.link.seq.phase = .trn3) = true := by decide

/-- The step goes on to a state that passes the test. -/
def steps (s : State) (test : State → Bool) : Bool :=
  match step s with
  | .next t => test t
  | .fault _ | .refused _ => false

/-- R27, R28: after the second turnaround `WDATA` finds its word in `SHIFT`, no slot counted, no parity yet; the phase then drives 32
bits and their parity. -/
theorem test_step_writeData :
    (let s := (State.reset.setLink (Link.reset.start 0x8 7))
     let t := s.setLink ((s.link.enter .trn2).setWire (s.link.wire.setDir .input))
     steps t (fun u => u.link.seq.phase = .wdata ∧ u.link.seq.bitcnt = 0 ∧ u.link.seq.shift = 7 ∧ u.link.seq.par = false
       ∧ steps u (fun v => v.link.wire.trace.drop 1 = (List.replicate 3 true ++ List.replicate 29 false ++ [true]).map (.slot .output)
          ∧ v.link.seq.phase = .idle))) = true := by decide +kernel

/-- T84. -/
theorem test_step_illegal : steps (State.reset.setHost [.writeOp 0x47])
    (fun t => t.link.status.word = 0x1080 ∧ t.cause.code = 10 ∧ t.link.wire.trace = []) = true := by decide
/-- A command word placed for the next step runs. -/
theorem test_step_command : steps (State.reset.withFetchWord 8 0x43) (fun t => t.link.wire.trace = [.resetAssert, .resetRelease]) = true := by
  decide +kernel
/-- `PHASE = REQ` and `PHASE = ACK` with a word placed (R27). -/
theorem test_step_wire : steps (State.reset.withFetchWord 8 0xA5) (fun t => t.link.wire.trace.length = 8) = true
    ∧ steps (State.reset.withFetchWord 3 4) (fun t => t.link.status.ackraw = 4 ∧ t.link.wire.trace.length = 3) = true := by decide +kernel

/-! ### A target that answers everything

The levels of a target that acknowledges every transfer of a dialogue with OK and gives the words the dialogue names: the
witnesses below need them. -/

/-- The levels of a turn answered OK at once; turnarounds show 0. -/
def turnLevels (c : Cfg) : Turn → List Bool
  | .sent _ => []
  | .write _ _ => List.replicate c.turnaround false ++ okBits ++ List.replicate c.turnaround false
  | .read _ d => List.replicate c.turnaround false ++ okBits ++ dataBits d ++ List.replicate c.turnaround false
  | .readAny _ => List.replicate c.turnaround false ++ okBits ++ dataBits 0 ++ List.replicate c.turnaround false

theorem turn_answered {c : Cfg} (h : 1 ≤ c.retry) (t : Turn) : ∃ e, t.answered c (turnLevels c t) e := by
  have hg : (List.replicate c.turnaround false).length = c.turnaround := by simp
  have hw : Waits.ok c.turnaround [] := by simp [Waits.ok]
  cases t with
  | sent es => exact ⟨es, rfl, rfl⟩
  | write r w => exact ⟨_, [], _, _, h, hw, hg, hg, rfl, rfl⟩
  | read r d => exact ⟨_, [], _, _, h, hw, hg, hg, rfl, rfl⟩
  | readAny r => exact ⟨_, 0, [], _, _, h, hw, hg, hg, rfl, rfl⟩

theorem all_answered {c : Cfg} (h : 1 ≤ c.retry) (rest : List Bool) :
    ∀ ts : List Turn, ∃ e, Answered c ts (ts.flatMap (turnLevels c) ++ rest) e rest
  | [] => ⟨[], rfl, rfl⟩
  | t :: ts => by
    obtain ⟨e1, h1⟩ := turn_answered h t
    obtain ⟨e2, h2⟩ := all_answered h rest ts
    exact ⟨_, _, e1, _, e2, h1, by simp, rfl, h2⟩

/-- The levels of a FAULT. -/
def faultLevels (c : Cfg) : List Bool :=
  List.replicate c.turnaround false ++ faultBits ++ List.replicate c.turnaround false

theorem first_broken {c : Cfg} (h : 1 ≤ c.retry) (rest : List Bool) :
    ∀ ts : List Turn, ts.any Turn.isTransfer = true → ∃ e, Broken c ts (faultLevels c ++ rest) e rest .fault
  | [], h0 => nomatch h0
  | t :: ts, h0 => by
    have hg : (List.replicate c.turnaround false).length = c.turnaround := by simp
    have hn : ∀ r, NotOk c r (faultLevels c) (shortSlots r (List.replicate c.turnaround false) faultBits
        (List.replicate c.turnaround false)) .fault := fun r =>
      ⟨[], by simp [Waits.ok], .inr ⟨h, _, _, _, hg, rfl, rfl, rfl, .inl ⟨rfl, hg, rfl⟩⟩⟩
    cases t with
    | sent es =>
      obtain ⟨e, he⟩ := first_broken h rest ts (by simpa [Turn.isTransfer] using h0)
      exact ⟨_, .inr ⟨[], es, _, e, ⟨rfl, rfl⟩, rfl, rfl, he⟩⟩
    | write r w => exact ⟨_, .inl ⟨_, hn r, rfl⟩⟩
    | read r d => exact ⟨_, .inl ⟨_, .inl (hn r), rfl⟩⟩
    | readAny r => exact ⟨_, .inl ⟨_, .inl (hn r), rfl⟩⟩

theorem broken_at_once {c : Cfg} (h : 1 ≤ c.retry) (ts : List Turn) (ht : ts.any Turn.isTransfer = true) :
    ∃ e rest, Broken c ts (faultLevels c) e rest .fault := by
  obtain ⟨e, he⟩ := first_broken h [] ts ht
  rw [List.append_nil] at he
  exact ⟨e, [], he⟩

/-- The state `s` with the levels that let the dialogue go well. -/
def answering (tk : Talk) (s : State) : State := showing ((tk s.link.mir).1.flatMap (turnLevels s.cfg)) s

/-- The state `s` with the levels of a FAULT. -/
def faulting (s : State) : State := showing (faultLevels s.cfg) s

/-- The coming levels of `s` let the dialogue go well. -/
def Follows (s : State) (tk : Talk) : Prop :=
  ∃ e rest, Answered s.cfg (tk s.link.mir).1 s.link.wire.lineIn e rest

/-- The coming levels of `s` make the dialogue fail. -/
def Fails (s : State) (tk : Talk) : Prop := ∃ e rest x, Broken s.cfg (tk s.link.mir).1 s.link.wire.lineIn e rest x

theorem follows_answering {s : State} (h : 1 ≤ s.cfg.retry) (tk : Talk) : Follows (answering tk s) tk := by
  obtain ⟨e, he⟩ := all_answered h [] (tk s.link.mir).1
  rw [List.append_nil] at he
  exact ⟨e, [], he⟩

theorem fails_faulting {s : State} (h : 1 ≤ s.cfg.retry) (tk : Talk)
    (ht : (tk s.link.mir).1.any Turn.isTransfer = true) : Fails (faulting s) tk := by
  obtain ⟨e, rest, he⟩ := broken_at_once h _ ht
  exact ⟨e, rest, .fault, he⟩

/-- `CFG` with every poll cap at its least value, 1. -/
def tight : Cfg :=
  { Config.default with regrdyPolls := 1, syscallPolls := 1, pwrupPolls := 1, haltPolls := 1, debugenRetries := 2 }

/-- Reset, with that `CFG`, a descriptor whose optional entries are all present, and `DS` as at reset. -/
def base : State :=
  (State.reset.setCfg tight).setFa ⟨true, { descriptor with verify := ⟨true, 0x20000011⟩, setRdp := ⟨true, 0x20000013⟩ }⟩

theorem retry_base : 1 ≤ base.cfg.retry := by decide

/-- A word at `DHCSR` with ready and halted set, and one with neither. -/
def up : Word := 0x30001
def down : Word := 0x1

theorem polls_end {w : Word} (done : Word → Bool) (h : done w = true) : pollsEnd 1 done [w] :=
  ⟨[], w, rfl, le_rfl, by simp, h⟩

theorem polls_fail {w : Word} (done : Word → Bool) (h : done w = false) : pollsFail 1 done [w] :=
  ⟨by simp, rfl, by simp [h]⟩

/-- A remote call that returns `r0`. -/
def call (r0 : Word) : Call := ⟨List.replicate 9 [up], 0, [up], [up], r0⟩

theorem loads_ready : loadsReady tight (List.replicate 9 [up]) :=
  ⟨rfl, fun ws h => by rw [List.eq_of_mem_replicate h]; exact polls_end _ (by decide)⟩

theorem call_good (r0 : Word) : (call r0).good tight :=
  ⟨⟨loads_ready, show stickySet tight 0 = false by decide⟩, polls_end _ (by decide), polls_end _ (by decide)⟩

/-- Both attempts of the debug enable refused. -/
theorem enable_fails : let s := showing (faultLevels tight ++ (faultLevels tight ++ [])) base
    ∃ e rest, EnableFails s.cfg s.cfg.debugenRetries s.link.mir s.link.wire.lineIn e rest := by
  obtain ⟨e1, h1⟩ := first_broken retry_base (faultLevels tight ++ []) (talkEnable tight Mirror.reset).1 (by decide +kernel)
  obtain ⟨e2, h2⟩ := first_broken retry_base [] (talkEnable tight Mirror.reset).1 (by decide +kernel)
  exact ⟨_, [], .fault, e1, _, e2, h1, rfl, .fault, h2⟩

/-- A debug enable that goes well at once. -/
theorem enabled_answering (rest : List Bool) (m : Mirror) :
    ∃ e, Enabled tight m ((talkEnable tight m).1.flatMap (turnLevels tight) ++ rest) e rest (talkEnable tight m).2 := by
  obtain ⟨e, h⟩ := all_answered retry_base rest (talkEnable tight m).1
  exact ⟨e, 0, [], _, e, by decide, ⟨rfl, rfl⟩, rfl, h, rfl⟩

/-! ### Witnesses: for each statement with hypotheses, states and operands that meet them all -/

theorem witness_DecodeEncode : encode (.writeByte 4 0x5A) = .cmd 0x23 ⟨4, 0x5A, 0, 0, 0⟩
    ∧ maskArgs ⟨4, 0xFFFFFF5A, 1, 2, 3⟩ (Instr.writeByte 4 0x5A).used = ⟨4, 0x5A, 0, 0, 0⟩ := by decide
theorem witness_DecodedOnce : decode (.cmd 0x2A args) = .ok .writeDebugState ∧ decode (.req 0x9F) = .ok .reqApRdC
    ∧ decode (.ack 4) = .ok .ackFault := by decide

theorem witness_StepRunsDecoded :
    (let s := State.reset.setHost [.writeOp 0x20]
     s.link.seq.phase = .idle ∧ s.host = .writeOp 0x20 :: [] ∧ s.link.status.busy = false
        ∧ decode (.cmd 0x20 s.arg) = .ok (.readWord 0)) ∧
    (let s := State.reset.setLink (Link.reset.start 0x2 0)
     s.link.seq.phase = .req ∧ (∀ rest, s.host ≠ .assertReset :: rest)
        ∧ decode (.req (s.link.seq.shift.setWidth 8)) = .ok .reqDpRd0) ∧
    (let s := State.reset.withFetchWord 3 2
     s.link.seq.phase = .ack ∧ (∀ rest, s.host ≠ .assertReset :: rest)
        ∧ decode (.ack s.link.ackSample.seq.acksr) = .ok .ackWait) :=
  ⟨⟨rfl, rfl, rfl, rfl⟩, ⟨rfl, fun _ => by simp [State.setLink, State.reset], by decide⟩,
    ⟨rfl, fun _ => by simp [State.withFetchWord, tableCode, placeCode, withoutReset, State.setHost, State.setLink, State.reset], by decide⟩⟩

/-- Every bound of the ranges of R106, and an unused operand register. -/
theorem witness_IllegalOpcode : (∀ op ∈ [(0x04 : Byte), 0x0F, 0x16, 0x1E, 0x2B, 0x2F, 0x39, 0x3F, 0x47, 0xFF],
    (let s := State.reset.setHost [.writeOp op]
     s.link.seq.phase = .idle ∧ s.host = .writeOp op :: [] ∧ s.link.status.busy = false) ∧
    ((0x04 ≤ op ∧ op ≤ 0x0F) ∨ (0x16 ≤ op ∧ op ≤ 0x1E) ∨ (0x2B ≤ op ∧ op ≤ 0x2F) ∨ (0x39 ≤ op ∧ op ≤ 0x3F) ∨ 0x47 ≤ op)) ∧
    decode (.cmd 0x12 ⟨4, 7, 0, 0, 0⟩) = .ok (.readDp 4)
      ∧ maskArgs ⟨4, 7, 0, 0, 0⟩ (Instr.readDp 4).used = maskArgs ⟨4, 8, 0, 0, 0⟩ (Instr.readDp 4).used := by decide

theorem witness_HostWrites : State.reset.link.seq.phase = .idle ∧ State.reset.host = []
    ∧ (State.reset.beginOp.setHost [.writeOp 0]).link.status.busy = true
    ∧ ∀ a ∈ [HostAction.writeOp 0, .writeArg 4 1, .writeDs .xpsr 1, .writeBuf 1023 1, .writeBuf 1024 1, .writeCfg tight,
        .writeCfg { tight with turnaround := 0 }, .present descriptor],
      (State.reset.setHost [a]).host = a :: [] := by
  refine ⟨rfl, rfl, rfl, fun _ _ => rfl⟩

theorem witness_HardwareReset : (State.reset.setHost [.assertReset]).host = .assertReset :: [] := rfl

/-- A command, and a frame in progress. -/
theorem witness_StepKeepsSound : (Sound (warm.setHost [.writeOp 0x1F]) ∧ ∃ t, step (warm.setHost [.writeOp 0x1F]) = .next t) ∧
    (let s := warm.setLink (warm.link.enter .wdata)
     Sound s ∧ ∃ t, step s = .next t) :=
  ⟨⟨⟨rfl, rfl, by decide, rfl, rfl, rfl, rfl, (nomatch ·), fun _ => rfl, (nomatch ·), (nomatch ·)⟩, _, rfl⟩,
    ⟨⟨rfl, rfl, by decide, rfl, rfl, rfl, rfl, (nomatch ·), fun _ => rfl, fun _ => rfl, fun _ => rfl⟩, _, rfl⟩⟩

theorem witness_StepKeepsRest : AtRest (warm.setHost [.writeOp 0x1F]) ∧ ∃ t, step (warm.setHost [.writeOp 0x1F]) = .next t :=
  ⟨rfl, _, rfl⟩

theorem witness_BitOperations : State.reset.link.wire.line.dir = .output
    ∧ (heard true false).link.wire.line.dir = .input ∧ (heard true false).link.wire.lineIn = true :: []
    ∧ (showing [] (heard true false)).link.wire.line.dir = .input
    ∧ (showing [] (heard true false)).link.wire.lineIn = [] := by decide

theorem witness_TransferOk : ∀ n ∈ [1, 4],
    let c := { Config.default with turnaround := n }
    let g := List.replicate n true
    let s := showing (g ++ okBits ++ dataBits 0x2BA01477 ++ g) (State.reset.setCfg c)
    let u := showing (g ++ okBits ++ g) (State.reset.setCfg c)
    g.length = s.cfg.turnaround ∧ reqRead 0x2 = true ∧ s.link.wire.lineIn = g ++ okBits ++ dataBits 0x2BA01477 ++ g ++ []
      ∧ g.length = u.cfg.turnaround ∧ reqRead 0x8 = false ∧ u.link.wire.lineIn = g ++ okBits ++ g ++ [] := by decide +kernel

theorem witness_TransferNotOk :
    (∀ k ∈ [waitBits, faultBits], (showing ([true] ++ k ++ [true]) State.reset).link.wire.lineIn = [true] ++ k ++ [true] ++ []
      ∧ [true].length = State.reset.cfg.turnaround) ∧
    (∀ k ∈ [[false, false, false], [true, true, false], [true, false, true], [false, true, true], [true, true, true]],
      k.length = 3 ∧ k ≠ okBits ∧ k ≠ waitBits ∧ k ≠ faultBits
      ∧ (List.replicate 34 true).length = State.reset.cfg.turnaround + 33
      ∧ (showing ([true] ++ k ++ List.replicate 34 true) State.reset).link.wire.lineIn
        = [true] ++ k ++ List.replicate 34 true ++ []) := by decide

/-- T15. -/
theorem witness_ParityFault :
    let db := true :: List.replicate 32 false
    let s := showing ([true] ++ okBits ++ db ++ [true]) State.reset
    reqRead 0xE = true ∧ [true].length = s.cfg.turnaround ∧ db.length = 33 ∧ parityOf db = true
      ∧ s.link.wire.lineIn = [true] ++ okBits ++ db ++ [true] ++ [] := by decide

/-- Two links that differ in the mirror and in what went before. -/
theorem witness_TransferIndependent : (faulting warm).link.wire.lineIn = (faulting (faulting State.reset)).link.wire.lineIn
    ∧ (faulting warm).link.wire.draws = (faulting State.reset).link.wire.draws
    ∧ (faulting warm).link.mir ≠ (faulting State.reset).link.mir := by decide

theorem witness_RetryLaw : 1 ≤ tight.retry := by decide

/-- The most frames answered WAIT before an OK, and none. -/
theorem witness_RetryOk : ∀ k ∈ [0, 9], ∃ b1 e1 b2 e2, reqRead 0x2 = true ∧ ReadOk Config.default 0x2 5 b1 e1
    ∧ (showing b1 State.reset).link.wire.lineIn = b1 ++ [] ∧ reqRead 0x8 = false ∧ WriteOk Config.default 0x8 5 b2 e2
    ∧ (showing b2 State.reset).link.wire.lineIn = b2 ++ [] := by
  intro k hk
  have h : k < Config.default.retry := by revert k; decide
  have hw : Waits.ok 1 (List.replicate k ([true], [true])) := fun p hp => by
    rw [List.eq_of_mem_replicate hp]; exact ⟨rfl, rfl⟩
  exact ⟨_, _, _, _, rfl, ⟨List.replicate k ([true], [true]), [true], [true], by simpa using h, hw, rfl, rfl, rfl, rfl⟩,
    (List.append_nil _).symm, rfl, ⟨List.replicate k ([true], [true]), [true], [true], by simpa using h, hw, rfl, rfl, rfl, rfl⟩,
    (List.append_nil _).symm⟩

/-- Exhaustion; FAULT and each malformed acknowledge after the most frames answered WAIT; a wrong parity bit. -/
theorem witness_RetryNotOk : (∀ k ∈ [9, 10], Waits.ok State.reset.cfg.turnaround (List.replicate k ([true], [true]))) ∧
    (let c := State.reset.cfg
     let all := List.replicate 10 ([true], [true])
     let most := List.replicate 9 ([true], [true])
     1 ≤ c.retry ∧ all.length = c.retry
      ∧ (showing (Waits.levels all) State.reset).link.wire.lineIn = Waits.levels all ++ []
      ∧ most.length < c.retry ∧ [true].length = c.turnaround
      ∧ (∀ k ∈ [[false, false, false], [true, true, false], [true, false, true], [false, true, true], [true, true, true]],
        k.length = 3 ∧ k ≠ okBits ∧ k ≠ waitBits ∧ k ≠ faultBits)
      ∧ (List.replicate 34 true).length = c.turnaround + 33) ∧
    (∀ k h, (showing (Waits.levels (List.replicate 9 ([true], [true])) ++ ([true] ++ k ++ h)) State.reset).link.wire.lineIn
      = Waits.levels (List.replicate 9 ([true], [true])) ++ ([true] ++ k ++ h) ++ []) ∧
    ∃ b e, BadParity State.reset.cfg 0x2 5 b e ∧ reqRead 0x2 = true ∧ (showing b State.reset).link.wire.lineIn = b ++ [] := by
  refine ⟨fun k _ p hp => by rw [List.eq_of_mem_replicate hp]; exact ⟨rfl, rfl⟩, by decide +kernel,
    fun _ _ => (List.append_nil _).symm, _, _, ⟨[], [true], [true], by decide, by simp [Waits.ok], rfl, rfl, rfl, rfl⟩, rfl,
    (List.append_nil _).symm⟩

/-- An OK read, whose `ACKRAW` is 1. -/
theorem witness_PhasesMakeTheFrame : State.reset.host = [] ∧ reqRead 0x2 = true
    ∧ ((showing (Fr.r 0xA5 5).levels State.reset).link.frame 1 0x2 0).status.ackraw = 1 := by decide +kernel

theorem witness_RegisterReads : cfgLegal base.cfg = true ∧ dpAddrOk 0xC = true ∧ Follows (answering (talkReadDp 0xC 7) base) (talkReadDp 0xC 7)
    ∧ apAddrOk 0xFF0000FC = true
    ∧ Follows (answering (talkReadAp tight 0xFF0000FC 7) base) (talkReadAp tight 0xFF0000FC 7) :=
  ⟨by decide, by decide, follows_answering retry_base _, by decide, follows_answering retry_base _⟩

/-- `SELECT` and another register; `CSW` and another. -/
theorem witness_RegisterWrites : cfgLegal base.cfg = true
    ∧ (∀ a ∈ [(0x8 : Word), 0x4], dpAddrOk a = true ∧ Follows (answering (talkWriteDp tight a 7) base) (talkWriteDp tight a 7))
    ∧ ∀ a ∈ [(0x0 : Word), 0xFF0000FC], apAddrOk a = true
      ∧ Follows (answering (talkWriteAp tight a 7) base) (talkWriteAp tight a 7) :=
  ⟨by decide, fun a ha => ⟨by simp at ha; rcases ha with rfl | rfl <;> decide, follows_answering retry_base _⟩,
    fun a ha => ⟨by simp at ha; rcases ha with rfl | rfl <;> decide, follows_answering retry_base _⟩⟩

/-- Each of the four cases: the mirror does not hold the `SELECT` of AP 3 or AP 1, nor the `CSW` of AP 1. -/
theorem witness_FailedWriteDropsMirror : cfgLegal warm.cfg = true ∧ warm.link.mir.hasSelect 0x10 = false
    ∧ Fails (faulting warm) (Talk.say [.write (reqCode false false 0x8) 0x10])
    ∧ apAddrOk 0x03000000 = true ∧ warm.link.mir.hasSelect (selectOf 0x03000000) = false
    ∧ Fails (faulting warm) (Talk.say [.write (reqCode false false 0x8) (selectOf 0x03000000)])
    ∧ apAddrOk 0 = true ∧ isCsw warm.cfg 0 = true ∧ warm.link.mir.hasSelect (selectOf 0) = true
    ∧ warm.link.mir.hasCsw (apselOf 0) 0x23000050 = false
    ∧ Fails (faulting warm) (Talk.say [.write (reqCode true false 0) 0x23000050, drainTurn warm.cfg])
    ∧ apAddrOk 0x01000000 = true ∧ isCsw warm.cfg 0x01000000 = true
    ∧ warm.link.mir.hasSelect (selectOf 0x01000000) = false ∧ warm.link.mir.hasCsw (apselOf 0x01000000) 0x23000052 = false
    ∧ ∃ e mid, (let s := showing ([Turn.write (reqCode false false 0x8) (selectOf 0x01000000)].flatMap
          (turnLevels warm.cfg) ++ faultLevels warm.cfg) warm
        Answered s.cfg [.write (reqCode false false 0x8) (selectOf 0x01000000)] s.link.wire.lineIn e mid)
      ∧ ∃ e2 rest, Broken warm.cfg [.write (reqCode true false 0x01000000) 0x23000052, drainTurn warm.cfg] mid e2 rest .fault := by
  refine ⟨by decide, by decide, fails_faulting (by decide) _ rfl, by decide, by decide, fails_faulting (by decide) _ rfl,
    by decide, by decide, by decide, by decide, fails_faulting (by decide) _ rfl, by decide, by decide, by decide, by decide, ?_⟩
  obtain ⟨e, h⟩ := all_answered (c := warm.cfg) (by decide) (faultLevels warm.cfg)
    [.write (reqCode false false 0x8) (selectOf 0x01000000)]
  exact ⟨e, _, h, broken_at_once (by decide) _ rfl⟩

/-- Each precondition broken by the least amount. -/
theorem witness_Preconditions : (∀ i ∈ [Instr.readDp 0x10, .writeDp 0x1 0, .readAp 0x100, .writeAp 0x1 0, .readWord 2, .writeWord 1 0,
      .readBlock 0 0 0, .writeBlock 0 0 2, .readCoreReg 17, .writeCoreReg 17 0], i.wellFormed = false)
    ∧ State.reset.cfg.bufSize < (1021 : Word).toNat + (4 : Word).toNat
    ∧ State.reset.fa.desc.progBufSize = 0 ∧ (1 : Word) ≠ 0 ∧ State.reset.fa.valid = false := by decide

theorem witness_RegisterOpsFailFirst : cfgLegal base.cfg = true ∧ dpAddrOk 0x8 = true ∧ apAddrOk 0xFC = true
    ∧ Fails (faulting base) (talkReadDp 0x8 0) ∧ Fails (faulting base) (talkWriteDp tight 0x8 0)
    ∧ Fails (faulting base) (talkReadAp tight 0xFC 0) ∧ Fails (faulting base) (talkWriteAp tight 0xFC 0) :=
  ⟨by decide, by decide, by decide, fails_faulting retry_base _ (by decide +kernel), fails_faulting retry_base _ (by decide +kernel),
    fails_faulting retry_base _ (by decide +kernel), fails_faulting retry_base _ (by decide +kernel)⟩

theorem witness_WordAccess : cfgLegal base.cfg = true ∧ wordAligned 0xFFFFFFFC = true
    ∧ Follows (answering (talkReadWord tight 0xFFFFFFFC 7) base) (talkReadWord tight 0xFFFFFFFC 7)
    ∧ Follows (answering (talkWriteWord tight 0xFFFFFFFC 7) base) (talkWriteWord tight 0xFFFFFFFC 7) :=
  ⟨by decide, by decide, follows_answering retry_base _, follows_answering retry_base _⟩

theorem witness_ByteAccess : cfgLegal base.cfg = true
    ∧ Follows (answering (talkReadByte tight 3 7) base) (talkReadByte tight 3 7)
    ∧ Follows (answering (talkWriteByte tight 3 7) base) (talkWriteByte tight 3 7) :=
  ⟨by decide, follows_answering retry_base _, follows_answering retry_base _⟩

/-- One word at the end of `BUF`. -/
theorem witness_BlockAccess : cfgLegal base.cfg = true ∧ blockShapeOk 4 4 = true ∧ bufRangeOk base.cfg.bufSize 1020 4 = true
    ∧ 4 * [(7 : Word)].length = (4 : Word).toNat ∧ Follows (answering (talkReadWords tight 4 [7]) base) (talkReadWords tight 4 [7])
    ∧ Follows (answering (talkWriteWords tight 4 [0]) base) (talkWriteWords tight 4 [0])
    ∧ wordsAt base.buf.read 1 1020 = [0] :=
  ⟨by decide, by decide, by decide, by decide, follows_answering retry_base _, follows_answering retry_base _, by decide⟩

/-- T52: 0x20000003 and 6 bytes; and a size of 0 at the end of `BUF`. -/
theorem witness_MemoryRead :
    let xs := [(Piece.byte 0x20000003 16, [(1 : Word)]), (.block 0x20000004 17 1, [2]), (.byte 0x20000008 21, [3])]
    cfgLegal base.cfg = true ∧ bufRangeOk base.cfg.bufSize 16 6 = true
      ∧ xs.map Prod.fst = walkPieces base.cfg.blockMax 0x20000003 16 6 ∧ (∀ t ∈ xs, Piece.fits t)
      ∧ Follows (answering (Talk.all (xs.map (talkReadPiece tight))) base) (Talk.all (xs.map (talkReadPiece tight)))
      ∧ bufRangeOk base.cfg.bufSize 1024 0 = true ∧ [] = walkPieces base.cfg.blockMax 0x20000003 1024 0
      ∧ Follows base (Talk.all []) :=
  ⟨by decide, by decide, by decide, by simp [Piece.fits], follows_answering retry_base _, by decide, by decide,
    [], _, rfl, rfl⟩

theorem witness_MemoryWrite : cfgLegal base.cfg = true ∧ bufRangeOk base.cfg.bufSize 0 1024 = true
    ∧ Follows (answering (talkWriteBytes tight base.buf.read 0x20000003 0 1024) base)
      (talkWriteBytes tight base.buf.read 0x20000003 0 1024) :=
  ⟨by decide, by decide, follows_answering retry_base _⟩

theorem witness_WalkCovers : 4 ≤ 4 ∧ 4 &&& (4 - 1) = 0 ∧ Piece.block 0x20000004 1 1 ∈ walkPieces 4 0x20000003 0 6 := by decide

theorem witness_StoredWords : Memory.wf [(2, 1), (9, 2)] = true ∧ [(7 : Word)][0]? = some 7 ∧ 3 < 4 ∧ (5 < 6 ∨ 6 + 4 ≤ 5) := by
  decide

theorem witness_ReadsKeepOutside : (base.setBuf [(2, 1), (9, 2)]).buf.wf = true := by decide

theorem witness_MemoryOpsFailFirst : cfgLegal base.cfg = true ∧ wordAligned 4 = true ∧ blockShapeOk 4 4 = true
    ∧ bufRangeOk base.cfg.bufSize 1020 4 = true ∧ 4 * [(7 : Word)].length = (4 : Word).toNat
    ∧ [(Piece.block 4 1020 1, [(7 : Word)])].map Prod.fst = walkPieces base.cfg.blockMax 4 1020 4
    ∧ (∀ t ∈ [(Piece.block 4 1020 1, [(7 : Word)])], Piece.fits t)
    ∧ coreRegOk 4 = true ∧ pollsEnd base.cfg.regrdyPolls (ready base.cfg) [up] ∧ loadsReady base.cfg (List.replicate 9 [up])
    ∧ (∀ tk ∈ [talkReadWord tight 4 7, talkWriteWord tight 4 7, talkReadByte tight 4 7, talkWriteByte tight 4 7,
        talkReadWords tight 4 [7], talkWriteWords tight 4 (wordsAt base.buf.read 1 1020),
        Talk.all ([(Piece.block 4 1020 1, [(7 : Word)])].map (talkReadPiece tight)),
        talkWriteBytes tight base.buf.read 4 1020 4, talkReadCore tight 4 7 [up], talkWriteCore tight 4 7 [up],
        talkDebugState tight (thumbDs tight base.ds) (List.replicate 9 [up]) 7], Fails (faulting base) tk) := by
  refine ⟨by decide, by decide, by decide, by decide, by decide, by decide, by simp [Piece.fits], by decide,
    polls_end _ (by decide), loads_ready, fun tk h => ?_⟩
  simp only [List.mem_cons, List.not_mem_nil, or_false] at h
  rcases h with rfl | rfl | rfl | rfl | rfl | rfl | rfl | rfl | rfl | rfl | rfl <;>
    exact fails_faulting retry_base _ (by decide +kernel)

theorem witness_TransferCounts : [(7 : Word)] ≠ [] := by decide

theorem witness_CoreRegisters : cfgLegal base.cfg = true ∧ coreRegOk 16 = true ∧ pollsEnd base.cfg.regrdyPolls (ready base.cfg) [up]
    ∧ Follows (answering (talkReadCore tight 16 7 [up]) base) (talkReadCore tight 16 7 [up])
    ∧ Follows (answering (talkWriteCore tight 16 7 [up]) base) (talkWriteCore tight 16 7 [up]) :=
  ⟨by decide, by decide, polls_end _ (by decide), follows_answering retry_base _, follows_answering retry_base _⟩

theorem witness_ReadyTimeouts : cfgLegal base.cfg = true ∧ coreRegOk 16 = true
    ∧ pollsFail base.cfg.regrdyPolls (ready base.cfg) [down]
    ∧ Follows (answering ((talkWriteWord tight tight.dcrsr 16).andThen (talkPolls tight [down])) base)
      ((talkWriteWord tight tight.dcrsr 16).andThen (talkPolls tight [down]))
    ∧ Follows (answering (talkWriteCore tight 16 7 [down]) base) (talkWriteCore tight 16 7 [down]) :=
  ⟨by decide, by decide, polls_fail _ (by decide), follows_answering retry_base _, follows_answering retry_base _⟩

/-- Neither status bit, each of them. -/
theorem witness_DebugState : cfgLegal base.cfg = true ∧ loadsReady base.cfg (List.replicate 9 [up])
    ∧ (∀ stat : Word, let tk := talkDebugState tight { base.ds with xpsr := tight.xpsrThumb } (List.replicate 9 [up]) stat
      Follows (answering tk base) tk)
    ∧ (0xF0000000 : Word).getLsbD tight.stickyerr = false ∧ (0xF0000000 : Word).getLsbD tight.wdataerr = false
    ∧ (0x20 : Word).getLsbD tight.stickyerr = true ∧ (0x80 : Word).getLsbD tight.wdataerr = true :=
  ⟨by decide, loads_ready, fun _ => follows_answering retry_base _, by decide, by decide, by decide, by decide⟩

theorem witness_RemoteCall : cfgLegal base.cfg = true ∧ base.fa.valid = true ∧ (call 5).good base.cfg
    ∧ (let tk := talkCall tight (stagedDs tight base.fa.desc 1 2 3 4 5) (call 5)
      Follows (answering tk base) tk) :=
  ⟨by decide, by decide, call_good 5, follows_answering retry_base _⟩

theorem witness_JudgedCalls : cfgLegal base.cfg = true ∧ base.fa.valid = true ∧ (call 0).good base.cfg
    ∧ base.fa.desc.uninit.present = true ∧ base.fa.desc.verify.present = true ∧ base.fa.desc.setRdp.present = true
    ∧ (∀ op ∈ [EntryPoint.uninit, .eraseSector, .eraseChip, .verify, .setRdp], retOk base.cfg op 0 = true)
    ∧ ∀ ds : Ds, Follows (answering (talkCall tight ds (call 0)) base) (talkCall tight ds (call 0)) :=
  ⟨by decide, by decide, call_good 0, by decide, by decide, by decide, by decide, fun _ => follows_answering retry_base _⟩

theorem witness_RejectedCalls : cfgLegal base.cfg = true ∧ base.fa.valid = true ∧ (call 1).good base.cfg
    ∧ base.fa.desc.uninit.present = true ∧ base.fa.desc.verify.present = true ∧ base.fa.desc.setRdp.present = true
    ∧ (∀ op ∈ [EntryPoint.uninit, .eraseSector, .eraseChip, .verify, .setRdp], retOk base.cfg op 1 = false)
    ∧ ∀ ds : Ds, Follows (answering (talkCall tight ds (call 1)) base) (talkCall tight ds (call 1)) :=
  ⟨by decide, by decide, call_good 1, by decide, by decide, by decide, by decide, fun _ => follows_answering retry_base _⟩

/-- A call never seen halted, and one whose start shows a sticky bit. -/
theorem witness_CallFailures :
    (let k : Call := { call 0 with halt := [down] }
     cfgLegal base.cfg = true ∧ base.fa.valid = true ∧ k.started base.cfg ∧ pollsFail base.cfg.syscallPolls (halted base.cfg) k.halt
      ∧ ∀ ds : Ds, Follows (answering (talkStart tight ds k) base) (talkStart tight ds k)) ∧
    (let k : Call := { call 0 with stat := 0x80 }
     loadsReady base.cfg k.loads ∧ stickySet base.cfg k.stat = true
      ∧ ∀ ds : Ds, Follows (answering (talkDebugState tight ds k.loads k.stat) base) (talkDebugState tight ds k.loads k.stat)) :=
  ⟨⟨by decide, by decide, ⟨loads_ready, by decide⟩, polls_fail _ (by decide), fun _ => follows_answering retry_base _⟩,
    loads_ready, by decide, fun _ => follows_answering retry_base _⟩

/-- Each call; the debug enable of `FA_INIT` refused twice, and its next write refused; a page that fails in its second
chunk. -/
theorem witness_CallsFailFirst :
    (cfgLegal base.cfg = true ∧ base.fa.valid = true ∧ (call 0).good base.cfg ∧ base.fa.desc.uninit.present = true
      ∧ base.fa.desc.verify.present = true ∧ base.fa.desc.setRdp.present = true
      ∧ ∀ ds : Ds, Fails (faulting base) (talkCall tight ds (call 0))) ∧
    (let s := showing (faultLevels tight ++ (faultLevels tight ++ [])) base
     ∃ e rest, EnableFails s.cfg s.cfg.debugenRetries s.link.mir s.link.wire.lineIn e rest) ∧
    (pollsEnd base.cfg.haltPolls (halted base.cfg) [up] ∧
      (let s := showing ((talkEnable tight base.link.mir).1.flatMap (turnLevels tight) ++ faultLevels tight)
         (base.setDescIn descriptor)
       let tk := (talkResetSteps s.cfg (if s.cfg.softReset then talkSoftReset s.cfg else talkPulse) [up]).andThen
        ((talkWriteBytes s.cfg s.descIn.codeByte s.descIn.codeAddr 0 s.descIn.codeSize.toNat).andThen
          (talkCall s.cfg (stagedDs s.cfg s.descIn s.descIn.init 0x08000000 0 0 0) (call 0)))
       ∃ e mid m, Enabled s.cfg s.link.mir s.link.wire.lineIn e mid m ∧ ∃ e2 rest, Broken s.cfg (tk m).1 mid e2 rest .fault)) ∧
    (let xs := [(((0x08000000 : Word), 0, 256), call 0)]
     let y := (((0x08000100 : Word), 256, 1), call 1)
     let tk := Talk.all (xs.map (talkChunk tight base.fa.desc base.buf.read))
     bufRangeOk base.cfg.bufSize 0 257 = true ∧ base.fa.desc.progBufSize ≠ 0
      ∧ pageChunks base.fa.desc.progBufSize.toNat 257 0x08000000 0 257 = xs.map Prod.fst ++ y.1 :: []
      ∧ (∀ x ∈ xs, x.2.good base.cfg ∧ retOk base.cfg .programPage x.2.r0 = true) ∧ y.2.good base.cfg
      ∧ ∃ e mid, Answered tight (tk base.link.mir).1
          (showing ((tk base.link.mir).1.flatMap (turnLevels tight) ++ faultLevels tight) base).link.wire.lineIn e mid
        ∧ ∃ e2 rest, Broken tight (talkChunk tight base.fa.desc base.buf.read y (tk base.link.mir).2).1 mid e2 rest .fault) := by
  refine ⟨⟨by decide, by decide, call_good 0, by decide, by decide, by decide,
      fun ds => fails_faulting retry_base _ rfl⟩, enable_fails, ⟨polls_end _ (by decide), ?_⟩,
    by decide, by decide, by decide +kernel, fun x hx => by
      simp only [List.mem_cons, List.not_mem_nil, or_false] at hx
      subst hx; exact ⟨call_good 0, by decide⟩, call_good 1, ?_⟩
  · obtain ⟨e, h⟩ := enabled_answering (faultLevels tight) Mirror.reset
    exact ⟨e, _, _, h, broken_at_once retry_base _ (by decide +kernel)⟩
  · obtain ⟨e, h⟩ := all_answered retry_base (faultLevels tight) _
    exact ⟨e, _, h, broken_at_once retry_base _ (by decide +kernel)⟩

theorem witness_AbsentEntries :
    let s := base.setFa ⟨true, { descriptor with uninit := ⟨false, 0⟩ }⟩
    s.fa.valid = true ∧ s.fa.desc.uninit.present = false ∧ s.fa.desc.verify.present = false
      ∧ s.fa.desc.setRdp.present = false := by decide

/-- Return values 0 and 1. -/
theorem witness_FlashInit : cfgLegal base.cfg = true ∧ pollsEnd base.cfg.haltPolls (halted base.cfg) [up]
    ∧ retOk base.cfg .init 0 = true ∧ retOk base.cfg .init 1 = false
    ∧ ∀ r : Word, (call r).good base.cfg ∧
      (let s := base.setDescIn descriptor
       let tk := (talkResetHalt s.cfg [up]).andThen
         ((talkWriteBytes s.cfg s.descIn.codeByte s.descIn.codeAddr 0 s.descIn.codeSize.toNat).andThen
           (talkCall s.cfg (stagedDs s.cfg s.descIn s.descIn.init 0x08000000 0 0 0) (call r)))
       Follows (answering tk s) tk) :=
  ⟨by decide, polls_end _ (by decide), by decide, by decide, fun r => ⟨call_good r, follows_answering retry_base _⟩⟩

/-- Two chunks, 256 and 1 bytes; and a length of 0. -/
theorem witness_PageProgrammed :
    let xs := [(((0x08000000 : Word), 0, 256), call 0), ((0x08000100, 256, 1), call 0)]
    cfgLegal base.cfg = true ∧ base.fa.valid = true ∧ bufRangeOk base.cfg.bufSize 0 257 = true
      ∧ base.fa.desc.progBufSize ≠ 0
      ∧ xs.map Prod.fst = pageChunks base.fa.desc.progBufSize.toNat 257 0x08000000 0 257
      ∧ (∀ x ∈ xs, x.2.good base.cfg ∧ retOk base.cfg .programPage x.2.r0 = true)
      ∧ (let tk := Talk.all (xs.map (talkChunk tight base.fa.desc base.buf.read)); Follows (answering tk base) tk)
      ∧ [] = pageChunks base.fa.desc.progBufSize.toNat 0 0x08000000 1024 0 ∧ Follows base (Talk.all []) :=
  ⟨by decide, by decide, by decide, by decide, by decide +kernel,
    fun x hx => by
      simp only [List.mem_cons, List.not_mem_nil, or_false] at hx
      rcases hx with rfl | rfl <;> exact ⟨call_good 0, by decide⟩,
    follows_answering retry_base _, by decide, [], _, rfl, rfl⟩

theorem witness_PageRejected :
    let xs := [(((0x08000000 : Word), 0, 256), call 0)]
    let y := (((0x08000100 : Word), 256, 1), call 1)
    cfgLegal base.cfg = true ∧ base.fa.valid = true ∧ bufRangeOk base.cfg.bufSize 0 257 = true
      ∧ base.fa.desc.progBufSize ≠ 0
      ∧ pageChunks base.fa.desc.progBufSize.toNat 257 0x08000000 0 257 = xs.map Prod.fst ++ y.1 :: []
      ∧ (∀ x ∈ xs, x.2.good base.cfg ∧ retOk base.cfg .programPage x.2.r0 = true)
      ∧ y.2.good base.cfg ∧ retOk base.cfg .programPage y.2.r0 = false
      ∧ (let tk := Talk.all ((xs ++ [y]).map (talkChunk tight base.fa.desc base.buf.read)); Follows (answering tk base) tk) :=
  ⟨by decide, by decide, by decide, by decide, by decide +kernel,
    fun x hx => by
      simp only [List.mem_cons, List.not_mem_nil, or_false] at hx
      subst hx; exact ⟨call_good 0, by decide⟩,
    call_good 1, by decide, follows_answering retry_base _⟩

theorem witness_ChunksCover : 0 < 1 ∧ pageChunks 1 2 0 0 2 = [(0, 0, 1), (1, 1, 1)] := by decide

theorem witness_SectorBoundary : base.fa.valid = true ∧ State.reset.fa.valid = false := by decide

theorem witness_ConnectAndPower : cfgLegal base.cfg = true ∧ pollsEnd base.cfg.pwrupPolls (powerAcked base.cfg) [0xA0000000]
    ∧ Follows (answering (talkConnect tight 0x2BA01477) base) (talkConnect tight 0x2BA01477)
    ∧ Follows (answering (talkPowerUp tight [0xA0000000]) base) (talkPowerUp tight [0xA0000000]) :=
  ⟨by decide, polls_end _ (by decide), follows_answering retry_base _, follows_answering retry_base _⟩

theorem witness_ResetAndHalt : cfgLegal base.cfg = true ∧ pollsEnd base.cfg.haltPolls (halted base.cfg) [up]
    ∧ ∀ step3 ∈ [talkPulse, talkSoftReset tight],
      Follows (answering (talkResetHaltWith tight step3 [up]) base) (talkResetHaltWith tight step3 [up]) :=
  ⟨by decide, polls_end _ (by decide), fun _ _ => follows_answering retry_base _⟩

/-- One failure with two attempts allowed: a FAULT, the pulse, then a target that answers everything. -/
theorem witness_EnableRecovers : cfgLegal base.cfg = true ∧ 1 < base.cfg.debugenRetries ∧ 1 ≤ 1
    ∧ pollsEnd base.cfg.haltPolls (halted base.cfg) [up]
    ∧ (let good := (talkResetHaltWith tight talkPulse [up] Mirror.reset).1.flatMap (turnLevels tight)
      let s := showing (faultLevels tight ++ good) base
      ∃ e1 e2 mid rest, EnableTries s.cfg 1 s.link.mir s.link.wire.lineIn e1 mid
        ∧ Answered s.cfg (talkResetHaltWith s.cfg talkPulse [up] Mirror.reset).1 mid e2 rest) := by
  refine ⟨by decide, by decide, le_rfl, polls_end _ (by decide), ?_⟩
  obtain ⟨e2, h2⟩ := all_answered retry_base [] (talkResetHaltWith tight talkPulse [up] Mirror.reset).1
  obtain ⟨e1, h1⟩ := first_broken retry_base ((talkResetHaltWith tight talkPulse [up] Mirror.reset).1.flatMap (turnLevels tight))
    (talkEnable tight Mirror.reset).1 (by decide +kernel)
  rw [List.append_nil] at h2
  exact ⟨_, e2, _, [], ⟨.fault, e1, _, [], h1, rfl, rfl, rfl⟩, h2⟩

theorem witness_HaltAndRun : cfgLegal base.cfg = true
    ∧ (∀ v : Word, Follows (answering (talkWriteWord tight tight.dhcsr v) base) (talkWriteWord tight tight.dhcsr v))
    ∧ (let tk := (talkWriteWord tight tight.dhcsr tight.dbgkey).andThen ((talkWriteDp tight tight.dpCtrlstat 0).andThen Talk.forget)
      Follows (answering tk base) tk) :=
  ⟨by decide, fun _ => follows_answering retry_base _, follows_answering retry_base _⟩

/-- The power acknowledge half set, both attempts of the debug enable refused, the halt never seen; a first write refused, and
the write after a good step 1 refused. -/
theorem witness_LifecycleFailures : cfgLegal base.cfg = true ∧ pollsFail base.cfg.pwrupPolls (powerAcked base.cfg) [0x20000000]
    ∧ Follows (answering (talkPowerUp tight [0x20000000]) base) (talkPowerUp tight [0x20000000])
    ∧ (let s := showing (faultLevels tight ++ (faultLevels tight ++ [])) base
      ∃ e rest, EnableFails s.cfg s.cfg.debugenRetries s.link.mir s.link.wire.lineIn e rest)
    ∧ pollsFail base.cfg.haltPolls (halted base.cfg) [down]
    ∧ (∀ step3 ∈ [talkPulse, talkSoftReset tight],
      let tk := (talkEnable tight).andThen
        ((talkWriteWord tight tight.demcr (bitMask tight.vcCorereset)).andThen (step3.andThen (talkPolls tight [down])))
      Follows (answering tk base) tk)
    ∧ pollsEnd base.cfg.pwrupPolls (powerAcked base.cfg) [0xA0000000]
    ∧ (∀ tk ∈ [talkConnect tight 7, talkPowerUp tight [0xA0000000],
        talkWriteWord tight tight.dhcsr (tight.dbgkey ||| bitMask tight.cDebugen ||| bitMask tight.cHalt),
        (talkWriteWord tight tight.dhcsr tight.dbgkey).andThen ((talkWriteDp tight tight.dpCtrlstat 0).andThen Talk.forget)],
      Fails (faulting base) tk)
    ∧ pollsEnd base.cfg.haltPolls (halted base.cfg) [up]
    ∧ (let s := showing ((talkEnable tight base.link.mir).1.flatMap (turnLevels tight) ++ faultLevels tight) base
      ∀ step3 ∈ [talkPulse, talkSoftReset tight], ∃ e mid m, Enabled s.cfg s.link.mir s.link.wire.lineIn e mid m
        ∧ ∃ e2 rest, Broken s.cfg (talkResetSteps s.cfg step3 [up] m).1 mid e2 rest .fault) := by
  refine ⟨by decide, polls_fail _ (by decide), follows_answering retry_base _, enable_fails, polls_fail _ (by decide),
    fun _ _ => follows_answering retry_base _, polls_end _ (by decide), fun tk h => ?_, polls_end _ (by decide), fun step3 h => ?_⟩
  · simp only [List.mem_cons, List.not_mem_nil, or_false] at h
    rcases h with rfl | rfl | rfl | rfl <;> exact fails_faulting retry_base _ (by decide +kernel)
  · obtain ⟨e, h1⟩ := enabled_answering (faultLevels tight) Mirror.reset
    simp only [List.mem_cons, List.not_mem_nil, or_false] at h
    rcases h with rfl | rfl <;> exact ⟨e, _, _, h1, broken_at_once retry_base _ (by decide +kernel)⟩

theorem witness_PinsStayIdle : cfgLegal State.reset.cfg = true ∧ AtIdle State.reset.link
    ∧ ∀ i ∈ [Instr.transfer 0 0, .faSectorIsBoundary 0, .lcConnect], i.isOperation = true :=
  ⟨by decide, ⟨rfl, rfl, rfl⟩, by decide⟩

end Sys2Proof.Tests
end

/-! # What an instruction may write (family 00_scope): the proof of O59

A command is four stages: its start, its body, its results and its end. `Framed` says what the obligation allows every
instruction to write; each stage is shown to stay within it and the stages are put together once, in `command_frame`. -/

section
namespace Sys2Proof.Machine

/-! ### The three formats -/

/-- A request of the wire is the request phase of a frame (R94). -/
theorem exec_of_isRequest {i : Instr} (h : i.isRequest = true) : ∃ r, ∀ s, exec i s = sendRequest r s := by
  cases i <;> simp [Instr.isRequest] at h <;> exact ⟨_, fun _ => rfl⟩

/-- An acknowledge of the wire is the acknowledge phase of a frame (R96). -/
theorem exec_of_isAck {i : Instr} (h : i.isAck = true) : ∃ v, ∀ s, exec i s = takeAck v s := by
  cases i <;> simp [Instr.isAck] at h <;> exact ⟨_, fun _ => rfl⟩

/-! ### What every instruction leaves alone -/

/-- What holds between the states before and after `i`, whichever format it has. -/
structure Framed (i : Instr) (s t : State) : Prop where
  arg : t.arg = s.arg
  cmdOp : t.cmdOp = s.cmdOp
  cfg : t.cfg = s.cfg
  descIn : t.descIn = s.descIn
  host : t.host = s.host
  fa : i.isFaInit = false → t.fa = s.fa
  buf : i.writesBuf = false → t.buf = s.buf
  loops : i.writesLoops = false → t.loops = s.loops
  ds : i.writesDs = false → t.ds = s.ds
  ret : i.writesRet = false → t.ret = s.ret
  faxst : i.writesFaxst = false → t.link.status.faxst = s.link.status.faxst
  mir : i.writesMirror = false → t.link.mir = s.link.mir
  nreset : i.pulsesReset = false → t.link.wire.line.nreset = s.link.wire.line.nreset
  pulsed : t.link.wire.line.nreset = s.link.wire.line.nreset ∨ t.link.wire.line.nreset = true
  ack : i.writesAck = false →
    t.link.status.ackraw = s.link.status.ackraw ∧ t.link.status.result = s.link.status.result
  retryx : i.makesLogical = false → t.link.status.retryx = s.link.status.retryx
  trace : s.link.wire.trace <+: t.link.wire.trace
  clk : t.link.wire.line.clk = s.link.wire.line.clk

theorem Framed.trans {i : Instr} {s t u : State} (h1 : Framed i s t) (h2 : Framed i t u) : Framed i s u where
  arg := h2.arg.trans h1.arg
  cmdOp := h2.cmdOp.trans h1.cmdOp
  cfg := h2.cfg.trans h1.cfg
  descIn := h2.descIn.trans h1.descIn
  host := h2.host.trans h1.host
  fa := fun h => (h2.fa h).trans (h1.fa h)
  buf := fun h => (h2.buf h).trans (h1.buf h)
  loops := fun h => (h2.loops h).trans (h1.loops h)
  ds := fun h => (h2.ds h).trans (h1.ds h)
  ret := fun h => (h2.ret h).trans (h1.ret h)
  faxst := fun h => (h2.faxst h).trans (h1.faxst h)
  mir := fun h => (h2.mir h).trans (h1.mir h)
  nreset := fun h => (h2.nreset h).trans (h1.nreset h)
  pulsed := by
    rcases h2.pulsed with h | h
    · rw [h]; exact h1.pulsed
    · exact .inr h
  ack := fun h => ⟨(h2.ack h).1.trans (h1.ack h).1, (h2.ack h).2.trans (h1.ack h).2⟩
  retryx := fun h => (h2.retryx h).trans (h1.retryx h)
  trace := h1.trace.trans h2.trace
  clk := h2.clk.trans h1.clk

/-- A change of the link alone, by a phase of a frame (R27). -/
theorem Framed.setLink {i : Instr} {s : State} {l : Link} (h : LinkGrows s.link l) (hm : l.mir = s.link.mir)
    (hx : l.status.retryx = s.link.status.retryx)
    (ha : i.writesAck = false → l.status.ackraw = s.link.status.ackraw ∧ l.status.result = s.link.status.result) :
    Framed i s (s.setLink l) where
  arg := rfl
  cmdOp := rfl
  cfg := rfl
  descIn := rfl
  host := rfl
  fa := fun _ => rfl
  buf := fun _ => rfl
  loops := fun _ => rfl
  ds := fun _ => rfl
  ret := fun _ => rfl
  faxst := fun _ => by rw [State.setLink_link, h.status]
  mir := fun _ => hm
  nreset := fun _ => h.wire.nreset
  pulsed := .inl h.wire.nreset
  ack := ha
  retryx := fun _ => hx
  trace := h.wire.trace
  clk := h.wire.clk

theorem Framed.beginOp (i : Instr) (s : State) : Framed i s s.beginOp := by
  constructor <;> simp [Link.begun]

theorem Framed.endOp (i : Instr) (s : State) (c : Cause) : Framed i s (s.endOp c) := by
  constructor <;> simp [State.endOp]

/-! ### Requests and acknowledges -/

/-- A single phase of a frame: beyond `Framed`, it writes no result and no status of a command (log 2). -/
structure WireFrame (i : Instr) (s t : State) : Prop extends Framed i s t where
  cause : t.cause = s.cause
  res0 : t.res0 = s.res0
  res1 : t.res1 = s.res1
  busy : t.link.status.busy = s.link.status.busy
  illegal : t.link.status.illegal = s.link.status.illegal
  fail : t.link.status.fail = s.link.status.fail

/-- A phase changes `ACKRAW`, `RESULT` and `RETRYX` of `STATUS` at most. -/
theorem WireFrame.setLink {i : Instr} {s : State} {l : Link} (h : LinkGrows s.link l) (hf : Framed i s (s.setLink l)) :
    WireFrame i s (s.setLink l) := by
  refine ⟨hf, rfl, rfl, rfl, ?_, ?_, ?_⟩ <;> rw [State.setLink_link, h.status]

theorem request_frame {i : Instr} (h : i.isRequest = true) (s : State) : ∃ t, exec i s = .next t ∧ WireFrame i s t := by
  obtain ⟨r, hr⟩ := exec_of_isRequest h
  have hs : (s.link.reqPhase r).status = s.link.status := by rw [Link.reqPhase_eq]; rfl
  have hm : (s.link.reqPhase r).mir = s.link.mir := by rw [Link.reqPhase_eq]; rfl
  have hg := LinkGrows.reqPhase s.link r
  exact ⟨_, hr s, .setLink hg (.setLink hg hm (by rw [hs]) fun _ => by simp [hs])⟩

theorem ack_frame {i : Instr} (h : i.isAck = true) (s : State) : ∃ t, exec i s = .next t ∧ WireFrame i s t := by
  obtain ⟨v, hv⟩ := exec_of_isAck h
  obtain ⟨hm, hx⟩ := Link.ackPhase_leaves s.link v
  have hg := LinkGrows.ackPhase s.link v
  have hw : i.writesAck = true := by cases i <;> first | rfl | cases h
  exact ⟨_, hv s, .setLink hg (.setLink hg hm hx fun hn => by simp [hw] at hn)⟩

/-! ### The results of a command -/

/-- What the results of a failed command may write: `RES`, `FAXST` if `i` is of the flash runtime, the destination range if
`i` reads into `BUF` (R212, R344, R350). -/
structure Settles (i : Instr) (t u : State) : Prop where
  link : u.link = t.link.setStatus { t.link.status with faxst := u.link.status.faxst }
  faxst : i.writesFaxst = false → u.link.status.faxst = t.link.status.faxst
  buf : i.writesBuf = false → u.buf = t.buf
  arg : u.arg = t.arg
  cmdOp : u.cmdOp = t.cmdOp
  cfg : u.cfg = t.cfg
  descIn : u.descIn = t.descIn
  host : u.host = t.host
  fa : u.fa = t.fa
  loops : u.loops = t.loops
  ds : u.ds = t.ds
  ret : u.ret = t.ret

/-- What the results of a command that succeeds may write: besides, `RES` only where R105 names it. -/
structure Delivers (i : Instr) (t u : State) : Prop extends Settles i t u where
  res0 : i.hasRes0 = false → u.res0 = t.res0
  res1 : i.hasRes1 = false → u.res1 = t.res1

theorem Settles.refl (i : Instr) (t : State) : Settles i t t := by constructor <;> intros <;> rfl

theorem Settles.trans {i : Instr} {t u v : State} (h1 : Settles i t u) (h2 : Settles i u v) : Settles i t v where
  link := by rw [h2.link, h1.link]; rfl
  faxst := fun h => (h2.faxst h).trans (h1.faxst h)
  buf := fun h => (h2.buf h).trans (h1.buf h)
  arg := h2.arg.trans h1.arg
  cmdOp := h2.cmdOp.trans h1.cmdOp
  cfg := h2.cfg.trans h1.cfg
  descIn := h2.descIn.trans h1.descIn
  host := h2.host.trans h1.host
  fa := h2.fa.trans h1.fa
  loops := h2.loops.trans h1.loops
  ds := h2.ds.trans h1.ds
  ret := h2.ret.trans h1.ret

theorem Settles.framed {i : Instr} {t u : State} (h : Settles i t u) : Framed i t u where
  arg := h.arg
  cmdOp := h.cmdOp
  cfg := h.cfg
  descIn := h.descIn
  host := h.host
  fa := fun _ => h.fa
  buf := h.buf
  loops := fun _ => h.loops
  ds := fun _ => h.ds
  ret := fun _ => h.ret
  faxst := h.faxst
  mir := fun _ => by rw [h.link, Link.setStatus_mir]
  nreset := fun _ => congrArg (fun l => l.wire.line.nreset) h.link
  pulsed := .inl (congrArg (fun l => l.wire.line.nreset) h.link)
  ack := fun _ => ⟨congrArg (fun l => l.status.ackraw) h.link, congrArg (fun l => l.status.result) h.link⟩
  retryx := fun _ => congrArg (fun l => l.status.retryx) h.link
  trace := by rw [h.link]; exact List.prefix_rfl
  clk := congrArg (fun l => l.wire.line.clk) h.link

theorem Settles.setRes0 (i : Instr) (t : State) (v : Word) : Settles i t (t.setRes0 v) := by
  constructor <;> intros <;> rfl

theorem Settles.setRes1 (i : Instr) (t : State) (v : Word) : Settles i t (t.setRes1 v) := by
  constructor <;> intros <;> rfl

theorem Settles.freeRes (i : Instr) (t : State) : Settles i t t.freeRes := by
  constructor <;> intros <;> rfl

theorem Settles.setFaxst {i : Instr} (hi : i.writesFaxst = true) (t : State) (f : FlashStatus) :
    Settles i t (t.setFaxst f) :=
  ⟨rfl, fun h => by simp [hi] at h, fun _ => rfl, rfl, rfl, rfl, rfl, rfl, rfl, rfl, rfl, rfl⟩

theorem Settles.freeBuf {i : Instr} (hi : i.writesBuf = true) (t : State) (o n : Nat) : Settles i t (t.freeBuf o n) :=
  ⟨rfl, fun _ => rfl, fun h => by simp [hi] at h, rfl, rfl, rfl, rfl, rfl, rfl, rfl, rfl, rfl⟩

theorem settles_failRes (i : Instr) (c : Cause) (t : State) : Settles i t (failRes c t) := by
  unfold failRes
  split
  · exact .refl i t
  · exact .freeRes i t

theorem settles_failRead {i : Instr} (hi : i.writesBuf = true) (o n : Word) (c : Cause) (t : State) :
    Settles i t (failRead o n c t) := by
  unfold failRead
  split
  · exact .refl i t
  · exact (Settles.freeBuf hi t _ _).trans (.freeRes i _)

theorem settles_flashFail {i : Instr} (hi : i.writesFaxst = true) (f : FlashStatus) (c : Cause) (t : State) :
    Settles i t (flashFail f c t) := by
  refine Settles.trans (u := flashFailRes c t) ?_ (.setFaxst hi _ _)
  unfold flashFailRes
  split
  · exact (Settles.freeRes i t).trans (.setRes0 i _ _)
  · exact settles_failRes i c t

theorem settles_pageFail {i : Instr} (hi : i.writesFaxst = true) (c : Cause) (t : State) : Settles i t (pageFail c t) := by
  refine Settles.trans (u := pageFailRes c t) ?_ (.setFaxst hi _ _)
  unfold pageFailRes
  split
  · exact .refl i t
  · split
    · exact .setRes0 i t _
    · exact (Settles.freeRes i t).trans (.setRes1 i _ _)

theorem delivers_noResult (i : Instr) (v : Unit) (t : State) : Delivers i t (noResult v t) :=
  ⟨.refl i t, fun _ => rfl, fun _ => rfl⟩

/-- A result in `RES[0]`. -/
theorem delivers_setRes0 {i : Instr} (hi : i.hasRes0 = true) (t : State) (v : Word) : Delivers i t (t.setRes0 v) :=
  ⟨.setRes0 i t v, fun h => by simp [hi] at h, fun _ => rfl⟩

theorem delivers_flashOk {α : Type} {i : Instr} (hx : i.writesFaxst = true) (hi : i.hasRes0 = true) (v : α) (t : State) :
    Delivers i t (flashOk v t) :=
  ⟨(Settles.setRes0 i t t.ret).trans (.setFaxst hx _ .ok), fun h => by simp [hi] at h, fun _ => rfl⟩

/-! ### The body of a command -/

/-- What the body of `i` may write besides the link. -/
def touchOf (i : Instr) : Touch where
  loops := i.writesLoops
  ds := i.writesDs
  ret := i.writesRet
  res0 := i.hasRes0
  res1 := i.hasRes1
  buf := i.writesBuf
  fa := i.isFaInit
  pulse := i.pulsesReset

/-- However the operation ends, what `f` reads of the state is as it was. -/
def Preserves {α β : Type} (f : State → β) (op : Op α) : Prop := ∀ s, f (finalState (op s)) = f s

theorem Preserves.pure {α β : Type} (f : State → β) (v : α) : Preserves f (Pure.pure v : Op α) := fun _ => rfl

theorem Preserves.throw {α β : Type} (f : State → β) (c : Cause) : Preserves f (MonadExcept.throw c : Op α) := fun _ => rfl

theorem Preserves.get {β : Type} (f : State → β) : Preserves f (MonadState.get : Op State) := fun _ => rfl

theorem Preserves.bind {α β γ : Type} {f : State → γ} {x : Op α} {k : α → Op β} (h1 : Preserves f x)
    (h2 : ∀ a, Preserves f (k a)) : Preserves f (x >>= k) := by
  intro s
  have hx := h1 s
  rw [Op.bind_apply]
  cases h : x s with
  | ok a t => rw [h] at hx; exact (h2 a t).trans hx
  | error c t => rw [h] at hx; exact hx

theorem Preserves.ite {α β : Type} {f : State → β} (q : Prop) [Decidable q] {x y : Op α} (h1 : Preserves f x)
    (h2 : Preserves f y) : Preserves f (if q then x else y) := by split <;> assumption

theorem Preserves.require {β : Type} (f : State → β) (b : Bool) : Preserves f (require b) :=
  Preserves.ite _ (.pure f ()) (.throw f _)

theorem preserves_needOk {β : Type} (f : State → β) (x : AckResult × Word) : Preserves f (needOk x) :=
  Preserves.ite _ (.pure f _) (.throw f _)

/-- Writing the results of a raw transfer leaves the link alone. -/
theorem preserves_rawTransfer {β : Type} (f : Link → β) (x : AckResult × Word) :
    Preserves (fun s => f s.link) (rawTransfer x) :=
  Preserves.bind (fun _ => rfl) fun _ => (preserves_needOk _ x).bind fun _ => .pure _ _

/-- The body of `i` writes what `i` may write, and raises named failure kinds only. -/
structure BodyFits {α : Type} (i : Instr) (body : Op α) : Prop where
  keeps : Keeps (touchOf i) body
  named : ∀ s c t, body s = .error c t → c ≠ .none
  mir : i.writesMirror = false → Preserves (fun s => s.link.mir) body
  ack : i.writesAck = false → Preserves (fun s => (s.link.status.ackraw, s.link.status.result)) body
  retryx : i.makesLogical = false → Preserves (fun s => s.link.status.retryx) body

/-- The body of a command that may write the mirror and make logical transfers. -/
theorem BodyFits.ofKeeps {α : Type} {i : Instr} {body : Op α} (hk : Keeps (touchOf i) body)
    (hn : ∀ s c t, body s = .error c t → c ≠ .none) (hm : i.writesMirror = true := by rfl)
    (ha : i.writesAck = true := by rfl) (hl : i.makesLogical = true := by rfl) : BodyFits i body :=
  ⟨hk, hn, fun h => by simp [hm] at h, fun h => by simp [ha] at h, fun h => by simp [hl] at h⟩

theorem BodyFits.framed {α : Type} {i : Instr} {body : Op α} (h : BodyFits i body) (s : State) :
    Framed i s (finalState (body s)) :=
  have w := h.keeps s
  { arg := w.arg, cmdOp := w.cmdOp, cfg := w.cfg, descIn := w.descIn, host := w.host
    fa := w.fa, buf := w.buf, loops := w.loops, ds := w.ds, ret := w.ret
    faxst := fun _ => by rw [w.status]
    mir := fun hm => h.mir hm s
    nreset := w.nreset, pulsed := w.pulsed
    ack := fun ha => Prod.mk.inj (h.ack ha s)
    retryx := fun hl => h.retryx hl s
    trace := w.trace, clk := w.clk }

/-! ### A whole command -/

/-- What a command leaves: beyond `Framed`, its status and results (R353, R381). -/
structure CommandFrame (i : Instr) (s t : State) : Prop extends Framed i s t where
  busy : t.link.status.busy = false
  illegal : t.link.status.illegal = false
  fail : t.link.status.fail = decide (t.cause ≠ .none)
  res0 : t.cause = .none → i.hasRes0 = false → t.res0 = s.res0
  res1 : t.cause = .none → i.hasRes1 = false → t.res1 = s.res1
  idle : s.link.seq.phase = .idle → t.link.seq.phase = .idle

/-- The end of a command, from the state `t` its body left and the results `u`. -/
theorem CommandFrame.ofEnd {i : Instr} {s t u : State} {c : Cause} (hw : Within (touchOf i) s.beginOp t)
    (hb : Framed i s.beginOp t) (hu : Settles i t u) (h0 : c = .none → i.hasRes0 = false → u.res0 = t.res0)
    (h1 : c = .none → i.hasRes1 = false → u.res1 = t.res1) : CommandFrame i s (u.endOp c) where
  toFramed := (Framed.beginOp i s).trans (hb.trans (hu.framed.trans (.endOp i u c)))
  busy := rfl
  illegal := by
    show u.link.status.illegal = false
    rw [hu.link, Link.setStatus_status]
    exact congrArg Status.illegal hw.status
  fail := rfl
  res0 := fun hc h => (h0 hc h).trans (hw.res0 h)
  res1 := fun hc h => (h1 hc h).trans (hw.res1 h)
  idle := fun h => by
    show u.link.seq.phase = .idle
    rw [hu.link]; exact hw.idle h

/-- A command whose body and results write what `i` may write. -/
theorem command_frame {α : Type} {i : Instr} {body : Op α} {onOk : α → State → State} {onFail : Cause → State → State}
    (hb : BodyFits i body) (hok : ∀ v t, Delivers i t (onOk v t)) (hfail : ∀ c t, Settles i t (onFail c t)) (s : State) :
    CommandFrame i s (command body onOk onFail s) := by
  have hw := hb.keeps s.beginOp
  have hf := hb.framed s.beginOp
  obtain ⟨v, t, h, hc⟩ | ⟨c, t, h, hc⟩ := command_state body onOk onFail s
  · rw [h] at hw hf
    rw [hc]
    exact .ofEnd hw hf (hok v t).toSettles (fun _ => (hok v t).res0) fun _ => (hok v t).res1
  · have hn := hb.named _ c t h
    rw [h] at hw hf
    rw [hc]
    exact .ofEnd hw hf (hfail c t) (fun h0 => absurd h0 hn) fun h0 => absurd h0 hn

/-! ### The bodies that write less -/

/-- A bit operation (R124 to R127). -/
theorem bodyFits_wireOp {α : Type} {i : Instr} {f : Wire → α × Wire} (h : ∀ w, WireGrows w (f w).2) :
    BodyFits i (wireOp f) where
  keeps := fun s => Within.ofLink ⟨h s.link.wire, rfl⟩ id
  named := fun _ _ _ h => nomatch h
  mir := fun _ _ => rfl
  ack := fun _ _ => rfl
  retryx := fun _ _ => rfl

theorem keeps_rawTransfer (p : Touch) (h0 : p.res0 = true) (h1 : p.res1 = true) (x : AckResult × Word) :
    Keeps p (rawTransfer x) := by
  refine Keeps.bind ?_ fun _ => (keeps_needOk p x).bind fun _ => Keeps.pure p _
  intro s; constructor <;> simp [finalState, modifyOp, h0, h1]

/-- `TRANSFER` is one frame (R141). -/
theorem bodyFits_transfer (r : Req) (w : Word) :
    BodyFits (.transfer r w) (linkOp (fun c l => transfer c.turnaround r w l) >>= rawTransfer) where
  keeps := Keeps.bind (fun s => Within.ofLink (LinkGrows.frame s.link s.cfg.turnaround r w) fun _ =>
    (Link.frame_atIdle s.link s.cfg.turnaround r w).2.2) (keeps_rawTransfer _ rfl rfl)
  named := ((orderly_transfer r w).bind orderly_rawTransfer).named
  mir := fun _ => Preserves.bind (fun s => (Link.frame_leaves s.link s.cfg.turnaround r w).1)
    (preserves_rawTransfer Link.mir)
  ack := nofun
  retryx := fun _ => Preserves.bind (fun s => (Link.frame_leaves s.link s.cfg.turnaround r w).2)
    (preserves_rawTransfer fun l => l.status.retryx)

/-- `TRANSFER_RETRY` is one wait-retry loop (R150). -/
theorem bodyFits_transferRetry (r : Req) (w : Word) :
    BodyFits (.transferRetry r w) (logical r w >>= rawTransfer) where
  keeps := (keeps_logical _ r w).bind (keeps_rawTransfer _ rfl rfl)
  named := ((orderly_logical r w).bind orderly_rawTransfer).named
  mir := fun _ => Preserves.bind (logical_mir r w) (preserves_rawTransfer Link.mir)
  ack := nofun
  retryx := nofun

/-- `READ_DP` leaves the mirror alone (R156). -/
theorem bodyFits_readDp (a : Word) : BodyFits (.readDp a) (readDp a) where
  keeps := keeps_readDp _ a
  named := (orderly_readDp a).named
  mir := fun _ => (Preserves.require _ _).bind fun _ => Preserves.bind (logical_mir _ 0) fun _ => preserves_needOk _ _
  ack := nofun
  retryx := nofun

/-- `SESSION_INIT` clears the mirror and leaves the wire alone (R176). -/
theorem bodyFits_sessionInit : BodyFits .sessionInit sessionInit where
  keeps := keeps_sessionInit _
  named := orderly_sessionInit.named
  mir := nofun
  ack := fun _ _ => rfl
  retryx := fun _ _ => rfl

/-- `LC_RESET_RUN` pulses the reset pin and clears the mirror (R288). -/
theorem bodyFits_resetPulse : BodyFits .lcResetRun resetPulse where
  keeps := keeps_resetPulse _ rfl
  named := orderly_resetPulse.named
  mir := nofun
  ack := fun _ _ => rfl
  retryx := fun _ _ => rfl

/-- `FA_SECTOR_IS_BOUNDARY` writes nothing before its result (R262). -/
theorem bodyFits_faSectorIsBoundary (a : Word) : BodyFits (.faSectorIsBoundary a) (faSectorIsBoundary a) where
  keeps := keeps_faSectorIsBoundary _ a
  named := (orderly_faSectorIsBoundary a).named
  mir := fun _ => leaves _
  ack := fun _ => leaves _
  retryx := fun _ => leaves _
where
  leaves {β : Type} (f : State → β) : Preserves f (faSectorIsBoundary a) :=
    ((Preserves.get f).bind fun _ => .require f _).bind fun _ => (Preserves.get f).bind fun _ => .pure f _

/-! ### Every command -/

/-- A command of U1, U2 or U4 without a result. -/
theorem frame_plain {i : Instr} {body : Op Unit} (hb : BodyFits i body) (s : State) :
    CommandFrame i s (command body noResult failRes s) :=
  command_frame hb (delivers_noResult i) (settles_failRes i) s

/-- A command with a result in `RES[0]`. -/
theorem frame_res0 {α : Type} {i : Instr} {body : Op α} {out : α → Word} (hb : BodyFits i body) (s : State)
    (hi : i.hasRes0 = true := by rfl) :
    CommandFrame i s (command body (fun v t => t.setRes0 (out v)) failRes s) :=
  command_frame hb (fun v t => delivers_setRes0 hi t (out v)) (settles_failRes i) s

/-- A raw transfer: its body has written `RES`. -/
theorem frame_raw {i : Instr} {body : Op Unit} (hb : BodyFits i body) (s : State) :
    CommandFrame i s (command body noResult keepRes s) :=
  command_frame hb (delivers_noResult i) (fun _ t => .refl i t) s

/-- A read into `BUF`. -/
theorem frame_read {i : Instr} {body : Op Unit} (hb : BodyFits i body) (o n : Word) (s : State)
    (hi : i.writesBuf = true := by rfl) : CommandFrame i s (command body noResult (failRead o n) s) :=
  command_frame hb (delivers_noResult i) (settles_failRead hi o n) s

/-- A command of the flash runtime. -/
theorem frame_flash {α : Type} {i : Instr} {body : Op α} (hb : BodyFits i body) (f : FlashStatus) (s : State)
    (hx : i.writesFaxst = true := by rfl) (hi : i.hasRes0 = true := by rfl) :
    CommandFrame i s (command body flashOk (flashFail f) s) :=
  command_frame hb (delivers_flashOk hx hi) (settles_flashFail hx f) s

/-- Every command, by its body (R104). -/
theorem exec_commandFrame (i : Instr) (hr : i.isRequest = false) (ha : i.isAck = false) (s : State) :
    ∃ t, exec i s = .next t ∧ CommandFrame i s t := by
  cases i with
  | clockPulse => exact ⟨_, rfl, frame_plain (bodyFits_wireOp WireGrows.slot) s⟩
  | setDir d => exact ⟨_, rfl, frame_plain (bodyFits_wireOp fun w => .setDir w d) s⟩
  | writeBit b => exact ⟨_, rfl, frame_plain (bodyFits_wireOp fun w => .writeBit w b) s⟩
  | readBit => exact ⟨_, rfl, frame_res0 (bodyFits_wireOp WireGrows.slot) s⟩
  | transfer r w => exact ⟨_, rfl, frame_raw (bodyFits_transfer r w) s⟩
  | transferRetry r w => exact ⟨_, rfl, frame_raw (bodyFits_transferRetry r w) s⟩
  | readDp a => exact ⟨_, rfl, frame_res0 (bodyFits_readDp a) s⟩
  | writeDp a v => exact ⟨_, rfl, frame_plain (.ofKeeps (keeps_writeDp _ a v) (orderly_writeDp a v).named) s⟩
  | readAp a => exact ⟨_, rfl, frame_res0 (.ofKeeps (keeps_readAp _ a) (orderly_readAp a).named) s⟩
  | writeAp a v => exact ⟨_, rfl, frame_plain (.ofKeeps (keeps_writeAp _ a v) (orderly_writeAp a v).named) s⟩
  | sessionInit => exact ⟨_, rfl, frame_plain bodyFits_sessionInit s⟩
  | readWord a => exact ⟨_, rfl, frame_res0 (.ofKeeps (keeps_readWord _ a) (orderly_readWord a).named) s⟩
  | writeWord a v => exact ⟨_, rfl, frame_plain (.ofKeeps (keeps_writeWord _ a v) (orderly_writeWord a v).named) s⟩
  | readByte a => exact ⟨_, rfl, frame_res0 (.ofKeeps (keeps_readByte _ a) (orderly_readByte a).named) s⟩
  | writeByte a b => exact ⟨_, rfl, frame_plain (.ofKeeps (keeps_writeByte _ a b) (orderly_writeByte a b).named) s⟩
  | readBlock a o n =>
    exact ⟨_, rfl, frame_read (.ofKeeps (keeps_readBlock _ rfl rfl a o n) (orderly_readBlock a o n).named) o n s⟩
  | writeBlock a o n =>
    exact ⟨_, rfl, frame_plain (.ofKeeps (keeps_writeBlock _ rfl a o n) (orderly_writeBlock a o n).named) s⟩
  | readMemory a o n =>
    exact ⟨_, rfl, frame_read (.ofKeeps (keeps_readMemory _ rfl rfl a o n) (orderly_readMemory a o n).named) o n s⟩
  | writeMemory a o n =>
    exact ⟨_, rfl, frame_plain (.ofKeeps (keeps_writeMemory _ rfl a o n) (orderly_writeMemory a o n).named) s⟩
  | readCoreReg n => exact ⟨_, rfl, frame_res0 (.ofKeeps (keeps_readCoreReg _ rfl n) (orderly_readCoreReg n).named) s⟩
  | writeCoreReg n v =>
    exact ⟨_, rfl, frame_plain (.ofKeeps (keeps_writeCoreReg _ rfl n v) (orderly_writeCoreReg n v).named) s⟩
  | writeDebugState =>
    exact ⟨_, rfl, frame_plain (.ofKeeps (keeps_writeDebugState _ rfl rfl) orderly_writeDebugState.named) s⟩
  | faInit b =>
    exact ⟨_, rfl, frame_flash (.ofKeeps (keeps_faInit _ rfl rfl rfl rfl rfl b) (orderly_faInit b).named) _ s⟩
  | faUninit => exact ⟨_, rfl, frame_flash (.ofKeeps (keeps_faUninit _ rfl rfl rfl) orderly_faUninit.named) _ s⟩
  | faProgramPage a o n =>
    exact ⟨_, rfl, command_frame
      (.ofKeeps (keeps_faProgramPage _ rfl rfl rfl rfl a o n) (orderly_faProgramPage a o n).named)
      (delivers_flashOk rfl rfl) (settles_pageFail rfl) s⟩
  | faEraseSector a =>
    exact ⟨_, rfl, frame_flash (.ofKeeps (keeps_faEraseSector _ rfl rfl rfl a) (orderly_faEraseSector a).named) _ s⟩
  | faEraseChip => exact ⟨_, rfl, frame_flash (.ofKeeps (keeps_faEraseChip _ rfl rfl rfl) orderly_faEraseChip.named) _ s⟩
  | faVerify a n c =>
    exact ⟨_, rfl, frame_flash (.ofKeeps (keeps_faVerify _ rfl rfl rfl a n c) (orderly_faVerify a n c).named) _ s⟩
  | faSetRdp => exact ⟨_, rfl, frame_flash (.ofKeeps (keeps_faSetRdp _ rfl rfl rfl) orderly_faSetRdp.named) _ s⟩
  | faSectorIsBoundary a => exact ⟨_, rfl, frame_res0 (bodyFits_faSectorIsBoundary a) s⟩
  | faSyscall e a b c d =>
    exact ⟨_, rfl, frame_flash
      (.ofKeeps (keeps_faSyscall _ rfl rfl rfl e a b c d) (orderly_faSyscall e a b c d).named) _ s⟩
  | lcConnect => exact ⟨_, rfl, frame_res0 (.ofKeeps (keeps_lcConnect _) lcConnect_named) s⟩
  | lcPowerUp => exact ⟨_, rfl, frame_plain (.ofKeeps (keeps_lcPowerUp _ rfl) orderly_lcPowerUp.named) s⟩
  | lcResetHalt =>
    exact ⟨_, rfl, frame_plain (.ofKeeps (keeps_resetHaltWith _ rfl rfl (keeps_resetPulse _ rfl))
      (orderly_resetHaltWith orderly_resetPulse).named) s⟩
  | lcResetRun => exact ⟨_, rfl, frame_plain bodyFits_resetPulse s⟩
  | lcHalt => exact ⟨_, rfl, frame_plain (.ofKeeps (keeps_lcHalt _) orderly_lcHalt.named) s⟩
  | lcRun => exact ⟨_, rfl, frame_plain (.ofKeeps (keeps_lcRun _) orderly_lcRun.named) s⟩
  | lcSoftResetHalt =>
    exact ⟨_, rfl, frame_plain (.ofKeeps (keeps_resetHaltWith _ rfl rfl (keeps_softReset _))
      (orderly_resetHaltWith orderly_softReset).named) s⟩
  | reqDpWr0 | reqApWr0 | reqDpRd0 | reqApRd0 | reqDpWr4 | reqApWr4 | reqDpRd4 | reqApRd4 => cases hr
  | reqDpWr8 | reqApWr8 | reqDpRd8 | reqApRd8 | reqDpWrC | reqApWrC | reqDpRdC | reqApRdC => cases hr
  | ackOk | ackWait | ackFault => cases ha

/-- Both formats of the wire (R94, R96). -/
theorem exec_wireFrame (i : Instr) (h : i.isRequest = true ∨ i.isAck = true) (s : State) :
    ∃ t, exec i s = .next t ∧ WireFrame i s t :=
  h.elim (fun hr => request_frame hr s) fun ha => ack_frame ha s

/-- Settles O59: a command by `exec_commandFrame`, a request or an acknowledge by `exec_wireFrame`. -/
theorem everyInstructionFrame : Obligations.EveryInstructionFrame := by
  intro i s
  by_cases hw : i.isRequest = true ∨ i.isAck = true
  · obtain ⟨t, he, h⟩ := exec_wireFrame i hw s
    obtain ⟨es, hes⟩ := h.trace
    have hno : i.isRequest = false → ¬ i.isAck = false := fun h1 h2 => by simp [h1, h2] at hw
    exact ⟨t, he, h.arg, h.cmdOp, h.cfg, h.descIn, h.host, h.fa, h.buf, h.loops, h.ds, h.ret, h.faxst, h.mir, h.nreset,
      h.pulsed, h.ack, h.retryx, fun h1 h2 => absurd h2 (hno h1),
      fun _ => ⟨h.cause, h.res0, h.res1, h.busy, h.illegal, h.fail⟩, fun _ _ => h.res0, fun _ _ => h.res1,
      ⟨es, hes.symm⟩, h.clk⟩
  · obtain ⟨hr, ha⟩ := not_or.1 hw
    obtain ⟨t, he, h⟩ := exec_commandFrame i (Bool.eq_false_of_not_eq_true hr) (Bool.eq_false_of_not_eq_true ha) s
    obtain ⟨es, hes⟩ := h.trace
    exact ⟨t, he, h.arg, h.cmdOp, h.cfg, h.descIn, h.host, h.fa, h.buf, h.loops, h.ds, h.ret, h.faxst, h.mir, h.nreset,
      h.pulsed, h.ack, h.retryx, fun _ _ => ⟨h.busy, h.illegal, h.fail⟩, fun h1 => absurd h1 hw, h.res0, h.res1,
      ⟨es, hes.symm⟩, h.clk⟩

end Sys2Proof.Machine
end

/-! # The invariant of a safe run (family 00_scope): the proof of O12

Three facts carry it. Every phase of a frame ends by entering the next one, and `Seq.enter` sets up what the invariant says of
the sequencer; a phase changes the link within `LinkGrows`; a command runs from `PHASE = IDLE` and leaves what `CommandFrame`
says. Only the two reads write `BUF`, and they write inside their range once its test has passed. -/

section
namespace Sys2Proof.Machine

/-! ### The sequencer between two steps -/

/-- What the invariant says of the sequencer (R28; logs 2 and 15). -/
structure Seq.Ready (q : Seq) : Prop where
  counting : q.phase ≠ .idle → q.bitcnt = 0
  loaded : q.phase = .wdata → q.shift = q.xwdata
  parityClear : q.phase = .wdata ∨ q.phase = .rdata → q.par = false

theorem Seq.enter_ready (q : Seq) (p : Phase) : (q.enter p).Ready where
  counting := fun _ => q.enter_bitcnt p
  loaded := fun h => by rw [enter_phase] at h; simp [h]
  parityClear := fun h => by rw [enter_phase] at h; simp [h]

/-- Every acknowledge ends in entering the next phase (R96, R100). -/
theorem Link.ackPhase_ready (l : Link) (v : Ack) : (l.ackPhase v).seq.Ready := by
  unfold Link.ackPhase
  cases ackTail v with
  | data =>
    simp only []
    split
    · exact Seq.enter_ready _ .rdata
    · exact Seq.enter_ready _ .trn2
  | wait => exact Seq.enter_ready _ .trn3
  | fault => exact Seq.enter_ready _ .trn3
  | backoff => exact Seq.enter_ready _ .backoff

/-- So does every phase that fetches no word (R27). -/
theorem Link.advance_ready {l : Link} (n : Nat) (h : l.seq.Ready) : (l.advance n).seq.Ready := by
  unfold Link.advance
  split
  · exact Seq.enter_ready _ .ack
  · exact Seq.enter_ready _ .wdata
  · exact Seq.enter_ready _ .idle
  · exact Seq.enter_ready _ .trn3
  · exact Seq.enter_ready _ .idle
  · exact Seq.enter_ready _ .idle
  all_goals exact h

/-! ### Updates that keep the invariant -/

theorem Sound.ready {s : State} (h : Sound s) : s.link.seq.Ready := ⟨h.counting, h.loaded, h.parityClear⟩

/-- A state that differs in nothing the invariant speaks of. -/
theorem Sound.congr {s t : State} (h : Sound s) (hl : t.link = s.link) (hc : t.cause = s.cause) (hb : t.buf = s.buf)
    (hg : t.cfg = s.cfg) : Sound t := by
  obtain ⟨h1, h2, h3, h4, h5, h6, h7, h8, h9, h10, h11⟩ := h
  rw [← hl] at h4 h5 h6 h7 h8 h9 h10 h11
  rw [← hb] at h1 h2
  rw [← hg] at h2 h3
  rw [← hc] at h7 h8
  exact ⟨h1, h2, h3, h4, h5, h6, h7, h8, h9, h10, h11⟩

/-- A phase of a frame (R27). -/
theorem Sound.setLink {s : State} {l : Link} (h : Sound s) (hg : LinkGrows s.link l) (hr : l.seq.Ready) :
    Sound (s.setLink l) where
  bufWf := h.bufWf
  bufBelow := h.bufBelow
  cfgOk := h.cfgOk
  clkHigh := hg.wire.clk.trans h.clkHigh
  resetReleased := hg.wire.nreset.trans h.resetReleased
  notBusy := (congrArg Status.busy hg.status).trans h.notBusy
  failIffCause := (congrArg Status.fail hg.status).trans h.failIffCause
  illegalCause := fun hi => h.illegalCause ((congrArg Status.illegal hg.status).symm.trans hi)
  counting := hr.counting
  loaded := hr.loaded
  parityClear := hr.parityClear

theorem Sound.setBuf {s : State} {m : Memory} (h : Sound s) (hw : m.wf = true) (hb : m.below s.cfg.bufSize = true) :
    Sound (s.setBuf m) := { h with bufWf := hw, bufBelow := hb }

theorem Sound.setCfg {s : State} {c : Cfg} (h : Sound s) (hc : cfgLegal c = true) (hb : c.bufSize = s.cfg.bufSize) :
    Sound (s.setCfg c) := { h with cfgOk := hc, bufBelow := by rw [State.setCfg_cfg, hb]; exact h.bufBelow }

/-- A value of `CMD.OP` that is no opcode (R106). -/
theorem Sound.illegalOp {s : State} (h : Sound s) : Sound s.illegalOp :=
  { h with failIffCause := rfl, illegalCause := fun _ => rfl }

/-- The default configuration is legal with any legal size of the buffers (R9). -/
theorem cfgLegal_default {c : Cfg} (h : cfgLegal c = true) :
    cfgLegal { Config.default with bufSize := c.bufSize, sectorMax := c.sectorMax } = true := by
  simp only [cfgLegal, Bool.and_eq_true, decide_eq_true_eq] at h
  obtain ⟨⟨_, hb⟩, hs⟩ := h
  have hd : cfgLegal Config.default = true := rfl
  simp only [cfgLegal, Bool.and_eq_true, decide_eq_true_eq] at hd ⊢
  exact ⟨⟨hd.1.1, hb⟩, hs⟩

/-- A hardware reset (R44, R380). -/
theorem Sound.hardReset {s : State} (h : Sound s) (rest : List HostAction) : Sound (s.hardReset rest) where
  bufWf := rfl
  bufBelow := rfl
  cfgOk := cfgLegal_default h.cfgOk
  clkHigh := rfl
  resetReleased := rfl
  notBusy := rfl
  failIffCause := rfl
  illegalCause := nofun
  counting := fun hn => absurd rfl hn
  loaded := nofun
  parityClear := nofun

/-! ### `BUF` over a command -/

/-- `BUF` is canonical and inside its size. -/
def BufOk (c : Cfg) (m : Memory) : Prop := m.wf = true ∧ m.below c.bufSize = true

theorem requireRange_refused {o n : Word} {s : State} (h : bufRangeOk s.cfg.bufSize o n = false) :
    requireRange o n s = .error .precond s := by
  rw [requireRange, Op.get_bind, require_false h]

theorem readMemory_refused {o n : Word} {s : State} (a : Word) (h : bufRangeOk s.cfg.bufSize o n = false) :
    readMemory a o n s = .error .precond s := Op.bind_error _ (requireRange_refused h)

theorem readBlock_refused {o n : Word} {s : State} (a : Word) (h : bufRangeOk s.cfg.bufSize o n = false) :
    readBlock a o n s = .error .precond s := by
  rw [readBlock]
  cases hs : blockShapeOk a n with
  | false => exact Op.bind_error _ (require_false rfl s)
  | true => rw [Op.require_bind rfl]; exact Op.bind_error _ (requireRange_refused h)

/-- The end of a failed read writes inside the range (R212). -/
theorem failRead_range (o n : Word) (c : Cause) (t : State) : RangeOnly o.toNat n.toNat t.buf (failRead o n c t).buf := by
  unfold failRead
  split
  · exact .refl _ _ _
  · have h := RangeOnly.writeBytes t.buf o.toNat (freeBytes t.free n.toNat)
    rwa [show (freeBytes t.free n.toNat).length = n.toNat by simp [freeBytes]] at h

/-- A read into `BUF` as a command writes inside its range, however it ends (R212). -/
theorem command_read_range {body : Op Unit} {o n : Word} (hr : Ranged o.toNat n.toNat body) (s : State) :
    RangeOnly o.toNat n.toNat s.buf (command body noResult (failRead o n) s).buf := by
  have hb := hr s.beginOp
  obtain ⟨v, t, h, hc⟩ | ⟨c, t, h, hc⟩ := command_state body noResult (failRead o n) s
  · rw [h] at hb
    rw [hc]
    exact hb
  · rw [h] at hb
    rw [hc]
    exact RangeOnly.trans hb (failRead_range o n c t)

/-- A read into `BUF` keeps `BUF` in its size: it fails before it writes when its range does not fit (R196, R204). -/
theorem command_read_bufOk {body : Op Unit} {o n : Word} {s : State} (hr : Ranged o.toNat n.toNat body)
    (hp : bufRangeOk s.cfg.bufSize o n = false → body s.beginOp = .error .precond s.beginOp) (hb : BufOk s.cfg s.buf) :
    BufOk s.cfg (command body noResult (failRead o n) s).buf := by
  cases hf : bufRangeOk s.cfg.bufSize o n with
  | false =>
    have hs : (command body noResult (failRead o n) s).buf = s.buf := by rw [command, hp hf]; rfl
    rwa [hs]
  | true =>
    obtain ⟨hw, hk, _⟩ := command_read_range hr s hb.1
    exact ⟨hw, hk _ (of_decide_eq_true hf) hb.2⟩

/-- Every instruction keeps `BUF` canonical and inside its size (R39). -/
theorem exec_bufOk {i : Instr} {s t : State} (h : exec i s = .next t) (hf : Framed i s t) (hb : BufOk s.cfg s.buf) :
    BufOk s.cfg t.buf := by
  by_cases hw : i.writesBuf = false
  · rwa [hf.buf hw]
  · cases i with
    | readBlock a o n =>
      cases h
      exact command_read_bufOk (ranged_readBlock a o n) (readBlock_refused (s := s.beginOp) a) hb
    | readMemory a o n =>
      cases h
      exact command_read_bufOk (ranged_readMemory a o n) (readMemory_refused (s := s.beginOp) a) hb
    | _ => exact absurd rfl hw

/-! ### What a step runs -/

/-- A command that starts at `PHASE = IDLE` keeps the invariant. -/
theorem CommandFrame.sound {i : Instr} {s t : State} (h : CommandFrame i s t) (hs : Sound s)
    (hi : s.link.seq.phase = .idle) (hb : BufOk s.cfg t.buf) : Sound t where
  bufWf := hb.1
  bufBelow := by rw [h.cfg]; exact hb.2
  cfgOk := by rw [h.cfg]; exact hs.cfgOk
  clkHigh := h.clk.trans hs.clkHigh
  resetReleased := h.pulsed.elim (fun hn => hn.trans hs.resetReleased) id
  notBusy := h.busy
  failIffCause := h.fail
  illegalCause := fun hn => by simp [h.illegal] at hn
  counting := fun hn => absurd (h.idle hi) hn
  loaded := fun hw => by simp [h.idle hi] at hw
  parityClear := fun hw => by simp [h.idle hi] at hw

theorem decodeCmd_command {op : Byte} {a : Args} {i : Instr} (h : decodeCmd op a = some i) :
    i.isRequest = false ∧ i.isAck = false := by
  unfold decodeCmd at h
  split at h <;> cases h <;> exact ⟨rfl, rfl⟩

theorem decodeReq_isRequest {b : Byte} {i : Instr} (h : decodeReq b = some i) : i.isRequest = true := by
  unfold decodeReq at h
  split at h <;> cases h <;> rfl

theorem decodeAck_isAck {v : Ack} {i : Instr} (h : decodeAck v = some i) : i.isAck = true := by
  unfold decodeAck at h
  split at h <;> cases h <;> rfl

/-- What a step answers once it has fetched. -/
def Fetched.outcome : Fetched → Outcome
  | .run i t => exec i t
  | .done o => o

theorem step_eq (s : State) : step s = (fetch s).outcome := rfl

/-- What was fetched answers sound states only. -/
def Fetched.Safe (f : Fetched) : Prop := ∀ t, f.outcome = .next t → Sound t

theorem Fetched.Safe.next {s : State} (h : Sound s) : (Fetched.done (.next s)).Safe := fun _ ht => by cases ht; exact h

theorem Fetched.Safe.fault (r : Fault) : (Fetched.done (.fault r)).Safe := fun _ ht => by cases ht

theorem Fetched.Safe.refused (r : Refusal) : (Fetched.done (.refused r)).Safe := fun _ ht => by cases ht

theorem fetchCommand_of_some {op : Byte} {s : State} {i : Instr} (h : decodeCmd op s.arg = some i) :
    fetchCommand op s = .run i (s.setCmdOp op) := by simp [fetchCommand, decode, h]

theorem fetchCommand_of_none {op : Byte} {s : State} (h : decodeCmd op s.arg = none) :
    fetchCommand op s = .done (.next (s.setCmdOp op).illegalOp) := by simp [fetchCommand, decode, h]

theorem fetchRequest_of_some {s : State} {i : Instr} (h : decodeReq (s.link.seq.shift.setWidth 8) = some i) :
    fetchRequest s = .run i s := by simp [fetchRequest, decode, h]

theorem fetchRequest_of_none {s : State} (h : decodeReq (s.link.seq.shift.setWidth 8) = none) :
    fetchRequest s = .done (.refused .notARequestHeader) := by simp [fetchRequest, decode, h]

theorem fetchAck_of_some {s : State} {i : Instr} (h : decodeAck s.link.ackSample.seq.acksr = some i) :
    fetchAck s = .run i (s.setLink s.link.ackSample) := by simp [fetchAck, decode, h]

theorem fetchAck_of_none {s : State} (h : decodeAck s.link.ackSample.seq.acksr = none) :
    fetchAck s = .done (.next (s.setLink (s.link.ackSample.ackPhase s.link.ackSample.seq.acksr))) := by
  simp [fetchAck, decode, h]

/-- A command fetched at `PHASE = IDLE` (R26). -/
theorem fetchCommand_safe {s : State} (hs : Sound s) (hi : s.link.seq.phase = .idle) (op : Byte) :
    (fetchCommand op s).Safe := by
  have ho : Sound (s.setCmdOp op) := hs.congr rfl rfl rfl rfl
  cases hd : decodeCmd op s.arg with
  | none => rw [fetchCommand_of_none hd]; exact .next ho.illegalOp
  | some i =>
    rw [fetchCommand_of_some hd]
    intro t ht
    obtain ⟨hr, ha⟩ := decodeCmd_command hd
    obtain ⟨u, hu, hc⟩ := exec_commandFrame i hr ha (s.setCmdOp op)
    cases hu.symm.trans ht
    exact hc.sound ho hi (exec_bufOk hu hc.toFramed ⟨ho.bufWf, ho.bufBelow⟩)

/-- The host's register writes (R355). -/
theorem hostWrite_safe {s : State} (hs : Sound s) (a : HostAction) : (Fetched.done (hostWrite a s)).Safe := by
  cases a with
  | writeArg k v => exact .next (hs.congr rfl rfl rfl rfl)
  | writeDs r v => exact .next (hs.congr rfl rfl rfl rfl)
  | writeBuf off b =>
    simp only [hostWrite]
    split
    · rename_i hlt
      exact .next (hs.setBuf (Memory.wf_write hs.bufWf off b) (Memory.below_write b hs.bufBelow hlt))
    · exact .fault _
  | writeCfg c =>
    simp only [hostWrite]
    split
    · rename_i hc
      simp only [cfgWritable, Bool.and_eq_true, decide_eq_true_eq] at hc
      obtain ⟨⟨hl, hb⟩, _⟩ := hc
      exact .next (hs.setCfg hl hb)
    · exact .refused _
  | present d =>
    simp only [hostWrite]
    split
    · exact .next (hs.congr rfl rfl rfl rfl)
    · exact .refused _
  | writeOp op => exact .next hs
  | assertReset => exact .next hs

/-- The next host action (R26, R333, R355). -/
theorem fetchHost_safe {s : State} (hs : Sound s) (hi : s.link.seq.phase = .idle) : (fetchHost s).Safe := by
  have hh : ∀ rest, Sound (s.setHost rest) := fun _ => hs.congr rfl rfl rfl rfl
  unfold fetchHost
  split
  · exact .next hs
  · rename_i op rest _
    rw [hs.notBusy]
    exact fetchCommand_safe (hh rest) hi op
  · rename_i a rest _ _
    rw [hs.notBusy]
    exact hostWrite_safe (hh rest) a

/-- A request header: the request phase (R27, R94). -/
theorem fetchRequest_safe {s : State} (hs : Sound s) : (fetchRequest s).Safe := by
  cases hd : decodeReq (s.link.seq.shift.setWidth 8) with
  | none => rw [fetchRequest_of_none hd]; exact .refused _
  | some i =>
    rw [fetchRequest_of_some hd]
    obtain ⟨r, hr⟩ := exec_of_isRequest (decodeReq_isRequest hd)
    intro t ht
    cases (hr s).symm.trans ht
    exact hs.setLink (.reqPhase _ r) (Seq.enter_ready _ .trn1)

/-- Three sampled slots and what follows the acknowledge they show, well formed or not (R95, R96). -/
theorem fetchAck_safe {s : State} (hs : Sound s) : (fetchAck s).Safe := by
  have sampled : ∀ v, Sound (s.setLink (s.link.ackSample.ackPhase v)) := fun v =>
    hs.setLink ((LinkGrows.ackSample _).trans (.ackPhase _ v)) (Link.ackPhase_ready _ v)
  cases hd : decodeAck s.link.ackSample.seq.acksr with
  | none => rw [fetchAck_of_none hd]; exact .next (sampled _)
  | some i =>
    rw [fetchAck_of_some hd]
    obtain ⟨v, hv⟩ := exec_of_isAck (decodeAck_isAck hd)
    intro t ht
    cases (hv _).symm.trans ht
    exact sampled v

theorem nextPhase_safe {s : State} (hs : Sound s) : (Fetched.done (nextPhase s)).Safe :=
  .next (hs.setLink (.advance _ _) (Link.advance_ready _ hs.ready))

/-- What is next by `PHASE` (R27). -/
theorem fetchByPhase_safe {s : State} (hs : Sound s) : (fetchByPhase s).Safe := by
  unfold fetchByPhase
  split
  · exact fetchHost_safe hs ‹_›
  · exact fetchRequest_safe hs
  · exact fetchAck_safe hs
  all_goals exact nextPhase_safe hs

theorem fetch_safe {s : State} (hs : Sound s) : (fetch s).Safe := by
  unfold fetch
  split
  · exact .next (hs.hardReset _)
  · exact fetchByPhase_safe hs

/-- Settles O12: whatever a step fetches in a sound state answers sound states only (`fetch_safe`). -/
theorem stepKeepsSound : Obligations.StepKeepsSound := fun s t hs ht => fetch_safe hs t ((step_eq s).symm.trans ht)

end Sys2Proof.Machine
end

/-! # A step between operations (family 10_state): the proofs of O6, O8, O9, O11 and O13

What a step does is said once for each thing it can fetch: a host action at `PHASE = IDLE`, a request, an acknowledge or a phase
that fetches no word. The statements about single steps are read off these equations. -/

section
namespace Sys2Proof.Machine

/-! ### The fetch, case by case -/

/-- No hardware reset is waiting at the head of the host's queue. -/
def NoReset (s : State) : Prop := ∀ rest, s.host ≠ .assertReset :: rest

theorem NoReset.of_nil {s : State} (h : s.host = []) : NoReset s := fun _ hc => nomatch h.symm.trans hc

theorem NoReset.of_cons {s : State} {a : HostAction} {rest : List HostAction} (h : s.host = a :: rest)
    (ha : a ≠ .assertReset) : NoReset s := fun _ hc => ha (List.cons.inj (h.symm.trans hc)).1

/-- An asserted `RESET` comes first (R380). -/
theorem fetch_of_reset {s : State} {rest : List HostAction} (h : s.host = .assertReset :: rest) :
    fetch s = .done (.next (s.hardReset rest)) := by
  unfold fetch; rw [h]

theorem fetch_of_noReset {s : State} (h : NoReset s) : fetch s = fetchByPhase s := by
  unfold fetch
  split
  · exact absurd ‹_› (h _)
  · rfl

theorem fetchByPhase_idle {s : State} (hp : s.link.seq.phase = .idle) : fetchByPhase s = fetchHost s := by
  unfold fetchByPhase; rw [hp]

theorem fetchByPhase_req {s : State} (hp : s.link.seq.phase = .req) : fetchByPhase s = fetchRequest s := by
  unfold fetchByPhase; rw [hp]

theorem fetchByPhase_ack {s : State} (hp : s.link.seq.phase = .ack) : fetchByPhase s = fetchAck s := by
  unfold fetchByPhase; rw [hp]

theorem decodeCmd_of_decode {op : Byte} {a : Args} {i : Instr} (h : decode (.cmd op a) = .ok i) : decodeCmd op a = some i := by
  cases hd : decodeCmd op a <;> simp_all [decode]

theorem decodeReq_of_decode {b : Byte} {i : Instr} (h : decode (.req b) = .ok i) : decodeReq b = some i := by
  cases hd : decodeReq b <;> simp_all [decode]

theorem decodeAck_of_decode {v : Ack} {i : Instr} (h : decode (.ack v) = .ok i) : decodeAck v = some i := by
  cases hd : decodeAck v <;> simp_all [decode]

theorem fetchHost_nil {s : State} (h : s.host = []) : fetchHost s = .done (.next s) := by
  unfold fetchHost; rw [h]

/-- A write of `CMD.OP` starts a command, or is ignored while one runs (R26). -/
theorem fetchHost_writeOp {s : State} {op : Byte} {rest : List HostAction} (h : s.host = .writeOp op :: rest) :
    fetchHost s = if s.link.status.busy then .done (.next (s.setHost rest)) else fetchCommand op (s.setHost rest) := by
  unfold fetchHost; rw [h]

/-- Any other action of the host is refused while a command runs (R355; log 14). -/
theorem fetchHost_other {s : State} {a : HostAction} {rest : List HostAction} (h : s.host = a :: rest)
    (ha : ∀ op, a ≠ .writeOp op) : (fetchHost s).outcome =
      if s.link.status.busy then .refused .hostWriteWhileBusy else hostWrite a (s.setHost rest) := by
  unfold fetchHost
  rw [h]
  cases a with
  | writeOp op => exact absurd rfl (ha op)
  | _ => dsimp only; split <;> rfl

/-- A step between operations takes the host's next action (R26, R27). -/
theorem step_idle {s : State} (hp : s.link.seq.phase = .idle) (h : NoReset s) : step s = (fetchHost s).outcome := by
  rw [step_eq, fetch_of_noReset h, fetchByPhase_idle hp]

/-- Settles O6: each clause is the fetch at its phase, at a code that decodes. -/
theorem stepRunsDecoded : Obligations.StepRunsDecoded := by
  refine ⟨fun s op rest i hp hh hb hd => ?_, fun s i hp hn hd => ?_, fun s i hp hn hd => ?_⟩
  · rw [step_idle hp (.of_cons hh nofun), fetchHost_writeOp hh, hb]
    exact congrArg Fetched.outcome (fetchCommand_of_some (s := s.setHost rest) (decodeCmd_of_decode hd))
  · rw [step_eq, fetch_of_noReset hn, fetchByPhase_req hp, fetchRequest_of_some (decodeReq_of_decode hd)]
    rfl
  · rw [step_eq, fetch_of_noReset hn, fetchByPhase_ack hp, fetchAck_of_some (decodeAck_of_decode hd)]
    rfl

/-! ### Host writes -/

/-- The host writes a register, `BUF`, `CFG` or the descriptor input: every action but a command and a reset. -/
def HostAction.isPlainWrite : HostAction → Bool
  | .writeOp _ | .assertReset => false
  | _ => true

theorem step_plainWrite {s : State} {a : HostAction} {rest : List HostAction} (hp : s.link.seq.phase = .idle)
    (h : s.host = a :: rest) (ha : a.isPlainWrite = true) :
    step s = if s.link.status.busy then .refused .hostWriteWhileBusy else hostWrite a (s.setHost rest) := by
  rw [step_idle hp (.of_cons h (by rintro rfl; cases ha)), fetchHost_other h (by rintro op rfl; cases ha)]

theorem cfgWritable_iff (old new : Cfg) : cfgWritable old new = true ↔
    cfgLegal new = true ∧ new.bufSize = old.bufSize ∧ new.sectorMax = old.sectorMax := by
  simp [cfgWritable, and_assoc]

theorem descriptorFits_iff (c : Cfg) (d : Descriptor) : descriptorFits c d = true ↔
    d.sect.length ≤ c.sectorMax ∧ d.code.length < 2 ^ 32 := by
  rw [descriptorFits, Bool.and_eq_true, decide_eq_true_iff, decide_eq_true_iff]

/-- Settles O8: a register write is `hostWrite` (`step_plainWrite`), whose tests are the ones stated. -/
theorem hostWrites : Obligations.HostWrites := by
  intro s rest hp
  refine ⟨fun hh => ?_, fun op hh hb => ?_, fun k v hh => step_plainWrite hp hh rfl, fun r v hh => step_plainWrite hp hh rfl,
    fun o b hh => step_plainWrite hp hh rfl, fun c hh => ?_, fun d hh => ?_⟩
  · rw [step_idle hp (.of_nil hh), fetchHost_nil hh]
    rfl
  · rw [step_idle hp (.of_cons hh nofun), fetchHost_writeOp hh, hb]
    rfl
  · simp only [step_plainWrite hp hh rfl, hostWrite, cfgWritable_iff]
    rfl
  · simp only [step_plainWrite hp hh rfl, hostWrite, descriptorFits_iff]
    rfl

/-! ### The state after reset -/

/-- The 16 bits of 0xE79E, least significant first (R9, R15). -/
theorem switchDefault_eq : Config.switchDefault =
    [false, true, true, true, true, false, false, true, true, true, true, false, false, true, true, true] := by decide

/-- Settles O9: each row of the table of R44 is the value `State.reset` is defined with. -/
theorem resetValues : Obligations.ResetValues := by
  refine ⟨rfl, rfl, rfl, rfl, rfl, rfl, rfl, rfl, rfl, rfl, rfl, rfl, rfl, rfl, rfl, rfl, rfl, rfl, ?_⟩
  rw [← switchDefault_eq]
  rfl

/-- Settles O11: the default configuration is in its legal range, and the rest is R44's values. -/
theorem resetSound : Obligations.ResetSound where
  left :=
    { bufWf := rfl, bufBelow := rfl, cfgOk := rfl
      clkHigh := rfl, resetReleased := rfl, notBusy := rfl, failIffCause := rfl
      illegalCause := nofun, counting := fun h => absurd rfl h, loaded := nofun, parityClear := nofun }
  right := rfl

/-! ### Rest -/

/-- A register write leaves the link alone (R355). -/
theorem hostWrite_link {a : HostAction} {s t : State} (h : hostWrite a s = .next t) : t.link = s.link := by
  cases a with
  | writeBuf | writeCfg | present =>
    simp only [hostWrite] at h
    split at h <;> cases h
    rfl
  | _ => cases h; rfl

/-- A command runs whole frames (R27). -/
theorem fetchCommand_rests {op : Byte} {s t : State} (hs : AtRest s) (ht : (fetchCommand op s).outcome = .next t) : AtRest t := by
  cases hd : decodeCmd op s.arg with
  | none =>
    rw [fetchCommand_of_none hd] at ht
    cases ht
    exact hs
  | some i =>
    rw [fetchCommand_of_some hd] at ht
    obtain ⟨hr, ha⟩ := decodeCmd_command hd
    obtain ⟨u, hu, hc⟩ := exec_commandFrame i hr ha (s.setCmdOp op)
    cases hu.symm.trans ht
    exact hc.idle hs

theorem fetchHost_rests {s t : State} (hs : AtRest s) (ht : (fetchHost s).outcome = .next t) : AtRest t := by
  cases hh : s.host with
  | nil =>
    rw [fetchHost_nil hh] at ht
    cases ht
    exact hs
  | cons a rest =>
    by_cases ha : ∃ op, a = .writeOp op
    · obtain ⟨op, rfl⟩ := ha
      rw [fetchHost_writeOp hh] at ht
      split at ht
      · cases ht
        exact hs
      · exact fetchCommand_rests (s := s.setHost rest) hs ht
    · rw [fetchHost_other hh (not_exists.1 ha)] at ht
      split at ht
      · cases ht
      · rw [AtRest, hostWrite_link ht]
        exact hs

/-- Settles O13: a reset ends idle, and so does every action of the host (`fetchHost_rests`). -/
theorem stepKeepsRest : Obligations.StepKeepsRest := by
  intro s t hs ht
  by_cases hr : ∃ rest, s.host = .assertReset :: rest
  · obtain ⟨rest, hh⟩ := hr
    rw [step_eq, fetch_of_reset hh] at ht
    cases ht
    rfl
  · rw [step_idle hs (not_exists.1 hr)] at ht
    exact fetchHost_rests hs ht

end Sys2Proof.Machine
end

/-! # The idle pins (family 10_state): the proof of O60

The body of an operation keeps the idle pins (`Orderly`), its results and its end write no pin; `command_atIdle` puts the stages
together. `LC_CONNECT` resets the line first, so its body does not keep them at every moment: its last transfer restores them. -/

section
namespace Sys2Proof.Machine

theorem Settles.atIdle {i : Instr} {t u : State} (h : Settles i t u) (ht : AtIdle t.link) : AtIdle u.link := by
  rw [h.link]; exact ht

/-- A command whose body leaves the pins idle. -/
theorem command_atIdle {α : Type} {i : Instr} {body : Op α} {onOk : α → State → State} {onFail : Cause → State → State}
    (hok : ∀ v t, Delivers i t (onOk v t)) (hfail : ∀ c t, Settles i t (onFail c t)) {s : State}
    (hb : AtIdle (finalState (body s.beginOp)).link) : AtIdle (command body onOk onFail s).link := by
  obtain ⟨v, t, h, hc⟩ | ⟨c, t, h, hc⟩ := command_state body onOk onFail s <;> rw [h] at hb <;> rw [hc]
  · exact (hok v t).toSettles.atIdle hb
  · exact (hfail c t).atIdle hb

section Commands
variable {α : Type} {s : State}

/-- A command of U1, U2 or U4 without a result. -/
theorem atIdle_plain (i : Instr) {body : Op Unit} (hb : Orderly body) (hs : AtIdle s.link) :
    AtIdle (command body noResult failRes s).link :=
  command_atIdle (delivers_noResult i) (settles_failRes i) (hb.idle s.beginOp hs)

/-- A command with a result in `RES[0]`. -/
theorem atIdle_res0 (i : Instr) {body : Op α} {out : α → Word} (hb : Orderly body) (hs : AtIdle s.link)
    (hi : i.hasRes0 = true := by rfl) : AtIdle (command body (fun v t => t.setRes0 (out v)) failRes s).link :=
  command_atIdle (fun v t => delivers_setRes0 hi t (out v)) (settles_failRes i) (hb.idle s.beginOp hs)

/-- A raw transfer. -/
theorem atIdle_raw (i : Instr) {body : Op Unit} (hb : Orderly body) (hs : AtIdle s.link) :
    AtIdle (command body noResult keepRes s).link :=
  command_atIdle (delivers_noResult i) (fun _ t => .refl i t) (hb.idle s.beginOp hs)

/-- A read into `BUF`. -/
theorem atIdle_read (i : Instr) {body : Op Unit} (hb : Orderly body) (o n : Word) (hs : AtIdle s.link)
    (hi : i.writesBuf = true := by rfl) : AtIdle (command body noResult (failRead o n) s).link :=
  command_atIdle (delivers_noResult i) (settles_failRead hi o n) (hb.idle s.beginOp hs)

/-- A command of the flash runtime. -/
theorem atIdle_flash (i : Instr) {body : Op α} (hb : Orderly body) (f : FlashStatus) (hs : AtIdle s.link)
    (hx : i.writesFaxst = true := by rfl) (hi : i.hasRes0 = true := by rfl) :
    AtIdle (command body flashOk (flashFail f) s).link :=
  command_atIdle (delivers_flashOk hx hi) (settles_flashFail hx f) (hb.idle s.beginOp hs)

end Commands

/-- Settles O60: every operation by its body; `LC_CONNECT` by its last transfer, which a legal `CFG.DP_IDCODE` admits. -/
theorem pinsStayIdle : Obligations.PinsStayIdle := by
  intro i s ho hc hs
  cases i with
  | transfer r w => exact ⟨_, rfl, atIdle_raw (.transfer r w) ((orderly_transfer r w).bind orderly_rawTransfer) hs⟩
  | transferRetry r w => exact ⟨_, rfl, atIdle_raw (.transferRetry r w) ((orderly_logical r w).bind orderly_rawTransfer) hs⟩
  | readDp a => exact ⟨_, rfl, atIdle_res0 (.readDp a) (orderly_readDp a) hs⟩
  | writeDp a v => exact ⟨_, rfl, atIdle_plain (.writeDp a v) (orderly_writeDp a v) hs⟩
  | readAp a => exact ⟨_, rfl, atIdle_res0 (.readAp a) (orderly_readAp a) hs⟩
  | writeAp a v => exact ⟨_, rfl, atIdle_plain (.writeAp a v) (orderly_writeAp a v) hs⟩
  | sessionInit => exact ⟨_, rfl, atIdle_plain .sessionInit orderly_sessionInit hs⟩
  | readWord a => exact ⟨_, rfl, atIdle_res0 (.readWord a) (orderly_readWord a) hs⟩
  | writeWord a v => exact ⟨_, rfl, atIdle_plain (.writeWord a v) (orderly_writeWord a v) hs⟩
  | readByte a => exact ⟨_, rfl, atIdle_res0 (.readByte a) (orderly_readByte a) hs⟩
  | writeByte a b => exact ⟨_, rfl, atIdle_plain (.writeByte a b) (orderly_writeByte a b) hs⟩
  | readBlock a o n => exact ⟨_, rfl, atIdle_read (.readBlock a o n) (orderly_readBlock a o n) o n hs⟩
  | writeBlock a o n => exact ⟨_, rfl, atIdle_plain (.writeBlock a o n) (orderly_writeBlock a o n) hs⟩
  | readMemory a o n => exact ⟨_, rfl, atIdle_read (.readMemory a o n) (orderly_readMemory a o n) o n hs⟩
  | writeMemory a o n => exact ⟨_, rfl, atIdle_plain (.writeMemory a o n) (orderly_writeMemory a o n) hs⟩
  | readCoreReg n => exact ⟨_, rfl, atIdle_res0 (.readCoreReg n) (orderly_readCoreReg n) hs⟩
  | writeCoreReg n v => exact ⟨_, rfl, atIdle_plain (.writeCoreReg n v) (orderly_writeCoreReg n v) hs⟩
  | writeDebugState => exact ⟨_, rfl, atIdle_plain .writeDebugState orderly_writeDebugState hs⟩
  | faInit b => exact ⟨_, rfl, atIdle_flash (.faInit b) (orderly_faInit b) _ hs⟩
  | faUninit => exact ⟨_, rfl, atIdle_flash .faUninit orderly_faUninit _ hs⟩
  | faProgramPage a o n =>
    exact ⟨_, rfl, command_atIdle (i := .faProgramPage a o n) (delivers_flashOk rfl rfl) (settles_pageFail rfl)
      ((orderly_faProgramPage a o n).idle s.beginOp hs)⟩
  | faEraseSector a => exact ⟨_, rfl, atIdle_flash (.faEraseSector a) (orderly_faEraseSector a) _ hs⟩
  | faEraseChip => exact ⟨_, rfl, atIdle_flash .faEraseChip orderly_faEraseChip _ hs⟩
  | faVerify a n c => exact ⟨_, rfl, atIdle_flash (.faVerify a n c) (orderly_faVerify a n c) _ hs⟩
  | faSetRdp => exact ⟨_, rfl, atIdle_flash .faSetRdp orderly_faSetRdp _ hs⟩
  | faSectorIsBoundary a => exact ⟨_, rfl, atIdle_res0 (.faSectorIsBoundary a) (orderly_faSectorIsBoundary a) hs⟩
  | faSyscall e a b c d => exact ⟨_, rfl, atIdle_flash (.faSyscall e a b c d) (orderly_faSyscall e a b c d) _ hs⟩
  | lcConnect =>
    exact ⟨_, rfl, command_atIdle (fun v t => delivers_setRes0 (i := .lcConnect) rfl t v) (settles_failRes _)
      (lcConnect_idle s.beginOp (legal_of hc).idcode)⟩
  | lcPowerUp => exact ⟨_, rfl, atIdle_plain .lcPowerUp orderly_lcPowerUp hs⟩
  | lcResetHalt => exact ⟨_, rfl, atIdle_plain .lcResetHalt (orderly_resetHaltWith orderly_resetPulse) hs⟩
  | lcResetRun => exact ⟨_, rfl, atIdle_plain .lcResetRun orderly_resetPulse hs⟩
  | lcHalt => exact ⟨_, rfl, atIdle_plain .lcHalt orderly_lcHalt hs⟩
  | lcRun => exact ⟨_, rfl, atIdle_plain .lcRun orderly_lcRun hs⟩
  | lcSoftResetHalt => exact ⟨_, rfl, atIdle_plain .lcSoftResetHalt (orderly_resetHaltWith orderly_softReset) hs⟩
  | clockPulse | setDir | writeBit | readBit => cases ho
  | reqDpWr0 | reqApWr0 | reqDpRd0 | reqApRd0 | reqDpWr4 | reqApWr4 | reqDpRd4 | reqApRd4 => cases ho
  | reqDpWr8 | reqApWr8 | reqDpRd8 | reqApRd8 | reqDpWrC | reqApWrC | reqDpRdC | reqApRdC => cases ho
  | ackOk | ackWait | ackFault => cases ho

end Sys2Proof.Machine
end

/-! # The frame, phase by phase (family 10_state): the proof of O23

With no host action waiting, a step runs the phase at hand, whatever word it fetches for it (`step_req`, `step_ack`,
`step_advance`), so five steps are the five phases `Link.frame` composes. For the registers after a frame, the frame is followed
through its phases on any line: what is sampled need not be given. -/

section
namespace Sys2Proof.Machine

/-! ### The words of the wire are the phases -/

/-- Bits 4:1 of a header are its request code (R91, R92). -/
def headerCode (h : Byte) : Req := (h >>> 1).setWidth 4

theorem headerCode_headerByte : ∀ r : Req, headerCode (headerByte r) = r := by decide

theorem decodeReq_headerByte_isSome : ∀ r : Req, (decodeReq (headerByte r)).isSome = true := by decide

/-- A header that decodes sends the request its code bits name (R94). -/
theorem exec_of_decodeReq {h : Byte} {i : Instr} (hd : decodeReq h = some i) (s : State) :
    exec i s = sendRequest (headerCode h) s := by
  have hh : h = BitVec.ofNat 8 h.toNat := by simp
  unfold decodeReq at hd
  split at hd <;> rename_i hn <;> cases hd <;> rw [hh, hn] <;> rfl

/-- An acknowledge that decodes is taken as sampled (R96). -/
theorem exec_of_decodeAck {v : Ack} {i : Instr} (hd : decodeAck v = some i) (s : State) : exec i s = takeAck v s := by
  have hv : v = BitVec.ofNat 3 v.toNat := by simp
  unfold decodeAck at hd
  split at hd <;> rename_i hn <;> cases hd <;> rw [hv, hn] <;> rfl

/-! ### One step for each phase -/

/-- `PHASE = REQ` with the header of `r` in `SHIFT`: the request phase (R94). -/
theorem step_req {s : State} (hn : NoReset s) (hp : s.link.seq.phase = .req) {r : Req}
    (hr : s.link.seq.shift = (headerByte r).setWidth 32) : step s = .next (s.setLink (s.link.reqPhase r)) := by
  have hb : s.link.seq.shift.setWidth 8 = headerByte r := by rw [hr]; exact BitVec.setWidth_setWidth_of_le _ (by decide)
  obtain ⟨i, hi⟩ := Option.isSome_iff_exists.1 (decodeReq_headerByte_isSome r)
  rw [step_eq, fetch_of_noReset hn, fetchByPhase_req hp, fetchRequest_of_some (hb.symm ▸ hi)]
  exact (exec_of_decodeReq hi s).trans (by rw [headerCode_headerByte]; rfl)

/-- `PHASE = ACK`: the acknowledge phase, whether what was sampled decodes or not (R95, R96). -/
theorem step_ack {s : State} (hn : NoReset s) (hp : s.link.seq.phase = .ack) :
    step s = .next (s.setLink (s.link.ackSample.ackPhase s.link.ackSample.seq.acksr)) := by
  rw [step_eq, fetch_of_noReset hn, fetchByPhase_ack hp]
  cases hd : decodeAck s.link.ackSample.seq.acksr with
  | none => rw [fetchAck_of_none hd]; rfl
  | some i =>
    rw [fetchAck_of_some hd]
    exact exec_of_decodeAck hd _

theorem Link.advance_trn2 {l : Link} (h : l.seq.phase = .trn2) (n : Nat) : l.advance n = l.trn2Phase n := by
  rw [Link.advance, h]

theorem Link.advance_rdata {l : Link} (h : l.seq.phase = .rdata) (n : Nat) : l.advance n = l.rdataPhase := by
  rw [Link.advance, h]

theorem Link.advance_trn3 {l : Link} (h : l.seq.phase = .trn3) (n : Nat) : l.advance n = l.trn3Phase n := by
  rw [Link.advance, h]

theorem Link.advance_backoff {l : Link} (h : l.seq.phase = .backoff) (n : Nat) : l.advance n = l.backoffPhase n := by
  rw [Link.advance, h]

theorem Link.advance_idle {l : Link} (h : l.seq.phase = .idle) (n : Nat) : l.advance n = l := by
  rw [Link.advance, h]

/-- Every other phase, and `PHASE = IDLE` with no host action waiting, fetches no word (R27). -/
theorem step_advance {s : State} (hh : s.host = []) (hr : s.link.seq.phase ≠ .req) (ha : s.link.seq.phase ≠ .ack) :
    step s = .next (s.setLink (s.link.advance s.cfg.turnaround)) := by
  rw [step_eq, fetch_of_noReset (.of_nil hh)]
  unfold fetchByPhase
  split <;> rename_i hp
  · rw [fetchHost_nil hh, Link.advance_idle hp]; rfl
  · exact absurd hp hr
  · exact absurd hp ha
  all_goals rfl

/-! ### Five steps -/

/-- A run goes on from the state its first step answers. -/
theorem run_succ (M : Host.Core) {s t : M.State} (h : M.step s = .next t) (k : Nat) : M.run (k + 1) s = M.run k t := by
  rw [Host.Core.run, h]

/-- The phases the acknowledge leads to (R27). -/
def Phase.isTail (p : Phase) : Prop := p = .trn2 ∨ p = .rdata ∨ p = .trn3 ∨ p = .backoff

theorem Link.ackPhase_isTail (l : Link) (v : Ack) : (l.ackPhase v).seq.phase.isTail := by
  unfold Link.ackPhase Phase.isTail
  cases ackTail v with
  | data => dsimp only; split <;> simp
  | _ => simp

/-- The tail of a frame is two phases, the second of which is idle where the first ended the frame (R100). -/
theorem Link.tailPhases_eq_advance {l : Link} (h : l.seq.phase.isTail) (n : Nat) :
    l.tailPhases n = (l.advance n).advance n := by
  obtain hp | hp | hp | hp := h <;> rw [Link.tailPhases, hp]
  · rw [Link.advance_trn2 hp]; rfl
  · rw [Link.advance_rdata hp, Link.advance_trn3 rfl]
  · rw [Link.advance_trn3 hp, Link.advance_idle rfl]
  · rw [Link.advance_backoff hp, Link.advance_idle rfl]

/-- The first phase of the tail is followed by no request and no acknowledge. -/
theorem Link.advance_fetches_nothing {l : Link} (h : l.seq.phase.isTail) (n : Nat) :
    (l.advance n).seq.phase ≠ .req ∧ (l.advance n).seq.phase ≠ .ack := by
  obtain hp | hp | hp | hp := h
  · rw [Link.advance_trn2 hp]; exact ⟨nofun, nofun⟩
  · rw [Link.advance_rdata hp]; exact ⟨nofun, nofun⟩
  · rw [Link.advance_trn3 hp]; exact ⟨nofun, nofun⟩
  · rw [Link.advance_backoff hp]; exact ⟨nofun, nofun⟩

theorem run_tail {s : State} (hh : s.host = []) (h : s.link.seq.phase.isTail) :
    Host.Core.run core 2 s = .next (s.setLink (s.link.tailPhases s.cfg.turnaround)) := by
  obtain ⟨hr, ha⟩ := Link.advance_fetches_nothing h s.cfg.turnaround
  have first : step s = .next (s.setLink (s.link.advance s.cfg.turnaround)) :=
    step_advance hh (fun hp => by simp [hp, Phase.isTail] at h) (fun hp => by simp [hp, Phase.isTail] at h)
  have second := step_advance (s := s.setLink (s.link.advance s.cfg.turnaround)) hh hr ha
  rw [Link.tailPhases_eq_advance h]
  exact (run_succ core first 1).trans (run_succ core second 0)

/-- A frame stepped phase by phase (R27, R141). -/
theorem run_frame {s : State} (hh : s.host = []) (r : Req) (w : Word) :
    Host.Core.run core 5 (s.setLink (s.link.start r w)) = .next (s.setLink (s.link.frame s.cfg.turnaround r w)) := by
  have hn : ∀ l, NoReset (s.setLink l) := fun _ => .of_nil hh
  have req := step_req (hn (s.link.start r w)) rfl rfl
  have trn1 := step_advance (s := s.setLink ((s.link.start r w).reqPhase r)) hh nofun nofun
  have ack := step_ack (hn (((s.link.start r w).reqPhase r).trn1Phase s.cfg.turnaround)) rfl
  have tail := run_tail (s := s.setLink ((s.link.frameHead s.cfg.turnaround r w).ackPhase
    (s.link.frameHead s.cfg.turnaround r w).seq.acksr)) hh (Link.ackPhase_isTail _ _)
  exact (run_succ core req 4).trans <| (run_succ core trn1 3).trans <| (run_succ core ack 2).trans tail

/-! ### Sampled slots on any line -/

theorem Wire.slot_line (w : Wire) : w.slot.2.line = w.line := by
  unfold Wire.slot
  split
  · rfl
  · unfold Wire.consume Wire.emit
    split <;> rfl

/-- A slot on a released line shows in `TRACE` the level it sampled (R23, R121). -/
theorem Wire.slot_trace {w : Wire} (h : w.line.dir = .input) : w.slot.2.trace = w.trace ++ released [w.slot.1] := by
  simp only [Wire.slot, h]
  unfold Wire.consume Wire.emit
  split <;> rfl

theorem Wire.readBits_line (n : Nat) : ∀ w : Wire, (w.readBits n).2.line = w.line := by
  induction n with
  | zero => intro w; rfl
  | succ n ih => intro w; exact (ih _).trans w.slot_line

theorem Wire.readBits_trace (n : Nat) : ∀ {w : Wire}, w.line.dir = .input →
    (w.readBits n).2.trace = w.trace ++ released (w.readBits n).1 := by
  induction n with
  | zero => intro w _; simp [Wire.readBits]
  | succ n ih =>
    intro w h
    have hl : w.readBit.2.line.dir = .input := by rw [Wire.readBit, Wire.slot_line, h]
    show (w.readBit.2.readBits n).2.trace = w.trace ++ released (w.readBit.1 :: (w.readBit.2.readBits n).1)
    rw [ih hl, Wire.readBit, Wire.slot_trace h, List.append_assoc, ← released_append, List.singleton_append]

/-- A clock pulse makes the slot of a sampled bit (R124, R127). -/
theorem Wire.clockPulses_eq_readBits (n : Nat) : ∀ w : Wire, w.clockPulses n = (w.readBits n).2 := by
  induction n with
  | zero => intro w; rfl
  | succ n ih => intro w; exact ih _

/-! ### The registers after a frame -/

/-- The head of a frame on any line: what is sampled is a function of the pins (R142 to R144). -/
theorem Link.frameHead_sampled (l : Link) (n : Nat) (r : Req) (w : Word) : ∃ x : Wire, x.line.dir = .input ∧
    l.frameHead n r w = ⟨(x.readBits 3).2,
      ⟨.ack, 3, (headerByte r).setWidth 32, reqParity r, ackOfBits (x.readBits 3).1, r, w, l.seq.retrycnt⟩, l.status, l.mir⟩ := by
  refine ⟨(((l.wire.setDir .output).writeBits (headerBits r)).setDir .input).clockPulses n, ?_, ?_⟩
  · rw [Wire.clockPulses_eq_readBits, Wire.readBits_line]; rfl
  · unfold Link.frameHead
    rw [Link.reqPhase_eq, Link.trn1Phase_eq rfl, Link.ackSample_eq rfl]
    rfl

/-- `ACKSR` and `STATUS.ACKRAW` are as they were. -/
def AckKept (a b : Link) : Prop := b.seq.acksr = a.seq.acksr ∧ b.status.ackraw = a.status.ackraw

theorem AckKept.trans {a b c : Link} (h1 : AckKept a b) (h2 : AckKept b c) : AckKept a c :=
  ⟨h2.1.trans h1.1, h2.2.trans h1.2⟩

theorem AckKept.slotsTo {slot : Link → Link} (h : ∀ l, AckKept l (slot l)) (l : Link) (total : Nat) :
    AckKept l (l.slotsTo slot total) :=
  Link.slots_induct (P := AckKept) (fun _ => ⟨rfl, rfl⟩) (fun _ _ _ => .trans) h _ l

/-- Only the acknowledge slots write `ACKSR` (R28). -/
theorem Link.tailPhases_ackKept (l : Link) (n : Nat) : AckKept l (l.tailPhases n) := by
  have gap : ∀ (m : Link) (k : Nat), AckKept m (m.slotsTo Link.gapSlot k) := AckKept.slotsTo fun _ => ⟨rfl, rfl⟩
  have send : ∀ m : Link, AckKept m m.wdataPhase := fun m =>
    AckKept.slotsTo (slot := Link.sendSlot fun _ => true) (fun _ => ⟨rfl, rfl⟩) (m.setWire (m.wire.setDir .output)) 32
  have receive : AckKept l l.rdataPhase := AckKept.slotsTo (slot := Link.receiveSlot) (fun _ => ⟨rfl, rfl⟩) l 32
  have turn : AckKept l (l.trn2Phase n) := gap l n
  have last : ∀ m : Link, AckKept m (m.trn3Phase n) := fun m => gap m n
  unfold Link.tailPhases
  split
  · exact turn.trans (send _)
  · exact receive.trans (last _)
  · exact last l
  · exact gap l (n + 33)
  all_goals exact ⟨rfl, rfl⟩

/-- The acknowledge phase records the acknowledge in both registers (R27, R28). -/
theorem Link.ackPhase_records (l : Link) (v : Ack) : (l.ackPhase v).seq.acksr = v ∧ (l.ackPhase v).status.ackraw = v := by
  unfold Link.ackPhase
  cases ackTail v with
  | data => dsimp only; split <;> exact ⟨rfl, rfl⟩
  | _ => exact ⟨rfl, rfl⟩

/-- After a frame both registers hold the acknowledge its head sampled (R28). -/
theorem Link.frame_acks (l : Link) (n : Nat) (r : Req) (w : Word) :
    (l.frame n r w).seq.acksr = (l.frameHead n r w).seq.acksr
      ∧ (l.frame n r w).status.ackraw = (l.frameHead n r w).seq.acksr := by
  obtain ⟨h1, h2⟩ := Link.ackPhase_records (l.frameHead n r w) (l.frameHead n r w).seq.acksr
  obtain ⟨h3, h4⟩ := Link.tailPhases_ackKept ((l.frameHead n r w).ackPhase (l.frameHead n r w).seq.acksr) n
  exact ⟨h3.trans h1, h4.trans h2⟩

theorem Link.trn3Phase_trace {l : Link} (h : l.seq.bitcnt = 0) (n : Nat) :
    (l.trn3Phase n).wire.trace = (l.wire.readBits n).2.trace := by
  rw [Link.trn3Phase_eq h, ← Wire.clockPulses_eq_readBits]
  rfl

/-- The read data phase and the turnaround after it, on any released line (R146). -/
theorem Link.rdataPhase_samples {l : Link} (n : Nat) (hb : l.seq.bitcnt = 0) (hp : l.seq.par = false)
    (hd : l.wire.line.dir = .input) : ∃ (d : List Bool) (p : Bool) (h : List Bool),
      (l.rdataPhase.trn3Phase n).wire.trace = l.wire.trace ++ released (d ++ [p] ++ h) ∧ d.length = 32 ∧ h.length = n
        ∧ (l.rdataPhase.trn3Phase n).seq.shift = wordOfBits d := by
  have h1 : (l.wire.readBits 32).2.line.dir = .input := by rw [Wire.readBits_line, hd]
  have h2 : (l.wire.readBits 32).2.readBit.2.line.dir = .input := by rw [Wire.readBit, Wire.slot_line, h1]
  have ht : (l.rdataPhase.trn3Phase n).wire.trace = ((l.wire.readBits 32).2.readBit.2.readBits n).2.trace := by
    rw [Link.rdataPhase_eq hb hp, Link.trn3Phase_trace rfl]
    rfl
  refine ⟨(l.wire.readBits 32).1, (l.wire.readBits 32).2.readBit.1, ((l.wire.readBits 32).2.readBit.2.readBits n).1,
    ?_, Wire.readBits_length _ _, Wire.readBits_length _ _, ?_⟩
  · rw [ht, Wire.readBits_trace n h2, Wire.readBit, Wire.slot_trace h1, Wire.readBits_trace 32 hd]
    simp only [released_append, List.append_assoc]
  · rw [Link.rdataPhase_eq hb hp, Link.trn3Phase_eq rfl]
    rfl

/-- A read acknowledged OK goes on with the read data phase, entered on the released line its head leaves (R96). -/
theorem Link.ackPhase_read {l : Link} (hr : reqRead l.seq.xreq = true) : (l.ackPhase 1).seq.phase = .rdata
    ∧ (l.ackPhase 1).seq.bitcnt = 0 ∧ (l.ackPhase 1).seq.par = false ∧ (l.ackPhase 1).wire = l.wire := by
  have h : l.ackPhase 1 = ((l.setSeq { l.seq with acksr := 1 }).setStatus { l.status with ackraw := 1 }).enter .rdata :=
    if_pos hr
  rw [h]
  exact ⟨rfl, rfl, rfl, rfl⟩

/-- After a read that reached the data phase `SHIFT` is the word of the bits it sampled (R28). -/
theorem Link.frame_read_shift (l : Link) (n : Nat) (r : Req) (w : Word) (ha : (l.frame n r w).status.ackraw = 1)
    (hr : reqRead r = true) : ∃ (front : List Event) (d : List Bool) (p : Bool) (h : List Bool),
      (l.frame n r w).wire.trace = l.wire.trace ++ front ++ released (d ++ [p] ++ h) ∧ d.length = 32 ∧ h.length = n
        ∧ (l.frame n r w).seq.shift = wordOfBits d := by
  have hack : (l.frameHead n r w).seq.acksr = 1 := (Link.frame_acks l n r w).2.symm.trans ha
  obtain ⟨front, hf⟩ : l.wire.trace <+: (l.frameHead n r w).wire.trace := ((LinkGrows.start l r w).trans <|
    (LinkGrows.reqPhase _ r).trans <| (LinkGrows.trn1Phase _ n).trans (.ackSample _)).wire.trace
  obtain ⟨x, hx, hh⟩ := Link.frameHead_sampled l n r w
  have hreq : reqRead (l.frameHead n r w).seq.xreq = true := by rw [hh]; exact hr
  have hdir : (l.frameHead n r w).wire.line.dir = .input := by
    rw [hh]; exact (congrArg Line.dir (x.readBits_line 3)).trans hx
  obtain ⟨hphase, hbit, hpar, hwire⟩ := Link.ackPhase_read hreq
  have hframe : l.frame n r w = (((l.frameHead n r w).ackPhase 1).rdataPhase).trn3Phase n := by
    unfold Link.frame Link.tailPhases
    simp only [hack, hphase]
  obtain ⟨d, p, h, ht, hrest⟩ := Link.rdataPhase_samples n hbit hpar (by rw [hwire]; exact hdir)
  rw [hframe]
  exact ⟨front, d, p, h, by rw [ht, hwire, ← hf], hrest⟩

/-- Settles O23: five steps by `run_frame`, the registers by `Link.frame_acks` and `Link.frame_read_shift`. -/
theorem phasesMakeTheFrame : Obligations.PhasesMakeTheFrame := by
  refine ⟨fun s r w hh => run_frame hh r w, fun n r w l => ⟨?_, Link.frame_read_shift l n r w⟩⟩
  obtain ⟨hs, ha⟩ := Link.frame_acks l n r w
  exact hs.trans ha.symm

end Sys2Proof.Machine
end

/-! # Words stored in `BUF` (family 20_memory): the proof of O36

Storing a list of words writes the first word at the offset and stores the rest four bytes further on. What it leaves alone is
`RangeOnly` of the four bytes followed by the rest; what it puts down is found by the same induction: the rest of the list
begins after the first word, so it leaves that word's bytes as they were written. -/

section
namespace Sys2Proof.Machine

/-- The bytes of a word written at `o`, least significant first (R66). -/
theorem Memory.read_writeWord {m : Memory} (h : m.wf = true) (o : Nat) (v : Word) {j : Nat} (hj : j < 4) :
    (m.writeWord o v).read (o + j) = byteOf v j := by
  have hread : (m.writeWord o v).read (o + j) = [byteOf v 0, byteOf v 1, byteOf v 2, byteOf v 3].getD j 0 :=
    Memory.read_writeBytes_inside _ j h hj
  rw [hread]
  match j, hj with
  | 0, _ | 1, _ | 2, _ | 3, _ => rfl

/-- Words stored at `o` change only the bytes they take (R196). -/
theorem RangeOnly.storeWords : ∀ (ds : List Word) (m : Memory) (o : Nat),
    RangeOnly o (4 * ds.length) m (storeWords m o ds)
  | [], m, o => RangeOnly.refl o _ m
  | d :: ds, m, o => by
    have hfirst : RangeOnly o 4 m (m.writeWord o d) := RangeOnly.writeBytes m o _
    have hrest := RangeOnly.storeWords ds (m.writeWord o d) (o + 4)
    rw [List.length_cons]
    exact (hfirst.widen (by omega) (by omega)).trans (hrest.widen (by omega) (by omega))

/-- Byte `j` of the `i`-th word stored at `o` lies at `o + 4 i + j` (R66, R196). -/
theorem read_storeWords {d : Word} {j : Nat} (hj : j < 4) : ∀ (ds : List Word) {m : Memory} (o i : Nat), m.wf = true →
    ds[i]? = some d → (storeWords m o ds).read (o + 4 * i + j) = byteOf d j
  | [], _, _, _, _, hi => by simp at hi
  | e :: ds, m, o, 0, hm, hi => by
    obtain rfl : e = d := by simpa using hi
    have hw := Memory.wf_writeWord hm o e
    obtain ⟨-, -, houtside⟩ := RangeOnly.storeWords ds (m.writeWord o e) (o + 4) hw
    calc (storeWords (m.writeWord o e) (o + 4) ds).read (o + 4 * 0 + j)
        = (m.writeWord o e).read (o + j) := houtside (o + j) (by omega)
      _ = byteOf e j := Memory.read_writeWord hm o e hj
  | e :: ds, m, o, i + 1, hm, hi => by
    have ih := read_storeWords hj ds (o + 4) i (Memory.wf_writeWord hm o e) (by simpa using hi)
    rwa [show o + 4 + 4 * i + j = o + 4 * (i + 1) + j by omega] at ih

/-- Settles O36: the bytes put down by `read_storeWords`, the rest and the form by `RangeOnly.storeWords`. -/
theorem storedWords : Obligations.StoredWords := by
  intro m o ds hm
  obtain ⟨hform, -, houtside⟩ := RangeOnly.storeWords ds m o hm
  exact ⟨fun i _ _ hi hj => read_storeWords hj ds o i hm hi, houtside, hform⟩

end Sys2Proof.Machine
end

/-! # Encodings (family 30_encoding): the proofs of O1, O2, O3, O4, O5 and O7

Everything about commands rests on one equivalence, `decodeCmd_iff`: an opcode and its operand registers decode to `i` exactly
when the code of `i` is that opcode with the operands masked to the bits `i` uses. -/

section
namespace Sys2Proof.Machine

/-! ### One operand register: what is read from it and put back are the bits that count (R105) -/

theorem and_one_eq_ite (a : Word) : a &&& 1 = if a.getLsbD 0 then 1 else 0 := by
  rw [show (1 : Word) = 1#32 from rfl, BitVec.and_one_eq_setWidth_ofBool_getLsbD]
  cases a.getLsbD 0 <;> rfl

theorem encodeDir_decodeDir (a : Word) : encodeDir (decodeDir a) = a &&& 1 := by
  rw [and_one_eq_ite, decodeDir]
  cases a.getLsbD 0 <;> rfl

theorem encodeBit_getElem_zero (a : Word) : encodeBit a[0] = a &&& 1 := (and_one_eq_ite a).symm

/-- The low bits of a register, read as a narrower operand and put back. -/
theorem setWidth_setWidth_low {k : Nat} (hk : k ≤ 32) (a : Word) :
    (a.setWidth k).setWidth 32 = a &&& BitVec.ofNat 32 (2 ^ k - 1) := by
  apply BitVec.eq_of_toNat_eq
  have h : 2 ^ k - 1 < 2 ^ 32 := by have := Nat.pow_le_pow_right (n := 2) (by decide) hk; omega
  rw [BitVec.toNat_and, BitVec.toNat_ofNat, Nat.mod_eq_of_lt h, Nat.and_two_pow_sub_one_eq_mod,
    BitVec.toNat_setWidth, BitVec.toNat_setWidth, Nat.mod_eq_of_lt]
  exact Nat.lt_of_le_of_lt (Nat.mod_le _ _) a.isLt

theorem and_allBits (a : Word) : a &&& allBits = a := BitVec.and_allOnes

/-! ### Commands -/

/-- The decoder gives every instruction back from its own code (R94, R96, R103 to R105). -/
theorem decode_encode (i : Instr) : decode (encode i) = .ok i := by
  cases i with
  | setDir d => cases d <;> rfl
  | writeBit b => cases b <;> rfl
  | transfer | transferRetry | writeByte => simp [encode, argsOf, decode, decodeCmd]
  | _ => rfl

theorem encode_injective {i j : Instr} (h : encode i = encode j) : i = j :=
  Except.ok.inj ((decode_encode i).symm.trans ((congrArg decode h).trans (decode_encode j)))

/-- The code of what a command decodes to is the command, the unused operand bits cleared (R104 to R106). -/
theorem encode_of_decodeCmd {op : Byte} {a : Args} {i : Instr} (h : decodeCmd op a = some i) :
    encode i = .cmd op (maskArgs a i.used) := by
  have hop : op = BitVec.ofNat 8 op.toNat := by simp
  unfold decodeCmd at h
  split at h <;> rename_i hn <;> cases h <;> rw [hop, hn] <;>
    simp [encode, argsOf, maskArgs, Instr.used, and_allBits, encodeDir_decodeDir, encodeBit_getElem_zero, setWidth_setWidth_low]

/-- Whether a command decodes, and which operand bits then count, is up to the opcode alone (R103). -/
theorem decodeCmd_used {op : Byte} {a : Args} {i : Instr} (h : decodeCmd op a = some i) (b : Args) :
    ∃ j, decodeCmd op b = some j ∧ j.used = i.used := by
  unfold decodeCmd at h ⊢
  split at h <;> cases h <;> exact ⟨_, rfl, rfl⟩

/-- What a command decodes to is the one instruction whose code it is, the unused operand bits aside (R103 to R106). -/
theorem decodeCmd_iff {op : Byte} {a : Args} {i : Instr} :
    decodeCmd op a = some i ↔ encode i = .cmd op (maskArgs a i.used) := by
  refine ⟨encode_of_decodeCmd, fun h => ?_⟩
  have hmasked : decodeCmd op (maskArgs a i.used) = some i := decodeCmd_of_decode (h ▸ decode_encode i)
  obtain ⟨j, hj, hused⟩ := decodeCmd_used hmasked a
  have hcode : encode j = encode i := by rw [encode_of_decodeCmd hj, hused, h]
  rw [hj, encode_injective hcode]

theorem decode_of_decodeCmd {op : Byte} {a : Args} {i : Instr} (h : decodeCmd op a = some i) : decode (.cmd op a) = .ok i := by
  rw [decode, h]

/-- Settles O1: the code itself by `decode_encode`; under other unused bits it is the right side of `decodeCmd_iff`. -/
theorem decodeEncode : Obligations.DecodeEncode := by
  refine ⟨decode_encode, fun i op a b hcode hmask => decode_of_decodeCmd (decodeCmd_iff.2 ?_)⟩
  rw [hcode, hmask]

/-! ### Requests and acknowledges -/

theorem encode_of_decodeReq {h : Byte} {i : Instr} (hd : decodeReq h = some i) : encode i = .req h := by
  have hh : h = BitVec.ofNat 8 h.toNat := by simp
  unfold decodeReq at hd
  split at hd <;> rename_i hn <;> cases hd <;> rw [hh, hn] <;> rfl

theorem encode_of_decodeAck {v : Ack} {i : Instr} (hd : decodeAck v = some i) : encode i = .ack v := by
  have hv : v = BitVec.ofNat 3 v.toNat := by simp
  unfold decodeAck at hd
  split at hd <;> rename_i hn <;> cases hd <;> rw [hv, hn] <;> rfl

/-- Settles O2: one law for each of the three formats. -/
theorem decodedOnce : Obligations.DecodedOnce := by
  intro c i h
  cases c with
  | cmd op a => exact encode_of_decodeCmd (decodeCmd_of_decode h)
  | req b => exact encode_of_decodeReq (decodeReq_of_decode h)
  | ack v => exact encode_of_decodeAck (decodeAck_of_decode h)

/-- Settles O3: each word is a row of its table. -/
theorem decodedWords : Obligations.DecodedWords := ⟨rfl, rfl, rfl, rfl, rfl, rfl, rfl, rfl, rfl⟩

/-! ### Illegal opcodes (R106) -/

/-- The opcodes R106 calls illegal. -/
def IllegalOp (op : Byte) : Prop :=
  (0x04 ≤ op ∧ op ≤ 0x0F) ∨ (0x16 ≤ op ∧ op ≤ 0x1E) ∨ (0x2B ≤ op ∧ op ≤ 0x2F) ∨ (0x39 ≤ op ∧ op ≤ 0x3F)
    ∨ 0x47 ≤ op

/-- No row of R104 lies in the ranges of R106. -/
theorem decodeCmd_of_illegalOp {op : Byte} (h : IllegalOp op) (a : Args) : decodeCmd op a = none := by
  refine Option.eq_none_iff_forall_ne_some.2 fun i hd => ?_
  simp only [IllegalOp, BitVec.le_def] at h
  unfold decodeCmd at hd
  split at hd <;> rename_i hn <;> cases hd <;> rw [hn] at h <;> revert h <;> decide

/-- Operand bits the command does not use are ignored (R106). -/
theorem decodeCmd_congr_used {op : Byte} {a b : Args} {i : Instr} (h : decodeCmd op a = some i)
    (hm : maskArgs a i.used = maskArgs b i.used) : decodeCmd op b = some i :=
  decodeCmd_iff.2 (hm ▸ encode_of_decodeCmd h)

/-- Settles O7: `decodeCmd_congr_used`, and the fetch of a command that does not decode. -/
theorem illegalOpcode : Obligations.IllegalOpcode := by
  refine ⟨fun op a b i hd hm => decode_of_decodeCmd (decodeCmd_congr_used (decodeCmd_of_decode hd) hm),
    fun s op rest hp hh hb hill => ?_⟩
  rw [step_idle hp (.of_cons hh nofun), fetchHost_writeOp hh, hb]
  exact congrArg Fetched.outcome (fetchCommand_of_none (s := s.setHost rest) (decodeCmd_of_illegalOp hill s.arg))

/-! ### The rows of the wire -/

/-- The table of R94: each request instruction with its byte and its request code. -/
def requestTable : List (Instr × Byte × Req) :=
  [(.reqDpWr0, 0x81, 0x0), (.reqApWr0, 0xA3, 0x1), (.reqDpRd0, 0xA5, 0x2), (.reqApRd0, 0x87, 0x3),
    (.reqDpWr4, 0xA9, 0x4), (.reqApWr4, 0x8B, 0x5), (.reqDpRd4, 0x8D, 0x6), (.reqApRd4, 0xAF, 0x7),
    (.reqDpWr8, 0xB1, 0x8), (.reqApWr8, 0x93, 0x9), (.reqDpRd8, 0x95, 0xA), (.reqApRd8, 0xB7, 0xB),
    (.reqDpWrC, 0x99, 0xC), (.reqApWrC, 0xBB, 0xD), (.reqDpRdC, 0xBD, 0xE), (.reqApRdC, 0x9F, 0xF)]

/-- The byte of each row is the header that R91 to R93 build from the row's code. -/
theorem requestTable_rows : ∀ p ∈ requestTable, decode (.req p.2.1) = .ok p.1 ∧ p.2.1 = headerByte p.2.2 := by decide

theorem headerByte_bits : ∀ r : Req, (List.range 8).map (headerByte r).getLsbD = headerBits r := by decide

theorem exec_of_decode_headerByte {i : Instr} {r : Req} (h : decode (.req (headerByte r)) = .ok i) (s : State) :
    exec i s = .next (s.setLink (s.link.reqPhase r)) := by
  rw [exec_of_decodeReq (decodeReq_of_decode h), headerCode_headerByte]
  rfl

/-- The pins after the request phase: the header driven, its last bit the Park bit (R91, R142). -/
theorem Link.reqPhase_wire (l : Link) (r : Req) : (l.reqPhase r).wire =
    { l.wire with
      line := { l.wire.line with dir := .output, dout := true }
      trace := l.wire.trace ++ driven (headerBits r) } := by
  rw [Link.reqPhase_eq, Wire.writeBits_driven _ _ rfl]
  rfl

/-- Settles O4: each row's byte is the header of its code, so its instruction is the request phase of that code. -/
theorem requestRows : Obligations.RequestRows := by
  intro p hp
  obtain ⟨hd, hb⟩ := requestTable_rows p hp
  refine ⟨hd, fun s => ⟨s.link.reqPhase p.2.2, exec_of_decode_headerByte (hb ▸ hd) s, ?_⟩⟩
  rw [hb, headerByte_bits]
  refine ⟨Link.reqPhase_wire _ _, ?_⟩
  rw [Link.reqPhase_eq]
  exact ⟨rfl, rfl, rfl, rfl, rfl, rfl, rfl, rfl⟩

/-- Settles O5: each is the acknowledge phase of its value; only OK asks for the direction of the request. -/
theorem acknowledgeRows : Obligations.AcknowledgeRows := by
  intro s
  refine ⟨⟨s.link.ackPhase 1, rfl, ?_⟩, ⟨s.link.ackPhase 2, rfl, rfl, rfl, rfl, rfl, rfl, rfl⟩,
    ⟨s.link.ackPhase 4, rfl, rfl, rfl, rfl, rfl, rfl, rfl⟩⟩
  cases hr : reqRead s.link.seq.xreq <;> simp [Link.ackPhase, ackTail, hr]

end Sys2Proof.Machine
end

/-! # Parity and the slots of a frame (family 30_encoding): the proofs of O17 and O18

`TRANSFER` is one frame with its end read off (`execTransfer_of_frameEnd`), so O17 is `Link.frame_read` with a parity bit that
does not match. For O18 nothing is known of the line: a frame is then its header, a number of released slots and, for a write
acknowledged OK, the driven data, and the shape of R100 is these three counts. -/

section
namespace Sys2Proof.Machine

/-! ### `TRANSFER` is one frame (R141) -/

/-- The failure kind of a raw transfer that ends in `x` (R141). -/
def AckResult.cause (x : AckResult) : Cause := if x = .ok then .none else .ack

theorem AckResult.cause_ne_none (x : AckResult) : decide (x.cause ≠ .none) = decide (x ≠ .ok) := by cases x <;> rfl

/-- The end of a raw transfer: `RES` written, then success or `F_ACK` (R141). -/
theorem rawTransfer_eq (x : AckResult) (d : Word) (s : State) : rawTransfer (x, d) s =
    if x = .ok then .ok () ((s.setRes0 d).setRes1 (x.code.setWidth 32))
    else .error .ack ((s.setRes0 d).setRes1 (x.code.setWidth 32)) := by
  unfold rawTransfer
  rw [Op.bind_ok _ (modifyOp_apply _ s)]
  by_cases hx : x = .ok
  · subst hx; rfl
  · rw [needOk_fail d hx, if_neg hx]; rfl

/-- `TRANSFER` as a command: what its frame leaves on the link, its data and result in `RES` (R141, R353). -/
theorem execTransfer_eq (r : Req) (w : Word) (s : State) {f : Link} (hf : s.link.begun.frame s.cfg.turnaround r w = f) :
    exec (.transfer r w) s = .next ((((s.setRes0 f.rdata).setRes1 (f.status.result.code.setWidth 32)).setCause
      f.status.result.cause).setLink (f.ended f.status.faxst f.status.result.cause)) := by
  have hbody : (do let x ← linkOp (fun c l => transfer c.turnaround r w l); rawTransfer x) s.beginOp
      = rawTransfer (f.status.result, f.rdata) (s.setLink f) := by subst hf; rfl
  show Host.Outcome.next (command _ noResult keepRes s) = _
  rw [command, hbody, rawTransfer_eq]
  by_cases hx : f.status.result = .ok
  · rw [if_pos hx, AckResult.cause, if_pos hx]; rfl
  · rw [if_neg hx, AckResult.cause, if_neg hx]; rfl

/-- A command that ran one frame leaves the frame's end, with `STATUS` closed (R353). -/
theorem FrameEnd.ran {l f : Link} {e : List Event} {rest : List Bool} {a : Ack} {x : AckResult}
    (h : FrameEnd l.begun f e rest a x) : Ran l (f.ended f.status.faxst x.cause) e rest a x l.status.retryx where
  trace := congrArg Wire.trace h.wire
  levels := congrArg Wire.lineIn h.wire
  draws := (congrArg Wire.draws h.wire :)
  reset := (congrArg (fun w : Wire => w.line.nreset) h.wire :)
  mirror := h.mir
  status := by
    rw [Link.ended, Link.setStatus_status, h.status, AckResult.cause_ne_none]
    rfl
  pins := ⟨congrArg (fun w : Wire => w.line.dir) h.wire, congrArg (fun w : Wire => w.line.dout) h.wire, h.idle⟩

/-- Where the frame's end is known, so is all that `TRANSFER` leaves. -/
theorem execTransfer_of_frameEnd {s : State} {r : Req} {w d : Word} {e : List Event} {rest : List Bool} {a : Ack}
    {x : AckResult} (h : FrameEnd s.link.begun (s.link.begun.frame s.cfg.turnaround r w) e rest a x
      ∧ (s.link.begun.frame s.cfg.turnaround r w).rdata = d) :
    ∃ l, exec (.transfer r w) s
        = .next ((((s.setRes0 d).setRes1 (x.code.setWidth 32)).setCause x.cause).setLink l)
      ∧ Ran s.link l e rest a x s.link.status.retryx := by
  obtain ⟨hend, hdata⟩ := h
  have hx : (s.link.begun.frame s.cfg.turnaround r w).status.result = x := congrArg Status.result hend.status
  refine ⟨_, ?_, hend.ran⟩
  rw [execTransfer_eq r w s rfl, hx, hdata]

/-! ### A wrong parity bit (R98) -/

theorem parityOf_append (a b : List Bool) : parityOf (a ++ b) = (parityOf a ^^ parityOf b) := by
  induction a with
  | nil => exact (Bool.false_xor _).symm
  | cons x a ih => rw [List.cons_append, parityOf, ih, parityOf, Bool.xor_assoc]

/-- An odd number of ones in data and parity bit: the bit is not the data's parity. -/
theorem parityResult_of_odd {d : List Bool} {p : Bool} (hd : d.length = 32) (h : parityOf (d ++ [p]) = true) :
    parityResult p (parity32 (wordOfBits d)) = .parityError := by
  rw [parityOf_append, parityOf, parityOf, Bool.xor_false] at h
  rw [parity32_wordOfBits hd, parityResult, if_neg]
  rintro rfl
  rw [Bool.xor_self] at h
  cases h

/-- Settles O17: the frame is `Link.frame_read`, whose result is `parityResult_of_odd`. -/
theorem parityFault : Obligations.ParityFault := by
  intro s r w g db h rest hr hg hh hlen hodd hline
  obtain ⟨d, p, rfl⟩ : ∃ d p, db = d ++ [p] := ⟨_, _, (List.dropLast_append_getLast (by rintro rfl; cases hlen)).symm⟩
  have hd : d.length = 32 := by simpa using hlen
  have hframe := Link.frame_read s.link.begun r w p rest hr hg hd hh
    (show s.link.wire.lineIn = _ by rw [hline]; simp only [List.append_assoc, List.cons_append, List.nil_append])
  rw [parityResult_of_odd hd hodd] at hframe
  rw [List.take_left' hd]
  exact execTransfer_of_frameEnd hframe

/-! ### Slots on any line -/

/-- Clock pulses on a released line: as many released slots, whatever they show (R99, R124). -/
theorem Wire.clockPulses_slots (n : Nat) {w : Wire} (h : w.line.dir = .input) :
    ∃ g, g.length = n ∧ (w.clockPulses n).trace = w.trace ++ released g ∧ (w.clockPulses n).line = w.line := by
  rw [Wire.clockPulses_eq_readBits]
  exact ⟨_, Wire.readBits_length n w, Wire.readBits_trace n h, Wire.readBits_line n w⟩

/-- The first turnaround: `n` released slots, the line left released (R143). -/
theorem Link.trn1Phase_slots {l : Link} (h : l.seq.bitcnt = 0) (n : Nat) : ∃ g, g.length = n
    ∧ (l.trn1Phase n).wire.trace = l.wire.trace ++ released g ∧ (l.trn1Phase n).wire.line.dir = .input := by
  obtain ⟨g, hg, htrace, hline⟩ := Wire.clockPulses_slots n (show (l.wire.setDir .input).line.dir = .input from rfl)
  rw [Link.trn1Phase_eq h]
  exact ⟨g, hg, htrace, congrArg Line.dir hline⟩

/-- The acknowledge slots: three, all released (R144). -/
theorem Link.ackSample_slots {l : Link} (h : l.seq.bitcnt = 0) (hd : l.wire.line.dir = .input) : ∃ g, g.length = 3
    ∧ l.ackSample.wire.trace = l.wire.trace ++ released g ∧ l.ackSample.wire.line.dir = .input := by
  rw [Link.ackSample_eq h]
  exact ⟨_, Wire.readBits_length 3 _, Wire.readBits_trace 3 hd, (congrArg Line.dir (Wire.readBits_line 3 _)).trans hd⟩

/-- The head of a frame: the header driven, `n + 3` released slots, the line left released (R142 to R144). -/
theorem Link.frameHead_slots (l : Link) (n : Nat) (r : Req) (w : Word) : ∃ g, g.length = n + 3
    ∧ (l.frameHead n r w).wire.trace = l.wire.trace ++ driven (headerBits r) ++ released g
    ∧ (l.frameHead n r w).wire.line.dir = .input := by
  have hreq : ((l.start r w).reqPhase r).wire.trace = l.wire.trace ++ driven (headerBits r) := by
    rw [Link.reqPhase_wire]; rfl
  obtain ⟨g, hg, hgap, hdir⟩ := Link.trn1Phase_slots (l := (l.start r w).reqPhase r) (Seq.enter_bitcnt _ _) n
  obtain ⟨k, hk, hack, hend⟩ := Link.ackSample_slots (Seq.enter_bitcnt _ _) hdir
  refine ⟨g ++ k, by rw [List.length_append, hg, hk], ?_, hend⟩
  rw [Link.frameHead, hack, hgap, hreq, released_append, List.append_assoc _ (released g)]

/-! ### The tail of R100 -/

/-- How many released slots follow the acknowledge (R100). -/
def tailReleased (n : Nat) (r : Req) : Tail → Nat
  | .data => if reqRead r then 33 + n else n
  | .wait | .fault => n
  | .backoff => n + 33

/-- What is driven after them (R100). -/
def tailDriven (r : Req) (w : Word) : Tail → List Bool
  | .data => if reqRead r then [] else dataBits w
  | .wait | .fault | .backoff => []

theorem dataBits_length (w : Word) : (dataBits w).length = 33 := by simp [dataBits, wordBits]

theorem tailReleased_add_length_le (n : Nat) (r : Req) (w : Word) (t : Tail) :
    tailReleased n r t + (tailDriven r w t).length ≤ n + 33 := by
  cases t with
  | data => cases h : reqRead r <;> simp [tailReleased, tailDriven, h, dataBits_length, Nat.add_comm]
  | _ => simp [tailReleased, tailDriven]

/-- The shape of R100 is these counts. -/
theorem frameShape_eq (n : Nat) (r : Req) (w : Word) (t : Tail) : frameShape n r t =
    List.replicate 8 true ++ (List.replicate (n + 3 + tailReleased n r t) false
      ++ List.replicate (tailDriven r w t).length true) := by
  rw [List.replicate_add (n + 3), List.append_assoc (List.replicate (n + 3) false), ← List.append_assoc, frameShape.eq_def]
  congr 1
  cases t with
  | data =>
    cases h : reqRead r with
    | true => simp only [tailReleased, tailDriven, h, if_true, List.length_nil, List.replicate_zero, List.append_nil]
    | false => simp only [tailReleased, tailDriven, h, Bool.false_eq_true, if_false, dataBits_length]
  | _ => simp only [tailReleased, tailDriven, List.length_nil, List.replicate_zero, List.append_nil]

theorem Link.toIdle_trace (l : Link) : l.toIdle.wire.trace = l.wire.trace := rfl

theorem Link.trn3Phase_slots {l : Link} (h : l.seq.bitcnt = 0) (hd : l.wire.line.dir = .input) (n : Nat) :
    ∃ g, g.length = n ∧ (l.trn3Phase n).wire.trace = l.wire.trace ++ released g := by
  obtain ⟨g, hg, htrace, -⟩ := Wire.clockPulses_slots n hd
  exact ⟨g, hg, by rw [Link.trn3Phase_eq h, Link.toIdle_trace, Link.setWire_wire, htrace]⟩

theorem Link.backoffPhase_slots {l : Link} (h : l.seq.bitcnt = 0) (hd : l.wire.line.dir = .input) (n : Nat) :
    ∃ g, g.length = n + 33 ∧ (l.backoffPhase n).wire.trace = l.wire.trace ++ released g := by
  obtain ⟨g, hg, htrace, -⟩ := Wire.clockPulses_slots (n + 33) hd
  exact ⟨g, hg, by rw [Link.backoffPhase_eq h, Link.toIdle_trace, Link.setWire_wire, htrace]⟩

theorem Link.wdataPhase_trace {l : Link} (h : l.seq.bitcnt = 0) (hp : l.seq.par = false) :
    l.wdataPhase.wire.trace = l.wire.trace ++ driven (dataBits l.seq.shift) := by
  rw [Link.wdataPhase_eq h hp]
  generalize dataBits l.seq.shift = bs
  show ((l.wire.setDir .output).writeBits bs).trace = _
  rw [Wire.writeBits_driven _ _ rfl]
  rfl

/-- The second turnaround and the write data after it (R145). -/
theorem Link.writeTail_slots {l : Link} (h : l.seq.bitcnt = 0) (hd : l.wire.line.dir = .input) (n : Nat) :
    ∃ g, g.length = n ∧ ((l.trn2Phase n).wdataPhase).wire.trace
      = l.wire.trace ++ released g ++ driven (dataBits l.seq.xwdata) := by
  obtain ⟨g, hg, htrace, -⟩ := Wire.clockPulses_slots n hd
  refine ⟨g, hg, ?_⟩
  rw [Link.trn2Phase_eq h, Link.wdataPhase_trace (Seq.enter_bitcnt _ _) rfl, ← htrace]
  rfl

/-- What follows an acknowledge `v` on a released line: the released slots, then the driven ones (R100). -/
theorem Link.tail_slots {l : Link} (hd : l.wire.line.dir = .input) (n : Nat) (v : Ack) :
    ∃ g, g.length = tailReleased n l.seq.xreq (ackTail v) ∧ ((l.ackPhase v).tailPhases n).wire.trace
      = l.wire.trace ++ (released g ++ driven (tailDriven l.seq.xreq l.seq.xwdata (ackTail v))) := by
  unfold Link.ackPhase
  generalize hm : (l.setSeq { l.seq with acksr := v }).setStatus { l.status with ackraw := v } = m
  obtain ⟨hwire, hreq, hdata⟩ : m.wire = l.wire ∧ m.seq.xreq = l.seq.xreq ∧ m.seq.xwdata = l.seq.xwdata := by
    subst hm; exact ⟨rfl, rfl, rfl⟩
  rw [← hwire] at hd ⊢
  rw [← hreq, ← hdata]
  cases ackTail v with
  | data =>
    cases hr : reqRead m.seq.xreq with
    | true =>
      obtain ⟨d, p, h, htrace, hdl, hhl, -⟩ := Link.rdataPhase_samples (l := m.enter .rdata) n rfl rfl hd
      refine ⟨d ++ [p] ++ h, ?_, ?_⟩
      · simp only [tailReleased, hr, if_true, List.length_append, hdl, hhl, List.length_singleton]
      · simp only [tailDriven, hr, if_true, driven_nil, List.append_nil]
        exact htrace
    | false =>
      obtain ⟨g, hg, htrace⟩ := Link.writeTail_slots (l := m.enter .trn2) rfl hd n
      refine ⟨g, ?_, ?_⟩
      · simp only [tailReleased, hr, hg, Bool.false_eq_true, if_false]
      · simp only [tailDriven, hr, Bool.false_eq_true, if_false, ← List.append_assoc]
        exact htrace
  | wait =>
    obtain ⟨g, hg, htrace⟩ := Link.trn3Phase_slots (l := (m.setResult .wait).enter .trn3) rfl hd n
    exact ⟨g, hg, htrace.trans (by rw [tailDriven, driven_nil, List.append_nil]; rfl)⟩
  | fault =>
    obtain ⟨g, hg, htrace⟩ := Link.trn3Phase_slots (l := (m.setResult .fault).enter .trn3) rfl hd n
    exact ⟨g, hg, htrace.trans (by rw [tailDriven, driven_nil, List.append_nil]; rfl)⟩
  | backoff =>
    obtain ⟨g, hg, htrace⟩ := Link.backoffPhase_slots (l := (m.setResult .noReply).enter .backoff) rfl hd n
    exact ⟨g, hg, htrace.trans (by rw [tailDriven, driven_nil, List.append_nil]; rfl)⟩

/-- The slots of a frame on any line, by the acknowledge it sampled (R90, R100). -/
theorem Link.frame_slots (l : Link) (n : Nat) (r : Req) (w : Word) : ∃ g,
    g.length = n + 3 + tailReleased n r (ackTail (l.frame n r w).status.ackraw)
      ∧ (l.frame n r w).wire.trace = l.wire.trace ++ driven (headerBits r)
        ++ (released g ++ driven (tailDriven r w (ackTail (l.frame n r w).status.ackraw))) := by
  obtain ⟨g, hg, hhead, hdir⟩ := Link.frameHead_slots l n r w
  obtain ⟨k, hk, htail⟩ := Link.tail_slots hdir n (l.frameHead n r w).seq.acksr
  obtain ⟨hreq, hdata⟩ : (l.frameHead n r w).seq.xreq = r ∧ (l.frameHead n r w).seq.xwdata = w := by
    obtain ⟨x, -, h⟩ := Link.frameHead_sampled l n r w
    rw [h]
    exact ⟨rfl, rfl⟩
  rw [hreq] at hk htail
  rw [hdata, hhead] at htail
  rw [(Link.frame_acks l n r w).2]
  refine ⟨g ++ k, by rw [List.length_append, hg, hk], ?_⟩
  rw [released_append, List.append_assoc (released g), ← List.append_assoc _ (released g)]
  exact htail

/-- A frame ends with the line driven high, the clock and the reset pin as they were (R100, R141). -/
theorem Link.frame_line (l : Link) (n : Nat) (r : Req) (w : Word) :
    (l.frame n r w).wire.line = { l.wire.line with dir := .output, dout := true } := by
  obtain ⟨hdir, hdout, -⟩ := Link.frame_atIdle l n r w
  obtain ⟨-, hclk, hnreset⟩ := (LinkGrows.frame l n r w).wire
  show _ = (⟨.output, true, l.wire.line.clk, l.wire.line.nreset⟩ : Line)
  rw [← hdir, ← hdout, ← hclk, ← hnreset]

theorem isSlot_of_mem {e : Event} {g d : List Bool} (h : e ∈ released g ++ driven d) : e.isSlot = true := by
  rcases List.mem_append.1 h with h | h <;> obtain ⟨b, -, rfl⟩ := List.mem_map.1 h <;> rfl

theorem isDriven_slots (g d : List Bool) : (released g ++ driven d).map Event.isDriven =
    List.replicate g.length false ++ List.replicate d.length true := by
  rw [List.map_append, released, driven, List.map_map, List.map_map]
  exact congrArg₂ _ (List.map_const' ..) (List.map_const' ..)

/-- Settles O18: every clause is read off the slots of `Link.frame_slots`; the rest is how every frame ends. -/
theorem frameSlots : Obligations.FrameSlots := by
  intro n r w l
  obtain ⟨g, hg, htrace⟩ := Link.frame_slots l n r w
  obtain ⟨-, -, hphase⟩ := Link.frame_atIdle l n r w
  refine ⟨_, htrace, fun _ => isSlot_of_mem, ?_, fun ha hr => ⟨released g, ?_⟩, ?_, Link.frame_line l n r w, hphase,
    (Link.frame_leaves l n r w).1⟩
  · rw [isDriven_slots, frameShape_eq n r w, hg]
  · rw [ha, show ackTail 1 = .data from rfl, tailDriven, hr]
    rfl
  · have := tailReleased_add_length_le n r w (ackTail (l.frame n r w).status.ackraw)
    rw [List.length_append, released_length, driven_length, hg]
    omega

end Sys2Proof.Machine
end

/-! # The bit operations (family 40_bit_transport): the proof of O14

A bit operation is one slot of the pins run as a command (`exec_clockPulse`, `exec_readBit`, `exec_writeBit`), or none
(`exec_setDir`), so O14 is what a slot does on a driven line, on a released line with a coming level, and on one with none. -/

section
namespace Sys2Proof.Machine

/-! ### One slot, case by case (R121) -/

/-- A slot on a driven line shows the level driven and reads no level of the target. -/
theorem Wire.slot_driven {w : Wire} (hd : w.line.dir = .output) :
    w.slot = (w.line.dout, { w with trace := w.trace ++ [.slot .output w.line.dout] }) := by
  simp only [Wire.slot, hd, Wire.emit]

/-- A slot on a released line takes the next coming level. -/
theorem Wire.slot_known {w : Wire} {b : Bool} {bs : List Bool} (hd : w.line.dir = .input) (hb : w.lineIn = b :: bs) :
    w.slot = (b, { w with trace := w.trace ++ [.slot .input b], lineIn := bs }) :=
  Wire.readBit_released w b bs hd hb

/-- A slot on a released line past the coming levels: a free level (log 3). -/
theorem Wire.slot_free {w : Wire} (hd : w.line.dir = .input) (hb : w.lineIn = []) :
    w.slot = (Config.lineLevel w.draws,
      { w with trace := w.trace ++ [.slot .input (Config.lineLevel w.draws)], draws := w.draws + 1 }) := by
  simp only [Wire.slot, hd, Wire.sample, Wire.consume, hb, Wire.emit]

/-! ### The slot as a command (R123 to R127) -/

theorem exec_clockPulse {s : State} {b : Bool} {u : Wire} (h : s.link.wire.slot = (b, u)) :
    exec .clockPulse s = .next (s.afterBit u) := by
  show Host.Outcome.next (s.afterBit s.link.wire.slot.2) = _
  rw [h]

theorem exec_readBit {s : State} {b : Bool} {u : Wire} (h : s.link.wire.slot = (b, u)) :
    exec .readBit s = .next ((s.setRes0 (if b then 1 else 0)).afterBit u) := by
  show Host.Outcome.next ((s.setRes0 (if s.link.wire.slot.1 then 1 else 0)).afterBit s.link.wire.slot.2) = _
  rw [h]

/-- `WRITE_BIT` is the slot of the line with its new output level. -/
theorem exec_writeBit {s : State} {v b : Bool} {u : Wire} (h : (s.link.wire.setDout v).slot = (b, u)) :
    exec (.writeBit v) s = .next (s.afterBit u) := by
  show Host.Outcome.next (s.afterBit (s.link.wire.setDout v).slot.2) = _
  rw [h]

theorem exec_setDir (d : Dir) (s : State) : exec (.setDir d) s = .next (s.afterBit (s.link.wire.setDir d)) := rfl

/-- Settles O14: the direction and the coming levels, which say what the slot is, are the same with the new output level. -/
theorem bitOperations : Obligations.BitOperations := by
  intro s
  refine ⟨fun hd => ?driven, fun b bs hd hb => ?known, fun hd hb => ?free, fun d => exec_setDir d s⟩
  case driven =>
    have hslot := Wire.slot_driven hd
    exact ⟨exec_clockPulse hslot, exec_readBit hslot, fun v => exec_writeBit (Wire.slot_driven (w := s.link.wire.setDout v) hd)⟩
  case known =>
    have hslot := Wire.slot_known hd hb
    exact ⟨exec_clockPulse hslot, exec_readBit hslot,
      fun v => exec_writeBit (Wire.slot_known (w := s.link.wire.setDout v) hd hb)⟩
  case free =>
    have hslot := Wire.slot_free hd hb
    exact ⟨_, exec_clockPulse hslot, exec_readBit hslot,
      fun v => exec_writeBit (Wire.slot_free (w := s.link.wire.setDout v) hd hb)⟩

end Sys2Proof.Machine
end

/-! # One transfer (family 41_swd_transfer): the proofs of O15, O16 and O19

Where the coming levels are known, `TRANSFER` is one frame with its end read off (`execTransfer_of_frameEnd`). Where only two
lines are known to show the same, their frames are followed side by side: `Link.Alike` holds from the acknowledge slots on,
because the head of a frame takes the line and loads every register it uses. -/

section
namespace Sys2Proof.Machine

/-! ### `TRANSFER` by the acknowledge (R141) -/

/-- Three sampled bits that are none of the three acknowledges are malformed (R96). -/
theorem ackTail_of_malformed {k : List Bool} (hk : k.length = 3) (hok : k ≠ okBits) (hwait : k ≠ waitBits)
    (hfault : k ≠ faultBits) : ackTail (ackOfBits k) = .backoff := by
  obtain ⟨a, b, c, rfl⟩ := List.length_eq_three.1 hk
  revert a b c
  decide

/-- Settles O15: the frame is `Link.frame_read`, whose parity bit is the data's, or `Link.frame_write`. -/
theorem transferOk : Obligations.TransferOk := by
  intro s r w g h rest hg hh
  refine ⟨fun d hr hline => ?read, fun hr hline => ?write⟩
  case read =>
    have hframe := Link.frame_read s.link.begun r w (parity32 d) rest hr hg (wordBits_length d) hh
      (show s.link.wire.lineIn = _ by rw [hline, dataBits]; simp only [List.append_assoc, List.cons_append, List.nil_append])
    rw [wordOfBits_wordBits, parityResult_same] at hframe
    exact execTransfer_of_frameEnd hframe
  case write =>
    exact execTransfer_of_frameEnd (Link.frame_write s.link.begun r w rest hr hg hh
      (show s.link.wire.lineIn = _ by rw [hline]; simp only [List.append_assoc]))

/-- Settles O16: one frame for each of the three ways not to acknowledge OK. -/
theorem transferNotOk : Obligations.TransferNotOk := by
  intro s r w g k h rest hg hline
  have hb : s.link.begun.wire.lineIn = g ++ (k ++ (h ++ rest)) := hline.trans (by simp only [List.append_assoc])
  refine ⟨?wait, ?fault, fun hk hok hwait hfault hh => ?malformed⟩
  case wait =>
    rintro rfl hh
    exact execTransfer_of_frameEnd (Link.frame_wait s.link.begun r w rest hg hh hb)
  case fault =>
    rintro rfl hh
    exact execTransfer_of_frameEnd (Link.frame_fault s.link.begun r w rest hg hh hb)
  case malformed =>
    exact execTransfer_of_frameEnd
      (Link.frame_malformed s.link.begun r w rest hg hk (ackTail_of_malformed hk hok hwait hfault) hh hb)

/-! ### The result of a frame on any line -/

/-- The result of a frame whose head, the acknowledge slots included, has left `l` (R96, R98, R146). -/
def Link.headResult (l : Link) : AckResult :=
  match ackTail l.seq.acksr with
  | .data =>
    if reqRead l.seq.xreq then
      parityResult (l.wire.readBits 32).2.readBit.1 (parity32 (wordOfBits (l.wire.readBits 32).1))
    else .ok
  | .wait => .wait
  | .fault => .fault
  | .backoff => .noReply

theorem Link.frame_result (l : Link) (n : Nat) (r : Req) (w : Word) :
    (l.frame n r w).status.result = (l.frameHead n r w).headResult := by
  unfold Link.frame Link.ackPhase Link.headResult
  generalize l.frameHead n r w = h
  dsimp only
  generalize hm : (h.setSeq { h.seq with acksr := h.seq.acksr }).setStatus { h.status with ackraw := h.seq.acksr } = m
  obtain ⟨hwire, hreq⟩ : m.wire = h.wire ∧ m.seq.xreq = h.seq.xreq := by subst hm; exact ⟨rfl, rfl⟩
  rw [← hwire, ← hreq]
  cases ackTail h.seq.acksr with
  | data =>
    cases reqRead m.seq.xreq with
    | true =>
      show ((m.enter .rdata).rdataPhase.trn3Phase n).status.result = _
      rw [Link.rdataPhase_eq rfl rfl, Link.trn3Phase_eq rfl]
      rfl
    | false => rfl
  | wait => exact congrArg (fun x : Link => x.status.result) (Link.trn3Phase_eq rfl n)
  | fault => exact congrArg (fun x : Link => x.status.result) (Link.trn3Phase_eq rfl n)
  | backoff => exact congrArg (fun x : Link => x.status.result) (Link.backoffPhase_eq rfl n)

theorem ackTail_eq_wait {v : Ack} (h : ackTail v = .wait) : v = 2 := by
  revert v
  decide

/-- Only the acknowledge WAIT makes the result WAIT (R96). -/
theorem Link.frame_ackraw_of_wait {l : Link} {n : Nat} {r : Req} {w : Word} (h : (l.frame n r w).status.result = .wait) :
    (l.frame n r w).status.ackraw = 2 := by
  rw [Link.frame_result, Link.headResult] at h
  rw [(Link.frame_acks l n r w).2]
  cases ht : ackTail (l.frameHead n r w).seq.acksr with
  | wait => exact ackTail_eq_wait ht
  | data =>
    simp only [ht, parityResult] at h
    split at h
    · split at h <;> cases h
    · cases h
  | fault => simp only [ht] at h; cases h
  | backoff => simp only [ht] at h; cases h

/-! ### Two lines that will show the same levels (R140) -/

/-- The pins `a` and `b` are driven alike, will show the same levels and have made the same events, `a` after `t` and `b`
after `u`. -/
structure Wire.Alike (t u : List Event) (a b : Wire) : Prop where
  dir : a.line.dir = b.line.dir
  dout : a.line.dout = b.line.dout
  levels : a.lineIn = b.lineIn
  draws : a.draws = b.draws
  events : ∃ es, a.trace = t ++ es ∧ b.trace = u ++ es

section Alike
variable {t u : List Event} {c : BitVec 8}

theorem Wire.Alike.setDir {a b : Wire} (h : Wire.Alike t u a b) (d : Dir) : Wire.Alike t u (a.setDir d) (b.setDir d) :=
  ⟨rfl, h.dout, h.levels, h.draws, h.events⟩

theorem Wire.Alike.setDout {a b : Wire} (h : Wire.Alike t u a b) (v : Bool) : Wire.Alike t u (a.setDout v) (b.setDout v) :=
  ⟨h.dir, rfl, h.levels, h.draws, h.events⟩

theorem Wire.Alike.emit {a b : Wire} (h : Wire.Alike t u a b) (e : Event) : Wire.Alike t u (a.emit e) (b.emit e) := by
  obtain ⟨es, ha, hb⟩ := h.events
  refine ⟨h.dir, h.dout, h.levels, h.draws, es ++ [e], ?_, ?_⟩
  · rw [Wire.emit, ha, List.append_assoc]
  · rw [Wire.emit, hb, List.append_assoc]

theorem Wire.Alike.sample {a b : Wire} (h : Wire.Alike t u a b) : a.sample = b.sample := by
  unfold Wire.sample
  rw [h.levels, h.draws]

theorem Wire.Alike.consume {a b : Wire} (h : Wire.Alike t u a b) : Wire.Alike t u a.consume b.consume := by
  obtain ⟨hdir, hdout, hlevels, hdraws, hevents⟩ := h
  unfold Wire.consume
  rw [hlevels]
  split
  · exact ⟨hdir, hdout, rfl, hdraws, hevents⟩
  · exact ⟨hdir, hdout, rfl, congrArg (· + 1) hdraws, hevents⟩

/-- A slot shows the same level on both. -/
theorem Wire.Alike.slot {a b : Wire} (h : Wire.Alike t u a b) : a.slot.1 = b.slot.1 ∧ Wire.Alike t u a.slot.2 b.slot.2 := by
  unfold Wire.slot
  rw [h.dir, h.dout, h.sample]
  cases b.line.dir with
  | output => exact ⟨rfl, h.emit _⟩
  | input => exact ⟨rfl, h.consume.emit _⟩

theorem Wire.Alike.writeBit {a b : Wire} (h : Wire.Alike t u a b) (v : Bool) : Wire.Alike t u (a.writeBit v) (b.writeBit v) :=
  (h.setDout v).slot.2

theorem Wire.Alike.readBits {a b : Wire} (h : Wire.Alike t u a b) (n : Nat) :
    (a.readBits n).1 = (b.readBits n).1 ∧ Wire.Alike t u (a.readBits n).2 (b.readBits n).2 := by
  induction n generalizing a b with
  | zero => exact ⟨rfl, h⟩
  | succ n ih =>
    obtain ⟨hbit, hrest⟩ := h.slot
    obtain ⟨hbits, hend⟩ := ih hrest
    exact ⟨congrArg₂ List.cons hbit hbits, hend⟩

/-- Two links have such pins, and the same sequencer but for the attempt count, which no frame reads or writes: the second
one's stays `c`. -/
structure Link.Alike (t u : List Event) (c : BitVec 8) (a b : Link) : Prop where
  wire : Wire.Alike t u a.wire b.wire
  seq : b.seq = { a.seq with retrycnt := c }

theorem Link.Alike.bitcnt {a b : Link} (h : Link.Alike t u c a b) : a.seq.bitcnt = b.seq.bitcnt := by rw [h.seq]
theorem Link.Alike.shift {a b : Link} (h : Link.Alike t u c a b) : a.seq.shift = b.seq.shift := by rw [h.seq]
theorem Link.Alike.par {a b : Link} (h : Link.Alike t u c a b) : a.seq.par = b.seq.par := by rw [h.seq]
theorem Link.Alike.acksr {a b : Link} (h : Link.Alike t u c a b) : a.seq.acksr = b.seq.acksr := by rw [h.seq]
theorem Link.Alike.xreq {a b : Link} (h : Link.Alike t u c a b) : a.seq.xreq = b.seq.xreq := by rw [h.seq]
theorem Link.Alike.phase {a b : Link} (h : Link.Alike t u c a b) : a.seq.phase = b.seq.phase := by rw [h.seq]

theorem Link.Alike.setWire {a b : Link} (h : Link.Alike t u c a b) {x y : Wire} (hw : Wire.Alike t u x y) :
    Link.Alike t u c (a.setWire x) (b.setWire y) := ⟨hw, h.seq⟩

theorem Link.Alike.setStatus {a b : Link} (h : Link.Alike t u c a b) (x y : Status) :
    Link.Alike t u c (a.setStatus x) (b.setStatus y) := ⟨h.wire, h.seq⟩

/-- A change of the sequencer that neither reads nor writes the attempt count. -/
theorem Link.Alike.mapSeq {a b : Link} (h : Link.Alike t u c a b) {f : Seq → Seq}
    (hf : ∀ q : Seq, f { q with retrycnt := c } = { f q with retrycnt := c }) :
    Link.Alike t u c (a.setSeq (f a.seq)) (b.setSeq (f b.seq)) := by
  refine ⟨h.wire, ?_⟩
  rw [Link.setSeq_seq, Link.setSeq_seq, h.seq, hf]

/-! ### Slots of two such links (R28) -/

theorem Link.Alike.gapSlot {a b : Link} (h : Link.Alike t u c a b) : Link.Alike t u c a.gapSlot b.gapSlot :=
  (h.setWire h.wire.slot.2).mapSeq fun _ => rfl

theorem Link.Alike.sendSlot (covered : Nat → Bool) {a b : Link} (h : Link.Alike t u c a b) :
    Link.Alike t u c (a.sendSlot covered) (b.sendSlot covered) := by
  unfold Link.sendSlot
  rw [h.shift, h.bitcnt, h.par]
  exact (h.setWire (h.wire.writeBit _)).mapSeq (f := fun q => { q.count with par := _ }) fun _ => rfl

theorem Link.Alike.sendParity {a b : Link} (h : Link.Alike t u c a b) : Link.Alike t u c a.sendParity b.sendParity := by
  unfold Link.sendParity
  rw [h.par]
  exact (h.setWire (h.wire.writeBit _)).mapSeq fun _ => rfl

theorem Link.Alike.receiveSlot {a b : Link} (h : Link.Alike t u c a b) : Link.Alike t u c a.receiveSlot b.receiveSlot := by
  obtain ⟨hbit, hrest⟩ := h.wire.slot
  unfold Link.receiveSlot Wire.readBit
  dsimp only
  rw [h.shift, h.bitcnt, h.par, hbit]
  exact (h.setWire hrest).mapSeq (f := fun q => { q.count with shift := _, par := _ }) fun _ => rfl

theorem Link.Alike.ackSlot {a b : Link} (h : Link.Alike t u c a b) : Link.Alike t u c a.ackSlot b.ackSlot := by
  obtain ⟨hbit, hrest⟩ := h.wire.slot
  unfold Link.ackSlot Wire.readBit
  dsimp only
  rw [h.acksr, h.bitcnt, hbit]
  exact (h.setWire hrest).mapSeq (f := fun q => { q.count with acksr := _ }) fun _ => rfl

/-- A phase has as many slots left on both. -/
theorem Link.Alike.slotsTo {slot : Link → Link}
    (hslot : ∀ {a b}, Link.Alike t u c a b → Link.Alike t u c (slot a) (slot b)) {a b : Link} (h : Link.Alike t u c a b)
    (total : Nat) : Link.Alike t u c (a.slotsTo slot total) (b.slotsTo slot total) := by
  unfold Link.slotsTo
  rw [h.bitcnt]
  generalize total - b.seq.bitcnt.toNat = n
  induction n generalizing a b with
  | zero => exact h
  | succ n ih => exact ih (hslot h)

/-! ### Phases of two such links (R27) -/

theorem Link.Alike.enter {a b : Link} (h : Link.Alike t u c a b) (p : Phase) : Link.Alike t u c (a.enter p) (b.enter p) :=
  h.mapSeq (f := fun q => q.enter p) fun _ => by cases p <;> rfl

theorem Link.Alike.toIdle {a b : Link} (h : Link.Alike t u c a b) : Link.Alike t u c a.toIdle b.toIdle :=
  (h.setWire ((h.wire.setDout true).setDir .output)).enter .idle

theorem Link.Alike.ackPhase {a b : Link} (h : Link.Alike t u c a b) (v : Ack) :
    Link.Alike t u c (a.ackPhase v) (b.ackPhase v) := by
  have hm := (h.mapSeq (f := fun q => { q with acksr := v }) fun _ => rfl).setStatus { a.status with ackraw := v }
    { b.status with ackraw := v }
  unfold Link.ackPhase
  cases ackTail v with
  | data =>
    dsimp only
    rw [hm.xreq]
    split
    · exact hm.enter .rdata
    · exact hm.enter .trn2
  | wait => exact (hm.setStatus _ _).enter .trn3
  | fault => exact (hm.setStatus _ _).enter .trn3
  | backoff => exact (hm.setStatus _ _).enter .backoff

theorem Link.Alike.trn2Phase {a b : Link} (h : Link.Alike t u c a b) (n : Nat) :
    Link.Alike t u c (a.trn2Phase n) (b.trn2Phase n) := (h.slotsTo .gapSlot n).enter .wdata

theorem Link.Alike.wdataPhase {a b : Link} (h : Link.Alike t u c a b) : Link.Alike t u c a.wdataPhase b.wdataPhase :=
  ((((h.setWire (h.wire.setDir .output)).slotsTo (.sendSlot fun _ => true) 32).sendParity).setStatus _ _).toIdle

/-- The sampled parity bit is a slot that carries no bit of a register. -/
theorem Link.Alike.rdataPhase {a b : Link} (h : Link.Alike t u c a b) : Link.Alike t u c a.rdataPhase b.rdataPhase :=
  (((h.slotsTo .receiveSlot 32).gapSlot).setStatus _ _).enter .trn3

theorem Link.Alike.trn3Phase {a b : Link} (h : Link.Alike t u c a b) (n : Nat) :
    Link.Alike t u c (a.trn3Phase n) (b.trn3Phase n) := (h.slotsTo .gapSlot n).toIdle

theorem Link.Alike.tailPhases {a b : Link} (h : Link.Alike t u c a b) (n : Nat) :
    Link.Alike t u c (a.tailPhases n) (b.tailPhases n) := by
  unfold Link.tailPhases
  rw [h.phase]
  cases b.seq.phase with
  | trn2 => exact (h.trn2Phase n).wdataPhase
  | rdata => exact h.rdataPhase.trn3Phase n
  | trn3 => exact h.trn3Phase n
  | backoff => exact h.trn3Phase (n + 33)
  | idle | req | trn1 | ack | wdata => exact h

end Alike

/-! ### A frame on two such lines -/

/-- The head of a frame takes the line and loads the registers it uses, so that what they held before does not matter
(R142 to R144). -/
theorem Link.Alike.frameHead {l m : Link} (n : Nat) (r : Req) (w : Word) (hlevels : l.wire.lineIn = m.wire.lineIn)
    (hdraws : l.wire.draws = m.wire.draws) :
    Link.Alike l.wire.trace m.wire.trace m.seq.retrycnt (l.frameHead n r w) (m.frameHead n r w) := by
  have hrequest : Wire.Alike l.wire.trace m.wire.trace ((l.start r w).reqPhase r).wire ((m.start r w).reqPhase r).wire := by
    rw [Link.reqPhase_wire, Link.reqPhase_wire]
    exact ⟨rfl, rfl, hlevels, hdraws, _, rfl, rfl⟩
  have hturn : Link.Alike l.wire.trace m.wire.trace m.seq.retrycnt (((l.start r w).reqPhase r).trn1Phase n)
      (((m.start r w).reqPhase r).trn1Phase n) := by
    rw [Link.trn1Phase_eq rfl, Link.trn1Phase_eq rfl, Wire.clockPulses_eq_readBits, Wire.clockPulses_eq_readBits]
    refine ⟨((hrequest.setDir .input).readBits n).2, ?_⟩
    rw [Link.reqPhase_eq, Link.reqPhase_eq]
    rfl
  exact hturn.slotsTo .ackSlot 3

theorem Link.Alike.frame {l m : Link} (n : Nat) (r : Req) (w : Word) (hlevels : l.wire.lineIn = m.wire.lineIn)
    (hdraws : l.wire.draws = m.wire.draws) :
    Link.Alike l.wire.trace m.wire.trace m.seq.retrycnt (l.frame n r w) (m.frame n r w) := by
  have hhead := Link.Alike.frameHead n r w hlevels hdraws
  unfold Link.frame
  dsimp only
  rw [hhead.acksr]
  exact (hhead.ackPhase _).tailPhases n

theorem Link.Alike.headResult {t u : List Event} {c : BitVec 8} {a b : Link} (h : Link.Alike t u c a b) :
    a.headResult = b.headResult := by
  obtain ⟨hbits, hrest⟩ := h.wire.readBits 32
  unfold Link.headResult
  rw [h.acksr, h.xreq, hbits, Wire.readBit, Wire.readBit, hrest.slot.1]

theorem Link.Alike.rdata {t u : List Event} {c : BitVec 8} {a b : Link} (h : Link.Alike t u c a b) : a.rdata = b.rdata := by
  rw [Link.rdata, Link.rdata, h.acksr, h.xreq, h.shift]

/-- Settles O19: the heads are alike, so the frames are, and the result is read off the head (`Link.frame_result`). -/
theorem transferIndependent : Obligations.TransferIndependent := by
  intro n r w l m hlevels hdraws
  have hhead := Link.Alike.frameHead n r w hlevels hdraws
  have hframe := Link.Alike.frame n r w hlevels hdraws
  obtain ⟨es, hl, hm⟩ := hframe.wire.events
  refine ⟨es, hl, hm, Prod.ext ?result hframe.rdata, ?ackraw, hframe.wire.levels⟩
  case result =>
    show (l.frame n r w).status.result = (m.frame n r w).status.result
    rw [Link.frame_result, Link.frame_result, hhead.headResult]
  case ackraw => rw [(Link.frame_acks l n r w).2, (Link.frame_acks m n r w).2, hhead.acksr]

end Sys2Proof.Machine
end

/-! # The wait-retry loop (family 41_swd_transfer): the proofs of O20, O21 and O22

`retryLoop_ends` says with which attempt the loop ends on any line. Where the coming levels are known, `TRANSFER_RETRY` is the
loop with its end read off (`execTransferRetry_of_runEnd`). -/

section
namespace Sys2Proof.Machine

/-! ### The attempts of the wait-retry loop (R150) -/

/-- A frame does not write the attempt count: two frames of one link are alike. -/
theorem Link.frame_retrycnt (l : Link) (n : Nat) (r : Req) (w : Word) : (l.frame n r w).seq.retrycnt = l.seq.retrycnt :=
  (congrArg Seq.retrycnt (Link.Alike.frame (l := l) n r w rfl rfl).seq :)

/-- Each attempt adds one frame at the end too. -/
theorem Link.attempts_succ (n : Nat) (r : Req) (w : Word) (k : Nat) : ∀ l : Link,
    Link.attempts n r w (k + 1) l = ((Link.attempts n r w k l).frame n r w).countAttempt := by
  induction k with
  | zero => intro l; rfl
  | succ k ih => intro l; exact ih (l.frame n r w).countAttempt

/-- `RETRYCNT` counts the attempts (R29), and no attempt writes `RETRYX`. -/
theorem Link.attempts_leaves (n : Nat) (r : Req) (w : Word) (k : Nat) (l : Link) :
    (Link.attempts n r w k l).seq.retrycnt = l.seq.retrycnt + BitVec.ofNat 8 k
      ∧ (Link.attempts n r w k l).status.retryx = l.status.retryx := by
  induction k with
  | zero => exact ⟨(BitVec.add_zero _).symm, rfl⟩
  | succ k ih =>
    obtain ⟨hcount, hretryx⟩ := ih
    rw [Link.attempts_succ]
    refine ⟨?_, (Link.frame_leaves _ n r w).2.trans hretryx⟩
    show ((Link.attempts n r w k l).frame n r w).seq.retrycnt + 1 = _
    rw [Link.frame_retrycnt, hcount, BitVec.add_assoc, BitVec.ofNat_add]
    rfl

/-- The loop from `l` with cap `extra + 1` ends with its attempt `i`, counted from 0: the ones before it ended in WAIT, and it
did not or was the last one allowed (R150 to R152). -/
structure LoopEnds (n : Nat) (r : Req) (w : Word) (extra : Nat) (l : Link) (i : Nat) : Prop where
  le : i ≤ extra
  waits : ∀ j < i, ((Link.attempts n r w j l).frame n r w).status.result = .wait
  ends : (((Link.attempts n r w i l).frame n r w).status.result ≠ .wait
      ∧ retryLoop n r w extra l = ((transfer n r w (Link.attempts n r w i l)).1, Link.attempts n r w (i + 1) l)) ∨
    (i = extra ∧ ((Link.attempts n r w i l).frame n r w).status.result = .wait
      ∧ (retryLoop n r w extra l).1.1 = .fault
      ∧ (retryLoop n r w extra l).2 = (Link.attempts n r w (i + 1) l).exhaust)

/-- A first frame answered WAIT, with attempts left, puts the end one further (R150). -/
theorem LoopEnds.succ {n : Nat} {r : Req} {w : Word} {extra : Nat} {l : Link} {i : Nat}
    (hx : (l.frame n r w).status.result = .wait) (h : LoopEnds n r w extra (l.frame n r w).countAttempt i) :
    LoopEnds n r w (extra + 1) l (i + 1) where
  le := Nat.succ_le_succ h.le
  waits := fun
    | 0, _ => hx
    | j + 1, hj => h.waits j (Nat.lt_of_succ_lt_succ hj)
  ends := by
    rw [retryLoop_succ, if_pos hx]
    exact h.ends.imp_right fun ⟨hi, hlast⟩ => ⟨congrArg (· + 1) hi, hlast⟩

/-- The wait-retry loop ends with one of the attempts it is allowed (R153). -/
theorem retryLoop_ends (n : Nat) (r : Req) (w : Word) (extra : Nat) : ∀ l, ∃ i, LoopEnds n r w extra l i := by
  have stops : ∀ (k : Nat) (l : Link), (l.frame n r w).status.result ≠ .wait → LoopEnds n r w k l 0 := fun k l hx =>
    ⟨k.zero_le, fun _ hj => absurd hj (Nat.not_lt_zero _), .inl ⟨hx, retryLoop_last n r w k l hx⟩⟩
  induction extra with
  | zero =>
    intro l
    by_cases hx : (l.frame n r w).status.result = .wait
    · refine ⟨0, le_rfl, fun _ hj => absurd hj (Nat.not_lt_zero _), .inr ⟨rfl, hx, ?_⟩⟩
      rw [retryLoop_zero, if_pos hx]
      exact ⟨rfl, rfl⟩
    · exact ⟨0, stops 0 l hx⟩
  | succ extra ih =>
    intro l
    by_cases hx : (l.frame n r w).status.result = .wait
    · obtain ⟨i, h⟩ := ih (l.frame n r w).countAttempt
      exact ⟨i + 1, h.succ hx⟩
    · exact ⟨0, stops _ l hx⟩

/-- Settles O20: the number of frames is one more than the attempt `retryLoop_ends` gives. -/
theorem retryLaw : Obligations.RetryLaw := by
  intro n cap r w l hcap
  obtain ⟨i, hle, hwaits, hends⟩ := retryLoop_ends n r w (cap - 1) l.startRetry
  obtain ⟨hcount, hretryx⟩ := Link.attempts_leaves n r w (i + 1) l.startRetry
  have hcount' : (Link.attempts n r w (i + 1) l.startRetry).seq.retrycnt = BitVec.ofNat 8 (i + 1) :=
    hcount.trans (BitVec.zero_add _)
  refine ⟨i + 1, Nat.le_add_left 1 i, by omega, fun j hj => hwaits j (Nat.lt_of_succ_lt_succ hj), ?_⟩
  rw [transferRetry, Nat.add_sub_cancel]
  obtain ⟨hlast, hloop⟩ | ⟨rfl, hlast, hresult, hloop⟩ := hends
  · rw [hloop]
    exact ⟨hcount', .inl ⟨hlast, rfl, rfl, hretryx⟩⟩
  · rw [hloop]
    refine ⟨hcount', .inr ⟨by omega, hlast, hresult, rfl, ?_, rfl, rfl⟩⟩
    rw [Link.attempts_succ]
    exact Link.frame_ackraw_of_wait hlast

/-! ### `TRANSFER_RETRY` (R150) -/

/-- The end of a raw transfer as a command: `RES` written, then success or `F_ACK` (R141, R150, R353). -/
theorem command_rawTransfer {body : Op Unit} {s : State} {f : Link} {x : AckResult} {d : Word}
    (h : body s.beginOp = rawTransfer (x, d) (s.setLink f)) : command body noResult keepRes s =
      (((s.setRes0 d).setRes1 (x.code.setWidth 32)).setCause x.cause).setLink (f.ended f.status.faxst x.cause) := by
  rw [command, h, rawTransfer_eq]
  by_cases hx : x = .ok
  · rw [if_pos hx, AckResult.cause, if_pos hx]; rfl
  · rw [if_neg hx, AckResult.cause, if_neg hx]; rfl

/-- A command that ran one wait-retry loop leaves the loop's end, with `STATUS` closed (R353). -/
theorem RunEnd.ran {l f : Link} {e : List Event} {rest : List Bool} {a : Ack} {x : AckResult} {rx : Bool}
    (h : RunEnd l.begun f e rest a x rx) : Ran l (f.ended f.status.faxst x.cause) e rest a x rx where
  trace := congrArg Wire.trace h.wire
  levels := congrArg Wire.lineIn h.wire
  draws := (congrArg Wire.draws h.wire :)
  reset := (congrArg (fun u : Wire => u.line.nreset) h.wire :)
  mirror := h.mir
  status := by
    rw [Link.ended, Link.setStatus_status, h.status, AckResult.cause_ne_none]
    rfl
  pins := ⟨congrArg (fun u : Wire => u.line.dir) h.wire, congrArg (fun u : Wire => u.line.dout) h.wire, h.idle⟩

/-- Where the end of the loop is known, so is all that `TRANSFER_RETRY` leaves. -/
theorem execTransferRetry_of_runEnd {s : State} {r : Req} {w d : Word} {e : List Event} {rest : List Bool} {a : Ack}
    {x : AckResult} {rx : Bool} (h : ∃ f, transferRetry s.cfg.turnaround s.cfg.retry r w s.link.begun = ((x, d), f)
      ∧ RunEnd s.link.begun f e rest a x rx) :
    ∃ l, exec (.transferRetry r w) s
        = .next ((((s.setRes0 d).setRes1 (x.code.setWidth 32)).setCause x.cause).setLink l)
      ∧ Ran s.link l e rest a x rx := by
  obtain ⟨f, hrun, hend⟩ := h
  exact ⟨_, congrArg Host.Outcome.next (command_rawTransfer (Op.bind_ok rawTransfer (logical_of hrun))), hend.ran⟩

/-- Settles O21: the loop of a read or write that ends OK, run as a command. -/
theorem retryOk : Obligations.RetryOk := by
  intro s r w d b e rest hline
  exact ⟨fun hr h => execTransferRetry_of_runEnd (transferRetry_read rest w hr h s.link.begun hline),
    fun hr h => execTransferRetry_of_runEnd (transferRetry_write rest hr h s.link.begun hline)⟩

/-- Settles O22: one end of the loop for each of the four ways not to end OK. -/
theorem retryNotOk : Obligations.RetryNotOk := by
  intro s r w d ws g k h b e rest hcap hws
  refine ⟨fun hlen hline => ?exhausted, fun hlt hg hline => ⟨?fault, fun hk hok hwait hfault hh => ?malformed⟩,
    fun hr hbad hline => ?parity⟩
  case exhausted =>
    exact execTransferRetry_of_runEnd (transferRetry_exhausted _ _ r w ws s.link.begun rest hcap hws hlen hline)
  case fault =>
    rintro rfl hh
    exact execTransferRetry_of_runEnd (transferRetry_fault _ _ r w ws s.link.begun g h rest hws hlt hg hh hline)
  case malformed =>
    exact execTransferRetry_of_runEnd (transferRetry_malformed _ _ r w ws s.link.begun g k h rest hws hlt hg hk
      (ackTail_of_malformed hk hok hwait hfault) hh hline)
  case parity =>
    exact execTransferRetry_of_runEnd (transferRetry_badParity rest w hr hbad s.link.begun hline)

end Sys2Proof.Machine
end

/-! # Register operations and the mirror (family 41_swd_transfer): the proofs of O24, O25, O26 and O27

Each register operation follows its dialogue, which says what it does when all goes well. For O27 a transfer that does not end
OK is followed to the `followSelect` or `followCsw` after it, the one place that writes the mirror. -/

section
namespace Sys2Proof.Machine

/-! ### Operations that complete -/

/-- An instruction whose body follows its dialogue, when the line answers it. -/
theorem exec_of_follows {α : Type} {i : Instr} {s s' s2 : State} {body : Op α} {onOk : α → State → State}
    {onFail : Cause → State → State} (hexec : exec i s = .next (command body onOk onFail s)) {tk : Talk} {v : α}
    (h : Follows s body tk v s') (hok : ∀ l, onOk v (s'.setLink l) = s2.setLink l) {e : List Event} {rest : List Bool}
    (ha : Answered s.cfg (tk s.link.mir).1 s.link.wire.lineIn e rest) :
    ∃ l, exec i s = .next ((s2.setCause .none).setLink l) ∧ Done s.link l (tk s.link.mir) e rest s.link.status.faxst .none := by
  obtain ⟨l, hrun, hdone⟩ := command_ok h.ends (onFail := onFail) hok ha
  exact ⟨l, hexec.trans (congrArg Host.Outcome.next hrun), hdone⟩

/-- Settles O24: both operations follow their dialogues, and the value goes to `RES[0]`. -/
theorem registerReads : Obligations.RegisterReads := by
  intro s a d e rest hc
  exact ⟨fun ha => exec_of_follows rfl (follows_readDp (legal_of hc) ha) fun _ => rfl,
    fun ha => exec_of_follows rfl (follows_readAp (legal_of hc) ha) fun _ => rfl⟩

/-- Settles O25: both operations follow their dialogues, and have no result. -/
theorem registerWrites : Obligations.RegisterWrites := by
  intro s a v e rest hc
  exact ⟨fun ha => exec_of_follows rfl (follows_writeDp (legal_of hc) ha) fun _ => rfl,
    fun ha => exec_of_follows rfl (follows_writeAp (legal_of hc) ha) fun _ => rfl⟩

/-- Settles O26: neither operation has a branch; the pulse appends its two events one after the other. -/
theorem mirrorClears : Obligations.MirrorClears := by
  intro s
  refine ⟨rfl, ?_⟩
  rw [show [Event.resetAssert, .resetRelease] = [.resetAssert] ++ [.resetRelease] from rfl, ← List.append_assoc]
  rfl

/-! ### What a failed write leaves of the mirror (R158, R166) -/

/-- The operation ends with `F_ACK` and leaves the mirror `m`. -/
def FailsLeaving {α : Type} (op : Op α) (s : State) (m : Mirror) : Prop := ∃ t, op s = .error .ack t ∧ t.link.mir = m

theorem FailsLeaving.bind {α β : Type} {op : Op α} {s : State} {m : Mirror} (h : FailsLeaving op s m) (k : α → Op β) :
    FailsLeaving (op >>= k) s m := by
  obtain ⟨t, hrun, hmir⟩ := h
  exact ⟨t, Op.bind_error k hrun, hmir⟩

/-- The end of a command leaves the mirror its body left (R342). -/
theorem FailsLeaving.command {α : Type} {body : Op α} {s : State} {m : Mirror} (h : FailsLeaving body s.beginOp m)
    (onOk : α → State → State) : ∃ t, Host.Outcome.next (command body onOk failRes s) = (.next t : Outcome)
      ∧ t.cause = .ack ∧ t.link.mir = m := by
  obtain ⟨t, hrun, hmir⟩ := h
  refine ⟨_, rfl, ?_⟩
  rw [Machine.command, hrun]
  exact ⟨rfl, hmir⟩

/-- A failed write of `SELECT` (R158). -/
theorem writeDp_select_failsLeaving {s : State} {l : Link} {v : Word} {e : List Event} {rest : List Bool} {x : AckResult}
    (hc : Legal s.cfg) (hhas : l.mir.hasSelect v = false)
    (h : Broken s.cfg [.write (reqCode false false s.cfg.dpSelect) v] l.wire.lineIn e rest x) :
    FailsLeaving (writeDp s.cfg.dpSelect v) (s.setLink l) l.mir.dropSelect := by
  obtain ⟨b, ht, hb⟩ := Broken.single h
  obtain ⟨d, m, hrun, hx, -, hmir⟩ := logical_failed hc.retry (.inl ⟨rfl, reqRead_reqCode false false _⟩) ht l hb
  unfold FailsLeaving
  rw [writeDp_apply v s l hc.select, if_neg (by simp [hhas]), Op.bind_ok _ hrun, Op.bind_ok _ (followSelect_apply ..),
    needOk_fail d hx, if_pos rfl, if_neg hx]
  exact ⟨_, rfl, congrArg Mirror.dropSelect hmir⟩

theorem selectAp_apply (a : Word) (s : State) : selectAp a s = writeDp s.cfg.dpSelect (selectOf a) s := by
  rw [selectAp, Op.get_bind]

/-- The AP write and its drain leave the mirror to `followCsw` (R166). -/
theorem preserves_apWriteDrain_mir (a v : Word) : Preserves (fun s => s.link.mir) (apWriteDrain a v) :=
  Preserves.bind (logical_mir _ v) fun _ => .ite _
    ((Preserves.get _).bind fun _ => Preserves.bind (logical_mir _ 0) fun _ => .pure _ _) (.pure _ _)

/-- A failed write of `CSW` or of its drain (R166). -/
theorem writeApReg_csw_failsLeaving {s : State} {l : Link} {a v : Word} {e : List Event} {rest : List Bool} {x : AckResult}
    (hc : Legal s.cfg) (hcsw : isCsw s.cfg a = true) (hhas : l.mir.hasCsw (apselOf a) v = false)
    (h : Broken s.cfg [.write (reqCode true false a) v, drainTurn s.cfg] l.wire.lineIn e rest x) :
    FailsLeaving (writeApReg a v) (s.setLink l) l.mir.dropCsw := by
  obtain ⟨m, hrun, hx, -⟩ := apWriteDrain_fail hc h
  have hmir : m.mir = l.mir := by
    have hkept := preserves_apWriteDrain_mir a v (s.setLink l)
    rwa [hrun] at hkept
  unfold FailsLeaving
  rw [writeApReg_apply, if_neg (by simp [hhas]), Op.bind_ok _ hrun, Op.bind_ok _ (followCsw_apply ..), if_pos hcsw,
    if_neg hx, if_neg hx]
  exact ⟨_, rfl, congrArg Mirror.dropCsw hmir⟩

/-- The same after `SelectAP` has gone well, its write made or left out (R159, R166). -/
theorem writeAp_csw_failsLeaving {s : State} {l : Link} {a v : Word} {e e2 : List Event} {mid rest : List Bool}
    {x : AckResult} (hc : Legal s.cfg) (ha : apAddrOk a = true) (hcsw : isCsw s.cfg a = true)
    (hhas : l.mir.hasCsw (apselOf a) v = false) (hsel : Answered s.cfg (talkSelect s.cfg a l.mir).1 l.wire.lineIn e mid)
    (h : Broken s.cfg [.write (reqCode true false a) v, drainTurn s.cfg] mid e2 rest x) :
    FailsLeaving (writeAp a v) (s.setLink l) (l.mir.holdSelect (selectOf a)).dropCsw := by
  obtain ⟨m, hrun, hleaves⟩ := (follows_selectAp hc).ends l e mid hsel
  have hmir : m.mir = l.mir.holdSelect (selectOf a) := by rw [hleaves.mirror, talkSelect, talkWriteDp, if_pos rfl]
  obtain ⟨t, hfail, ht⟩ := writeApReg_csw_failsLeaving (l := m) hc hcsw (by rw [hmir]; exact hhas)
    (by rw [hleaves.levels]; exact h)
  refine ⟨t, ?_, ht.trans (congrArg Mirror.dropCsw hmir)⟩
  rw [writeAp, Op.require_bind ha]
  exact (Op.bind_ok _ hrun).trans hfail

/-- The turns of `SelectAP`: none if the mirror holds the value, else the one write (R158, R159). -/
theorem talkSelect_turns (c : Cfg) (a : Word) (m : Mirror) : (talkSelect c a m).1 =
    if m.hasSelect (selectOf a) then [] else [.write (reqCode false false c.dpSelect) (selectOf a)] := by
  rw [talkSelect, talkWriteDp, if_pos rfl]

/-- Settles O27: the body fails and leaves the mirror as the failed write does, and so does the command. -/
theorem failedWriteDropsMirror : Obligations.FailedWriteDropsMirror := by
  intro s a v e e2 mid rest x hlegal
  have hc := legal_of hlegal
  refine ⟨fun hhas h => ?dp, fun ha hhas h => ?select, fun ha hcsw hhas => ⟨fun hsel h => ?held, fun hsel hmade h => ?made⟩⟩
  case dp => exact (writeDp_select_failsLeaving (l := s.link.begun) hc hhas h).command noResult
  case select =>
    have hselect : FailsLeaving (selectAp a) s.beginOp s.link.mir.dropSelect := by
      rw [FailsLeaving, selectAp_apply]
      exact writeDp_select_failsLeaving (l := s.link.begun) hc hhas h
    intro i hi
    obtain rfl | rfl := List.mem_pair.1 hi
    · have hbody : FailsLeaving (readAp a) s.beginOp s.link.mir.dropSelect := by
        rw [readAp, Op.require_bind ha]
        exact hselect.bind _
      exact hbody.command toRes0
    · have hbody : FailsLeaving (writeAp a v) s.beginOp s.link.mir.dropSelect := by
        rw [writeAp, Op.require_bind ha]
        exact hselect.bind _
      exact hbody.command noResult
  case held =>
    have hturns : (talkSelect s.cfg a s.link.mir).1 = [] := by rw [talkSelect_turns, if_pos hsel]
    have hbody := writeAp_csw_failsLeaving (l := s.link.begun) (mid := s.link.wire.lineIn) (e := []) hc ha hcsw hhas
      (hturns ▸ ⟨rfl, rfl⟩) h
    rw [show s.link.begun.mir.holdSelect (selectOf a) = s.link.mir from Mirror.holdSelect_of_has hsel] at hbody
    exact hbody.command noResult
  case made =>
    have hturns : (talkSelect s.cfg a s.link.mir).1 = [.write (reqCode false false s.cfg.dpSelect) (selectOf a)] := by
      rw [talkSelect_turns, hsel, if_neg Bool.false_ne_true]
    exact (writeAp_csw_failsLeaving (l := s.link.begun) hc ha hcsw hhas (hturns ▸ hmade) h).command noResult

end Sys2Proof.Machine
end

/-! # Target memory (family 42_memory_access): the proofs of O30 to O35 and O37 to O39

The memory operations follow their dialogues (Laws/FollowMemory.lean), so each completes where its dialogue is answered and is
cut off where it is broken. The walk's pieces are counted in words: each round of its middle part takes whole words from an
aligned address. The transfer counts add up over a dialogue, each part being counted from the mirror it finds. -/

section
namespace Sys2Proof.Machine

/-! ### The operations over a range of `BUF` -/

theorem requireRange_apply {o n : Word} {s : State} (h : bufRangeOk s.cfg.bufSize o n = true) (l : Link) :
    requireRange o n (s.setLink l) = .ok () (s.setLink l) := by
  rw [requireRange, Op.get_bind]
  exact require_true h _

theorem follows_readBlock {s : State} {a o n : Word} {ds : List Word} (hc : Legal s.cfg) (hshape : blockShapeOk a n = true)
    (hrange : bufRangeOk s.cfg.bufSize o n = true) (hlen : 4 * ds.length = n.toNat) :
    Follows s (readBlock a o n) (talkReadWords s.cfg a ds) () ((s.counted 0).setBuf (storeWords s.buf o.toNat ds)) := by
  have hne : ds ≠ [] := by
    rintro rfl
    have hwords := blockShape_words hshape
    simp at hlen
    omega
  rw [readBlock, Op.require_bind hshape, ← hlen]
  exact Follows.after (requireRange_apply hrange) rfl (follows_readWords hc hne)

theorem follows_writeBlock {s : State} {a o n : Word} (hc : Legal s.cfg) (hshape : blockShapeOk a n = true)
    (hrange : bufRangeOk s.cfg.bufSize o n = true) :
    Follows s (writeBlock a o n) (talkWriteWords s.cfg a (wordsAt s.buf.read (n.toNat / 4) o.toNat)) () (s.counted 0) := by
  have hwords : 4 * (n.toNat / 4) = n.toNat := by
    have hshape_words := blockShape_words hshape
    omega
  have hwire := follows_writeWords (src := s.buf.read) (a := a) (o := o.toNat) (k := n.toNat / 4) hc
  rw [hwords] at hwire
  rw [writeBlock, Op.require_bind hshape]
  exact Follows.after (requireRange_apply hrange) rfl (Follows.get (fun _ => rfl) hwire)

theorem follows_readMemory {s : State} {a o n : Word} {xs : List (Piece × List Word)} (hc : Legal s.cfg)
    (hrange : bufRangeOk s.cfg.bufSize o n = true) (hx : xs.map Prod.fst = walkPieces s.cfg.blockMax a o.toNat n.toNat)
    (hf : ∀ t ∈ xs, Piece.fits t) :
    ∃ lo, Follows s (readMemory a o n) (Talk.all (xs.map (talkReadPiece s.cfg))) ()
      ((s.setBuf (xs.foldl storePiece s.buf)).setLoops lo) := by
  obtain ⟨lo, hwalk⟩ := follows_readWalk hc xs hx hf
  exact ⟨lo, Follows.after (requireRange_apply hrange) rfl hwalk⟩

theorem follows_writeMemory {s : State} {a o n : Word} (hc : Legal s.cfg)
    (hrange : bufRangeOk s.cfg.bufSize o n = true) :
    ∃ lo, Follows s (writeMemory a o n) (talkWriteBytes s.cfg s.buf.read a o.toNat n.toNat) () (s.setLoops lo) := by
  obtain ⟨lo, hwalk⟩ := follows_writeBytesFrom (src := s.buf.read) (addr := a) (off := o.toNat) (size := n.toNat) hc
  exact ⟨lo, Follows.after (requireRange_apply hrange) rfl (Follows.get (fun _ => rfl) hwalk)⟩

/-! ### Operations that complete -/

/-- Settles O30: both operations follow their dialogues on an aligned address. -/
theorem wordAccess : Obligations.WordAccess := by
  intro s a d v e rest hcfg ha
  have hc := legal_of hcfg
  exact ⟨exec_of_follows rfl (follows_readWord hc ha) fun _ => rfl,
    exec_of_follows rfl (follows_writeWord hc ha) fun _ => rfl⟩

/-- The byte in the lane of `a`, as `RES[0]` holds it (R68, R190). -/
theorem laneByte_setWidth (a d : Word) : (laneByte a d).setWidth 32 = (d >>> ((a &&& 3).toNat * 8)) &&& 0xFF :=
  setWidth_setWidth_low (k := 8) (by decide) _

/-- Settles O31: both operations follow their dialogues; the result is the byte of the lane with zeros above it. -/
theorem byteAccess : Obligations.ByteAccess := by
  intro s a d b e rest hcfg
  have hc := legal_of hcfg
  refine ⟨exec_of_follows rfl (follows_readByte hc) fun l => ?_, exec_of_follows rfl (follows_writeByte hc) fun _ => rfl⟩
  rw [byteResult, laneByte_setWidth]
  rfl

/-- Settles O32: both operations follow their dialogues when the shape and the range pass their tests. -/
theorem blockAccess : Obligations.BlockAccess := by
  intro s a o n ds e rest hcfg hshape hrange
  have hc := legal_of hcfg
  exact ⟨fun hlen => exec_of_follows rfl (follows_readBlock hc hshape hrange hlen) fun _ => rfl,
    exec_of_follows rfl (follows_writeBlock hc hshape hrange) fun _ => rfl⟩

/-- Settles O33: the walk of the reads follows its pieces. -/
theorem memoryRead : Obligations.MemoryRead := by
  intro s a o n xs e rest hcfg hrange hx hf ha
  obtain ⟨lo, hread⟩ := follows_readMemory (legal_of hcfg) hrange hx hf
  exact exists_comm.1 ⟨lo, exec_of_follows rfl hread (fun _ => rfl) ha⟩

/-- Settles O34: the walk of the writes follows its pieces. -/
theorem memoryWrite : Obligations.MemoryWrite := by
  intro s a o n e rest hcfg hrange ha
  obtain ⟨lo, hwrite⟩ := follows_writeMemory (a := a) (legal_of hcfg) hrange
  exact exists_comm.1 ⟨lo, exec_of_follows rfl hwrite (fun _ => rfl) ha⟩

/-! ### What the reads leave alone (R212) -/

/-- A read into `BUF` keeps the form of `BUF` and every byte outside its range. -/
theorem exec_read_keepsOutside {i : Instr} {body : Op Unit} {s : State} {o n : Word}
    (hexec : exec i s = .next (command body noResult (failRead o n) s)) (hr : Ranged o.toNat n.toNat body)
    (hwf : s.buf.wf = true) :
    ∃ t, exec i s = .next t ∧ t.buf.wf = true
      ∧ ∀ x, x < o.toNat ∨ o.toNat + n.toNat ≤ x → t.buf.read x = s.buf.read x := by
  obtain ⟨hform, -, houtside⟩ := command_read_range hr s hwf
  exact ⟨_, hexec, hform, houtside⟩

/-- Settles O37: both bodies write inside the range only, and so does the end of a failed read. -/
theorem readsKeepOutside : Obligations.ReadsKeepOutside := fun _ a o n hwf =>
  ⟨exec_read_keepsOutside rfl (ranged_readBlock a o n) hwf, exec_read_keepsOutside rfl (ranged_readMemory a o n) hwf⟩

/-! ### The first failing transfer (R180, R222, R232, R346) -/

/-- An instruction cut off by a transfer that does not end OK. -/
theorem exec_of_breaks {α : Type} {i : Instr} {s : State} {body : Op α} {onOk : α → State → State}
    {onFail : Cause → State → State} (hexec : exec i s = .next (command body onOk onFail s)) {tk : Talk}
    (h : BreaksAt s body tk) (hlink : ∀ t, (onFail .ack t).link = t.link) {e : List Event} {rest : List Bool}
    {x : AckResult} (hb : Broken s.cfg (tk s.link.mir).1 s.link.wire.lineIn e rest x) :
    ∃ t, exec i s = .next t ∧ t.cause = .ack ∧ CutOff s.link t.link e rest x := by
  obtain ⟨hcause, hcut⟩ := command_breaks h (onOk := onOk) (fun t => ⟨_, hlink t, rfl, rfl, rfl⟩) hb
  exact ⟨_, hexec, hcause, hcut⟩

/-- Whether a read goes wrong does not depend on the value it would have given. -/
theorem Broken.read_any {c : Cfg} {r : Req} {d : Word} (d' : Word) : ∀ {ts : List Turn} {b : List Bool} {e : List Event}
    {rest : List Bool} {x : AckResult}, Broken c (ts ++ [.read r d]) b e rest x → Broken c (ts ++ [.read r d']) b e rest x
  | [], _, _, _, _, h => .inl (Broken.single (t := .read r d) h)
  | _ :: _, _, _, _, _, .inl h => .inl h
  | _ :: _, _, _, _, _, .inr ⟨b1, e1, b2, e2, ht, hb, he, h⟩ => .inr ⟨b1, e1, b2, e2, ht, hb, he, h.read_any d'⟩

/-- The last turn of `WRITE_DEBUG_STATE` is its status read, and no other depends on the value that gives (R232). -/
theorem talkDebugState_turns (c : Cfg) (ds : Ds) (wss : List (List Word)) (m : Mirror) :
    ∃ ts, ∀ stat, (talkDebugState c ds wss stat m).1 = ts ++ [.read (reqCode false true c.dpCtrlstat) stat] :=
  ⟨_, fun _ => (List.append_assoc ..).symm⟩

/-- `WRITE_DEBUG_STATE` is cut off by its transfers whatever status its last read would have given, a sticky one too (R232). -/
theorem breaksAt_writeDebugState {s : State} {wss : List (List Word)} (stat : Word) (hc : Legal s.cfg)
    (hw : loadsReady s.cfg wss) : BreaksAt s writeDebugState (talkDebugState s.cfg (thumbDs s.cfg s.ds) wss stat) := by
  intro l e rest x hb
  obtain ⟨k, hclear, -⟩ := follows_debugState (stat := 0) hc hw
  obtain ⟨ts, hts⟩ := talkDebugState_turns s.cfg (thumbDs s.cfg s.ds) wss l.mir
  refine (hclear (by simp [stickySet])).breaks l e rest x ?_
  rw [hts] at hb ⊢
  exact hb.read_any 0

/-- However `WRITE_DEBUG_STATE` ends, it has forced xPSR and left the rest of `DS` alone (R232). -/
theorem writeDebugState_ds (s : State) : (finalState (writeDebugState s)).ds = thumbDs s.cfg s.ds := by
  rw [writeDebugState, forceThumb, Op.bind_ok _ (modifyOp_apply _ s)]
  show _ = (s.setDs (thumbDs s.cfg s.ds)).ds
  refine Within.ds (p := loopsOnly) (Keeps.bind (Keeps.get _) (fun _ => ?_) _) rfl
  exact (keeps_writeCoreRegs _ rfl _).bind fun _ => (keeps_writeWord _ _ _).bind fun _ => (keeps_readDp _ _).bind fun _ =>
    Keeps.ite _ (Keeps.throw _ _) (Keeps.pure _ _)

/-- The end of the command leaves `DS` alone. -/
theorem command_writeDebugState_ds (s : State) : (command writeDebugState noResult failRes s).ds = thumbDs s.cfg s.ds := by
  have hbody := writeDebugState_ds s.beginOp
  obtain ⟨v, t, h, hc⟩ | ⟨c, t, h, hc⟩ := command_state writeDebugState noResult failRes s
  · rw [h] at hbody
    rw [hc]
    exact hbody
  · rw [h] at hbody
    rw [hc]
    exact (settles_failRes .writeDebugState c t).ds.trans hbody

/-- Settles O38: each operation follows its dialogue and is cut off where the dialogue is. -/
theorem memoryOpsFailFirst : Obligations.MemoryOpsFailFirst := by
  intro s a v o n b ds xs ws wss e rest x hcfg
  have hc := legal_of hcfg
  have hfailRes : ∀ t, (failRes .ack t).link = t.link := fun _ => rfl
  have hfailRead : ∀ t, (failRead o n .ack t).link = t.link := fun _ => rfl
  refine ⟨?readWord, ?writeWord, ?readByte, ?writeByte, ?readBlock, ?writeBlock, ?readMemory, ?writeMemory, ?readCoreReg,
    ?writeCoreReg, ?writeDebugState⟩
  case readWord => exact fun ha => exec_of_breaks rfl (follows_readWord hc ha).breaks hfailRes
  case writeWord => exact fun ha => exec_of_breaks rfl (follows_writeWord hc ha).breaks hfailRes
  case readByte => exact exec_of_breaks rfl (follows_readByte hc).breaks hfailRes
  case writeByte => exact exec_of_breaks rfl (follows_writeByte hc).breaks hfailRes
  case readBlock =>
    exact fun hshape hrange hlen => exec_of_breaks rfl (follows_readBlock hc hshape hrange hlen).breaks hfailRead
  case writeBlock =>
    exact fun hshape hrange => exec_of_breaks rfl (follows_writeBlock hc hshape hrange).breaks hfailRes
  case readMemory =>
    intro hrange hx hf
    obtain ⟨lo, hread⟩ := follows_readMemory hc hrange hx hf
    exact exec_of_breaks rfl hread.breaks hfailRead
  case writeMemory =>
    intro hrange
    obtain ⟨lo, hwrite⟩ := follows_writeMemory (a := a) hc hrange
    exact exec_of_breaks rfl hwrite.breaks hfailRes
  case readCoreReg => exact fun hn hpolls => exec_of_breaks rfl (follows_readCoreReg hc hn hpolls).breaks hfailRes
  case writeCoreReg => exact fun hn hpolls => exec_of_breaks rfl (follows_writeCoreReg hc hn hpolls).breaks hfailRes
  case writeDebugState =>
    intro hw hb
    obtain ⟨t, hexec, hcause, hcut⟩ :=
      exec_of_breaks (i := .writeDebugState) (onOk := noResult) rfl (breaksAt_writeDebugState v hc hw) hfailRes hb
    refine ⟨t, hexec, hcause, ?_, hcut⟩
    cases hexec
    exact command_writeDebugState_ds s

/-! ### The pieces of a walk (R204, R208) -/

/-- `n` bytes from an address and a buffer offset on, ascending. -/
def byteSpan (a : Word) (o n : Nat) : List (Word × Nat) := (List.range n).map fun k => (a + BitVec.ofNat 32 k, o + k)

theorem byteSpan_add (a : Word) (o m n : Nat) :
    byteSpan a o (m + n) = byteSpan a o m ++ byteSpan (a + BitVec.ofNat 32 m) (o + m) n := by
  simp only [byteSpan, List.range_add, List.map_append, List.map_map, Function.comp_def, BitVec.ofNat_add,
    BitVec.add_assoc, Nat.add_assoc]

theorem bytePieces_bytes : ∀ (n : Nat) (a : Word) (o : Nat), (bytePieces n a o).flatMap Piece.bytes = byteSpan a o n
  | 0, _, _ => rfl
  | n + 1, a, o => by
    rw [bytePieces, List.flatMap_cons, bytePieces_bytes n, Nat.add_comm n 1, byteSpan_add]
    simp [Piece.bytes, byteSpan]

theorem block_not_mem_bytePieces (b : Word) (p k : Nat) : ∀ (n : Nat) (a : Word) (o : Nat),
    Piece.block b p k ∉ bytePieces n a o
  | 0, _, _ => List.not_mem_nil
  | n + 1, a, o => by
    rw [bytePieces, List.mem_cons, not_or]
    exact ⟨Piece.noConfusion, block_not_mem_bytePieces b p k n (a + 1) (o + 1)⟩

theorem blockPieces_zero (m fuel : Nat) (a : Word) (o : Nat) : blockPieces m fuel a o 0 = [] := by
  cases fuel <;> rfl

/-- The first block over `w` words that start aligned: whole words, not past the next multiple of the limit (R204). -/
theorem blockPieces_cons {m : Nat} (h4 : 4 ≤ m) (hp : m &&& (m - 1) = 0) {a : Word} (ha : a.toNat % 4 = 0) {w : Nat}
    (hw : 0 < w) (fuel o : Nat) : ∃ k, 1 ≤ k ∧ k ≤ w ∧ a.toNat % m + 4 * k ≤ m ∧ blockPieces m (fuel + 1) a o (4 * w) =
      .block a o k :: blockPieces m fuel (a + BitVec.ofNat 32 (4 * k)) (o + 4 * k) (4 * (w - k)) := by
  obtain ⟨q, rfl⟩ := four_dvd_pow h4 hp
  have haligned : a.toNat % (4 * q) % 4 = 0 := by rw [Nat.mod_mul_right_mod]; exact ha
  have hbelow : a.toNat % (4 * q) < 4 * q := Nat.mod_lt _ (by omega)
  obtain ⟨k, hk⟩ : 4 ∣ min (4 * w) (4 * q - a.toNat % (4 * q)) := by omega
  refine ⟨k, by omega, by omega, by omega, ?_⟩
  rw [blockPieces, if_neg (by omega), hk]
  dsimp only
  rw [Nat.mul_div_cancel_left k (by decide), ← Nat.mul_sub]

theorem aligned_add_words {a : Word} (ha : a.toNat % 4 = 0) (k : Nat) : (a + BitVec.ofNat 32 (4 * k)).toNat % 4 = 0 := by
  rw [BitVec.toNat_add, BitVec.toNat_ofNat]
  omega

/-- The blocks over `w` words cover their bytes in order (R204). -/
theorem blockPieces_bytes {m : Nat} (h4 : 4 ≤ m) (hp : m &&& (m - 1) = 0) : ∀ (fuel w : Nat) (a : Word) (o : Nat),
    w ≤ fuel → (0 < w → a.toNat % 4 = 0) → (blockPieces m fuel a o (4 * w)).flatMap Piece.bytes = byteSpan a o (4 * w)
  | fuel, 0, a, o, _, _ => by rw [Nat.mul_zero, blockPieces_zero]; rfl
  | fuel + 1, w + 1, a, o, hle, ha => by
    obtain ⟨k, hk1, hkw, -, heq⟩ := blockPieces_cons h4 hp (ha w.succ_pos) w.succ_pos fuel o
    have hrest := blockPieces_bytes h4 hp fuel (w + 1 - k) _ (o + 4 * k) (by omega)
      fun _ => aligned_add_words (ha w.succ_pos) k
    have hfirst : (Piece.block a o k).bytes = byteSpan a o (4 * k) := rfl
    rw [heq, List.flatMap_cons, hrest, hfirst, ← byteSpan_add]
    congr 1
    omega

/-- What the walk asks of a block: whole words, aligned, inside the block limit (R204, R208). -/
theorem blockPieces_inside {m : Nat} (h4 : 4 ≤ m) (hp : m &&& (m - 1) = 0) {b : Word} {p k : Nat} :
    ∀ (fuel w : Nat) (a : Word) (o : Nat), (0 < w → a.toNat % 4 = 0) → .block b p k ∈ blockPieces m fuel a o (4 * w) →
      b.toNat % 4 = 0 ∧ 1 ≤ k ∧ b.toNat % m + 4 * k ≤ m
  | fuel, 0, a, o, _, hmem => by rw [Nat.mul_zero, blockPieces_zero] at hmem; exact absurd hmem List.not_mem_nil
  | 0, _, _, _, _, hmem => absurd hmem List.not_mem_nil
  | fuel + 1, w + 1, a, o, ha, hmem => by
    obtain ⟨j, hj1, -, hjm, heq⟩ := blockPieces_cons h4 hp (ha w.succ_pos) w.succ_pos fuel o
    rw [heq, List.mem_cons] at hmem
    obtain hfirst | hrest := hmem
    · cases hfirst
      exact ⟨ha w.succ_pos, hj1, hjm⟩
    · exact blockPieces_inside h4 hp fuel (w + 1 - j) _ (o + 4 * j) (fun _ => aligned_add_words (ha w.succ_pos) j) hrest

/-- Where words are left after the leading bytes, those have led to an aligned address (R208). -/
theorem lead_aligned {a : Word} {n : Nat} (h : 0 < (n - leadCount a n) / 4) :
    (a + BitVec.ofNat 32 (leadCount a n)).toNat % 4 = 0 := by
  unfold leadCount at h ⊢
  rw [BitVec.toNat_add, BitVec.toNat_ofNat]
  omega

/-- Settles O35: leading bytes, blocks and trailing bytes each cover their part, and only the middle part has blocks. -/
theorem walkCovers : Obligations.WalkCovers := by
  intro m a o n h4 hp
  rw [walkPieces, Nat.mul_comm]
  generalize hw : (n - leadCount a n) / 4 = w
  have ha : 0 < w → (a + BitVec.ofNat 32 (leadCount a n)).toNat % 4 = 0 := fun h => lead_aligned (hw ▸ h)
  have hl : leadCount a n ≤ n := Nat.min_le_left ..
  generalize leadCount a n = l at *
  constructor
  · calc _ = byteSpan a o l ++ byteSpan (a + BitVec.ofNat 32 l) (o + l) (4 * w)
          ++ byteSpan (a + BitVec.ofNat 32 (l + 4 * w)) (o + l + 4 * w) (n - l - 4 * w) := by
          rw [List.flatMap_append, List.flatMap_append, bytePieces_bytes, bytePieces_bytes,
            blockPieces_bytes h4 hp _ _ _ _ (by omega) ha]
      _ = byteSpan a o (l + 4 * w + (n - l - 4 * w)) := by rw [byteSpan_add, byteSpan_add, Nat.add_assoc o]
      _ = byteSpan a o n := by congr 1; omega
  · intro b p k hmem
    rw [List.mem_append, List.mem_append] at hmem
    obtain (hlead | hblock) | htail := hmem
    · exact absurd hlead (block_not_mem_bytePieces b p k _ _ _)
    · exact blockPieces_inside h4 hp _ w _ _ ha hblock
    · exact absurd htail (block_not_mem_bytePieces b p k _ _ _)

/-! ### How many transfers an operation makes (R210) -/

/-- From the mirror `m` the dialogue makes `n` logical transfers and leaves the mirror `m'`. -/
structure Talk.Costs (tk : Talk) (m : Mirror) (n : Nat) (m' : Mirror) : Prop where
  count : ((tk m).1.filter Turn.isTransfer).length = n
  mirror : (tk m).2 = m'

theorem Talk.Costs.andThen {tk1 tk2 : Talk} {m m1 m2 : Mirror} {n1 n2 : Nat} (h1 : tk1.Costs m n1 m1)
    (h2 : tk2.Costs m1 n2 m2) : (tk1.andThen tk2).Costs m (n1 + n2) m2 := by
  obtain ⟨rfl, rfl⟩ := h1
  obtain ⟨rfl, rfl⟩ := h2
  exact ⟨by simp only [Talk.andThen, List.filter_append, List.length_append], rfl⟩

theorem Talk.Costs.say {ts : List Turn} (h : ∀ t ∈ ts, t.isTransfer = true) (m : Mirror) :
    (Talk.say ts).Costs m ts.length m :=
  ⟨by rw [Talk.say_apply, List.filter_eq_self.2 h], rfl⟩

/-- `SelectAP` makes one transfer unless the mirror holds the value (R159). -/
theorem costs_select (c : Cfg) {a v : Word} (ha : selectOf a = v) (m : Mirror) :
    (talkSelect c a).Costs m (if m.hasSelect v then 0 else 1) (m.holdSelect v) where
  count := by
    rw [talkSelect_turns, ha]
    cases m.hasSelect v <;> rfl
  mirror := by rw [talkSelect, talkWriteDp, if_pos rfl, ha]

theorem costs_select_held (c : Cfg) {a v : Word} {m : Mirror} (ha : selectOf a = v) (hm : m.hasSelect v = true) :
    (talkSelect c a).Costs m 0 m := by
  have hcost := costs_select c ha m
  rwa [if_pos hm, Mirror.holdSelect_of_has hm] at hcost

/-- A write of `CSW` and its drain are two transfers unless the mirror holds the value (R166). -/
theorem costs_apReg_csw {c : Cfg} {a : Word} {ap : BitVec 8} (hcsw : isCsw c a = true) (ha : apselOf a = ap) (v : Word)
    (m : Mirror) : (talkApReg c a v).Costs m (if m.hasCsw ap v then 0 else 2) (m.holdCsw ap v) := by
  obtain rfl := ha
  have htalk : talkApReg c a v m = (if m.hasCsw (apselOf a) v then [] else [.write (reqCode true false a) v, drainTurn c],
      m.holdCsw (apselOf a) v) := if_pos hcsw
  constructor
  · rw [htalk]
    cases m.hasCsw (apselOf a) v <;> rfl
  · rw [htalk]

/-- A write of another AP register and its drain are two transfers, no select being due (R159, R166). -/
theorem costs_writeAp_held {c : Cfg} {a w : Word} {m : Mirror} (hcsw : isCsw c a = false) (ha : selectOf a = w)
    (hm : m.hasSelect w = true) (v : Word) : (talkWriteAp c a v).Costs m 2 m := by
  have htalk : talkApReg c a v = Talk.say [.write (reqCode true false a) v, drainTurn c] := by
    funext m
    exact if_neg (by simp [hcsw])
  have hcost := (costs_select_held c ha hm).andThen (Talk.Costs.say
    (ts := [.write (reqCode true false a) v, drainTurn c]) (by simp [drainTurn, Turn.isTransfer]) m)
  rwa [← htalk] at hcost

/-- An AP read and its drain are two transfers, no select being due (R159, R162). -/
theorem costs_readAp_held (c : Cfg) {a w : Word} {m : Mirror} (ha : selectOf a = w) (hm : m.hasSelect w = true)
    (d : Word) : (talkReadAp c a d).Costs m 2 m :=
  (costs_select_held c ha hm).andThen (Talk.Costs.say (by simp [Turn.isTransfer]) m)

/-- The transfers of `SetMode(mode)` with the default configuration, which selects AP 0 bank 0 (R210). -/
def modeCost (m : Mirror) (mode : Word) : Nat :=
  if m.hasSelect 0 then (if m.hasCsw 0 mode then 0 else 2) else if m.hasCsw 0 mode then 1 else 3

theorem costs_setMode (mode : Word) (m : Mirror) :
    (talkWriteAp Config.default (memAp Config.default Config.default.apCsw) mode).Costs m (modeCost m mode)
      ((m.holdSelect 0).holdCsw 0 mode) := by
  have hsel : selectOf (memAp Config.default Config.default.apCsw) = 0 := by decide
  have hcsw : isCsw Config.default (memAp Config.default Config.default.apCsw) = true := by decide
  have hap : apselOf (memAp Config.default Config.default.apCsw) = 0 := by decide
  have hcost := (costs_select Config.default hsel m).andThen (costs_apReg_csw hcsw hap mode _)
  have hsum : (if m.hasSelect 0 then 0 else 1) + (if (m.holdSelect 0).hasCsw 0 mode then 0 else 2) = modeCost m mode := by
    rw [show (m.holdSelect 0).hasCsw 0 mode = m.hasCsw 0 mode from rfl, modeCost]
    cases m.hasSelect 0 <;> cases m.hasCsw 0 mode <;> rfl
  rwa [hsum] at hcost

/-- Mode and address, then a part that finds AP 0 bank 0 selected: the address is two transfers (R181, R210). -/
theorem transfers_aimed {mode a : Word} {tk : Talk} {m : Mirror} {n : Nat}
    (h : ∀ m' : Mirror, m'.hasSelect 0 = true → tk.Costs m' n m') :
    (((talkAim Config.default mode a).andThen tk m).1.filter Turn.isTransfer).length = 2 + n + modeCost m mode := by
  have hheld : ((m.holdSelect 0).holdCsw 0 mode).hasSelect 0 = true := by
    simp [Mirror.hasSelect, Mirror.holdCsw, Mirror.holdSelect]
  have haddr := costs_writeAp_held (c := Config.default) (a := memAp Config.default Config.default.apTar) (by decide)
    (by decide) hheld a
  have hall : ((talkAim Config.default mode a).andThen tk).Costs m (modeCost m mode + 2 + n) _ :=
    ((costs_setMode mode m).andThen haddr).andThen (h _ hheld)
  rw [hall.count]
  omega

/-- Every word of a block read comes with one transfer: all but the last with a read of `DRW`, the last with the drain (R196). -/
theorem postedReads_transfers (c : Cfg) : ∀ ds : List Word,
    (postedReads c ds).length = ds.length ∧ ∀ t ∈ postedReads c ds, t.isTransfer = true
  | [] => ⟨rfl, by simp [postedReads]⟩
  | [_] => ⟨rfl, by simp [postedReads, Turn.isTransfer]⟩
  | d :: d2 :: ds => by
    obtain ⟨hlen, hall⟩ := postedReads_transfers c (d2 :: ds)
    rw [postedReads_cons, List.length_cons, hlen]
    exact ⟨rfl, List.forall_mem_cons.2 ⟨rfl, hall⟩⟩

/-- The reads of a block, no select being due: one to start with and one for each word (R196). -/
theorem costs_blockReads (c : Cfg) {a w : Word} {m : Mirror} (ha : selectOf a = w) (hm : m.hasSelect w = true)
    (ds : List Word) : ((talkSelect c a).andThen
      (Talk.say (.readAny (reqCode true true c.apDrw) :: postedReads c ds))).Costs m (ds.length + 1) m := by
  obtain ⟨hlen, hall⟩ := postedReads_transfers c ds
  have hcost := (costs_select_held c ha hm).andThen (Talk.Costs.say
    (List.forall_mem_cons.2 ⟨(rfl : (Turn.readAny (reqCode true true c.apDrw)).isTransfer = true), hall⟩) m)
  rwa [List.length_cons, hlen, Nat.zero_add] at hcost

/-- The writes of a block, no select being due: one for each word, and the drain (R200). -/
theorem costs_blockWrites (c : Cfg) {a w : Word} {m : Mirror} (ha : selectOf a = w) (hm : m.hasSelect w = true)
    (ds : List Word) : ((talkSelect c a).andThen
      (Talk.say (ds.map (Turn.write (reqCode true false c.apDrw)) ++ [drainTurn c]))).Costs m (ds.length + 1) m := by
  have hall : ∀ t ∈ ds.map (Turn.write (reqCode true false c.apDrw)) ++ [drainTurn c], t.isTransfer = true :=
    List.forall_mem_append.2 ⟨List.forall_mem_map.2 fun _ _ => rfl, List.forall_mem_singleton.2 rfl⟩
  have hcost := (costs_select_held c ha hm).andThen (Talk.Costs.say hall m)
  rwa [List.length_append, List.length_map, List.length_singleton, Nat.zero_add] at hcost

/-- Settles O39: the mode by the mirror it finds, two transfers for the address, then what is read or written. -/
theorem transferCounts : Obligations.TransferCounts := by
  intro m a d b ds _
  have hcsw : isCsw Config.default (memAp Config.default Config.default.apDrw) = false := by decide
  have hsel : selectOf (memAp Config.default Config.default.apDrw) = 0 := by decide
  exact ⟨transfers_aimed fun _ hm => costs_readAp_held _ hsel hm d,
    transfers_aimed fun _ hm => costs_writeAp_held hcsw hsel hm d,
    transfers_aimed fun _ hm => costs_readAp_held _ hsel hm d,
    transfers_aimed fun _ hm => costs_writeAp_held hcsw hsel hm (laneWord a b),
    transfers_aimed fun _ hm => costs_blockReads _ hsel hm ds,
    transfers_aimed fun _ hm => costs_blockWrites _ hsel hm ds⟩

end Sys2Proof.Machine
end

/-! # Core registers (family 43_core_register): the proofs of O40, O41 and O42

The core-register operations follow their dialogues (Laws/FollowRuntime.lean), the ready polls ending or being used up. A
failure that comes after the whole dialogue has its own end of the command (`exec_of_endsInError`). -/

section
namespace Sys2Proof.Machine

/-! ### Ready polls that end (R222, R224, R228) -/

/-- Settles O40: both operations follow their dialogues; the last loop is that of the ready polls, and the value read goes to
`RES[0]`. -/
theorem coreRegisters : Obligations.CoreRegisters := by
  intro s n d v ws e rest hcfg hn hpolls
  have hc := legal_of hcfg
  exact ⟨exec_of_follows rfl (follows_readCoreReg hc hn hpolls) fun _ => rfl,
    exec_of_follows rfl (follows_writeCoreReg hc hn hpolls) fun _ => rfl⟩

/-! ### Failures at the end of a dialogue (R222, R232) -/

/-- An instruction whose body fails at the end of its dialogue, other than by a refused operand: `RES` is free (R344). -/
theorem exec_of_endsInError {α : Type} {i : Instr} {s s' : State} {body : Op α} {onOk : α → State → State}
    (hexec : exec i s = .next (command body onOk failRes s)) {tk : Talk} {c : Cause} (h : EndsAt s body tk (.error c) s')
    (hcause : c ≠ .precond) {e : List Event} {rest : List Bool}
    (ha : Answered s.cfg (tk s.link.mir).1 s.link.wire.lineIn e rest) :
    ∃ l, exec i s = .next ((s'.freeRes.setCause c).setLink l)
      ∧ Done s.link l (tk s.link.mir) e rest s.link.status.faxst c := by
  have hfree : ∀ l, failRes c (s'.setLink l) = s'.freeRes.setLink l := fun _ => if_neg hcause
  obtain ⟨l, hrun, hdone⟩ := command_error h (onOk := onOk) hfree ha
  exact ⟨l, hexec.trans (congrArg Host.Outcome.next hrun), hdone⟩

/-- An instruction whose body polls for the ready flag last and uses its cap up. -/
theorem exec_of_readyTimeout {α : Type} {i : Instr} {s : State} {body : Op α} {onOk : α → State → State}
    (hexec : exec i s = .next (command body onOk failRes s)) {tk : Talk} {ws : List Word}
    (hpolls : pollsFail s.cfg.regrdyPolls (ready s.cfg) ws)
    (h : EndsAt s body tk (.error .regrdyTimeout) (s.polled ws.length)) {e : List Event} {rest : List Bool}
    (ha : Answered s.cfg (tk s.link.mir).1 s.link.wire.lineIn e rest) :
    ∃ t, exec i s = .next t ∧ t.cause = .regrdyTimeout ∧ t.loops = s.loops.polled s.cfg.regrdyPolls
      ∧ Done s.link t.link (tk s.link.mir) e rest s.link.status.faxst .regrdyTimeout := by
  obtain ⟨-, hcap, -⟩ := hpolls
  obtain ⟨l, hrun, hdone⟩ := exec_of_endsInError hexec h (by decide) ha
  exact ⟨_, hrun, rfl, congrArg s.loops.polled hcap, hdone⟩

/-- Settles O41: both operations end with their polls, before anything else is sent. -/
theorem readyTimeouts : Obligations.ReadyTimeouts := by
  intro s n v ws e rest hcfg hn hpolls
  have hc := legal_of hcfg
  exact ⟨exec_of_readyTimeout rfl hpolls (readCoreReg_timeout hc hn hpolls),
    exec_of_readyTimeout rfl hpolls (writeCoreReg_timeout hc hn hpolls)⟩

/-! ### `WRITE_DEBUG_STATE` (R232) -/

theorem stickySet_eq_false {c : Cfg} {w : Word} :
    stickySet c w = false ↔ w.getLsbD c.stickyerr = false ∧ w.getLsbD c.wdataerr = false :=
  Bool.or_eq_false_iff

theorem stickySet_eq_true {c : Cfg} {w : Word} :
    stickySet c w = true ↔ w.getLsbD c.stickyerr = true ∨ w.getLsbD c.wdataerr = true :=
  Bool.or_eq_true_iff

/-- Settles O42: the loads, the start and the status read are one dialogue; the value read decides how the command ends. -/
theorem debugState : Obligations.DebugState := by
  intro s wss stat e rest hcfg hloads ha
  obtain ⟨k, hclear, hsticky⟩ := follows_debugState (stat := stat) (legal_of hcfg) hloads
  constructor
  · intro herr hdata
    have hbody := hclear (stickySet_eq_false.2 ⟨herr, hdata⟩)
    exact exists_comm.1 ⟨_, exec_of_follows (onOk := noResult) rfl hbody (fun _ => rfl) ha⟩
  · intro hbits
    have hbody := hsticky (stickySet_eq_true.2 hbits)
    obtain ⟨l, hrun, hdone⟩ := exec_of_endsInError (i := .writeDebugState) (onOk := noResult) rfl hbody (by decide) ha
    exact ⟨_, hrun, rfl, rfl, hdone⟩

end Sys2Proof.Machine
end

/-! # Remote calls (family 44_flash_runtime): the proofs of O43 to O46 and O48

A remote call follows its dialogue, or ends with it in a failure (Laws/FollowRuntime.lean). An operation with one judged call ends
as that call does: the lemmas `EndsAt.faUninit` to `EndsAt.faSetRdp` say so once for each, and O44 to O46 read it off. -/

section
namespace Sys2Proof.Machine

/-! ### How a command of the runtime ends (R240, R343, R344, R350) -/

section Ends

variable {α : Type} {i : Instr} {s s' : State} {body : Op α} {onFail : Cause → State → State} {f : FlashStatus} {tk : Talk}
  {e : List Event} {rest : List Bool}

theorem exec_of_flashOk (hexec : exec i s = .next (command body flashOk onFail s)) {v : α} (h : EndsAt s body tk (.ok v) s')
    (ha : Answered s.cfg (tk s.link.mir).1 s.link.wire.lineIn e rest) :
    ∃ l, exec i s = .next (((s'.setRes0 s'.ret).setCause .none).setLink l) ∧ Done s.link l (tk s.link.mir) e rest .ok .none := by
  obtain ⟨l, hrun, hdone⟩ := command_flashOk h (onFail := onFail) ha
  exact ⟨l, hexec.trans (congrArg Host.Outcome.next hrun), hdone⟩

theorem flashFailRes_setLink (c : Cause) (s : State) (l : Link) :
    flashFailRes c (s.setLink l) = (flashFailRes c s).setLink l := by
  unfold flashFailRes failRes
  split
  · rfl
  · split <;> rfl

theorem exec_of_flashError (hexec : exec i s = .next (command body flashOk (flashFail f) s)) {c : Cause}
    (h : EndsAt s body tk (.error c) s') (hc : c ≠ .unsupported)
    (ha : Answered s.cfg (tk s.link.mir).1 s.link.wire.lineIn e rest) :
    ∃ l, exec i s = .next (((flashFailRes c s').setCause c).setLink l) ∧ Done s.link l (tk s.link.mir) e rest f c := by
  obtain ⟨l, hrun, hdone⟩ := command_flashError h (onOk := flashOk) (f := f) (flashFailRes_setLink c s') ha
  rw [if_neg hc] at hdone
  exact ⟨l, hexec.trans (congrArg Host.Outcome.next hrun), hdone⟩

end Ends

/-! ### The operations with one judged call (R247, R250, R257 to R260) -/

section Judged

variable {s s' : State} {tk : Talk} {r : Except Cause Unit}

theorem EndsAt.faUninit (hv : s.fa.valid = true) (hp : s.fa.desc.uninit.present = true)
    (h : EndsAt s (judgedCall .uninit s.fa.desc.uninit.addr 0 0 0 0) tk r s') : EndsAt s faUninit tk r s' :=
  EndsAt.withFa hv (fun _ => by exact if_pos hp) h

theorem EndsAt.faEraseSector {a : Word} (hv : s.fa.valid = true)
    (h : EndsAt s (judgedCall .eraseSector s.fa.desc.eraseSector a 0 0 0) tk r s') : EndsAt s (faEraseSector a) tk r s' :=
  EndsAt.withFa hv (fun _ => rfl) h

theorem EndsAt.faEraseChip (hv : s.fa.valid = true)
    (h : EndsAt s (judgedCall .eraseChip s.fa.desc.eraseChip 0 0 0 0) tk r s') : EndsAt s faEraseChip tk r s' :=
  EndsAt.withFa hv (fun _ => rfl) h

theorem EndsAt.faVerify {a n crc : Word} (hv : s.fa.valid = true) (hp : s.fa.desc.verify.present = true)
    (h : EndsAt s (judgedCall .verify s.fa.desc.verify.addr a n crc 0) tk r s') : EndsAt s (faVerify a n crc) tk r s' :=
  EndsAt.withFa hv (fun _ => by exact if_pos hp) h

theorem EndsAt.faSetRdp (hv : s.fa.valid = true) (hp : s.fa.desc.setRdp.present = true)
    (h : EndsAt s (judgedCall .setRdp s.fa.desc.setRdp.addr 0 0 0 0) tk r s') : EndsAt s faSetRdp tk r s' :=
  EndsAt.withFa hv (fun _ => by exact if_pos hp) h

end Judged

/-! ### Calls that return (R244, R247) -/

/-- Settles O43: the remote call follows its dialogue, whatever value it returns. -/
theorem remoteCall : Obligations.RemoteCall := by
  intro s en a1 a2 a3 a4 k e rest hcfg hv hk ha
  exact exec_of_flashOk rfl (follows_faSyscall (legal_of hcfg) hv hk).ends ha

section Returned

variable {i : Instr} {s : State} {body : Op Unit} {f : FlashStatus} {x : EntryPoint} {en a1 a2 a3 a4 : Word} {k : Call}
  {e : List Event} {rest : List Bool}

/-- An instruction that ends as its judged call does, the return value accepted. -/
theorem exec_of_accepted (hexec : exec i s = .next (command body flashOk (flashFail f) s))
    (hbody : ∀ {tk r s'}, EndsAt s (judgedCall x en a1 a2 a3 a4) tk r s' → EndsAt s body tk r s')
    (hc : Legal s.cfg) (hv : s.fa.valid = true) (hk : k.good s.cfg) (hr : retOk s.cfg x k.r0 = true)
    (ha : Answered s.cfg (talkCall s.cfg (callDs s en a1 a2 a3 a4) k s.link.mir).1 s.link.wire.lineIn e rest) :
    ∃ l, exec i s = .next ((((s.called (callDs s en a1 a2 a3 a4) k).setRes0 k.r0).setCause .none).setLink l)
      ∧ Done s.link l (talkCall s.cfg (callDs s en a1 a2 a3 a4) k s.link.mir) e rest .ok .none :=
  exec_of_flashOk hexec (hbody (follows_judgedCall hc hv hk hr).ends) ha

/-- An instruction that ends as its judged call does, the return value rejected. -/
theorem exec_of_rejected (hexec : exec i s = .next (command body flashOk (flashFail f) s))
    (hbody : ∀ {tk r s'}, EndsAt s (judgedCall x en a1 a2 a3 a4) tk r s' → EndsAt s body tk r s')
    (hc : Legal s.cfg) (hv : s.fa.valid = true) (hk : k.good s.cfg) (hr : retOk s.cfg x k.r0 = false)
    (ha : Answered s.cfg (talkCall s.cfg (callDs s en a1 a2 a3 a4) k s.link.mir).1 s.link.wire.lineIn e rest) :
    ∃ t, exec i s = .next t ∧ t.cause = .retval ∧ t.ret = k.r0 ∧ t.res0 = k.r0 ∧ t.ds = callDs s en a1 a2 a3 a4
      ∧ Done s.link t.link (talkCall s.cfg (callDs s en a1 a2 a3 a4) k s.link.mir) e rest f .retval := by
  obtain ⟨l, hrun, hdone⟩ := exec_of_flashError hexec (hbody (judgedCall_retval hc hv hk hr)) (by decide) ha
  exact ⟨_, hrun, rfl, rfl, rfl, rfl, hdone⟩

end Returned

/-- Settles O44: each of the five ends as its judged call, which follows its dialogue. -/
theorem judgedCalls : Obligations.JudgedCalls := by
  intro s a n crc k e rest hcfg hv hk
  have hc := legal_of hcfg
  simp only [List.forall_mem_cons, List.not_mem_nil, false_implies, implies_true, and_true]
  exact ⟨fun hp => exec_of_accepted rfl (EndsAt.faUninit hv hp) hc hv hk,
    fun _ => exec_of_accepted rfl (EndsAt.faEraseSector hv) hc hv hk,
    fun _ => exec_of_accepted rfl (EndsAt.faEraseChip hv) hc hv hk,
    fun hp => exec_of_accepted rfl (EndsAt.faVerify hv hp) hc hv hk,
    fun hp => exec_of_accepted rfl (EndsAt.faSetRdp hv hp) hc hv hk⟩

/-- Settles O45: the value is judged after the whole call, whose results therefore stand. -/
theorem rejectedCalls : Obligations.RejectedCalls := by
  intro s a n crc k e rest hcfg hv hk
  have hc := legal_of hcfg
  simp only [List.forall_mem_cons, List.not_mem_nil, false_implies, implies_true, and_true]
  exact ⟨fun hp => exec_of_rejected rfl (EndsAt.faUninit hv hp) hc hv hk,
    fun _ => exec_of_rejected rfl (EndsAt.faEraseSector hv) hc hv hk,
    fun _ => exec_of_rejected rfl (EndsAt.faEraseChip hv) hc hv hk,
    fun hp => exec_of_rejected rfl (EndsAt.faVerify hv hp) hc hv hk,
    fun hp => exec_of_rejected rfl (EndsAt.faSetRdp hv hp) hc hv hk⟩

/-! ### Calls that fail before their harvest (R244, R246, R351) -/

section Failed

variable {α : Type} {i : Instr} {s : State} {body : Op α} {f : FlashStatus} {en a1 a2 a3 a4 : Word} {k : Call}
  {e : List Event} {rest : List Bool}

/-- An instruction that fails as its remote call does, the halt never seen. -/
theorem exec_of_haltTimeout (hexec : exec i s = .next (command body flashOk (flashFail f) s))
    (hbody : ∀ {tk c s'}, EndsAt s (faSyscall en a1 a2 a3 a4) tk (.error c) s' → EndsAt s body tk (.error c) s')
    (hc : Legal s.cfg) (hv : s.fa.valid = true) (hk : k.started s.cfg)
    (hh : pollsFail s.cfg.syscallPolls (halted s.cfg) k.halt)
    (ha : Answered s.cfg (talkStart s.cfg (callDs s en a1 a2 a3 a4) k s.link.mir).1 s.link.wire.lineIn e rest) :
    ∃ t, exec i s = .next t ∧ t.cause = .haltTimeout ∧ t.ret = s.ret ∧ t.ds = callDs s en a1 a2 a3 a4
      ∧ t.loops = s.loops.polled s.cfg.syscallPolls
      ∧ Done s.link t.link (talkStart s.cfg (callDs s en a1 a2 a3 a4) k s.link.mir) e rest f .haltTimeout := by
  obtain ⟨l, hrun, hdone⟩ := exec_of_flashError hexec (hbody (faSyscall_haltTimeout hc hv hk hh)) (by decide) ha
  obtain ⟨-, hcap, -⟩ := hh
  exact ⟨_, hrun, rfl, rfl, rfl, congrArg s.loops.polled hcap, hdone⟩

/-- An instruction that fails as its remote call does, a sticky bit set after the start. -/
theorem exec_of_sticky (hexec : exec i s = .next (command body flashOk (flashFail f) s))
    (hbody : ∀ {tk c s'}, EndsAt s (faSyscall en a1 a2 a3 a4) tk (.error c) s' → EndsAt s body tk (.error c) s')
    (hc : Legal s.cfg) (hv : s.fa.valid = true) (hw : loadsReady s.cfg k.loads) (hst : stickySet s.cfg k.stat = true)
    (ha : Answered s.cfg (talkDebugState s.cfg (callDs s en a1 a2 a3 a4) k.loads k.stat s.link.mir).1 s.link.wire.lineIn e rest) :
    ∃ t, exec i s = .next t ∧ t.cause = .sticky ∧ t.ret = s.ret ∧ t.ds = callDs s en a1 a2 a3 a4
      ∧ Done s.link t.link (talkDebugState s.cfg (callDs s en a1 a2 a3 a4) k.loads k.stat s.link.mir) e rest f .sticky := by
  obtain ⟨n, hcall⟩ := faSyscall_sticky hc hv hw hst
  obtain ⟨l, hrun, hdone⟩ := exec_of_flashError hexec (hbody hcall) (by decide) ha
  exact ⟨_, hrun, rfl, rfl, rfl, hdone⟩

end Failed

/-- Settles O46: `FA_SYSCALL` is the call itself, and `FA_ERASE_CHIP` fails where its judged call does. -/
theorem callFailures : Obligations.CallFailures := by
  intro s en a1 a2 a3 a4 k e rest hcfg hv
  have hc := legal_of hcfg
  have herase : ∀ {tk c s'}, EndsAt s (faSyscall s.fa.desc.eraseChip 0 0 0 0) tk (.error c) s' →
      EndsAt s faEraseChip tk (.error c) s' := fun h => EndsAt.faEraseChip hv (judgedCall_error h)
  simp only [List.forall_mem_cons, List.not_mem_nil, false_implies, implies_true, and_true]
  exact ⟨⟨exec_of_haltTimeout rfl id hc hv, exec_of_sticky rfl id hc hv⟩,
    exec_of_haltTimeout rfl herase hc hv, exec_of_sticky rfl herase hc hv⟩

/-! ### Absent entry points (R250, R259 to R261) -/

theorem requireFa_bind {α : Type} {s : State} (hv : s.fa.valid = true) (k : Unit → Op α) : (requireFa >>= k) s = k () s :=
  Op.bind_ok k (requireFa_apply hv s.link)

theorem faUninit_absent {s : State} (hv : s.fa.valid = true) (hp : s.fa.desc.uninit.present = false) :
    faUninit s = .ok () s := by
  rw [faUninit, requireFa_bind hv, Op.get_bind, hp]
  rfl

theorem faVerify_absent {s : State} (hv : s.fa.valid = true) (hp : s.fa.desc.verify.present = false) (a n crc : Word) :
    faVerify a n crc s = .error .unsupported s := by
  rw [faVerify, requireFa_bind hv, Op.get_bind, hp]
  rfl

theorem faSetRdp_absent {s : State} (hv : s.fa.valid = true) (hp : s.fa.desc.setRdp.present = false) :
    faSetRdp s = .error .unsupported s := by
  rw [faSetRdp, requireFa_bind hv, Op.get_bind, hp]
  rfl

section Silent

variable {α : Type} {body : Op α} {onOk : α → State → State} {onFail : Cause → State → State} {s t : State}

theorem command_of_ok {v : α} (h : body s.beginOp = .ok v t) : command body onOk onFail s = (onOk v t).endOp .none := by
  simp only [command, h]

theorem command_of_error {c : Cause} (h : body s.beginOp = .error c t) :
    command body onOk onFail s = (onFail c t).endOp c := by
  simp only [command, h]

end Silent

/-- An instruction of the runtime whose entry point is absent. -/
theorem exec_of_unsupported {i : Instr} {s : State} {body : Op Unit} {f : FlashStatus}
    (hexec : exec i s = .next (command body flashOk (flashFail f) s)) (h : body s.beginOp = .error .unsupported s.beginOp) :
    ∃ t, exec i s = .next t ∧ t.cause = .unsupported ∧ t.ret = s.ret ∧ t.ds = s.ds ∧ t.link = s.link.setStatus
      { s.link.status with fail := true, faxst := .unsupported, illegal := false, busy := false } :=
  ⟨_, hexec.trans (congrArg Host.Outcome.next (command_of_error h)), rfl, rfl, rfl, rfl⟩

/-- Settles O48: each body ends where it looks at the entry, before any transfer. -/
theorem absentEntries : Obligations.AbsentEntries := by
  intro s a n crc hv
  simp only [List.forall_mem_cons, List.not_mem_nil, false_implies, implies_true, and_true]
  exact ⟨fun hp => congrArg Host.Outcome.next (command_of_ok (faUninit_absent (s := s.beginOp) hv hp)),
    fun hp => exec_of_unsupported rfl (faVerify_absent (s := s.beginOp) hv hp a n crc),
    fun hp => exec_of_unsupported rfl (faSetRdp_absent (s := s.beginOp) hv hp)⟩

end Sys2Proof.Machine
end

/-! # Programs on the target (family 44_flash_runtime): the proofs of O49 to O52

`FA_INIT` and the chunk loop of `FA_PROGRAM_PAGE` follow their dialogues (Laws/FollowFlash.lean). What a page leaves is a fold over
its chunks, put here in closed form; that its byte count is the page's length comes from the chunks covering the page. -/

section
namespace Sys2Proof.Machine

/-! ### `FA_INIT` (R248) -/

/-- Settles O49: the operation ends with its dialogue in both cases, as the predicate judges the value. -/
theorem flashInit : Obligations.FlashInit := by
  intro s base ws k e rest hcfg hpolls hk ds tk ha
  obtain ⟨lo, hinit⟩ := faInit_ends (base := base) (legal_of hcfg) hpolls hk rfl
  constructor
  · intro hr
    rw [if_pos hr] at hinit
    obtain ⟨l, hrun, hdone⟩ := exec_of_flashOk (i := .faInit base) rfl hinit ha
    exact ⟨l, lo, hrun, hdone⟩
  · intro hr
    rw [if_neg (Bool.eq_false_iff.1 hr)] at hinit
    obtain ⟨l, hrun, hdone⟩ := exec_of_flashError (i := .faInit base) rfl hinit (by decide) ha
    exact ⟨_, hrun, rfl, rfl, rfl, rfl, rfl, hdone⟩

/-! ### The chunks of a page (R254) -/

theorem pageChunks_zero (p fuel : Nat) (a : Word) (o : Nat) : pageChunks p fuel a o 0 = [] := by
  cases fuel <;> rfl

theorem pageChunks_succ (p fuel : Nat) (a : Word) (o : Nat) {left : Nat} (h : left ≠ 0) :
    pageChunks p (fuel + 1) a o left = (a, o, min left p) ::
      pageChunks p fuel (a + BitVec.ofNat 32 (min left p)) (o + min left p) (left - min left p) :=
  if_neg h

theorem pageChunks_bytes {p : Nat} (hp : 0 < p) : ∀ (fuel : Nat) (a : Word) (o left : Nat), left ≤ fuel →
    (pageChunks p fuel a o left).flatMap (fun c => byteSpan c.1 c.2.1 c.2.2) = byteSpan a o left
  | fuel, a, o, 0, _ => by rw [pageChunks_zero]; rfl
  | fuel + 1, a, o, left + 1, h => by
    rw [pageChunks_succ p fuel a o left.succ_ne_zero, List.flatMap_cons, pageChunks_bytes hp fuel _ _ _ (by omega),
      ← byteSpan_add, Nat.add_sub_cancel' (Nat.min_le_left ..)]

theorem pageChunks_length {p : Nat} (hp : 0 < p) : ∀ (fuel : Nat) (a : Word) (o left : Nat),
    ∀ c ∈ pageChunks p fuel a o left, 0 < c.2.2 ∧ c.2.2 ≤ p
  | fuel, a, o, 0, c, hc => by rw [pageChunks_zero] at hc; exact absurd hc List.not_mem_nil
  | 0, _, _, _ + 1, _, hc => absurd hc List.not_mem_nil
  | fuel + 1, a, o, left + 1, c, hc => by
    rw [pageChunks_succ p fuel a o left.succ_ne_zero, List.mem_cons] at hc
    obtain rfl | hrest := hc
    · exact ⟨Nat.lt_min.2 ⟨left.succ_pos, hp⟩, Nat.min_le_right ..⟩
    · exact pageChunks_length hp fuel _ _ _ c hrest

theorem mem_dropLast_cons {α : Type} {x y : α} : ∀ {l : List α}, y ∈ (x :: l).dropLast → y = x ∨ y ∈ l.dropLast
  | [], h => absurd h List.not_mem_nil
  | _ :: _, h => List.mem_cons.1 h

/-- A chunk after which bytes are left is full. -/
theorem pageChunks_full (p : Nat) : ∀ (fuel : Nat) (a : Word) (o left : Nat),
    ∀ c ∈ (pageChunks p fuel a o left).dropLast, c.2.2 = p
  | fuel, a, o, 0, c, hc => by rw [pageChunks_zero] at hc; exact absurd hc List.not_mem_nil
  | 0, _, _, _ + 1, _, hc => absurd hc List.not_mem_nil
  | fuel + 1, a, o, left + 1, c, hc => by
    rw [pageChunks_succ p fuel a o left.succ_ne_zero] at hc
    by_cases hle : left + 1 ≤ p
    · rw [Nat.min_eq_left hle, Nat.sub_self, pageChunks_zero] at hc
      exact absurd hc List.not_mem_nil
    · rw [Nat.min_eq_right (by omega)] at hc
      obtain rfl | hrest := mem_dropLast_cons hc
      · rfl
      · exact pageChunks_full p fuel _ _ _ c hrest

/-- Settles O52: each chunk takes its bytes off the front, and only a last chunk is shorter than the program buffer. -/
theorem chunksCover : Obligations.ChunksCover := fun p a o n hp =>
  ⟨pageChunks_bytes hp n a o n le_rfl, pageChunks_length hp n a o n, pageChunks_full p n a o n⟩

/-- The chunks of a page have its length together. -/
theorem pageChunks_sum {p n : Nat} (hp : n = 0 ∨ 0 < p) (a : Word) (o : Nat) :
    ((pageChunks p n a o n).map (·.2.2)).sum = n := by
  obtain rfl | hp := hp
  · rfl
  · have hbytes := congrArg List.length (pageChunks_bytes hp n a o n le_rfl)
    simpa [List.length_flatMap, byteSpan] using hbytes

/-! ### `FA_PROGRAM_PAGE` (R254, R255) -/

/-- What accepted chunks leave: the last one's registers and value, and the bytes of all counted in `RES[1]`. -/
theorem foldl_chunked : ∀ (xs : List ((Word × Nat × Nat) × Call)) (s : State), xs.foldl State.chunked s =
    ((s.setDs ((xs.map fun x => pageDs s.cfg s.fa.desc x.1.1 x.1.2.2).getLastD s.ds)).setRet
      ((xs.map (·.2.r0)).getLastD s.ret)).setRes1 (s.res1 + BitVec.ofNat 32 ((xs.map (·.1.2.2)).sum))
  | [], s => by simp
  | x :: xs, s => by
    rw [List.foldl_cons, foldl_chunked xs, List.map_cons, List.map_cons, List.map_cons, List.getLastD_cons,
      List.getLastD_cons, List.sum_cons, BitVec.ofNat_add, ← BitVec.add_assoc]
    rfl

/-- A page within `BUF`, with a program buffer to fill, ends as its chunk loop does. -/
theorem EndsAt.faProgramPage {s s' : State} {a o n : Word} {tk : Talk} {r : Except Cause Unit} (hv : s.fa.valid = true)
    (hrange : bufRangeOk s.cfg.bufSize o n = true) (hn : n = 0 ∨ s.fa.desc.progBufSize ≠ 0)
    (h : EndsAt (s.setRes1 0) (programChunks n.toNat a o.toNat n.toNat) tk r s') : EndsAt s (faProgramPage a o n) tk r s' := by
  have hbuf : (n = 0 || s.fa.desc.progBufSize != 0) = true := by simpa using hn
  refine EndsAt.after (requireFa_apply hv) rfl (EndsAt.after (requireRange_apply hrange) rfl ?_)
  refine EndsAt.get (op := setRes1Op 0 >>= fun _ => programChunks n.toNat a o.toNat n.toNat)
    (fun _ => Op.require_bind hbuf _) ?_
  exact EndsAt.after (s1 := s.setRes1 0) (fun _ => rfl) rfl h

/-- Settles O50: the page ends as its chunks, all accepted, and their lengths add up to the page's. -/
theorem pageProgrammed : Obligations.PageProgrammed := by
  intro s a o n xs e rest hcfg hv hrange hn hchunks hx ha
  obtain ⟨lo, hloop⟩ := programChunks_ends (s := s.setRes1 0) (legal_of hcfg)
    (show s.fa = ⟨true, s.fa.desc⟩ by rw [← hv]) xs n.toNat a o.toNat n.toNat hx hchunks
  have hsize : n.toNat = 0 ∨ 0 < s.fa.desc.progBufSize.toNat :=
    hn.imp (congrArg BitVec.toNat) fun hp => Nat.pos_of_ne_zero fun h0 => hp (BitVec.eq_of_toNat_eq h0)
  have hsum : (xs.map (·.1.2.2)).sum = n.toNat := by
    rw [← pageChunks_sum hsize a o.toNat, ← hchunks, List.map_map]
    rfl
  have hcount : (s.setRes1 0).res1 + n = n := BitVec.zero_add n
  rw [foldl_chunked, hsum, BitVec.ofNat_toNat, BitVec.setWidth_eq, hcount] at hloop
  obtain ⟨l, hrun, hdone⟩ := exec_of_flashOk (i := .faProgramPage a o n) rfl (EndsAt.faProgramPage hv hrange hn hloop) ha
  exact ⟨l, lo, hrun, hdone⟩

/-- A page whose body ends in `F_RETVAL`: `RES[0]` is `RET` (R343), and `RES[1]` stands (R255). -/
theorem exec_of_pageRetval {s s' : State} {a o n : Word} {tk : Talk} {e : List Event} {rest : List Bool}
    (h : EndsAt s (faProgramPage a o n) tk (.error .retval) s')
    (ha : Answered s.cfg (tk s.link.mir).1 s.link.wire.lineIn e rest) :
    ∃ l, exec (.faProgramPage a o n) s = .next (((s'.setRes0 s'.ret).setCause .retval).setLink l)
      ∧ Done s.link l (tk s.link.mir) e rest .writeFailed .retval := by
  obtain ⟨l, hbody, hleaves⟩ := command_body h ha
  exact ⟨l.ended .writeFailed .retval, congrArg Host.Outcome.next (command_of_error hbody), hleaves.done _ _⟩

/-- Settles O51: the chunks before the rejected one are accepted, and its call ends the loop. -/
theorem pageRejected : Obligations.PageRejected := by
  intro s a o n xs y more e rest hcfg hv hrange hp hchunks hx hy hr ha
  obtain ⟨lo, hloop⟩ := programChunks_retval (s := s.setRes1 0) (legal_of hcfg)
    (show s.fa = ⟨true, s.fa.desc⟩ by rw [← hv]) xs y more n.toNat a o.toNat n.toNat hx hy hr hchunks
  rw [foldl_chunked] at hloop
  have hlast : Talk.all [talkChunk s.cfg s.fa.desc s.buf.read y] = talkChunk s.cfg s.fa.desc s.buf.read y :=
    Talk.andThen_say_nil _
  rw [List.map_append, Talk.all_append, List.map_singleton, hlast] at ha ⊢
  obtain ⟨l, hrun, hdone⟩ := exec_of_pageRetval (EndsAt.faProgramPage hv hrange (.inr hp) hloop) ha
  exact ⟨_, hrun, rfl, rfl, rfl, rfl, BitVec.zero_add _, hdone⟩

end Sys2Proof.Machine
end

/-! # The sector-boundary test (family 44_flash_runtime): the proof of O53

The scan passes entries as long as they start at or below the address; it stops at the entry R262 picks (`Containing`). -/

section
namespace Sys2Proof.Machine

/-! ### The entry R262 picks -/

theorem not_containing_nil {a : Word} {x : Sector} : ¬ Containing [] a x := fun ⟨_, hx, _⟩ => nomatch hx

/-- The entry picked is the first one, when the next starts above the address, or is picked from the others. -/
theorem containing_cons_iff {e x : Sector} {es : List Sector} {a : Word} : Containing (e :: es) a x ↔
    e.start ≤ a ∧ ((x = e ∧ ∀ y, es[0]? = some y → a < y.start) ∨ Containing es a x) := by
  constructor
  · rintro ⟨k, hx, hbelow, habove⟩
    refine ⟨hbelow 0 e k.zero_le rfl, ?_⟩
    cases k with
    | zero => exact .inl ⟨(Option.some.inj hx).symm, habove⟩
    | succ k => exact .inr ⟨k, hx, fun j y hj => hbelow (j + 1) y (Nat.succ_le_succ hj), habove⟩
  · rintro ⟨he, ⟨rfl, habove⟩ | ⟨k, hx, hbelow, habove⟩⟩
    · refine ⟨0, rfl, fun j y hj hy => ?_, habove⟩
      obtain rfl := Nat.le_zero.1 hj
      exact Option.some.inj hy ▸ he
    · refine ⟨k + 1, hx, fun j y hj hy => ?_, habove⟩
      cases j with
      | zero => exact Option.some.inj hy ▸ he
      | succ j => exact hbelow j y (Nat.le_of_succ_le_succ hj) hy

theorem Containing.start_le {a : Word} {x : Sector} {table : List Sector} (h : Containing table a x) : x.start ≤ a := by
  obtain ⟨k, hx, hbelow, -⟩ := h
  exact hbelow k x le_rfl hx

/-- The scan that has passed `e` picks among `e` and the entries after it. -/
theorem containing_passed {a : Word} {x : Sector} : ∀ (es : List Sector) {e : Sector}, e.start ≤ a →
    (containing (some e) es a = some x ↔ Containing (e :: es) a x)
  | [], e, he => by
    simp [containing, containing_cons_iff, not_containing_nil, he, eq_comm (a := x)]
  | f :: es, e, he => by
    rw [containing_cons_iff, containing]
    split
    next hf =>
      have hrest : ¬ Containing (f :: es) a x := fun h => BitVec.not_le.2 hf (containing_cons_iff.1 h).1
      simp [he, hf, hrest, eq_comm (a := x)]
    next hf =>
      rw [containing_passed es (BitVec.not_lt.1 hf)]
      simp [he, hf]

/-- The scan finds the entry R262 picks. -/
theorem containing_none_iff {table : List Sector} {a : Word} {x : Sector} :
    containing none table a = some x ↔ Containing table a x := by
  cases table with
  | nil => exact ⟨nofun, fun h => absurd h not_containing_nil⟩
  | cons e es =>
    rw [containing]
    split
    next he => exact ⟨nofun, fun h => absurd (containing_cons_iff.1 h).1 (BitVec.not_le.2 he)⟩
    next he => exact containing_passed es (BitVec.not_lt.1 he)

/-! ### The test (R262, R263) -/

theorem atBoundary_iff {e : Sector} {a : Word} (h : e.start ≤ a) :
    atBoundary e a = true ↔ e.size ≠ 0 ∧ (a.toNat - e.start.toNat) % e.size.toNat = 0 := by
  rw [atBoundary, Bool.and_eq_true, bne_iff_ne, decide_eq_true_iff, ← BitVec.toNat_inj (x := (a - e.start) % e.size),
    BitVec.toNat_umod, BitVec.toNat_sub_of_le h]
  rfl

theorem sectorIsBoundary_iff {table : List Sector} {a : Word} : sectorIsBoundary table a = true ↔ OnBoundary table a := by
  rw [sectorIsBoundary]
  split
  next e he =>
    have hpick := containing_none_iff.1 he
    rw [atBoundary_iff hpick.start_le]
    refine ⟨fun h => ⟨e, hpick, h⟩, fun ⟨x, hx, h⟩ => ?_⟩
    obtain rfl : e = x := Option.some.inj (he.symm.trans (containing_none_iff.2 hx))
    exact h
  next hnone =>
    refine ⟨nofun, fun ⟨x, hx, _⟩ => ?_⟩
    exact nomatch hnone.symm.trans (containing_none_iff.2 hx)

theorem faSectorIsBoundary_apply {s : State} (hv : s.fa.valid = true) (a : Word) :
    faSectorIsBoundary a s = .ok (sectorIsBoundary s.fa.desc.sect a) s := by
  rw [faSectorIsBoundary, requireFa_bind hv]
  rfl

theorem faSectorIsBoundary_refused {s : State} (hv : s.fa.valid = false) (a : Word) :
    faSectorIsBoundary a s = .error .precond s :=
  Op.bind_error _ (by rw [requireFa, Op.get_bind, require_false hv])

/-- Settles O53: the body reads the table and no more, and without a descriptor it is refused. -/
theorem sectorBoundary : Obligations.SectorBoundary := by
  intro s a
  constructor
  · intro hv
    exact ⟨_, congrArg Host.Outcome.next (command_of_ok (faSectorIsBoundary_apply (s := s.beginOp) hv a)), sectorIsBoundary_iff⟩
  · intro hv
    exact congrArg Host.Outcome.next (command_of_error (faSectorIsBoundary_refused (s := s.beginOp) hv a))

end Sys2Proof.Machine
end

/-! # The lifecycle (family 45_lifecycle): the proofs of O54 to O58

The lifecycle operations follow their dialogues (Laws/FollowFlash.lean). The one exception is step 1 of a reset-and-halt, which
catches the failure of its write (R286): `enableDebug_recovers` says what it leaves after any number of caught failures, and
the four steps after it (`resetSteps`) follow their dialogue from there. -/

section
namespace Sys2Proof.Machine

/-! ### Operations that complete (R282, R284, R286, R289 to R291) -/

/-- An instruction whose body ends with success when its dialogue is answered, whatever it does when it is not. -/
theorem exec_of_ends {α : Type} {i : Instr} {s s' s2 : State} {body : Op α} {onOk : α → State → State}
    {onFail : Cause → State → State} (hexec : exec i s = .next (command body onOk onFail s)) {tk : Talk} {v : α}
    (h : EndsAt s body tk (.ok v) s') (hok : ∀ l, onOk v (s'.setLink l) = s2.setLink l) {e : List Event} {rest : List Bool}
    (ha : Answered s.cfg (tk s.link.mir).1 s.link.wire.lineIn e rest) :
    ∃ l, exec i s = .next ((s2.setCause .none).setLink l)
      ∧ Done s.link l (tk s.link.mir) e rest s.link.status.faxst .none := by
  obtain ⟨l, hrun, hdone⟩ := command_ok h (onFail := onFail) hok ha
  exact ⟨l, hexec.trans (congrArg Host.Outcome.next hrun), hdone⟩

/-- Settles O54: both operations follow their dialogues; the identification code goes to `RES[0]`. -/
theorem connectAndPower : Obligations.ConnectAndPower := by
  intro s d ws e rest hcfg
  have hc := legal_of hcfg
  exact ⟨exec_of_follows rfl (follows_lcConnect hc) fun _ => rfl,
    fun hpolls => exec_of_follows rfl (follows_lcPowerUp hc hpolls) fun _ => rfl⟩

/-- Settles O55: the five steps end with their dialogue, whichever way step 3 resets the core. -/
theorem resetAndHalt : Obligations.ResetAndHalt := by
  intro s ws e rest hcfg hpolls
  have hc := legal_of hcfg
  exact ⟨exec_of_ends rfl (resetHaltWith_ends hc (follows_resetPulse s).ends hpolls) fun _ => rfl,
    exec_of_ends rfl (resetHaltWith_ends hc (follows_softReset hc).ends hpolls) fun _ => rfl⟩

/-- Settles O57: both operations follow their dialogues. -/
theorem haltAndRun : Obligations.HaltAndRun := by
  intro s e rest hcfg
  have hc := legal_of hcfg
  exact ⟨exec_of_follows rfl (follows_lcHalt hc) fun _ => rfl, exec_of_follows rfl (follows_lcRun hc) fun _ => rfl⟩

/-! ### The mirror after a reset pulse (R176, R285)

A pulse leaves the mirror's values and clears its valid bits. A write of a word begins with `SELECT` and `CSW`, so it does not
see the values, and it leaves the same mirror behind. -/

theorem apCsw_low_of_cfgLegal {c : Cfg} (h : cfgLegal c = true) : c.apCsw &&& 0xFFFFFF03 = 0 := by
  simp only [cfgLegal, Bool.and_eq_true, decide_eq_true_eq] at h
  simp only [h]

/-- Writing `CSW` says and leaves the same from every mirror that holds nothing. -/
theorem talkWriteAp_csw_clear {c : Cfg} {a : Word} (ha : isCsw c a = true) (v : Word) (m : Mirror) :
    talkWriteAp c a v m.clear = talkWriteAp c a v Mirror.reset := by
  simp [talkWriteAp, Talk.andThen, talkSelect, talkWriteDp, talkApReg, ha, Mirror.hasSelect, Mirror.hasCsw, Mirror.clear,
    Mirror.dropSelect, Mirror.dropCsw, Mirror.reset, Mirror.holdSelect, Mirror.holdCsw]

/-- The debug-enable write says and leaves the same from every mirror that holds nothing. -/
theorem talkEnable_clear_eq_reset {c : Cfg} (h : c.apCsw &&& 0xFFFFFF03 = 0) (m : Mirror) :
    talkEnable c m.clear = talkEnable c Mirror.reset := by
  simp only [talkEnable, talkWriteWord, talkAim, Talk.andThen, talkWriteAp_csw_clear (isCsw_memAp h)]

/-! ### Step 1 with failures caught (R286) -/

/-- The link after a reset pulse (R285). -/
def Link.pulsed (l : Link) : Link :=
  (l.setWire ((l.wire.driveReset false .resetAssert).driveReset true .resetRelease)).setMir l.mir.clear

theorem resetPulse_setLink (s : State) (l : Link) : resetPulse (s.setLink l) = .ok () (s.setLink l.pulsed) := rfl

@[simp] theorem Link.pulsed_trace (l : Link) :
    l.pulsed.wire.trace = l.wire.trace ++ [.resetAssert, .resetRelease] := List.append_assoc ..

@[simp] theorem Link.pulsed_lineIn (l : Link) : l.pulsed.wire.lineIn = l.wire.lineIn := rfl

@[simp] theorem Link.pulsed_mir (l : Link) : l.pulsed.mir = l.mir.clear := rfl

/-- The debug-enable write that fails changes nothing but the link. -/
theorem debugEnable_breaks {s : State} (hc : Legal s.cfg) {l : Link} {e : List Event} {rest : List Bool} {x : AckResult}
    (h : Broken s.cfg (talkEnable s.cfg l.mir).1 l.wire.lineIn e rest x) :
    ∃ l', debugEnable (s.setLink l) = .error .ack (s.setLink l') ∧ CutShort l l' e rest x := by
  obtain ⟨t, hrun, hcut⟩ := (follows_debugEnable hc).breaks l e rest x h
  have hkeeps := keeps_debugEnable {} (s.setLink l)
  rw [hrun] at hkeeps
  exact ⟨t.link, hrun.trans (congrArg _ hkeeps.link_only), hcut⟩

/-- With attempts left, a failed write is followed by a pulse and the next attempt. -/
theorem enableDebug_retry {s t : State} {c : Cause} (h : debugEnable s = .error c t) (n : Nat) :
    enableDebug (n + 1) s = (resetPulse >>= fun _ => enableDebug n) t := by
  simp only [enableDebug, h]

/-- Step 1 goes well after `j` failed writes: each is caught and followed by a pulse, and the write after the last one succeeds.
The mirror found, `l.mir`, may differ from `m` in values that are not valid. -/
theorem enableDebug_recovers {s : State} (hc : Legal s.cfg) (hcsw : s.cfg.apCsw &&& 0xFFFFFF03 = 0) {mid rest : List Bool}
    {e2 : List Event} {j n : Nat} (hjn : j ≤ n) {l : Link} {m : Mirror} {e1 : List Event}
    (hm : talkEnable s.cfg l.mir = talkEnable s.cfg m) (htries : EnableTries s.cfg j m l.wire.lineIn e1 mid)
    (ha : Answered s.cfg (talkEnable s.cfg (if j = 0 then m else Mirror.reset)).1 mid e2 rest) :
    ∃ l', enableDebug n (s.setLink l) = .ok () (s.setLink l') ∧ l'.wire.trace = l.wire.trace ++ (e1 ++ e2)
      ∧ l'.wire.lineIn = rest ∧ l'.mir = (talkEnable s.cfg (if j = 0 then m else Mirror.reset)).2 := by
  induction j generalizing n l m e1 with
  | zero =>
    obtain ⟨rfl, rfl⟩ := htries
    rw [if_pos rfl, ← hm] at ha ⊢
    obtain ⟨l', hrun, hleaves⟩ := enableDebug_ends hc n l e2 rest ha
    exact ⟨l', hrun, hleaves.trace, hleaves.levels, hleaves.mirror⟩
  | succ j ih =>
    obtain ⟨n, rfl⟩ := Nat.exists_eq_add_of_lt hjn
    obtain ⟨x, f1, b, f2, hbroken, rfl, hlater⟩ := htries
    rw [← hm] at hbroken
    obtain ⟨k, hfail, hcut⟩ := debugEnable_breaks hc hbroken
    rw [if_neg j.succ_ne_zero] at ha ⊢
    obtain ⟨l', hrun, htrace, hrest, hmir⟩ := ih (n := j + n) (l := k.pulsed) (Nat.le_add_right j n)
      (talkEnable_clear_eq_reset hcsw k.mir) (by rwa [Link.pulsed_lineIn, hcut.levels]) (by rwa [ite_self])
    rw [ite_self] at hmir
    refine ⟨l', ?_, ?_, hrest, hmir⟩
    · rw [enableDebug_retry hfail, Op.bind_ok _ (resetPulse_setLink s k), hrun]
    · simp only [htrace, Link.pulsed_trace, hcut.trace, List.append_assoc]

/-- Step 1 that goes well, as the commands make it. -/
theorem enableDebug_enabled {s : State} (hcfg : cfgLegal s.cfg = true) {l : Link} {e : List Event} {rest : List Bool}
    {m : Mirror} (h : Enabled s.cfg l.mir l.wire.lineIn e rest m) :
    ∃ l', enableDebug (s.cfg.debugenRetries - 1) (s.setLink l) = .ok () (s.setLink l')
      ∧ l'.wire.trace = l.wire.trace ++ e ∧ l'.wire.lineIn = rest ∧ l'.mir = m := by
  obtain ⟨j, e1, mid, e2, hj, htries, rfl, ha, rfl⟩ := h
  exact enableDebug_recovers (legal_of hcfg) (apCsw_low_of_cfgLegal hcfg) (Nat.le_sub_one_of_lt hj) rfl htries ha

/-! ### Steps 2 to 5 (R286, R291) -/

/-- Steps 2 to 5 of R286, step 3 being the given one. -/
def resetSteps (c : Cfg) (step3 : Op Unit) : Op Unit := do
  writeDemcr (bitMask c.vcCorereset)
  step3
  waitHalt
  writeDemcr 0

theorem resetHaltWith_eq (s : State) (step3 : Op Unit) :
    resetHaltWith step3 s = (enableDebug (s.cfg.debugenRetries - 1) >>= fun _ => resetSteps s.cfg step3) s := rfl

section Steps

variable {i : Instr} {s : State} {step3 : Op Unit} {tk3 : Talk} {ws : List Word} {e e2 : List Event} {mid rest : List Bool}
  {x : AckResult}

theorem follows_resetSteps (hc : Legal s.cfg) (h3 : Follows s step3 tk3 () s)
    (hpolls : pollsEnd s.cfg.haltPolls (halted s.cfg) ws) :
    Follows s (resetSteps s.cfg step3) (talkResetSteps s.cfg tk3 ws) () (s.polled ws.length) :=
  (follows_writeDemcr hc).bind rfl (h3.bind rfl ((follows_waitHalt hc hpolls).bind rfl
    (follows_writeDemcr (s := s.polled ws.length) hc)))

/-- A reset-and-halt whose step 1 goes well, with or without failures caught, completes with the dialogue of the other steps. -/
theorem exec_of_enabled (hexec : exec i s = .next (command (resetHaltWith step3) noResult failRes s))
    (h3 : Follows s step3 tk3 () s) (hcfg : cfgLegal s.cfg = true) (hpolls : pollsEnd s.cfg.haltPolls (halted s.cfg) ws)
    {m : Mirror} (hen : Enabled s.cfg s.link.mir s.link.wire.lineIn e mid m)
    (ha : Answered s.cfg (talkResetSteps s.cfg tk3 ws m).1 mid e2 rest) :
    ∃ l, exec i s = .next (((s.setLoops (s.loops.polled ws.length)).setCause .none).setLink l)
      ∧ l.wire.trace = s.link.wire.trace ++ (e ++ e2) ∧ l.wire.lineIn = rest ∧ l.status.fail = false := by
  obtain ⟨k, hstep1, htrace, rfl, rfl⟩ := enableDebug_enabled (l := s.link.begun) hcfg hen
  obtain ⟨l, hsteps, hleaves⟩ := (follows_resetSteps (legal_of hcfg) h3 hpolls).ends k e2 rest ha
  have hbody : resetHaltWith step3 s.beginOp = .ok () ((s.polled ws.length).setLink l) :=
    (resetHaltWith_eq ..).trans ((Op.bind_ok _ hstep1).trans hsteps)
  refine ⟨l.ended l.status.faxst .none, hexec.trans (congrArg Host.Outcome.next (command_of_ok hbody)), ?_,
    hleaves.levels, rfl⟩
  exact hleaves.trace.trans (by rw [htrace, List.append_assoc]; rfl)

/-- A reset-and-halt is cut off by the first failing transfer after step 1. -/
theorem exec_of_enabled_breaks (hexec : exec i s = .next (command (resetHaltWith step3) noResult failRes s))
    (h3 : Follows s step3 tk3 () s) (hcfg : cfgLegal s.cfg = true) (hpolls : pollsEnd s.cfg.haltPolls (halted s.cfg) ws)
    {m : Mirror} (hen : Enabled s.cfg s.link.mir s.link.wire.lineIn e mid m)
    (hb : Broken s.cfg (talkResetSteps s.cfg tk3 ws m).1 mid e2 rest x) :
    ∃ t, exec i s = .next t ∧ t.cause = .ack ∧ CutOff s.link t.link (e ++ e2) rest x := by
  obtain ⟨k, hstep1, htrace, rfl, rfl⟩ := enableDebug_enabled (l := s.link.begun) hcfg hen
  obtain ⟨t, hsteps, hcut⟩ := (follows_resetSteps (legal_of hcfg) h3 hpolls).breaks k e2 rest x hb
  have hbody : resetHaltWith step3 s.beginOp = .error .ack t :=
    (resetHaltWith_eq ..).trans ((Op.bind_ok _ hstep1).trans hsteps)
  have hwhole : CutShort s.link.begun t.link (e ++ e2) rest x :=
    ⟨hcut.trace.trans (by rw [htrace, List.append_assoc]), hcut.levels, hcut.result, hcut.pins⟩
  exact ⟨_, hexec.trans (congrArg Host.Outcome.next (command_of_error hbody)), rfl, hwhole.cutOff _⟩

/-- A reset-and-halt whose debug-enable write fails on every attempt ends in `F_LIFECYCLE`. -/
theorem exec_of_enableFails (hexec : exec i s = .next (command (resetHaltWith step3) noResult failRes s))
    (hcfg : cfgLegal s.cfg = true) (h : EnableFails s.cfg s.cfg.debugenRetries s.link.mir s.link.wire.lineIn e rest) :
    ∃ t, exec i s = .next t ∧ t.cause = .lifecycle ∧ t.link.status.fail = true
      ∧ t.link.wire.trace = s.link.wire.trace ++ e ∧ t.link.wire.lineIn = rest := by
  have hc := legal_of hcfg
  rw [← Nat.sub_add_cancel hc.debugen] at h
  obtain ⟨l, hstep1, htrace, hrest⟩ := enableDebug_fails hc (apCsw_low_of_cfgLegal hcfg) _ s.link.begun _ e rest rfl h
  have hbody : resetHaltWith step3 s.beginOp = .error .lifecycle (s.setLink l) :=
    (resetHaltWith_eq ..).trans (Op.bind_error _ hstep1)
  exact ⟨_, hexec.trans (congrArg Host.Outcome.next (command_of_error hbody)), rfl, rfl, htrace, hrest⟩

end Steps

/-- Settles O56: `k` failed writes and the successful one after them are a step 1 that goes well. -/
theorem enableRecovers : Obligations.EnableRecovers := by
  intro s k ws e1 e2 mid rest hcfg hk hpolls hpos htries ha
  obtain ⟨f1, b, f2, henable, rfl, hsteps⟩ := Answered.append ha
  have hen : Enabled s.cfg s.link.mir s.link.wire.lineIn (e1 ++ f1) b (talkEnable s.cfg Mirror.reset).2 := by
    refine ⟨k, e1, mid, f1, hk, htries, rfl, ?_⟩
    rw [if_neg (Nat.ne_of_gt hpos)]
    exact ⟨henable, rfl⟩
  obtain ⟨l, hrun, htrace, hrest, hfail⟩ :=
    exec_of_enabled (i := .lcResetHalt) rfl (follows_resetPulse s) hcfg hpolls hen hsteps
  exact ⟨l, hrun, by simpa only [List.append_assoc] using htrace, hrest, hfail⟩

/-! ### The failures of the lifecycle operations (R284, R286, R291, R346) -/

/-- An instruction whose body uses up a poll cap at the end of its dialogue. -/
theorem exec_of_timeout {α : Type} {i : Instr} {s s' : State} {body : Op α} {onOk : α → State → State}
    (hexec : exec i s = .next (command body onOk failRes s)) {tk : Talk} {c : Cause} (h : EndsAt s body tk (.error c) s')
    (hcause : c ≠ .precond) {e : List Event} {rest : List Bool}
    (ha : Answered s.cfg (tk s.link.mir).1 s.link.wire.lineIn e rest) :
    ∃ t, exec i s = .next t ∧ t.cause = c ∧ Done s.link t.link (tk s.link.mir) e rest s.link.status.faxst c := by
  obtain ⟨l, hrun, hdone⟩ := exec_of_endsInError hexec h hcause ha
  exact ⟨_, hrun, rfl, hdone⟩

/-- Settles O58: the two timeouts come at the end of their dialogues, the attempts of step 1 are counted, and every other
transfer belongs to an operation that follows its dialogue. -/
theorem lifecycleFailures : Obligations.LifecycleFailures := by
  intro s d ws e rest x hcfg
  have hc := legal_of hcfg
  have hpulse := follows_resetPulse s
  have hsoft := follows_softReset hc
  have hlink : ∀ t, (failRes .ack t).link = t.link := fun _ => rfl
  simp only [List.forall_mem_cons, List.not_mem_nil, false_implies, implies_true, and_true]
  refine ⟨?power, ?enable, ?halt, ?transfers, ?steps⟩
  case power => exact fun hpolls => exec_of_timeout rfl (lcPowerUp_timeout hc hpolls) (by decide)
  case enable => exact fun h => ⟨exec_of_enableFails rfl hcfg h, exec_of_enableFails rfl hcfg h⟩
  case halt =>
    exact fun hpolls => ⟨exec_of_timeout rfl (resetHaltWith_timeout hc hpulse.ends hpolls) (by decide),
      exec_of_timeout rfl (resetHaltWith_timeout hc hsoft.ends hpolls) (by decide)⟩
  case transfers =>
    exact fun hpolls => ⟨exec_of_breaks rfl (follows_lcConnect hc).breaks hlink,
      exec_of_breaks rfl (follows_lcPowerUp hc hpolls).breaks hlink, exec_of_breaks rfl (follows_lcHalt hc).breaks hlink,
      exec_of_breaks rfl (follows_lcRun hc).breaks hlink⟩
  case steps =>
    exact fun hpolls => ⟨fun _ _ _ => exec_of_enabled_breaks rfl hpulse hcfg hpolls,
      fun _ _ _ => exec_of_enabled_breaks rfl hsoft hcfg hpolls⟩

end Sys2Proof.Machine
end

/-! # Refusals, and the first failure of a register operation (family 60_exceptions): the proofs of O28 and O29

A precondition is a test at the head of an operation: it lets the operation go on in the state it found, or refuses it in that state
(`IsTest`). So an operation is refused when one of its tests fails, whatever the tests before it say. -/

section
namespace Sys2Proof.Machine

/-! ### Operations that are refused (R345) -/

/-- The operation raises `F_PRECOND` in the state it found. -/
def Refuses {α : Type} (op : Op α) (s : State) : Prop := op s = .error .precond s

/-- The operation is a test: it changes nothing, and either ends well or refuses. -/
def IsTest (op : Op Unit) : Prop := ∀ s, op s = .ok () s ∨ Refuses op s

theorem isTest_require (b : Bool) : IsTest (require b) := fun s => by
  cases b with
  | true => exact .inl (require_true rfl s)
  | false => exact .inr (require_false rfl s)

theorem isTest_requireFa : IsTest requireFa := fun s => isTest_require s.fa.valid s

theorem isTest_requireRange (o n : Word) : IsTest (requireRange o n) := fun s => isTest_require (bufRangeOk s.cfg.bufSize o n) s

section Refused

variable {α β : Type} {s : State}

theorem Refuses.bind {op : Op α} (h : Refuses op s) (k : α → Op β) : Refuses (op >>= k) s := Op.bind_error k h

/-- What is refused after a test is refused, the test holding or not. -/
theorem Refuses.afterTest {test : Op Unit} (htest : IsTest test) {k : Unit → Op α} (h : Refuses (k ()) s) :
    Refuses (test >>= k) s := by
  obtain hok | hrefused := htest s
  · exact (Op.bind_ok k hok).trans h
  · exact hrefused.bind k

theorem refuses_requireFa (h : s.fa.valid = false) : Refuses requireFa s := require_false h s

theorem refuses_writeBlock {o n : Word} (h : bufRangeOk s.cfg.bufSize o n = false) (a : Word) : Refuses (writeBlock a o n) s :=
  .afterTest (isTest_require _) (.bind (requireRange_refused h) _)

theorem refuses_writeMemory {o n : Word} (h : bufRangeOk s.cfg.bufSize o n = false) (a : Word) : Refuses (writeMemory a o n) s :=
  .bind (requireRange_refused h) _

theorem refuses_faProgramPage_range {o n : Word} (h : bufRangeOk s.cfg.bufSize o n = false) (a : Word) :
    Refuses (faProgramPage a o n) s :=
  .afterTest isTest_requireFa (.bind (requireRange_refused h) _)

/-- Without a program buffer only a page of no bytes is programmed (R254). -/
theorem refuses_faProgramPage_buffer {n : Word} (hp : s.fa.desc.progBufSize = 0) (hn : n ≠ 0) (a o : Word) :
    Refuses (faProgramPage a o n) s := by
  have htest : (n = 0 || s.fa.desc.progBufSize != 0) = false := by simpa [hp] using hn
  exact .afterTest isTest_requireFa (.afterTest (isTest_requireRange o n) (.bind (require_false htest s) _))

end Refused

/-! ### A refused command -/

section Command

variable {α : Type} {i : Instr} {s : State} {onOk : α → State → State} {onFail : Cause → State → State} {f : FlashStatus}

/-- A refused command changes `STATUS` and `CAUSE` only, when its end writes nothing but `FAXST`. -/
theorem exec_of_refuses {body : Op α} (hexec : exec i s = .next (command body onOk onFail s)) (h : Refuses body s.beginOp)
    (hend : onFail .precond s.beginOp = s.beginOp.setFaxst f) : exec i s = .next (s.refusedWith f) := by
  rw [hexec, command_of_error h, hend]
  rfl

/-- A command whose operation begins with a test that fails. -/
theorem exec_of_failedTest {b : Bool} {k : Unit → Op α} (hexec : exec i s = .next (command (require b >>= k) onOk onFail s))
    (hb : b = false) (hend : onFail .precond s.beginOp = s.beginOp.setFaxst f) : exec i s = .next (s.refusedWith f) :=
  exec_of_refuses hexec (.bind (require_false hb _) k) hend

/-- A command of the runtime without a descriptor (R241). -/
theorem exec_of_noDescriptor (hv : s.fa.valid = false) {k : Unit → Op α}
    (hexec : exec i s = .next (command (requireFa >>= k) onOk onFail s))
    (hend : onFail .precond s.beginOp = s.beginOp.setFaxst f) : exec i s = .next (s.refusedWith f) :=
  exec_of_refuses hexec (.bind (refuses_requireFa (s := s.beginOp) hv) k) hend

end Command

/-- Each instruction with a form to keep tests it first (R70, R155). -/
theorem exec_of_illFormed {i : Instr} (h : i.wellFormed = false) (s : State) :
    exec i s = .next (s.refusedWith s.link.status.faxst) := by
  cases i with
  | readDp | writeDp | readAp | writeAp | readWord | writeWord | readBlock | writeBlock | readCoreReg | writeCoreReg =>
    exact exec_of_failedTest rfl h rfl
  | _ => exact Bool.noConfusion h

/-! ### Commands without a precondition -/

theorem AckResult.cause_none_or_ack (x : AckResult) : x.cause = .none ∨ x.cause = .ack := ite_eq_or_eq ..

theorem exec_transferRetry_cause (r : Req) (w : Word) (s : State) :
    ∃ t, exec (.transferRetry r w) s = .next t ∧ (t.cause = .none ∨ t.cause = .ack) := by
  have hbody := Op.bind_ok rawTransfer (logical_apply r w s s.link.begun)
  exact ⟨_, congrArg Host.Outcome.next (command_rawTransfer hbody), AckResult.cause_none_or_ack _⟩

/-- Settles O28: for each row of R345 the test that fails, and for the operations without one how they end. -/
theorem preconditions : Obligations.Preconditions := by
  intro s
  refine ⟨fun i h => exec_of_illFormed h s, fun a o n h => ?range, fun hp a o n hn => ?buffer, fun hv a b c d f => ?descriptor,
    fun r w => ?transfers, fun d b => ?bits⟩
  case range =>
    have hrange : bufRangeOk s.beginOp.cfg.bufSize o n = false := decide_eq_false (Nat.not_le_of_lt h)
    exact ⟨exec_of_refuses rfl (readBlock_refused a hrange) rfl, exec_of_refuses rfl (refuses_writeBlock hrange a) rfl,
      exec_of_refuses rfl (readMemory_refused a hrange) rfl, exec_of_refuses rfl (refuses_writeMemory hrange a) rfl,
      exec_of_refuses rfl (refuses_faProgramPage_range hrange a) rfl⟩
  case buffer => exact exec_of_refuses rfl (refuses_faProgramPage_buffer (s := s.beginOp) hp hn a o) rfl
  case descriptor =>
    exact ⟨exec_of_noDescriptor hv rfl rfl, exec_of_noDescriptor hv rfl rfl, exec_of_noDescriptor hv rfl rfl,
      exec_of_noDescriptor hv rfl rfl, exec_of_noDescriptor hv rfl rfl, exec_of_noDescriptor hv rfl rfl,
      exec_of_noDescriptor hv rfl rfl, exec_of_noDescriptor hv rfl rfl⟩
  case transfers =>
    simp only [List.forall_mem_cons, List.not_mem_nil, false_implies, implies_true, and_true]
    exact ⟨⟨_, execTransfer_eq r w s rfl, AckResult.cause_none_or_ack _⟩, exec_transferRetry_cause r w s⟩
  case bits =>
    simp only [List.forall_mem_cons, List.not_mem_nil, false_implies, implies_true, and_true]
    exact ⟨⟨_, exec_clockPulse rfl, rfl⟩, ⟨_, exec_setDir d s, rfl⟩, ⟨_, exec_writeBit rfl, rfl⟩, ⟨_, exec_readBit rfl, rfl⟩⟩

/-! ### The first failing transfer of a register operation (R342, R346) -/

/-- Settles O29: each of the four follows its dialogue and is cut off where the dialogue is. -/
theorem registerOpsFailFirst : Obligations.RegisterOpsFailFirst := by
  intro s a v e rest x hcfg
  have hc := legal_of hcfg
  have hlink : ∀ t, (failRes .ack t).link = t.link := fun _ => rfl
  exact ⟨fun ha => exec_of_breaks rfl (follows_readDp hc ha).breaks hlink,
    fun ha => exec_of_breaks rfl (follows_writeDp hc ha).breaks hlink,
    fun ha => exec_of_breaks rfl (follows_readAp hc ha).breaks hlink,
    fun ha => exec_of_breaks rfl (follows_writeAp hc ha).breaks hlink⟩

end Sys2Proof.Machine
end

/-! # The first failure of a flash-runtime operation (family 60_exceptions): the proof of O47

`BreaksAt` says where an operation is cut off and what is then on the link; `BreaksLeaving` adds what holds of the rest of the
state there. It composes like `Follows`, so each operation of the runtime gets it from its parts. What goes well before the
dialogue that fails is run first: step 1 of `FA_INIT`, and the accepted chunks of a page (`programChunks_reaches`). -/

section
namespace Sys2Proof.Machine

/-! ### Cut off in a known state -/

/-- The state is `s` but for the link and the loop registers. -/
def SameBut (s t : State) : Prop := t = (s.setLoops t.loops).setLink t.link

theorem Within.sameBut {s t : State} (h : Within loopsOnly s t) : SameBut s t := by
  cases s; cases t
  simp only [SameBut, State.setLink, State.setLoops, State.mk.injEq, true_and]
  exact ⟨h.ds rfl, h.ret rfl, h.cmdOp, h.arg, h.res0 rfl, h.res1 rfl, h.cause, h.fa rfl, h.descIn, h.buf rfl, h.cfg, h.host,
    h.free⟩

/-- At state `s` (but for the link) the operation ends with `F_ACK` at the first turn that does not go well, in a state with `P`. -/
def BreaksLeaving {α : Type} (s : State) (op : Op α) (tk : Talk) (P : State → Prop) : Prop :=
  ∀ (l : Link) (e : List Event) (rest : List Bool) (x : AckResult), Broken s.cfg (tk l.mir).1 l.wire.lineIn e rest x →
    ∃ t, op (s.setLink l) = .error .ack t ∧ CutShort l t.link e rest x ∧ P t

section Rules

variable {α β : Type} {s s1 : State} {op : Op α} {k : α → Op β} {tk tk1 tk2 : Talk} {v : α} {P Q : State → Prop}

/-- What an operation may write says in which state it is cut off. -/
theorem BreaksAt.keeping {p : Touch} (h : BreaksAt s op tk) (hkeeps : Keeps p op) (hP : ∀ l t, Within p (s.setLink l) t → P t) :
    BreaksLeaving s op tk P := by
  intro l e rest x hb
  obtain ⟨t, hrun, hcut⟩ := h l e rest x hb
  have hw := hkeeps (s.setLink l)
  rw [hrun] at hw
  exact ⟨t, hrun, hcut, hP l t hw⟩

theorem BreaksAt.sameBut (h : BreaksAt s op tk) (hkeeps : Keeps loopsOnly op) : BreaksLeaving s op tk (SameBut s) :=
  h.keeping hkeeps fun _ _ hw => hw.sameBut

theorem BreaksLeaving.mono (h : BreaksLeaving s op tk P) (hPQ : ∀ t, P t → Q t) : BreaksLeaving s op tk Q := by
  intro l e rest x hb
  obtain ⟨t, hrun, hcut, hP⟩ := h l e rest x hb
  exact ⟨t, hrun, hcut, hPQ t hP⟩

/-- One operation and then another: either of them is cut off. -/
theorem BreaksLeaving.bind (h : BreaksLeaving s op tk1 P) (hends : EndsAt s op tk1 (.ok v) s1) (hc : s1.cfg = s.cfg)
    (h2 : BreaksLeaving s1 (k v) tk2 P) : BreaksLeaving s (op >>= k) (tk1.andThen tk2) P := by
  intro l e rest x hb
  obtain hfirst | ⟨e1, mid, e2, ha, rfl, hsecond⟩ := Broken.append hb
  · obtain ⟨t, hrun, hcut, hP⟩ := h l e rest x hfirst
    exact ⟨t, Op.bind_error k hrun, hcut, hP⟩
  · obtain ⟨l1, hrun1, hleaves⟩ := hends l e1 mid ha
    obtain ⟨t, hrun2, hcut, hP⟩ := h2 l1 e2 rest x (by rwa [hc, hleaves.levels, hleaves.mirror])
    exact ⟨t, (Op.bind_ok k hrun1).trans hrun2, hleaves.cutShort hcut, hP⟩

/-- An operation that is cut off before its follow-up. -/
theorem BreaksLeaving.before (h : BreaksLeaving s op tk P) (k : α → Op β) : BreaksLeaving s (op >>= k) tk P := by
  intro l e rest x hb
  obtain ⟨t, hrun, hcut, hP⟩ := h l e rest x hb
  exact ⟨t, Op.bind_error k hrun, hcut, hP⟩

/-- An operation that goes on as another one, with the same link, is cut off where that one is. -/
theorem BreaksLeaving.goesOn {op' : Op α} (h : ∀ l : Link, op (s.setLink l) = op' (s1.setLink l)) (hc : s1.cfg = s.cfg)
    (h2 : BreaksLeaving s1 op' tk P) : BreaksLeaving s op tk P := by
  intro l e rest x hb
  obtain ⟨t, hrun, hrest⟩ := h2 l e rest x (by rwa [hc])
  exact ⟨t, (h l).trans hrun, hrest⟩

/-- Follow-up of a silent first part. -/
theorem BreaksLeaving.after (h : ∀ l : Link, op (s.setLink l) = .ok v (s1.setLink l)) (hc : s1.cfg = s.cfg)
    (h2 : BreaksLeaving s1 (k v) tk P) : BreaksLeaving s (op >>= k) tk P :=
  .goesOn (fun l => Op.bind_ok k (h l)) hc h2

/-- A silent first part is not where an operation is cut off. -/
theorem BreaksAt.ofAfter (h : ∀ l : Link, op (s.setLink l) = .ok v (s1.setLink l)) (hc : s1.cfg = s.cfg)
    (h2 : BreaksAt s (op >>= k) tk) : BreaksAt s1 (k v) tk := by
  intro l e rest x hb
  obtain ⟨t, hrun, hcut⟩ := h2 l e rest x (by rwa [← hc])
  exact ⟨t, (Op.bind_ok k (h l)).symm.trans hrun, hcut⟩

/-- An operation that reads the state: what it does at every link of `s` is one operation. -/
theorem BreaksLeaving.get {kk : State → Op α} (h : ∀ l : Link, kk (s.setLink l) = op) (h2 : BreaksLeaving s op tk P) :
    BreaksLeaving s ((MonadState.get : Op State) >>= kk) tk P :=
  .goesOn (s1 := s) (fun l => by rw [Op.get_bind, h l]) rfl h2

/-- The part of an `FA_*` operation after its `FA.VALID` test and its look at the descriptor. -/
theorem BreaksLeaving.withFa {kk : State → Op α} (hv : s.fa.valid = true) (h : ∀ l : Link, kk (s.setLink l) = op)
    (h2 : BreaksLeaving s op tk P) : BreaksLeaving s (requireFa >>= fun _ => (MonadState.get : Op State) >>= kk) tk P :=
  .after (requireFa_apply hv) rfl (.get h h2)

/-- An instruction whose body is cut off: its failure, and the state the body left. -/
theorem exec_of_breaksLeaving {i : Instr} {onOk : α → State → State} {onFail : Cause → State → State}
    (hexec : exec i s = .next (command op onOk onFail s)) (h : BreaksLeaving s op tk P) {e : List Event} {rest : List Bool}
    {x : AckResult} (hb : Broken s.cfg (tk s.link.mir).1 s.link.wire.lineIn e rest x) :
    ∃ t, exec i s = .next ((onFail .ack t).endOp .ack) ∧ CutShort s.link.begun t.link e rest x ∧ P t := by
  obtain ⟨t, hrun, hcut, hP⟩ := h s.link.begun e rest x hb
  exact ⟨t, hexec.trans (congrArg Host.Outcome.next (command_of_error hrun)), hcut, hP⟩

end Rules

/-! ### Going on after an answered dialogue -/

/-- At state `s` (but for the link) the operation, its dialogue answered, goes on as `op'` at state `s'` (but for the link). -/
def Reaches {α : Type} (s : State) (op : Op α) (tk : Talk) (op' : Op α) (s' : State) : Prop :=
  ∀ (l : Link) (e : List Event) (rest : List Bool), Answered s.cfg (tk l.mir).1 l.wire.lineIn e rest →
    ∃ l', op (s.setLink l) = op' (s'.setLink l') ∧ Leaves l l' (tk l.mir) e rest

section GoesOn

variable {α β : Type} {s s1 s2 : State} {op op1 op2 : Op α} {tk tk1 tk2 : Talk} {P : State → Prop}

/-- An operation that runs another one and its follow-up goes on as the follow-up. -/
theorem EndsAt.reaches {x : Op β} {v : β} {k : β → Op α} (h : EndsAt s1 x tk (.ok v) s2)
    (hrun : ∀ l, op (s.setLink l) = (x >>= k) (s1.setLink l)) (hc : s1.cfg = s.cfg) : Reaches s op tk (k v) s2 := by
  intro l e rest ha
  obtain ⟨l', hx, hleaves⟩ := h l e rest (by rwa [hc])
  exact ⟨l', (hrun l).trans (Op.bind_ok k hx), hleaves⟩

theorem Reaches.trans (h1 : Reaches s op tk1 op1 s1) (hc : s1.cfg = s.cfg) (h2 : Reaches s1 op1 tk2 op2 s2) :
    Reaches s op (tk1.andThen tk2) op2 s2 := by
  intro l e rest ha
  obtain ⟨e1, mid, e2, ha1, rfl, ha2⟩ := Answered.append ha
  obtain ⟨l1, hrun1, hleaves1⟩ := h1 l e1 mid ha1
  obtain ⟨l2, hrun2, hleaves2⟩ := h2 l1 e2 rest (by rwa [hc, hleaves1.levels, hleaves1.mirror])
  rw [hleaves1.mirror] at hleaves2
  exact ⟨l2, hrun1.trans hrun2, hleaves1.trans hleaves2⟩

/-- What the operation goes on as is cut off, and so is the operation. -/
theorem Reaches.breaks (h : Reaches s op tk op1 s1) (hc : s1.cfg = s.cfg) (h1 : BreaksLeaving s1 op1 tk1 P) {l : Link}
    {e e1 : List Event} {mid rest : List Bool} {x : AckResult} (ha : Answered s.cfg (tk l.mir).1 l.wire.lineIn e mid)
    (hb : Broken s.cfg (tk1 (tk l.mir).2).1 mid e1 rest x) :
    ∃ t, op (s.setLink l) = .error .ack t ∧ CutShort l t.link (e ++ e1) rest x ∧ P t := by
  obtain ⟨l', hrun, hleaves⟩ := h l e mid ha
  obtain ⟨t, hrun1, hcut, hP⟩ := h1 l' e1 rest x (by rwa [hc, hleaves.levels, hleaves.mirror])
  exact ⟨t, hrun.trans hrun1, hleaves.cutShort hcut, hP⟩

end GoesOn

/-! ### The remote call (R232, R244) -/

/-- `WRITE_DEBUG_STATE` is cut off with xPSR forced. -/
theorem breaksLeaving_writeDebugState {s : State} {tk : Talk} (h : BreaksAt s writeDebugState tk) :
    BreaksLeaving s writeDebugState tk (SameBut (s.setDs (thumbDs s.cfg s.ds))) := by
  have hforce : ∀ l, forceThumb (s.setLink l) = .ok () ((s.setDs (thumbDs s.cfg s.ds)).setLink l) := fun _ => rfl
  refine .after hforce rfl ((h.ofAfter hforce rfl).sameBut ?_)
  exact (Keeps.get _).bind fun _ => (keeps_writeCoreRegs _ rfl _).bind fun _ => (keeps_writeWord _ _ _).bind fun _ =>
    (keeps_readDp _ _).bind fun _ => Keeps.ite _ (Keeps.throw _ _) (Keeps.pure _ _)

theorem keeps_waitCall (p : Touch) (h : p.loops = true) : Keeps p waitCall :=
  (Keeps.get p).bind fun _ => keeps_pollUntil h (keeps_readDhcsr p) _ _ _

section Call

variable {s : State} {en a1 a2 a3 a4 : Word} {k : Call}

/-- A remote call is cut off with its registers staged and, its harvest not reached, `RET` as it was. -/
theorem breaksLeaving_faSyscall (hc : Legal s.cfg) (hv : s.fa.valid = true) (hk : k.good s.cfg) :
    BreaksLeaving s (faSyscall en a1 a2 a3 a4) (talkCall s.cfg (callDs s en a1 a2 a3 a4) k)
      (SameBut (s.setDs (callDs s en a1 a2 a3 a4))) := by
  obtain ⟨hstarted, hhalt, hharvest⟩ := hk
  obtain ⟨n, hstart⟩ := follows_start (e := en) (a1 := a1) (a2 := a2) (a3 := a3) (a4 := a4) hc hstarted
  have hwait := follows_waitCall (s := (s.setDs (callDs s en a1 a2 a3 a4)).setLoops { s.loops with pollcnt := n }) hc hhalt
  have hread := follows_readCoreReg (s := (((s.setDs (callDs s en a1 a2 a3 a4)).setLoops { s.loops with pollcnt := n }).polled
    k.halt.length)) (n := 0) (d := k.r0) hc (by decide) hharvest
  rw [talkCall, talkStart, Talk.andThen_assoc]
  refine .after (requireFa_apply hv) rfl (.after (stageCall_apply en a1 a2 a3 a4 s) rfl ?_)
  refine .bind (breaksLeaving_writeDebugState hstart.breaks) hstart.ends rfl ?_
  refine .bind (hwait.breaks.sameBut (keeps_waitCall _ rfl)) hwait.ends rfl ?_
  exact (hread.breaks.sameBut (keeps_readCoreReg _ rfl 0)).before _

/-- A judged call is cut off where its call is (R346). -/
theorem breaksLeaving_judgedCall (x : EntryPoint) (hc : Legal s.cfg) (hv : s.fa.valid = true) (hk : k.good s.cfg) :
    BreaksLeaving s (judgedCall x en a1 a2 a3 a4) (talkCall s.cfg (callDs s en a1 a2 a3 a4) k)
      (SameBut (s.setDs (callDs s en a1 a2 a3 a4))) :=
  (breaksLeaving_faSyscall hc hv hk).before _

/-- An instruction that is cut off as its remote call is. -/
theorem exec_of_callBreaks {α : Type} {i : Instr} {body : Op α} {f : FlashStatus} {e : List Event} {rest : List Bool}
    {x : AckResult} (hexec : exec i s = .next (command body flashOk (flashFail f) s))
    (h : BreaksLeaving s body (talkCall s.cfg (callDs s en a1 a2 a3 a4) k) (SameBut (s.setDs (callDs s en a1 a2 a3 a4))))
    (hb : Broken s.cfg (talkCall s.cfg (callDs s en a1 a2 a3 a4) k s.link.mir).1 s.link.wire.lineIn e rest x) :
    ∃ t, exec i s = .next t ∧ t.cause = .ack ∧ t.ret = s.ret ∧ t.ds = callDs s en a1 a2 a3 a4 ∧ t.link.status.faxst = f
      ∧ CutOff s.link t.link e rest x := by
  obtain ⟨t, hrun, hcut, hsame⟩ := exec_of_breaksLeaving hexec h hb
  exact ⟨_, hrun, rfl, (congrArg State.ret hsame :), (congrArg State.ds hsame :), rfl, hcut.cutOff f⟩

end Call

/-! ### Before a call has returned -/

/-- From `s` on no call has returned and no chunk has been counted: descriptor, `RET` and `RES[1]` are as in `s`. -/
structure NotReturned (s t : State) : Prop where
  fa : t.fa = s.fa
  ret : t.ret = s.ret
  res1 : t.res1 = s.res1

theorem NotReturned.ofLoops {s t : State} {lo : Loops} (h : NotReturned (s.setLoops lo) t) : NotReturned s t :=
  ⟨h.fa, h.ret, h.res1⟩

theorem SameBut.notReturned {s t : State} {d : Ds} (h : SameBut (s.setDs d) t) : NotReturned s t :=
  ⟨(congrArg State.fa h :), (congrArg State.ret h :), (congrArg State.res1 h :)⟩

/-- What an operation between the calls may write: the loop registers and the reset pin. -/
abbrev loopsAndPulse : Touch := { loops := true, pulse := true }

theorem BreaksAt.notReturned {α : Type} {s : State} {op : Op α} {tk : Talk} (h : BreaksAt s op tk)
    (hkeeps : Keeps loopsAndPulse op) : BreaksLeaving s op tk (NotReturned s) :=
  h.keeping hkeeps fun _ _ hw => ⟨hw.fa rfl, hw.ret rfl, hw.res1 rfl⟩

/-! ### `FA_INIT` (R248, R286) -/

/-- Step 3 of the reset-and-halt that `FA_INIT` makes (R295). -/
def initStep3 (c : Cfg) : Op Unit := if c.softReset = true then softReset else resetPulse

/-- `FA_INIT` after its reset-and-halt. -/
def initTail (base : Word) : Op Unit := do
  downloadCode
  let s ← get
  judgedCall .init s.fa.desc.init base 0 0 0

/-- The dialogue of that step. -/
def talkInitStep3 (c : Cfg) : Talk := if c.softReset then talkSoftReset c else talkPulse

/-- The dialogue of the download and the call. -/
def talkInitTail (c : Cfg) (f : Descriptor) (base : Word) (k : Call) : Talk :=
  (talkWriteBytes c f.codeByte f.codeAddr 0 f.codeSize.toNat).andThen (talkCall c (stagedDs c f f.init base 0 0 0) k)

theorem resetHalt_eq (s : State) :
    resetHalt s = (enableDebug (s.cfg.debugenRetries - 1) >>= fun _ => resetSteps s.cfg (initStep3 s.cfg)) s := by
  rw [resetHalt, Op.get_bind, initStep3]
  split <;> exact resetHaltWith_eq s _

/-- `FA_INIT` latches the descriptor and tries step 1; the rest is steps 2 to 5, the download and the call. -/
theorem faInit_eq (base : Word) (s : State) : faInit base s =
    (enableDebug (s.cfg.debugenRetries - 1) >>= fun _ => resetSteps s.cfg (initStep3 s.cfg) >>= fun _ => initTail base)
      (s.setFa ⟨true, s.descIn⟩) := by
  show (resetHalt >>= fun _ => initTail base) (s.setFa ⟨true, s.descIn⟩) = _
  rw [Op.bind_apply, resetHalt_eq, ← Op.bind_apply, bind_assoc]
  rfl

section Init

variable {s : State} {base : Word} {k : Call} {ws : List Word} {e e2 : List Event} {mid rest : List Bool} {x : AckResult}

theorem follows_initStep3 (hc : Legal s.cfg) :
    Follows s (initStep3 s.cfg) (talkInitStep3 s.cfg) () s := by
  unfold initStep3 talkInitStep3
  split
  · exact follows_softReset hc
  · exact follows_resetPulse s

theorem keeps_initSteps (c : Cfg) : Keeps loopsAndPulse (resetSteps c (initStep3 c)) :=
  (keeps_writeDemcr _ _).bind fun _ => (Keeps.ite _ (keeps_softReset _) (keeps_resetPulse _ rfl)).bind fun _ =>
    (keeps_waitHalt _ rfl).bind fun _ => keeps_writeDemcr _ 0

/-- The download and the call, cut off. -/
theorem breaksLeaving_initTail (hc : Legal s.cfg) (hv : s.fa.valid = true) (hk : k.good s.cfg) :
    BreaksLeaving s (initTail base) (talkInitTail s.cfg s.fa.desc base k) (NotReturned s) := by
  obtain ⟨lo, hload⟩ := follows_download hc
  have hkeeps : Keeps loopsAndPulse downloadCode := (Keeps.get _).bind fun _ => keeps_writeBytesFrom _ rfl _ _ _ _
  refine .bind (hload.breaks.notReturned hkeeps) hload.ends rfl
    (.get (op := judgedCall .init s.fa.desc.init base 0 0 0) (fun _ => rfl) ?_)
  exact (breaksLeaving_judgedCall (s := s.setLoops lo) .init hc hv hk).mono fun _ h => h.notReturned.ofLoops

/-- Steps 2 to 5, the download and the call, cut off. -/
theorem breaksLeaving_afterEnable (hc : Legal s.cfg) (hv : s.fa.valid = true) (hk : k.good s.cfg)
    (hpolls : pollsEnd s.cfg.haltPolls (halted s.cfg) ws) :
    BreaksLeaving s (resetSteps s.cfg (initStep3 s.cfg) >>= fun _ => initTail base)
      ((talkResetSteps s.cfg (talkInitStep3 s.cfg) ws).andThen (talkInitTail s.cfg s.fa.desc base k)) (NotReturned s) := by
  have hsteps := follows_resetSteps hc (follows_initStep3 hc) hpolls
  exact .bind (hsteps.breaks.notReturned (keeps_initSteps s.cfg)) hsteps.ends rfl
    ((breaksLeaving_initTail (s := s.polled ws.length) hc hv hk).mono fun _ h => h.ofLoops)

/-- Step 1 fails on every attempt: the failure is not one of the writes but of the lifecycle. -/
theorem exec_faInit_of_enableFails (hcfg : cfgLegal s.cfg = true)
    (h : EnableFails s.cfg s.cfg.debugenRetries s.link.mir s.link.wire.lineIn e rest) :
    ∃ t, exec (.faInit base) s = .next t ∧ t.cause = .lifecycle ∧ t.fa = ⟨true, s.descIn⟩ ∧ t.ret = s.ret
      ∧ t.link.status.faxst = .initFailed ∧ t.link.status.fail = true
      ∧ t.link.wire.trace = s.link.wire.trace ++ e ∧ t.link.wire.lineIn = rest := by
  have hc := legal_of hcfg
  rw [← Nat.sub_add_cancel hc.debugen] at h
  obtain ⟨l, hstep1, htrace, hrest⟩ := enableDebug_fails (s := s.setFa ⟨true, s.descIn⟩) hc (apCsw_low_of_cfgLegal hcfg) _
    s.link.begun _ e rest rfl h
  have hbody : faInit base s.beginOp = .error .lifecycle ((s.setFa ⟨true, s.descIn⟩).setLink l) :=
    (faInit_eq ..).trans (Op.bind_error _ hstep1)
  exact ⟨_, congrArg Host.Outcome.next (command_of_error hbody), rfl, rfl, rfl, rfl, rfl, htrace, hrest⟩

/-- A transfer after step 1 fails. -/
theorem exec_faInit_of_enabled_breaks (hcfg : cfgLegal s.cfg = true) (hk : k.good s.cfg)
    (hpolls : pollsEnd s.cfg.haltPolls (halted s.cfg) ws) {m : Mirror}
    (hen : Enabled s.cfg s.link.mir s.link.wire.lineIn e mid m)
    (hb : Broken s.cfg ((talkResetSteps s.cfg (talkInitStep3 s.cfg) ws).andThen (talkInitTail s.cfg s.descIn base k) m).1
      mid e2 rest x) :
    ∃ t, exec (.faInit base) s = .next t ∧ t.cause = .ack ∧ t.fa = ⟨true, s.descIn⟩ ∧ t.ret = s.ret
      ∧ t.link.status.faxst = .initFailed ∧ CutOff s.link t.link (e ++ e2) rest x := by
  obtain ⟨l, hstep1, htrace, rfl, rfl⟩ :=
    enableDebug_enabled (s := s.setFa ⟨true, s.descIn⟩) (l := s.link.begun) hcfg hen
  obtain ⟨t, hlater, hcut, hleft⟩ := breaksLeaving_afterEnable (s := s.setFa ⟨true, s.descIn⟩) (legal_of hcfg) rfl hk hpolls
    l e2 rest x hb
  have hbody : faInit base s.beginOp = .error .ack t := (faInit_eq ..).trans ((Op.bind_ok _ hstep1).trans hlater)
  have hwhole : CutShort s.link.begun t.link (e ++ e2) rest x :=
    ⟨hcut.trace.trans (by rw [htrace, List.append_assoc]), hcut.levels, hcut.result, hcut.pins⟩
  exact ⟨_, congrArg Host.Outcome.next (command_of_error hbody), rfl, hleft.fa, hleft.ret, rfl, hwhole.cutOff _⟩

end Init

/-! ### `FA_PROGRAM_PAGE` (R254, R255) -/

section Page

variable {s : State}

/-- The chunk loop with a chunk to come: the chunk, then the loop over the chunks after it. -/
theorem programChunks_cons {fuel : Nat} {a : Word} {o left : Nat} {z : Word × Nat × Nat} {zs : List (Word × Nat × Nat)}
    (h : pageChunks s.fa.desc.progBufSize.toNat fuel a o left = z :: zs) :
    ∃ fuel' a' o' left' lo, pageChunks s.fa.desc.progBufSize.toNat fuel' a' o' left' = zs
      ∧ ∀ l, programChunks fuel a o left (s.setLink l) =
        (programChunk z.1 z.2.1 z.2.2 >>= fun _ => programChunks fuel' a' o' left') ((s.setLoops lo).setLink l) := by
  cases fuel with
  | zero => exact nomatch h
  | succ fuel =>
    have hleft : left ≠ 0 := by
      rintro rfl
      exact nomatch (pageChunks_zero ..).symm.trans h
    rw [pageChunks_succ _ _ _ _ hleft, List.cons.injEq] at h
    obtain ⟨rfl, rfl⟩ := h
    obtain ⟨lo, hcursor⟩ := setCursor_after s a o left
    refine ⟨_, _, _, _, lo, rfl, fun l => ?_⟩
    rw [programChunks_succ _ _ _ _ hleft, Op.get_bind, Op.bind_ok _ (hcursor l)]
    rfl

/-- The loop registers do not matter to what the chunks leave. -/
theorem foldl_chunked_setLoops (xs : List ((Word × Nat × Nat) × Call)) (s : State) (lo : Loops) :
    xs.foldl State.chunked (s.setLoops lo) = (xs.foldl State.chunked s).setLoops lo := by
  rw [foldl_chunked, foldl_chunked]
  rfl

/-- The accepted chunks `xs`: the loop goes on with the chunks after them. -/
theorem programChunks_reaches {xs : List ((Word × Nat × Nat) × Call)} {ys : List (Word × Nat × Nat)} {fuel : Nat} {a : Word}
    {o left : Nat} (hc : Legal s.cfg) (hv : s.fa.valid = true)
    (hx : ∀ x ∈ xs, x.2.good s.cfg ∧ retOk s.cfg .programPage x.2.r0 = true)
    (hp : pageChunks s.fa.desc.progBufSize.toNat fuel a o left = xs.map Prod.fst ++ ys) :
    ∃ fuel' a' o' left' lo, pageChunks s.fa.desc.progBufSize.toNat fuel' a' o' left' = ys
      ∧ Reaches s (programChunks fuel a o left) (Talk.all (xs.map (talkChunk s.cfg s.fa.desc s.buf.read)))
        (programChunks fuel' a' o' left') ((xs.foldl State.chunked s).setLoops lo) := by
  induction xs generalizing s fuel a o left with
  | nil =>
    have hnone := (Follows.pure s ()).ends.reaches (k := fun _ => programChunks fuel a o left) (fun _ => rfl) rfl
    exact ⟨fuel, a, o, left, s.loops, hp, hnone⟩
  | cons x xs ih =>
    obtain ⟨hx1, hxs⟩ := List.forall_mem_cons.1 hx
    obtain ⟨fuel1, a1, o1, left1, lo1, hp1, hrun⟩ := programChunks_cons hp
    obtain ⟨lo2, hchunk⟩ := follows_programChunk (s := s.setLoops lo1) hc hv hx1.1 hx1.2
    obtain ⟨fuel', a', o', left', lo3, hp', hlater⟩ := ih (s := (s.chunked x).setLoops lo2) hc hv hxs hp1
    rw [foldl_chunked_setLoops] at hlater
    exact ⟨fuel', a', o', left', lo3, hp', (hchunk.ends.reaches hrun rfl).trans rfl hlater⟩

theorem follows_writeMemoryFrom {a : Word} {o n : Nat} (hc : Legal s.cfg) :
    ∃ lo, Follows s (writeMemoryFrom a o n) (talkWriteBytes s.cfg s.buf.read a o n) () (s.setLoops lo) := by
  obtain ⟨lo, h⟩ := follows_writeBytesFrom (s := s) (src := s.buf.read) (addr := a) (off := o) (size := n) hc
  exact ⟨lo, Follows.get (fun _ => rfl) h⟩

theorem keeps_writeMemoryFrom (p : Touch) (h : p.loops = true) (a : Word) (o n : Nat) : Keeps p (writeMemoryFrom a o n) :=
  (Keeps.get p).bind fun _ => keeps_writeBytesFrom p h _ _ _ _

/-- A chunk is cut off before its call has returned. -/
theorem breaksLeaving_programChunk {y : (Word × Nat × Nat) × Call} (hc : Legal s.cfg) (hv : s.fa.valid = true)
    (hy : y.2.good s.cfg) : BreaksLeaving s (programChunk y.1.1 y.1.2.1 y.1.2.2) (talkChunk s.cfg s.fa.desc s.buf.read y)
      (NotReturned s) := by
  obtain ⟨lo, hload⟩ := follows_writeMemoryFrom (a := s.fa.desc.progBuf) (o := y.1.2.1) (n := y.1.2.2) hc
  refine .get (op := writeMemoryFrom s.fa.desc.progBuf y.1.2.1 y.1.2.2 >>= fun _ =>
    judgedCall .programPage s.fa.desc.programPage y.1.1 (BitVec.ofNat 32 y.1.2.2) s.fa.desc.progBuf 0 >>= fun _ =>
      modifyOp (fun t => t.setRes1 (t.res1 + BitVec.ofNat 32 y.1.2.2))) (fun _ => rfl) ?_
  refine .bind (hload.breaks.notReturned (keeps_writeMemoryFrom _ rfl _ _ _)) hload.ends rfl (.before ?_ _)
  exact (breaksLeaving_judgedCall (s := s.setLoops lo) .programPage hc hv hy).mono fun _ h => h.notReturned.ofLoops

/-- The chunk loop, its next chunk cut off. -/
theorem breaksLeaving_programChunks {y : (Word × Nat × Nat) × Call} {more : List (Word × Nat × Nat)} {fuel : Nat} {a : Word}
    {o left : Nat} (hc : Legal s.cfg) (hv : s.fa.valid = true) (hy : y.2.good s.cfg)
    (hp : pageChunks s.fa.desc.progBufSize.toNat fuel a o left = y.1 :: more) :
    BreaksLeaving s (programChunks fuel a o left) (talkChunk s.cfg s.fa.desc s.buf.read y) (NotReturned s) := by
  obtain ⟨fuel', a', o', left', lo, -, hrun⟩ := programChunks_cons hp
  refine .goesOn (s1 := s.setLoops lo) hrun rfl (.before ?_ _)
  exact (breaksLeaving_programChunk (s := s.setLoops lo) hc hv hy).mono fun _ h => h.ofLoops

theorem faProgramPage_apply {a o n : Word} (hv : s.fa.valid = true) (hrange : bufRangeOk s.cfg.bufSize o n = true)
    (hbuf : s.fa.desc.progBufSize ≠ 0) (l : Link) :
    faProgramPage a o n (s.setLink l) = programChunks n.toNat a o.toNat n.toNat ((s.setRes1 0).setLink l) := by
  have htest : (n = 0 || s.fa.desc.progBufSize != 0) = true := by simpa using .inr hbuf
  rw [faProgramPage, Op.bind_ok _ (requireFa_apply hv l), Op.bind_ok _ (requireRange_apply hrange l), Op.get_bind,
    State.setLink_fa, Op.require_bind htest]
  rfl

/-- The end of a failed page writes `RES[0]` and `FAXST` only, and may take a free value for it (R255, log 11). -/
theorem pageFail_eq (c : Cause) (s : State) : ∃ v n, pageFail c s = ((s.setRes0 v).setFree n).setFaxst .writeFailed := by
  unfold pageFail pageFailRes
  split
  · exact ⟨s.res0, s.free, rfl⟩
  · split
    · exact ⟨s.ret, s.free, rfl⟩
    · exact ⟨Config.freeWord s.free, s.free + 2, rfl⟩

/-- A page with the chunks `xs` accepted and the next one cut off. -/
theorem exec_faProgramPage_of_breaks {a o n : Word} {xs : List ((Word × Nat × Nat) × Call)} {y : (Word × Nat × Nat) × Call}
    {more : List (Word × Nat × Nat)} {e e2 : List Event} {mid rest : List Bool} {x : AckResult} (hc : Legal s.cfg)
    (hv : s.fa.valid = true) (hrange : bufRangeOk s.cfg.bufSize o n = true) (hbuf : s.fa.desc.progBufSize ≠ 0)
    (hp : pageChunks s.fa.desc.progBufSize.toNat n.toNat a o.toNat n.toNat = xs.map Prod.fst ++ y.1 :: more)
    (hx : ∀ x ∈ xs, x.2.good s.cfg ∧ retOk s.cfg .programPage x.2.r0 = true) (hy : y.2.good s.cfg)
    (ha : Answered s.cfg (Talk.all (xs.map (talkChunk s.cfg s.fa.desc s.buf.read)) s.link.mir).1 s.link.wire.lineIn e mid)
    (hb : Broken s.cfg (talkChunk s.cfg s.fa.desc s.buf.read y
      (Talk.all (xs.map (talkChunk s.cfg s.fa.desc s.buf.read)) s.link.mir).2).1 mid e2 rest x) :
    ∃ t, exec (.faProgramPage a o n) s = .next t ∧ t.cause = .ack ∧ t.ret = (xs.map (·.2.r0)).getLastD s.ret
      ∧ t.res1 = BitVec.ofNat 32 ((xs.map (fun x => x.1.2.2)).sum) ∧ t.link.status.faxst = .writeFailed
      ∧ CutOff s.link t.link (e ++ e2) rest x := by
  obtain ⟨fuel', a', o', left', lo, hp', hreach⟩ := programChunks_reaches (s := s.setRes1 0) hc hv hx hp
  rw [foldl_chunked] at hreach
  obtain ⟨t, hrun, hcut, hleft⟩ := hreach.breaks rfl (breaksLeaving_programChunks hc hv hy hp') (l := s.link.begun) ha hb
  have hbody : faProgramPage a o n s.beginOp = .error .ack t := (faProgramPage_apply hv hrange hbuf _).trans hrun
  obtain ⟨v, m, hend⟩ := pageFail_eq .ack t
  refine ⟨_, congrArg Host.Outcome.next (command_of_error hbody), ?_⟩
  rw [hend]
  exact ⟨rfl, hleft.ret, hleft.res1.trans (BitVec.zero_add _), rfl, hcut.cutOff .writeFailed⟩

end Page

/-- Settles O47: each call is cut off in its one dialogue, `FA_INIT` in step 1 or in what follows it, the page in the chunk after
the accepted ones. -/
theorem callsFailFirst : Obligations.CallsFailFirst := by
  intro s en a1 a2 a3 a4 k e rest x hcfg
  have hc := legal_of hcfg
  refine ⟨fun hv hk => ?calls, exec_faInit_of_enableFails hcfg,
    fun ws e2 mid m hpolls hk => exec_faInit_of_enabled_breaks hcfg hk hpolls,
    fun o n xs y more e2 mid hv hrange hbuf hp hx hy => exec_faProgramPage_of_breaks hc hv hrange hbuf hp hx hy⟩
  case calls =>
    simp only [List.forall_mem_cons, List.not_mem_nil, false_implies, implies_true, and_true]
    exact ⟨fun _ => exec_of_callBreaks rfl (breaksLeaving_faSyscall hc hv hk),
      fun hp => exec_of_callBreaks rfl (.withFa hv (fun _ => by exact if_pos hp) (breaksLeaving_judgedCall .uninit hc hv hk)),
      fun _ => exec_of_callBreaks rfl (.withFa hv (fun _ => rfl) (breaksLeaving_judgedCall .eraseSector hc hv hk)),
      fun _ => exec_of_callBreaks rfl (.withFa hv (fun _ => rfl) (breaksLeaving_judgedCall .eraseChip hc hv hk)),
      fun hp => exec_of_callBreaks rfl (.withFa hv (fun _ => by exact if_pos hp) (breaksLeaving_judgedCall .verify hc hv hk)),
      fun hp => exec_of_callBreaks rfl (.withFa hv (fun _ => by exact if_pos hp) (breaksLeaving_judgedCall .setRdp hc hv hk))⟩

end Sys2Proof.Machine
end

/-! # The hardware reset (family 70_reset_and_hazards): the proof of O10

The reset sets OB-SWD's own state to the values of R44, which `resetValues` states of `State.reset`; the coming levels, the host's
queue and the sizes of the buffers are not among them. -/

section
namespace Sys2Proof.Machine

/-- An asserted `RESET` is the whole step, at every phase (R380). -/
theorem step_of_reset {s : State} {rest : List HostAction} (h : s.host = .assertReset :: rest) :
    step s = .next (s.hardReset rest) := by
  rw [step_eq, fetch_of_reset h]
  rfl

/-- Settles O10: the values of R44 are those of the state after reset (`resetValues`), and what stays is copied. -/
theorem hardwareReset : Obligations.HardwareReset := by
  intro s rest h
  obtain ⟨line, trace, op, arg, res0, res1, phase, bitcnt, shift, par, acksr, retrycnt, loops, status, cause, select, csw, fa, _⟩ :=
    resetValues
  have levels : (s.hardReset rest).link.wire.lineIn = s.link.wire.lineIn := rfl
  have queue : (s.hardReset rest).host = rest := rfl
  have config : (s.hardReset rest).cfg =
      { Config.default with bufSize := s.cfg.bufSize, sectorMax := s.cfg.sectorMax } := rfl
  exact ⟨s.hardReset rest, step_of_reset h, line, trace, levels, queue, op, arg, res0, res1, phase, bitcnt, shift, par, acksr,
    retrycnt, loops, status, cause, select, csw, fa, config⟩

end Sys2Proof.Machine
end
